-- ==== Sys2Proof/Word.lean ====
section
/-! DEFINITION. The word types of QRCORE: the 8-bit unit of every memory (10_state R46 to R49) and the 32-bit
register and bus word (00_scope R9). -/

namespace Sys2Proof

/-- One byte of a local memory, one field element, one codeword. -/
abbrev Byte := BitVec 8

/-- One register, command or bus word. -/
abbrev Word := BitVec 32

end Sys2Proof
end

