-- ==== Sys2Proof/Syntax.lean ====
section
/-! DEFINITION. The commands of QRCORE (30_encoding R83), one constructor per row of the opcode table, in the
table's order. Each operand has exactly the width of its field (30_encoding R81), so a field cannot hold a value
that does not fit (R82). -/

namespace Sys2Proof

/-- A command. The fields of a constructor are the operand fields of its format, in the order the assembler
writes them (30_encoding R88). -/
inductive Instr where
  | nop
  | gfExp (a : Byte)
  | gfLog (a : Byte)
  | gfMul (a b : Byte)
  | gfDiv (a b : Byte)
  | rsGenpoly (n : Byte)
  | rsEncode (k n : Byte)
  | bchFormat (e : BitVec 2) (m : BitVec 3)
  | bchVersion (v : BitVec 6)
  | modeSelect
  | versionSelect
  | pack
  | pad
  | queryEcc (v : BitVec 6) (e : BitVec 2)
  | queryCap (v : BitVec 6) (md : BitVec 4) (e : BitVec 2)
  | queryAlign (v : BitVec 6)
  | interleave
  | placeFunction
  | placeData
  | maskScore (m : BitVec 3)
  | maskEval
  | maskApply (m : BitVec 3)
  | writeInfo (m : BitVec 3)
  | quietZone
  | serialize
  | deserialize
  | generate
  deriving DecidableEq, Repr

end Sys2Proof
end

