-- ==== Sys2Proof/WellFormed.lean ====
section
/-! DEFINITION. The assembler's view of a command (30_encoding R81, R88): an opcode and a list of plain numbers,
and the two checks an assembly line must pass: the number of operands is the format's, and each operand fits its
field ("An operand that does not fit its field is an assembly error; the assembler never truncates"). An `Instr`
passes them by construction; `Asm` is where a line can be ill-formed. -/

namespace Sys2Proof

/-- The 27 mnemonics of 30_encoding R83. -/
inductive Opcode where
  | nop | gfExp | gfLog | gfMul | gfDiv
  | rsGenpoly | rsEncode
  | bchFormat | bchVersion
  | modeSelect | versionSelect | pack | pad
  | queryEcc | queryCap | queryAlign
  | interleave
  | placeFunction | placeData
  | maskScore | maskEval | maskApply | writeInfo
  | quietZone | serialize | deserialize
  | generate
  deriving DecidableEq, Repr

/-- The value of `OP`, bits 31:24 of the command word (30_encoding R83). -/
def Opcode.code : Opcode → Byte
  | .nop => 0x00
  | .gfExp => 0x01
  | .gfLog => 0x02
  | .gfMul => 0x03
  | .gfDiv => 0x04
  | .rsGenpoly => 0x10
  | .rsEncode => 0x11
  | .bchFormat => 0x20
  | .bchVersion => 0x21
  | .modeSelect => 0x30
  | .versionSelect => 0x31
  | .pack => 0x32
  | .pad => 0x33
  | .queryEcc => 0x34
  | .queryCap => 0x35
  | .queryAlign => 0x36
  | .interleave => 0x38
  | .placeFunction => 0x40
  | .placeData => 0x41
  | .maskScore => 0x50
  | .maskEval => 0x51
  | .maskApply => 0x52
  | .writeInfo => 0x53
  | .quietZone => 0x60
  | .serialize => 0x61
  | .deserialize => 0x62
  | .generate => 0x70

/-- The nine formats of 30_encoding R81. -/
inductive Format where
  | N | B8 | AB | FM | V6 | M3 | QE | QC | QV
  deriving DecidableEq, Repr

/-- One operand field of a format: its lowest bit and its width. -/
structure Field where
  lo : Nat
  width : Nat
  deriving DecidableEq, Repr

/-- The operand fields of a format in the assembler's order (30_encoding R81, R88). -/
def Format.fields : Format → List Field
  | .N => []
  | .B8 => [⟨0, 8⟩]
  | .AB => [⟨8, 8⟩, ⟨0, 8⟩]
  | .FM => [⟨3, 2⟩, ⟨0, 3⟩]
  | .V6 => [⟨0, 6⟩]
  | .M3 => [⟨0, 3⟩]
  | .QE => [⟨8, 6⟩, ⟨0, 2⟩]
  | .QC => [⟨8, 6⟩, ⟨4, 4⟩, ⟨0, 2⟩]
  | .QV => [⟨8, 6⟩]

/-- The format of each command (30_encoding R83). -/
def Opcode.format : Opcode → Format
  | .nop | .modeSelect | .versionSelect | .pack | .pad | .interleave | .placeFunction | .placeData | .maskEval
  | .quietZone | .serialize | .deserialize | .generate => .N
  | .gfExp | .gfLog | .rsGenpoly => .B8
  | .gfMul | .gfDiv | .rsEncode => .AB
  | .bchFormat => .FM
  | .bchVersion => .V6
  | .maskScore | .maskApply | .writeInfo => .M3
  | .queryEcc => .QE
  | .queryCap => .QC
  | .queryAlign => .QV

/-- The match column of 30_encoding R83: the opcode at bits 31:24. -/
def Opcode.matchValue (o : Opcode) : Word := o.code.setWidth 32 <<< 24

/-- The mask column of 30_encoding R83: every bit that is not in an operand field of the format. -/
def Opcode.mask (o : Opcode) : Word :=
  o.format.fields.foldl (fun w f => w &&& ~~~(BitVec.ofNat 32 (2 ^ f.width - 1) <<< f.lo)) (0xFFFFFFFF#32)

/-- One command line of a host program as the assembler reads it: a mnemonic and plain numbers (30_encoding R88). -/
structure Asm where
  op : Opcode
  args : List Nat
  deriving DecidableEq, Repr

/-- The line has as many operands as its format (30_encoding R88). -/
def Asm.arityOk (l : Asm) : Bool := l.args.length == l.op.format.fields.length

/-- Every operand fits its field (30_encoding R88). -/
def Asm.operandsFit (l : Asm) : Bool := (l.args.zip l.op.format.fields).all fun (a, f) => decide (a < 2 ^ f.width)

/-- A well-formed line is one the assembler accepts. -/
def Asm.wellFormed (l : Asm) : Bool := l.arityOk && l.operandsFit

/-- The word a line assembles to: the opcode at bits 31:24 and each operand at its field (30_encoding R88);
nothing for an assembly error. -/
def Asm.assemble (l : Asm) : Option Word :=
  if l.wellFormed then
    some ((l.args.zip l.op.format.fields).foldl (fun w (a, f) => w ||| (BitVec.ofNat 32 a <<< f.lo)) l.op.matchValue)
  else none

/-- The assembly line of a command. -/
def Instr.asm : Instr → Asm
  | .nop => ⟨.nop, []⟩
  | .gfExp a => ⟨.gfExp, [a.toNat]⟩
  | .gfLog a => ⟨.gfLog, [a.toNat]⟩
  | .gfMul a b => ⟨.gfMul, [a.toNat, b.toNat]⟩
  | .gfDiv a b => ⟨.gfDiv, [a.toNat, b.toNat]⟩
  | .rsGenpoly n => ⟨.rsGenpoly, [n.toNat]⟩
  | .rsEncode k n => ⟨.rsEncode, [k.toNat, n.toNat]⟩
  | .bchFormat e m => ⟨.bchFormat, [e.toNat, m.toNat]⟩
  | .bchVersion v => ⟨.bchVersion, [v.toNat]⟩
  | .modeSelect => ⟨.modeSelect, []⟩
  | .versionSelect => ⟨.versionSelect, []⟩
  | .pack => ⟨.pack, []⟩
  | .pad => ⟨.pad, []⟩
  | .queryEcc v e => ⟨.queryEcc, [v.toNat, e.toNat]⟩
  | .queryCap v md e => ⟨.queryCap, [v.toNat, md.toNat, e.toNat]⟩
  | .queryAlign v => ⟨.queryAlign, [v.toNat]⟩
  | .interleave => ⟨.interleave, []⟩
  | .placeFunction => ⟨.placeFunction, []⟩
  | .placeData => ⟨.placeData, []⟩
  | .maskScore m => ⟨.maskScore, [m.toNat]⟩
  | .maskEval => ⟨.maskEval, []⟩
  | .maskApply m => ⟨.maskApply, [m.toNat]⟩
  | .writeInfo m => ⟨.writeInfo, [m.toNat]⟩
  | .quietZone => ⟨.quietZone, []⟩
  | .serialize => ⟨.serialize, []⟩
  | .deserialize => ⟨.deserialize, []⟩
  | .generate => ⟨.generate, []⟩

/-- A command is well-formed when its assembly line is; every `Instr` is (its operands have their fields' widths). -/
def Instr.wellFormed (i : Instr) : Bool := i.asm.wellFormed

/-- The opcode of a command. -/
def Instr.opcode (i : Instr) : Opcode := i.asm.op

end Sys2Proof
end

