-- ==== Sys2Proof/Decode.lean ====
section
/-! DEFINITION. The decoder of command words, total on all 32-bit words (30_encoding R80 to R86), and the encoder.
A word whose opcode is not in the table, or with a reserved bit set, is rejected by name (R85). -/

namespace Sys2Proof

/-- Why a word is illegal (30_encoding R85). Either makes the command complete with `ERR_ILLEGAL_CMD`. -/
inductive DecodeError where
  /-- `OP` is not in the table of R83. -/
  | unassignedOpcode (op : Byte)
  /-- A reserved-zero bit of the opcode's format is 1. -/
  | reservedBits
  deriving DecidableEq, Repr

/-- The `len`-bit field of a word whose lowest bit is `lo` (00_scope R11). -/
def fieldAt (w : Word) (lo len : Nat) : BitVec len := w.extractLsb' lo len

/-- Reject a word unless its reserved bits are all 0 (30_encoding R80, R85). -/
def whenZero (reserved : Bool) (i : Instr) : Except DecodeError Instr :=
  if reserved then .ok i else .error .reservedBits

/-- Format `N`: bits 23:0 reserved. -/
def decodeN (w : Word) (i : Instr) : Except DecodeError Instr :=
  whenZero (fieldAt w 0 24 == 0) i

/-- Format `B8`: `a` in 7:0, bits 23:8 reserved. -/
def decodeB8 (w : Word) (f : Byte → Instr) : Except DecodeError Instr :=
  whenZero (fieldAt w 8 16 == 0) (f (fieldAt w 0 8))

/-- Format `AB`: `a` in 15:8, `b` in 7:0, bits 23:16 reserved. -/
def decodeAB (w : Word) (f : Byte → Byte → Instr) : Except DecodeError Instr :=
  whenZero (fieldAt w 16 8 == 0) (f (fieldAt w 8 8) (fieldAt w 0 8))

/-- Format `FM`: `e` in 4:3, `m` in 2:0, bits 23:5 reserved. -/
def decodeFM (w : Word) (f : BitVec 2 → BitVec 3 → Instr) : Except DecodeError Instr :=
  whenZero (fieldAt w 5 19 == 0) (f (fieldAt w 3 2) (fieldAt w 0 3))

/-- Format `V6`: `v` in 5:0, bits 23:6 reserved. -/
def decodeV6 (w : Word) (f : BitVec 6 → Instr) : Except DecodeError Instr :=
  whenZero (fieldAt w 6 18 == 0) (f (fieldAt w 0 6))

/-- Format `M3`: `m` in 2:0, bits 23:3 reserved. -/
def decodeM3 (w : Word) (f : BitVec 3 → Instr) : Except DecodeError Instr :=
  whenZero (fieldAt w 3 21 == 0) (f (fieldAt w 0 3))

/-- Format `QE`: `v` in 13:8, `e` in 1:0, bits 23:14 and 7:2 reserved. -/
def decodeQE (w : Word) (f : BitVec 6 → BitVec 2 → Instr) : Except DecodeError Instr :=
  whenZero (fieldAt w 14 10 == 0 && fieldAt w 2 6 == 0) (f (fieldAt w 8 6) (fieldAt w 0 2))

/-- Format `QC`: `v` in 13:8, `md` in 7:4, `e` in 1:0, bits 23:14 and 3:2 reserved. -/
def decodeQC (w : Word) (f : BitVec 6 → BitVec 4 → BitVec 2 → Instr) : Except DecodeError Instr :=
  whenZero (fieldAt w 14 10 == 0 && fieldAt w 2 2 == 0) (f (fieldAt w 8 6) (fieldAt w 4 4) (fieldAt w 0 2))

/-- Format `QV`: `v` in 13:8, bits 23:14 and 7:0 reserved. -/
def decodeQV (w : Word) (f : BitVec 6 → Instr) : Except DecodeError Instr :=
  whenZero (fieldAt w 14 10 == 0 && fieldAt w 0 8 == 0) (f (fieldAt w 8 6))

/-- The command a word stands for, or why it is illegal (30_encoding R83, R85). -/
def decode (w : Word) : Except DecodeError Instr :=
  match (fieldAt w 24 8).toNat with
  | 0x00 => decodeN w .nop
  | 0x01 => decodeB8 w .gfExp
  | 0x02 => decodeB8 w .gfLog
  | 0x03 => decodeAB w .gfMul
  | 0x04 => decodeAB w .gfDiv
  | 0x10 => decodeB8 w .rsGenpoly
  | 0x11 => decodeAB w .rsEncode
  | 0x20 => decodeFM w .bchFormat
  | 0x21 => decodeV6 w .bchVersion
  | 0x30 => decodeN w .modeSelect
  | 0x31 => decodeN w .versionSelect
  | 0x32 => decodeN w .pack
  | 0x33 => decodeN w .pad
  | 0x34 => decodeQE w .queryEcc
  | 0x35 => decodeQC w .queryCap
  | 0x36 => decodeQV w .queryAlign
  | 0x38 => decodeN w .interleave
  | 0x40 => decodeN w .placeFunction
  | 0x41 => decodeN w .placeData
  | 0x50 => decodeM3 w .maskScore
  | 0x51 => decodeN w .maskEval
  | 0x52 => decodeM3 w .maskApply
  | 0x53 => decodeM3 w .writeInfo
  | 0x60 => decodeN w .quietZone
  | 0x61 => decodeN w .serialize
  | 0x62 => decodeN w .deserialize
  | 0x70 => decodeN w .generate
  | _ => .error (.unassignedOpcode (fieldAt w 24 8))

/-- A value at a field of a word: its lowest bit at bit `lo` (00_scope R11). -/
def putField {n : Nat} (x : BitVec n) (lo : Nat) : Word := x.setWidth 32 <<< lo

/-- The word of a command: `OP` at bits 31:24, then each operand at its field (30_encoding R81, R83, R88). -/
def encode : Instr → Word
  | .nop => putField 0x00#8 24
  | .gfExp a => putField 0x01#8 24 ||| putField a 0
  | .gfLog a => putField 0x02#8 24 ||| putField a 0
  | .gfMul a b => putField 0x03#8 24 ||| putField a 8 ||| putField b 0
  | .gfDiv a b => putField 0x04#8 24 ||| putField a 8 ||| putField b 0
  | .rsGenpoly n => putField 0x10#8 24 ||| putField n 0
  | .rsEncode k n => putField 0x11#8 24 ||| putField k 8 ||| putField n 0
  | .bchFormat e m => putField 0x20#8 24 ||| putField e 3 ||| putField m 0
  | .bchVersion v => putField 0x21#8 24 ||| putField v 0
  | .modeSelect => putField 0x30#8 24
  | .versionSelect => putField 0x31#8 24
  | .pack => putField 0x32#8 24
  | .pad => putField 0x33#8 24
  | .queryEcc v e => putField 0x34#8 24 ||| putField v 8 ||| putField e 0
  | .queryCap v md e => putField 0x35#8 24 ||| putField v 8 ||| putField md 4 ||| putField e 0
  | .queryAlign v => putField 0x36#8 24 ||| putField v 8
  | .interleave => putField 0x38#8 24
  | .placeFunction => putField 0x40#8 24
  | .placeData => putField 0x41#8 24
  | .maskScore m => putField 0x50#8 24 ||| putField m 0
  | .maskEval => putField 0x51#8 24
  | .maskApply m => putField 0x52#8 24 ||| putField m 0
  | .writeInfo m => putField 0x53#8 24 ||| putField m 0
  | .quietZone => putField 0x60#8 24
  | .serialize => putField 0x61#8 24
  | .deserialize => putField 0x62#8 24
  | .generate => putField 0x70#8 24

/-- The host's question: the command of an instruction whose bits are `w`, of which the table gives `nbits`; the
bits above are 0. A command is one 32-bit word (30_encoding R80). -/
def decodeTableWord (nbits w : Nat) : Option Instr :=
  (decode (BitVec.ofNat 32 (w % 2 ^ nbits))).toOption

end Sys2Proof
end

