-- ==== Sys2Proof/Config.lean ====
section
/-! DEFINITION. What an implementation or the environment fixes and the spec leaves open: constants with no body, so
that no proof can see a value of theirs. The ROM tables, which the spec gives, stand in Machine/Rom.lean. -/

namespace Sys2Proof

/-- The four local memories (10_state R46 to R49). -/
inductive Region where
  | inp | cwm | mtx | out
  deriving DecidableEq, Repr

/-- The byte a memory holds at an offset after power-on reset: any value (70_reset_and_hazards R340, 93 G20; log 1). -/
opaque Config.powerOnByte : Region → Nat → Byte

/-- The `n`-th free byte of an aborted command, by memory and offset: any value (70_reset_and_hazards R341, 93 G21; log 8). -/
opaque Config.freeByte : Nat → Region → Nat → Byte

/-- The `n`-th free word, read from a register while a command runs: any value (70_reset_and_hazards R353, 93 G22; log 5). -/
opaque Config.freeWord : Nat → Word

/-- The block's window is the `windowIndex`-th megabyte of the host's address space (00_scope R10, 20_memory R61; log 11). -/
opaque Config.windowIndex : Nat

/-- `QRCORE_BASE`, a multiple of 0x100000 (20_memory R61). -/
def Config.qrcoreBase : Nat := Config.windowIndex * 0x100000

end Sys2Proof
end

