-- ==== Sys2Proof/Machine/State.lean ====
section
/-! DEFINITION. The state of QRCORE as plain data, the reasons a step can stop, and the state after power-on reset.
Each register field has exactly the implemented bits of its register: the bits the spec reserves have no storage, so
they read 0 and ignore writes (10_state R52; log 13). -/

namespace Sys2Proof.Machine

/-- What the offsets a memory does not list hold. -/
inductive Blank where
  /-- 0: a command has cleared the whole memory (45_placement R230, 47_output R281, R289). -/
  | zero
  /-- Nothing has written them since power-on: the unspecified contents of this memory (70_reset_and_hazards R340). -/
  | powerOn (r : Region)
  deriving DecidableEq, Repr

/-- A local memory: the bytes written since it was last blank, addresses strictly rising, and what every other
offset holds (log 1, log 2). -/
structure Memory where
  blank : Blank
  cells : List Host.Cell
  deriving DecidableEq, Repr

/-- `CTRL` (10_state R22). -/
structure Ctrl where
  ecc : BitVec 2
  forceByte : Bool
  eciEn : Bool
  irqEn : Bool
  reqVersion : BitVec 6
  eciDesignator : BitVec 8
  deriving DecidableEq, Repr

/-- `STATUS` (10_state R30). -/
structure Status where
  busy : Bool
  done : Bool
  err : Bool
  overrun : Bool
  qz : Bool
  errcode : BitVec 8
  deriving DecidableEq, Repr

/-- `ERRINFO0` (`ecc`, `mode`, `fixed`) and `ERRINFO1` (`cap`) (10_state R39, 60_exceptions R314). -/
structure ErrInfo where
  ecc : BitVec 2
  mode : BitVec 4
  fixed : BitVec 6
  cap : BitVec 16
  deriving DecidableEq, Repr

/-- The registers of 10_state R20 other than `ID` (hardwired), `CMD` (no storage) and `STATUS`. -/
structure Regs where
  ctrl : Ctrl
  arg0 : BitVec 13
  arg1 : BitVec 13
  inlen : BitVec 14
  outlen : BitVec 14
  res0 : Word
  res1 : Word
  res2 : Word
  res3 : Word
  version : BitVec 6
  mode : BitVec 4
  bitlen : BitVec 16
  mask : BitVec 3
  format : BitVec 15
  verinfo : BitVec 18
  side : BitVec 8
  dcw : BitVec 12
  totcw : BitVec 12
  rembits : BitVec 3
  pen : Vector Word 8
  errinfo : ErrInfo
  deriving DecidableEq, Repr

/-- What the sequencer latched at the start of the command it runs or last ran (10_state R50, 70_reset_and_hazards R351). -/
structure Latch where
  word : Word
  ctrl : Ctrl
  arg0 : BitVec 13
  arg1 : BitVec 13
  inlen : BitVec 14
  outlen : BitVec 14
  deriving DecidableEq, Repr

/-- The width of a bus access (20_memory R60). -/
inductive Width where
  | byte | half | word
  deriving DecidableEq, Repr

/-- One host access, at an offset of the block's 1 MiB window (20_memory R60). The data of a narrow write are the low
bits of `data` (20_memory R65). -/
inductive BusOp where
  | read (w : Width) (offset : BitVec 20)
  | write (w : Width) (offset : BitVec 20) (data : Word)
  deriving DecidableEq, Repr

/-- What happens next at the block: a host access, or the sequencer finishes the command it runs. The order of the two
is the host's timing and `CMD_LATENCY`, which the spec leaves open (70_reset_and_hazards R355; log 3). -/
inductive BusEvent where
  | access (op : BusOp)
  | sequencer
  deriving DecidableEq, Repr

/-- The whole machine. `bus`, `rdata` and `free` are the model's own (logs 3, 10, 5): the events to come, oldest first;
the data of the last host read; the number of free values used so far. -/
structure State where
  regs : Regs
  status : Status
  latch : Latch
  inp : Memory
  cwm : Memory
  mtx : Memory
  out : Memory
  bus : List BusEvent
  rdata : Word
  free : Nat
  deriving DecidableEq, Repr

/-- Why the machine stops with a fault. Both are faults of the host agent, not of the block. -/
inductive Fault where
  /-- Raised by a host access that 20_memory R62, R63 or R64 forbids (width, alignment, unmapped offset). Safe: the spec
  says the faulted state is never final. -/
  | busError
  /-- Raised by a host access to `IN`, `CWM`, `MTX` or `OUT` while `STATUS.BUSY = 1` (70_reset_and_hazards R352, 93 G23).
  Safe: the spec guarantees nothing to such a host. -/
  | memoryHazard
  deriving DecidableEq, Repr

/-- Why the machine refuses an instruction. No instruction of this model is refused. -/
inductive Refusal where
  /-- Raised by an arm of exec whose instruction has no meaning yet; none is left. Safe: nothing is claimed of it. -/
  | notModelled (mnemonic : String)
  deriving DecidableEq, Repr

/-- `CTRL` after reset (10_state R22). -/
def Ctrl.reset : Ctrl :=
  { ecc := 0, forceByte := false, eciEn := false, irqEn := false, reqVersion := 0, eciDesignator := 0 }

/-- `STATUS` after reset (10_state R30). -/
def Status.reset : Status :=
  { busy := false, done := false, err := false, overrun := false, qz := false, errcode := 0 }

/-- The registers after reset (10_state R53). -/
def Regs.reset : Regs :=
  { ctrl := Ctrl.reset
    arg0 := 0
    arg1 := 0
    inlen := 0
    outlen := 0
    res0 := 0
    res1 := 0
    res2 := 0
    res3 := 0
    version := 0
    mode := 0
    bitlen := 0
    mask := 0
    format := 0
    verinfo := 0
    side := 0
    dcw := 0
    totcw := 0
    rembits := 0
    pen := Vector.replicate 8 0
    errinfo := { ecc := 0, mode := 0, fixed := 0, cap := 0 } }

/-- The idle sequencer's latch (DESIGN CHOICE, log 9: the spec gives no value and nothing reads it while idle). -/
def Latch.reset : Latch := { word := 0, ctrl := Ctrl.reset, arg0 := 0, arg1 := 0, inlen := 0, outlen := 0 }

/-- A memory nothing has written since power-on. -/
def Memory.unwritten (r : Region) : Memory := { blank := .powerOn r, cells := [] }

/-- The machine right after power-on reset (70_reset_and_hazards R340). -/
def State.reset : State :=
  { regs := Regs.reset
    status := Status.reset
    latch := Latch.reset
    inp := Memory.unwritten .inp
    cwm := Memory.unwritten .cwm
    mtx := Memory.unwritten .mtx
    out := Memory.unwritten .out
    bus := []
    rdata := 0
    free := 0 }

end Sys2Proof.Machine
end

