-- ==== Sys2Proof/Machine/Flags.lean ====
section
/-! DEFINITION. The flags of QRCORE are the `STATUS` bits (10_state R51). This file holds the error codes, what a
command's start and its two completions do to `STATUS`, the write-1-to-clear rule, the interrupt output, and the
32-bit forms of `CTRL`, `STATUS`, `ERRINFO0` and `ERRINFO1`. -/

namespace Sys2Proof.Machine

/-- The errors a command can end in (60_exceptions R312). -/
inductive CmdError where
  | illegalCmd
  | arg
  | sequence
  /-- `ERR_CAPACITY(e, m, fixed, cap)` with its diagnostics (60_exceptions R314). -/
  | capacity (info : ErrInfo)
  | overflow
  | malformed
  | domain
  deriving DecidableEq, Repr

/-- The error codes of 60_exceptions R312. -/
def CmdError.code : CmdError → BitVec 8
  | .illegalCmd => 0x01
  | .arg => 0x02
  | .sequence => 0x03
  | .capacity _ => 0x04
  | .overflow => 0x05
  | .malformed => 0x06
  | .domain => 0x07

/-- `STATUS` when a command starts (70_reset_and_hazards R351). -/
def Status.started (st : Status) : Status := { st with busy := true, done := false }

/-- `STATUS` when a command completes without error (60_exceptions R310). -/
def Status.completed (st : Status) : Status := { st with err := false, errcode := 0, busy := false, done := true }

/-- `STATUS` when a command ends in error (60_exceptions R311). -/
def Status.failed (st : Status) (e : CmdError) : Status :=
  { st with err := true, errcode := e.code, busy := false, done := true }

/-- `ERRINFO0` and `ERRINFO1` after an error: only `ERR_CAPACITY` writes them (60_exceptions R311, R314). -/
def ErrInfo.after (old : ErrInfo) : CmdError → ErrInfo
  | .capacity info => info
  | _ => old

/-- A host write to `STATUS`: bit 1 clears `DONE`, bit 3 clears `OVERRUN`, nothing else (10_state R31). -/
def Status.cleared (st : Status) (w : Word) : Status :=
  { st with done := st.done && !w.getLsbD 1, overrun := st.overrun && !w.getLsbD 3 }

/-- One bit of a word. -/
def bit (b : Bool) : BitVec 1 := BitVec.ofBool b

/-- `STATUS` as it reads (10_state R30): `ERRCODE` in 15:8, `QZ` 4, `OVERRUN` 3, `ERR` 2, `DONE` 1, `BUSY` 0. -/
def Status.toWord (st : Status) : Word :=
  putField st.errcode 8 ||| putField (bit st.qz) 4 ||| putField (bit st.overrun) 3 ||| putField (bit st.err) 2
    ||| putField (bit st.done) 1 ||| putField (bit st.busy) 0

/-- `CTRL` as it reads: bit 31 and the reserved bits are 0 (10_state R22, R28). -/
def Ctrl.toWord (c : Ctrl) : Word :=
  putField c.eciDesignator 16 ||| putField c.reqVersion 8 ||| putField (bit c.irqEn) 4 ||| putField (bit c.eciEn) 3
    ||| putField (bit c.forceByte) 2 ||| putField c.ecc 0

/-- The fields a host write to `CTRL` stores (10_state R22). -/
def Ctrl.ofWord (w : Word) : Ctrl :=
  { ecc := fieldAt w 0 2
    forceByte := w.getLsbD 2
    eciEn := w.getLsbD 3
    irqEn := w.getLsbD 4
    reqVersion := fieldAt w 8 6
    eciDesignator := fieldAt w 16 8 }

/-- `ERRINFO0` as it reads (10_state R39): fixed version in 13:8, mode in 7:4, ECC code in 1:0. -/
def ErrInfo.word0 (i : ErrInfo) : Word := putField i.fixed 8 ||| putField i.mode 4 ||| putField i.ecc 0

/-- `ERRINFO1` as it reads (10_state R39): the capacity in 15:0. -/
def ErrInfo.word1 (i : ErrInfo) : Word := i.cap.setWidth 32

/-- The interrupt output: `irq = STATUS.DONE and CTRL.IRQ_EN` (60_exceptions R320; log 16). -/
def State.irq (s : State) : Bool := s.status.done && s.regs.ctrl.irqEn

end Sys2Proof.Machine
end

