-- ==== Sys2Proof/Machine/Ops.lean ====
section
/-! DEFINITION. The named operations every command and every bus access is made of: reading and writing the local
memories, starting a command, and the two ways a command completes. QRCORE takes no trap (60_exceptions R322):
`State.raise` is what an error does instead, and there is nothing to return from (R323). -/

namespace Sys2Proof.Machine

/-! ### Local memories (10_state R46 to R49) -/

/-- The size of a local memory in bytes (20_memory R60). -/
def memSize : Region → Nat
  | .inp => 8192
  | .cwm => 8192
  | .mtx => 65536
  | .out => 8192

/-- The bits a byte of a local memory implements: bits 7:2 of `MTX` read 0 and ignore writes (10_state R48). -/
def memBits : Region → Byte
  | .mtx => 0x03
  | _ => 0xFF

/-- What an offset the memory does not list holds: 0 after a clear, else the unspecified power-on byte (log 1). -/
def blankByte : Blank → Nat → Byte
  | .zero, _ => 0
  | .powerOn r, a => Config.powerOnByte r a

/-- Whether a byte equals what an unlisted offset of such a memory holds, so that it is not listed (log 2). -/
def isBlankByte : Blank → Byte → Bool
  | .zero, b => b == 0
  | .powerOn _, _ => false

/-- The listed byte at an offset. -/
def cellAt : List Host.Cell → Nat → Option Byte
  | [], _ => none
  | c :: cs, a => if c.1 = a then some c.2 else cellAt cs a

/-- The byte at an offset of a memory. -/
def Memory.get (m : Memory) (a : Nat) : Byte := (cellAt m.cells a).getD (blankByte m.blank a)

/-- The bytes at the `n` offsets from `a` on. -/
def Memory.slice (m : Memory) (a n : Nat) : List Byte :=
  let near := m.cells.filter fun c => decide (a ≤ c.1) && decide (c.1 < a + n)
  (List.range n).map fun k => (cellAt near (a + k)).getD (blankByte m.blank (a + k))

/-- The cells of consecutive bytes from `a` on, less those that need no cell. -/
def cellsOf (bl : Blank) : Nat → List Byte → List Host.Cell
  | _, [] => []
  | a, b :: bs => if isBlankByte bl b then cellsOf bl (a + 1) bs else (a, b) :: cellsOf bl (a + 1) bs

/-- Write consecutive bytes from `a` on, keeping the canonical form. -/
def Memory.write (m : Memory) (a : Nat) (bs : List Byte) : Memory :=
  { m with
    cells := (m.cells.filter fun c => decide (c.1 < a)) ++ cellsOf m.blank a bs
      ++ m.cells.filter fun c => decide (a + bs.length ≤ c.1) }

/-- The offsets of a cell list rise strictly. -/
def strictlyRising : List Host.Cell → Bool
  | [] => true
  | [_] => true
  | c :: d :: cs => decide (c.1 < d.1) && strictlyRising (d :: cs)

/-- The canonical form: offsets strictly rising, no cell equal to what an unlisted offset holds. -/
def Memory.wf (m : Memory) : Bool := strictlyRising m.cells && m.cells.all fun c => !isBlankByte m.blank c.2

/-- A memory of all zeros (45_placement R230). -/
def Memory.zeros : Memory := { blank := .zero, cells := [] }

/-- The memory of a region. -/
def State.mem (s : State) : Region → Memory
  | .inp => s.inp
  | .cwm => s.cwm
  | .mtx => s.mtx
  | .out => s.out

/-- The state with the memory of a region replaced. -/
def State.setMem (s : State) (r : Region) (m : Memory) : State :=
  match r with
  | .inp => { s with inp := m }
  | .cwm => { s with cwm := m }
  | .mtx => { s with mtx := m }
  | .out => { s with out := m }

/-- `M[a]` (00_scope R13), through the implemented bits of the region. -/
def State.readByte (s : State) (r : Region) (a : Nat) : Byte := (s.mem r).get a &&& memBits r

/-- `MemRead(M, a, n)` as the `n` bytes in order (00_scope R13). -/
def State.readBytes (s : State) (r : Region) (a n : Nat) : List Byte := ((s.mem r).slice a n).map (· &&& memBits r)

/-- `MemWrite(M, a, n, v)`: write the bytes in order from offset `a` on (00_scope R13). -/
def State.writeBytes (s : State) (r : Region) (a : Nat) (bs : List Byte) : State :=
  s.setMem r ((s.mem r).write a (bs.map (· &&& memBits r)))

/-- Set every byte of a region to 0. -/
def State.clearMem (s : State) (r : Region) : State := s.setMem r Memory.zeros

/-! ### A command's start and its completions -/

/-- A command starts: the sequencer latches the word and the operand registers (70_reset_and_hazards R351). -/
def State.start (s : State) (w : Word) : State :=
  { s with
    latch :=
      { word := w
        ctrl := s.regs.ctrl
        arg0 := s.regs.arg0
        arg1 := s.regs.arg1
        inlen := s.regs.inlen
        outlen := s.regs.outlen }
    status := s.status.started }

/-- `complete()` (60_exceptions R310). -/
def State.complete (s : State) : State := { s with status := s.status.completed }

/-- `raise E(info)` (60_exceptions R311): of the command's effects none, but for the diagnostics of `ERR_CAPACITY`. -/
def State.raise (s : State) (e : CmdError) : State :=
  { s with regs := { s.regs with errinfo := s.regs.errinfo.after e }, status := s.status.failed e }

/-- The state a command ends in: with the writes it made, or with its error and none of them (60_exceptions R310, R311). -/
def State.settle (s : State) : Except CmdError State → State
  | .ok t => t.complete
  | .error e => s.raise e

/-- A command ends. Every command goes on to a next state: an error is a completion, not a stop (60_exceptions R322). -/
def finish (s : State) (r : Except CmdError State) : Host.Outcome State Fault Refusal := .next (s.settle r)

/-- The state with the registers replaced by a function of them. -/
def State.setRegs (s : State) (f : Regs → Regs) : State := { s with regs := f s.regs }

/-- The state with `STATUS.QZ` replaced. -/
def State.setQz (s : State) (b : Bool) : State := { s with status := { s.status with qz := b } }

/-- Stop with an error when a test holds (the `if ...: raise` lines of the command rules). -/
def raiseIf (test : Bool) (e : CmdError) : Except CmdError Unit := if test then .error e else .ok ()

end Sys2Proof.Machine
end

