-- ==== Sys2Proof/Machine/Rom.lean ====
section
/-! DEFINITION. The internal ROMs of QRCORE (10_state R40 to R45), with the contents the spec's tables give them
(40_galois R100, R101, 44_blocks R200, R202, R204, R206; log 12). No host access reaches them (20_memory R70). -/

namespace Sys2Proof.Machine

/-- The four error-correction levels (00_scope R8). -/
inductive EccLevel where
  | L | M | Q | H
  deriving DecidableEq, Repr

/-- The three encodable modes (43_bitstream R160; Kanji is out of scope, 00_scope R6). -/
inductive Mode where
  | numeric | alphanumeric | byte
  deriving DecidableEq, Repr

/-- One record of `ECCTAB`: `(D, n, b1, c1, b2, c2)` (44_blocks R200). -/
structure EccInfo where
  dataCw : Nat
  eccPerBlock : Nat
  blocks1 : Nat
  cw1 : Nat
  blocks2 : Nat
  cw2 : Nat
  deriving DecidableEq, Repr

/-- One table entry per level. -/
structure PerLevel (α : Type) where
  l : α
  m : α
  q : α
  h : α
  deriving DecidableEq, Repr

/-- The capacities of one version and level, in characters (44_blocks R202). -/
structure Capacity where
  numeric : Nat
  alphanumeric : Nat
  byte : Nat
  deriving DecidableEq, Repr

/-- The entry of a level. -/
def PerLevel.at {α : Type} (t : PerLevel α) : EccLevel → α
  | .L => t.l
  | .M => t.m
  | .Q => t.q
  | .H => t.h

/-- The entry of a mode. -/
def Capacity.at (c : Capacity) : Mode → Nat
  | .numeric => c.numeric
  | .alphanumeric => c.alphanumeric
  | .byte => c.byte

/-- The entry of a table written in rows of sixteen. -/
def romEntry (rows : List (List Nat)) (i : Nat) : Nat := (rows.getD (i / 16) []).getD (i % 16) 0

/-- The contents of `EXP`, sixteen entries a row (40_galois R100). -/
def expRows : List (List Nat) :=
  [[0x01, 0x02, 0x04, 0x08, 0x10, 0x20, 0x40, 0x80, 0x1D, 0x3A, 0x74, 0xE8, 0xCD, 0x87, 0x13, 0x26],
   [0x4C, 0x98, 0x2D, 0x5A, 0xB4, 0x75, 0xEA, 0xC9, 0x8F, 0x03, 0x06, 0x0C, 0x18, 0x30, 0x60, 0xC0],
   [0x9D, 0x27, 0x4E, 0x9C, 0x25, 0x4A, 0x94, 0x35, 0x6A, 0xD4, 0xB5, 0x77, 0xEE, 0xC1, 0x9F, 0x23],
   [0x46, 0x8C, 0x05, 0x0A, 0x14, 0x28, 0x50, 0xA0, 0x5D, 0xBA, 0x69, 0xD2, 0xB9, 0x6F, 0xDE, 0xA1],
   [0x5F, 0xBE, 0x61, 0xC2, 0x99, 0x2F, 0x5E, 0xBC, 0x65, 0xCA, 0x89, 0x0F, 0x1E, 0x3C, 0x78, 0xF0],
   [0xFD, 0xE7, 0xD3, 0xBB, 0x6B, 0xD6, 0xB1, 0x7F, 0xFE, 0xE1, 0xDF, 0xA3, 0x5B, 0xB6, 0x71, 0xE2],
   [0xD9, 0xAF, 0x43, 0x86, 0x11, 0x22, 0x44, 0x88, 0x0D, 0x1A, 0x34, 0x68, 0xD0, 0xBD, 0x67, 0xCE],
   [0x81, 0x1F, 0x3E, 0x7C, 0xF8, 0xED, 0xC7, 0x93, 0x3B, 0x76, 0xEC, 0xC5, 0x97, 0x33, 0x66, 0xCC],
   [0x85, 0x17, 0x2E, 0x5C, 0xB8, 0x6D, 0xDA, 0xA9, 0x4F, 0x9E, 0x21, 0x42, 0x84, 0x15, 0x2A, 0x54],
   [0xA8, 0x4D, 0x9A, 0x29, 0x52, 0xA4, 0x55, 0xAA, 0x49, 0x92, 0x39, 0x72, 0xE4, 0xD5, 0xB7, 0x73],
   [0xE6, 0xD1, 0xBF, 0x63, 0xC6, 0x91, 0x3F, 0x7E, 0xFC, 0xE5, 0xD7, 0xB3, 0x7B, 0xF6, 0xF1, 0xFF],
   [0xE3, 0xDB, 0xAB, 0x4B, 0x96, 0x31, 0x62, 0xC4, 0x95, 0x37, 0x6E, 0xDC, 0xA5, 0x57, 0xAE, 0x41],
   [0x82, 0x19, 0x32, 0x64, 0xC8, 0x8D, 0x07, 0x0E, 0x1C, 0x38, 0x70, 0xE0, 0xDD, 0xA7, 0x53, 0xA6],
   [0x51, 0xA2, 0x59, 0xB2, 0x79, 0xF2, 0xF9, 0xEF, 0xC3, 0x9B, 0x2B, 0x56, 0xAC, 0x45, 0x8A, 0x09],
   [0x12, 0x24, 0x48, 0x90, 0x3D, 0x7A, 0xF4, 0xF5, 0xF7, 0xF3, 0xFB, 0xEB, 0xCB, 0x8B, 0x0B, 0x16],
   [0x2C, 0x58, 0xB0, 0x7D, 0xFA, 0xE9, 0xCF, 0x83, 0x1B, 0x36, 0x6C, 0xD8, 0xAD, 0x47, 0x8E, 0x01]]

/-- The contents of `LOG`, sixteen entries a row (40_galois R101). There is no entry 0: `romLog` never reads the first
place. -/
def logRows : List (List Nat) :=
  [[0, 0, 1, 25, 2, 50, 26, 198, 3, 223, 51, 238, 27, 104, 199, 75],
   [4, 100, 224, 14, 52, 141, 239, 129, 28, 193, 105, 248, 200, 8, 76, 113],
   [5, 138, 101, 47, 225, 36, 15, 33, 53, 147, 142, 218, 240, 18, 130, 69],
   [29, 181, 194, 125, 106, 39, 249, 185, 201, 154, 9, 120, 77, 228, 114, 166],
   [6, 191, 139, 98, 102, 221, 48, 253, 226, 152, 37, 179, 16, 145, 34, 136],
   [54, 208, 148, 206, 143, 150, 219, 189, 241, 210, 19, 92, 131, 56, 70, 64],
   [30, 66, 182, 163, 195, 72, 126, 110, 107, 58, 40, 84, 250, 133, 186, 61],
   [202, 94, 155, 159, 10, 21, 121, 43, 78, 212, 229, 172, 115, 243, 167, 87],
   [7, 112, 192, 247, 140, 128, 99, 13, 103, 74, 222, 237, 49, 197, 254, 24],
   [227, 165, 153, 119, 38, 184, 180, 124, 17, 68, 146, 217, 35, 32, 137, 46],
   [55, 63, 209, 91, 149, 188, 207, 205, 144, 135, 151, 178, 220, 252, 190, 97],
   [242, 86, 211, 171, 20, 42, 93, 158, 132, 60, 57, 83, 71, 109, 65, 162],
   [31, 45, 67, 216, 183, 123, 164, 118, 196, 23, 73, 236, 127, 12, 111, 246],
   [108, 161, 59, 82, 41, 157, 85, 170, 251, 96, 134, 177, 187, 204, 62, 90],
   [203, 89, 95, 176, 156, 169, 160, 81, 11, 245, 22, 235, 122, 117, 44, 215],
   [79, 174, 213, 233, 230, 231, 173, 232, 116, 214, 244, 234, 168, 80, 88, 175]]

/-- `EXP[i]` (40_galois R100). -/
def romExp (i : Nat) : Byte := BitVec.ofNat 8 (romEntry expRows i)

/-- `LOG[a]`; `LOG[0]` does not exist (40_galois R101). -/
def romLog (a : Byte) : Option Nat := if a = 0 then none else some (romEntry logRows a.toNat)

/-- `ECCTAB` (44_blocks R200), versions 1 to 10. -/
def eccRows1 : List (PerLevel EccInfo) :=
  [⟨⟨19, 7, 1, 19, 0, 0⟩, ⟨16, 10, 1, 16, 0, 0⟩, ⟨13, 13, 1, 13, 0, 0⟩, ⟨9, 17, 1, 9, 0, 0⟩⟩,
   ⟨⟨34, 10, 1, 34, 0, 0⟩, ⟨28, 16, 1, 28, 0, 0⟩, ⟨22, 22, 1, 22, 0, 0⟩, ⟨16, 28, 1, 16, 0, 0⟩⟩,
   ⟨⟨55, 15, 1, 55, 0, 0⟩, ⟨44, 26, 1, 44, 0, 0⟩, ⟨34, 18, 2, 17, 0, 0⟩, ⟨26, 22, 2, 13, 0, 0⟩⟩,
   ⟨⟨80, 20, 1, 80, 0, 0⟩, ⟨64, 18, 2, 32, 0, 0⟩, ⟨48, 26, 2, 24, 0, 0⟩, ⟨36, 16, 4, 9, 0, 0⟩⟩,
   ⟨⟨108, 26, 1, 108, 0, 0⟩, ⟨86, 24, 2, 43, 0, 0⟩, ⟨62, 18, 2, 15, 2, 16⟩, ⟨46, 22, 2, 11, 2, 12⟩⟩,
   ⟨⟨136, 18, 2, 68, 0, 0⟩, ⟨108, 16, 4, 27, 0, 0⟩, ⟨76, 24, 4, 19, 0, 0⟩, ⟨60, 28, 4, 15, 0, 0⟩⟩,
   ⟨⟨156, 20, 2, 78, 0, 0⟩, ⟨124, 18, 4, 31, 0, 0⟩, ⟨88, 18, 2, 14, 4, 15⟩, ⟨66, 26, 4, 13, 1, 14⟩⟩,
   ⟨⟨194, 24, 2, 97, 0, 0⟩, ⟨154, 22, 2, 38, 2, 39⟩, ⟨110, 22, 4, 18, 2, 19⟩, ⟨86, 26, 4, 14, 2, 15⟩⟩,
   ⟨⟨232, 30, 2, 116, 0, 0⟩, ⟨182, 22, 3, 36, 2, 37⟩, ⟨132, 20, 4, 16, 4, 17⟩, ⟨100, 24, 4, 12, 4, 13⟩⟩,
   ⟨⟨274, 18, 2, 68, 2, 69⟩, ⟨216, 26, 4, 43, 1, 44⟩, ⟨154, 24, 6, 19, 2, 20⟩, ⟨122, 28, 6, 15, 2, 16⟩⟩]

/-- `ECCTAB` (44_blocks R200), versions 11 to 20. -/
def eccRows2 : List (PerLevel EccInfo) :=
  [⟨⟨324, 20, 4, 81, 0, 0⟩, ⟨254, 30, 1, 50, 4, 51⟩, ⟨180, 28, 4, 22, 4, 23⟩, ⟨140, 24, 3, 12, 8, 13⟩⟩,
   ⟨⟨370, 24, 2, 92, 2, 93⟩, ⟨290, 22, 6, 36, 2, 37⟩, ⟨206, 26, 4, 20, 6, 21⟩, ⟨158, 28, 7, 14, 4, 15⟩⟩,
   ⟨⟨428, 26, 4, 107, 0, 0⟩, ⟨334, 22, 8, 37, 1, 38⟩, ⟨244, 24, 8, 20, 4, 21⟩, ⟨180, 22, 12, 11, 4, 12⟩⟩,
   ⟨⟨461, 30, 3, 115, 1, 116⟩, ⟨365, 24, 4, 40, 5, 41⟩, ⟨261, 20, 11, 16, 5, 17⟩, ⟨197, 24, 11, 12, 5, 13⟩⟩,
   ⟨⟨523, 22, 5, 87, 1, 88⟩, ⟨415, 24, 5, 41, 5, 42⟩, ⟨295, 30, 5, 24, 7, 25⟩, ⟨223, 24, 11, 12, 7, 13⟩⟩,
   ⟨⟨589, 24, 5, 98, 1, 99⟩, ⟨453, 28, 7, 45, 3, 46⟩, ⟨325, 24, 15, 19, 2, 20⟩, ⟨253, 30, 3, 15, 13, 16⟩⟩,
   ⟨⟨647, 28, 1, 107, 5, 108⟩, ⟨507, 28, 10, 46, 1, 47⟩, ⟨367, 28, 1, 22, 15, 23⟩, ⟨283, 28, 2, 14, 17, 15⟩⟩,
   ⟨⟨721, 30, 5, 120, 1, 121⟩, ⟨563, 26, 9, 43, 4, 44⟩, ⟨397, 28, 17, 22, 1, 23⟩, ⟨313, 28, 2, 14, 19, 15⟩⟩,
   ⟨⟨795, 28, 3, 113, 4, 114⟩, ⟨627, 26, 3, 44, 11, 45⟩, ⟨445, 26, 17, 21, 4, 22⟩, ⟨341, 26, 9, 13, 16, 14⟩⟩,
   ⟨⟨861, 28, 3, 107, 5, 108⟩, ⟨669, 26, 3, 41, 13, 42⟩, ⟨485, 30, 15, 24, 5, 25⟩, ⟨385, 28, 15, 15, 10, 16⟩⟩]

/-- `ECCTAB` (44_blocks R200), versions 21 to 30. -/
def eccRows3 : List (PerLevel EccInfo) :=
  [⟨⟨932, 28, 4, 116, 4, 117⟩, ⟨714, 26, 17, 42, 0, 0⟩, ⟨512, 28, 17, 22, 6, 23⟩, ⟨406, 30, 19, 16, 6, 17⟩⟩,
   ⟨⟨1006, 28, 2, 111, 7, 112⟩, ⟨782, 28, 17, 46, 0, 0⟩, ⟨568, 30, 7, 24, 16, 25⟩, ⟨442, 24, 34, 13, 0, 0⟩⟩,
   ⟨⟨1094, 30, 4, 121, 5, 122⟩, ⟨860, 28, 4, 47, 14, 48⟩, ⟨614, 30, 11, 24, 14, 25⟩, ⟨464, 30, 16, 15, 14, 16⟩⟩,
   ⟨⟨1174, 30, 6, 117, 4, 118⟩, ⟨914, 28, 6, 45, 14, 46⟩, ⟨664, 30, 11, 24, 16, 25⟩, ⟨514, 30, 30, 16, 2, 17⟩⟩,
   ⟨⟨1276, 26, 8, 106, 4, 107⟩, ⟨1000, 28, 8, 47, 13, 48⟩, ⟨718, 30, 7, 24, 22, 25⟩, ⟨538, 30, 22, 15, 13, 16⟩⟩,
   ⟨⟨1370, 28, 10, 114, 2, 115⟩, ⟨1062, 28, 19, 46, 4, 47⟩, ⟨754, 28, 28, 22, 6, 23⟩, ⟨596, 30, 33, 16, 4, 17⟩⟩,
   ⟨⟨1468, 30, 8, 122, 4, 123⟩, ⟨1128, 28, 22, 45, 3, 46⟩, ⟨808, 30, 8, 23, 26, 24⟩, ⟨628, 30, 12, 15, 28, 16⟩⟩,
   ⟨⟨1531, 30, 3, 117, 10, 118⟩, ⟨1193, 28, 3, 45, 23, 46⟩, ⟨871, 30, 4, 24, 31, 25⟩, ⟨661, 30, 11, 15, 31, 16⟩⟩,
   ⟨⟨1631, 30, 7, 116, 7, 117⟩, ⟨1267, 28, 21, 45, 7, 46⟩, ⟨911, 30, 1, 23, 37, 24⟩, ⟨701, 30, 19, 15, 26, 16⟩⟩,
   ⟨⟨1735, 30, 5, 115, 10, 116⟩, ⟨1373, 28, 19, 47, 10, 48⟩, ⟨985, 30, 15, 24, 25, 25⟩, ⟨745, 30, 23, 15, 25, 16⟩⟩]

/-- `ECCTAB` (44_blocks R200), versions 31 to 40. -/
def eccRows4 : List (PerLevel EccInfo) :=
  [⟨⟨1843, 30, 13, 115, 3, 116⟩, ⟨1455, 28, 2, 46, 29, 47⟩, ⟨1033, 30, 42, 24, 1, 25⟩, ⟨793, 30, 23, 15, 28, 16⟩⟩,
   ⟨⟨1955, 30, 17, 115, 0, 0⟩, ⟨1541, 28, 10, 46, 23, 47⟩, ⟨1115, 30, 10, 24, 35, 25⟩, ⟨845, 30, 19, 15, 35, 16⟩⟩,
   ⟨⟨2071, 30, 17, 115, 1, 116⟩, ⟨1631, 28, 14, 46, 21, 47⟩, ⟨1171, 30, 29, 24, 19, 25⟩, ⟨901, 30, 11, 15, 46, 16⟩⟩,
   ⟨⟨2191, 30, 13, 115, 6, 116⟩, ⟨1725, 28, 14, 46, 23, 47⟩, ⟨1231, 30, 44, 24, 7, 25⟩, ⟨961, 30, 59, 16, 1, 17⟩⟩,
   ⟨⟨2306, 30, 12, 121, 7, 122⟩, ⟨1812, 28, 12, 47, 26, 48⟩, ⟨1286, 30, 39, 24, 14, 25⟩, ⟨986, 30, 22, 15, 41, 16⟩⟩,
   ⟨⟨2434, 30, 6, 121, 14, 122⟩, ⟨1914, 28, 6, 47, 34, 48⟩, ⟨1354, 30, 46, 24, 10, 25⟩, ⟨1054, 30, 2, 15, 64, 16⟩⟩,
   ⟨⟨2566, 30, 17, 122, 4, 123⟩, ⟨1992, 28, 29, 46, 14, 47⟩, ⟨1426, 30, 49, 24, 10, 25⟩, ⟨1096, 30, 24, 15, 46, 16⟩⟩,
   ⟨⟨2702, 30, 4, 122, 18, 123⟩, ⟨2102, 28, 13, 46, 32, 47⟩, ⟨1502, 30, 48, 24, 14, 25⟩, ⟨1142, 30, 42, 15, 32, 16⟩⟩,
   ⟨⟨2812, 30, 20, 117, 4, 118⟩, ⟨2216, 28, 40, 47, 7, 48⟩, ⟨1582, 30, 43, 24, 22, 25⟩, ⟨1222, 30, 10, 15, 67, 16⟩⟩,
   ⟨⟨2956, 30, 19, 118, 6, 119⟩, ⟨2334, 28, 18, 47, 31, 48⟩, ⟨1666, 30, 34, 24, 34, 25⟩, ⟨1276, 30, 20, 15, 61, 16⟩⟩]

/-- A level's record when the version is none of 1 to 40; no command reads it in a state that satisfies the machine's
invariant (log 15). -/
def EccInfo.none : EccInfo := ⟨0, 0, 0, 0, 0, 0⟩

/-- `ECCTAB[v][e]` (44_blocks R200). -/
def eccTab (v : Nat) (e : EccLevel) : EccInfo :=
  match v with
  | 0 => EccInfo.none
  | k + 1 => ((eccRows1 ++ eccRows2 ++ eccRows3 ++ eccRows4).map (·.at e)).getD k EccInfo.none

/-- `CAPTAB` (44_blocks R202), versions 1 to 10. -/
def capRows1 : List (PerLevel Capacity) :=
  [⟨⟨41, 25, 17⟩, ⟨34, 20, 14⟩, ⟨27, 16, 11⟩, ⟨17, 10, 7⟩⟩,
   ⟨⟨77, 47, 32⟩, ⟨63, 38, 26⟩, ⟨48, 29, 20⟩, ⟨34, 20, 14⟩⟩,
   ⟨⟨127, 77, 53⟩, ⟨101, 61, 42⟩, ⟨77, 47, 32⟩, ⟨58, 35, 24⟩⟩,
   ⟨⟨187, 114, 78⟩, ⟨149, 90, 62⟩, ⟨111, 67, 46⟩, ⟨82, 50, 34⟩⟩,
   ⟨⟨255, 154, 106⟩, ⟨202, 122, 84⟩, ⟨144, 87, 60⟩, ⟨106, 64, 44⟩⟩,
   ⟨⟨322, 195, 134⟩, ⟨255, 154, 106⟩, ⟨178, 108, 74⟩, ⟨139, 84, 58⟩⟩,
   ⟨⟨370, 224, 154⟩, ⟨293, 178, 122⟩, ⟨207, 125, 86⟩, ⟨154, 93, 64⟩⟩,
   ⟨⟨461, 279, 192⟩, ⟨365, 221, 152⟩, ⟨259, 157, 108⟩, ⟨202, 122, 84⟩⟩,
   ⟨⟨552, 335, 230⟩, ⟨432, 262, 180⟩, ⟨312, 189, 130⟩, ⟨235, 143, 98⟩⟩,
   ⟨⟨652, 395, 271⟩, ⟨513, 311, 213⟩, ⟨364, 221, 151⟩, ⟨288, 174, 119⟩⟩]

/-- `CAPTAB` (44_blocks R202), versions 11 to 20. -/
def capRows2 : List (PerLevel Capacity) :=
  [⟨⟨772, 468, 321⟩, ⟨604, 366, 251⟩, ⟨427, 259, 177⟩, ⟨331, 200, 137⟩⟩,
   ⟨⟨883, 535, 367⟩, ⟨691, 419, 287⟩, ⟨489, 296, 203⟩, ⟨374, 227, 155⟩⟩,
   ⟨⟨1022, 619, 425⟩, ⟨796, 483, 331⟩, ⟨580, 352, 241⟩, ⟨427, 259, 177⟩⟩,
   ⟨⟨1101, 667, 458⟩, ⟨871, 528, 362⟩, ⟨621, 376, 258⟩, ⟨468, 283, 194⟩⟩,
   ⟨⟨1250, 758, 520⟩, ⟨991, 600, 412⟩, ⟨703, 426, 292⟩, ⟨530, 321, 220⟩⟩,
   ⟨⟨1408, 854, 586⟩, ⟨1082, 656, 450⟩, ⟨775, 470, 322⟩, ⟨602, 365, 250⟩⟩,
   ⟨⟨1548, 938, 644⟩, ⟨1212, 734, 504⟩, ⟨876, 531, 364⟩, ⟨674, 408, 280⟩⟩,
   ⟨⟨1725, 1046, 718⟩, ⟨1346, 816, 560⟩, ⟨948, 574, 394⟩, ⟨746, 452, 310⟩⟩,
   ⟨⟨1903, 1153, 792⟩, ⟨1500, 909, 624⟩, ⟨1063, 644, 442⟩, ⟨813, 493, 338⟩⟩,
   ⟨⟨2061, 1249, 858⟩, ⟨1600, 970, 666⟩, ⟨1159, 702, 482⟩, ⟨919, 557, 382⟩⟩]

/-- `CAPTAB` (44_blocks R202), versions 21 to 30. -/
def capRows3 : List (PerLevel Capacity) :=
  [⟨⟨2232, 1352, 929⟩, ⟨1708, 1035, 711⟩, ⟨1224, 742, 509⟩, ⟨969, 587, 403⟩⟩,
   ⟨⟨2409, 1460, 1003⟩, ⟨1872, 1134, 779⟩, ⟨1358, 823, 565⟩, ⟨1056, 640, 439⟩⟩,
   ⟨⟨2620, 1588, 1091⟩, ⟨2059, 1248, 857⟩, ⟨1468, 890, 611⟩, ⟨1108, 672, 461⟩⟩,
   ⟨⟨2812, 1704, 1171⟩, ⟨2188, 1326, 911⟩, ⟨1588, 963, 661⟩, ⟨1228, 744, 511⟩⟩,
   ⟨⟨3057, 1853, 1273⟩, ⟨2395, 1451, 997⟩, ⟨1718, 1041, 715⟩, ⟨1286, 779, 535⟩⟩,
   ⟨⟨3283, 1990, 1367⟩, ⟨2544, 1542, 1059⟩, ⟨1804, 1094, 751⟩, ⟨1425, 864, 593⟩⟩,
   ⟨⟨3517, 2132, 1465⟩, ⟨2701, 1637, 1125⟩, ⟨1933, 1172, 805⟩, ⟨1501, 910, 625⟩⟩,
   ⟨⟨3669, 2223, 1528⟩, ⟨2857, 1732, 1190⟩, ⟨2085, 1263, 868⟩, ⟨1581, 958, 658⟩⟩,
   ⟨⟨3909, 2369, 1628⟩, ⟨3035, 1839, 1264⟩, ⟨2181, 1322, 908⟩, ⟨1677, 1016, 698⟩⟩,
   ⟨⟨4158, 2520, 1732⟩, ⟨3289, 1994, 1370⟩, ⟨2358, 1429, 982⟩, ⟨1782, 1080, 742⟩⟩]

/-- `CAPTAB` (44_blocks R202), versions 31 to 40. -/
def capRows4 : List (PerLevel Capacity) :=
  [⟨⟨4417, 2677, 1840⟩, ⟨3486, 2113, 1452⟩, ⟨2473, 1499, 1030⟩, ⟨1897, 1150, 790⟩⟩,
   ⟨⟨4686, 2840, 1952⟩, ⟨3693, 2238, 1538⟩, ⟨2670, 1618, 1112⟩, ⟨2022, 1226, 842⟩⟩,
   ⟨⟨4965, 3009, 2068⟩, ⟨3909, 2369, 1628⟩, ⟨2805, 1700, 1168⟩, ⟨2157, 1307, 898⟩⟩,
   ⟨⟨5253, 3183, 2188⟩, ⟨4134, 2506, 1722⟩, ⟨2949, 1787, 1228⟩, ⟨2301, 1394, 958⟩⟩,
   ⟨⟨5529, 3351, 2303⟩, ⟨4343, 2632, 1809⟩, ⟨3081, 1867, 1283⟩, ⟨2361, 1431, 983⟩⟩,
   ⟨⟨5836, 3537, 2431⟩, ⟨4588, 2780, 1911⟩, ⟨3244, 1966, 1351⟩, ⟨2524, 1530, 1051⟩⟩,
   ⟨⟨6153, 3729, 2563⟩, ⟨4775, 2894, 1989⟩, ⟨3417, 2071, 1423⟩, ⟨2625, 1591, 1093⟩⟩,
   ⟨⟨6479, 3927, 2699⟩, ⟨5039, 3054, 2099⟩, ⟨3599, 2181, 1499⟩, ⟨2735, 1658, 1139⟩⟩,
   ⟨⟨6743, 4087, 2809⟩, ⟨5313, 3220, 2213⟩, ⟨3791, 2298, 1579⟩, ⟨2927, 1774, 1219⟩⟩,
   ⟨⟨7089, 4296, 2953⟩, ⟨5596, 3391, 2331⟩, ⟨3993, 2420, 1663⟩, ⟨3057, 1852, 1273⟩⟩]

/-- `CAPTAB[v][e][m]` (44_blocks R202). -/
def capTab (v : Nat) (e : EccLevel) (m : Mode) : Nat :=
  match v with
  | 0 => 0
  | k + 1 => ((capRows1 ++ capRows2 ++ capRows3 ++ capRows4).map fun c => (c.at e).at m).getD k 0

/-- `ALIGNTAB` (44_blocks R204), versions 1 to 10. -/
def alignRows1 : List (List Nat) :=
  [[],
   [6, 18],
   [6, 22],
   [6, 26],
   [6, 30],
   [6, 34],
   [6, 22, 38],
   [6, 24, 42],
   [6, 26, 46],
   [6, 28, 50]]

/-- `ALIGNTAB` (44_blocks R204), versions 11 to 20. -/
def alignRows2 : List (List Nat) :=
  [[6, 30, 54],
   [6, 32, 58],
   [6, 34, 62],
   [6, 26, 46, 66],
   [6, 26, 48, 70],
   [6, 26, 50, 74],
   [6, 30, 54, 78],
   [6, 30, 56, 82],
   [6, 30, 58, 86],
   [6, 34, 62, 90]]

/-- `ALIGNTAB` (44_blocks R204), versions 21 to 30. -/
def alignRows3 : List (List Nat) :=
  [[6, 28, 50, 72, 94],
   [6, 26, 50, 74, 98],
   [6, 30, 54, 78, 102],
   [6, 28, 54, 80, 106],
   [6, 32, 58, 84, 110],
   [6, 30, 58, 86, 114],
   [6, 34, 62, 90, 118],
   [6, 26, 50, 74, 98, 122],
   [6, 30, 54, 78, 102, 126],
   [6, 26, 52, 78, 104, 130]]

/-- `ALIGNTAB` (44_blocks R204), versions 31 to 40. -/
def alignRows4 : List (List Nat) :=
  [[6, 30, 56, 82, 108, 134],
   [6, 34, 60, 86, 112, 138],
   [6, 30, 58, 86, 114, 142],
   [6, 34, 62, 90, 118, 146],
   [6, 30, 54, 78, 102, 126, 150],
   [6, 24, 50, 76, 102, 128, 154],
   [6, 28, 54, 80, 106, 132, 158],
   [6, 32, 58, 84, 110, 136, 162],
   [6, 26, 54, 82, 110, 138, 166],
   [6, 30, 58, 86, 114, 142, 170]]

/-- `ALIGNTAB[v]`, the ordered centre coordinates (44_blocks R204). -/
def alignTab (v : Nat) : List Nat :=
  match v with
  | 0 => []
  | k + 1 => (alignRows1 ++ alignRows2 ++ alignRows3 ++ alignRows4).getD k []

/-- The contents of `REMTAB`, versions 1 to 40 (44_blocks R206). -/
def remRows : List Nat :=
  [0, 7, 7, 7, 7, 7, 0, 0, 0, 0, 0, 0, 0, 3, 3, 3, 3, 3, 3, 3] ++
  [4, 4, 4, 4, 4, 4, 4, 3, 3, 3, 3, 3, 3, 3, 0, 0, 0, 0, 0, 0]

/-- `REMTAB[v]` (44_blocks R206). -/
def remTab (v : Nat) : Nat :=
  match v with
  | 0 => 0
  | k + 1 => remRows.getD k 0

end Sys2Proof.Machine
end

