-- ==== Sys2Proof/Machine/Operands.lean ====
section
/-! DEFINITION. The operand forms of the commands: level and mode codes, the operand registers as latched at command
start (30_encoding R82, 70_reset_and_hazards R351), bit strings most significant bit first (00_scope R12, 20_memory
R67), and the range tests several commands share. -/

namespace Sys2Proof.Machine

/-! ### Codes -/

/-- The level a 2-bit code names: `L=01, M=00, Q=11, H=10` (10_state R23). -/
def eccLevel (e : BitVec 2) : EccLevel :=
  if e = 1 then .L else if e = 0 then .M else if e = 3 then .Q else .H

/-- The mode-indicator value of a mode (43_bitstream R162). -/
def modeValue : Mode → BitVec 4
  | .numeric => 1
  | .alphanumeric => 2
  | .byte => 4

/-- The mode a mode value names, if it names one (44_blocks R212). -/
def modeOf (v : BitVec 4) : Option Mode :=
  if v = 1 then some .numeric else if v = 2 then some .alphanumeric else if v = 4 then some .byte else none

/-- `side(v) = 21 + 4*(v-1)`, for `v >= 1` (45_placement R220). -/
def side (v : Nat) : Nat := 17 + 4 * v

/-- A version field names one of the versions 1 to 40 (44_blocks R211 to R213). -/
def versionOk (v : BitVec 6) : Bool := decide (1 ≤ v.toNat) && decide (v.toNat ≤ 40)

/-! ### Latched operands -/

/-- `CTRL.ECC` as latched. -/
def State.level (s : State) : EccLevel := eccLevel s.latch.ctrl.ecc

/-- `INLEN` as latched. -/
def State.inLen (s : State) : Nat := s.latch.inlen.toNat

/-- The input bytes `IN[0 .. INLEN-1]` (10_state R46). -/
def State.input (s : State) : List Byte := s.readBytes .inp 0 s.inLen

/-- The header is asked for with a designator of 128 or more (43_bitstream R171). -/
def State.eciBad (s : State) : Bool := s.latch.ctrl.eciEn && decide (128 ≤ s.latch.ctrl.eciDesignator.toNat)

/-- The current version, as a number. -/
def State.ver (s : State) : Nat := s.regs.version.toNat

/-- `ECCTAB[VERSION][CTRL.ECC]`. -/
def State.eccInfo (s : State) : EccInfo := eccTab s.ver s.level

/-- `check_symbol()`: `MTX` holds an unmasked symbol of the current version (46_mask, section 3; 60_exceptions R317). -/
def State.checkSymbol (s : State) : Except CmdError Unit :=
  raiseIf (decide (s.ver = 0) || decide (s.regs.side.toNat ≠ side s.ver) || s.status.qz) .sequence

/-! ### Bit strings -/

/-- `bits_w(x)`, most significant bit first (00_scope R12). -/
def bitsOf (w x : Nat) : List Bool := (List.range w).map fun i => x.testBit (w - 1 - i)

/-- The value of a bit string (00_scope R12). -/
def bitsVal (bs : List Bool) : Nat := bs.foldl (fun acc b => 2 * acc + b.toNat) 0

/-- The byte whose bit 7 is the first of at most eight bits, missing bits 0 (20_memory R67). -/
def byteOfBits (bs : List Bool) : Byte := BitVec.ofNat 8 (bitsVal ((bs ++ List.replicate 8 false).take 8))

/-- The first `k` bytes of a bit string. -/
def bytesOfBits : Nat → List Bool → List Byte
  | 0, _ => []
  | k + 1, bs => byteOfBits (bs.take 8) :: bytesOfBits k (bs.drop 8)

/-- A bit string as bytes, the last one filled with zeros (20_memory R67). -/
def packBits (bs : List Bool) : List Byte := bytesOfBits ((bs.length + 7) / 8) bs

/-- The bits of a byte string, most significant first (20_memory R67). -/
def unpackBits (bytes : List Byte) : List Bool := bytes.flatMap fun b => bitsOf 8 b.toNat

end Sys2Proof.Machine
end

