-- ==== Sys2Proof/Machine/BitStream.lean ====
section
/-! DEFINITION. Mode selection, bit packing, version selection and padding: the commands MODE_SELECT, VERSION_SELECT,
PACK and PAD (43_bitstream R160 to R178). -/

namespace Sys2Proof.Machine

/-! ### Character classes and mode selection -/

/-- A byte is a digit (43_bitstream R160). -/
def isNumeric (b : Byte) : Bool := decide (0x30 ≤ b.toNat) && decide (b.toNat ≤ 0x39)

/-- The nine symbols of the alphanumeric table, in order from index 36 (43_bitstream R161). -/
def alnumSymbols : List Nat := [0x20, 0x24, 0x25, 0x2A, 0x2B, 0x2D, 0x2E, 0x2F, 0x3A]

/-- `alnum(b)`, the index of an Alphanumeric byte; none for other bytes (43_bitstream R160, R161). -/
def alnumIndex (b : Byte) : Option Nat :=
  if isNumeric b then some (b.toNat - 0x30)
  else if 0x41 ≤ b.toNat ∧ b.toNat ≤ 0x5A then some (b.toNat - 0x41 + 10)
  else (alnumSymbols.findIdx? fun x => x == b.toNat).map (36 + ·)

/-- A byte belongs to the class of a mode (43_bitstream R160). -/
def inClass : Mode → Byte → Bool
  | .numeric, b => isNumeric b
  | .alphanumeric, b => (alnumIndex b).isSome
  | .byte, _ => true

/-- The escalation scan of `select_mode` from the current mode on (43_bitstream R162). -/
def escalate : Mode → List Byte → Mode
  | m, [] => m
  | .byte, _ :: _ => .byte
  | .alphanumeric, b :: bs => if inClass .alphanumeric b then escalate .alphanumeric bs else .byte
  | .numeric, b :: bs =>
    if inClass .numeric b then escalate .numeric bs
    else if inClass .alphanumeric b then escalate .alphanumeric bs
    else .byte

/-- `select_mode(s, f)` (43_bitstream R162). -/
def selectMode (s : List Byte) (force : Bool) : Mode := if force then .byte else escalate .numeric s

/-- MODE_SELECT (43_bitstream R163). -/
def cmdModeSelect (s : State) : Except CmdError State := do
  raiseIf (decide (s.inLen > 8192)) .arg
  let m := selectMode s.input s.latch.ctrl.forceByte
  .ok (s.setRegs fun r => { r with mode := modeValue m })

/-- MODE_SELECT (43_bitstream R163). -/
def execModeSelect (s : State) : Host.Outcome State Fault Refusal := finish s (cmdModeSelect s)

/-! ### Field widths -/

/-- The count-indicator width `cci(v, m)` (43_bitstream R164; the Kanji column is used by no command). -/
def cci (v : Nat) (m : Mode) : Nat :=
  if v < 10 then
    match m with
    | .numeric => 10
    | .alphanumeric => 9
    | .byte => 8
  else if v < 27 then
    match m with
    | .numeric => 12
    | .alphanumeric => 11
    | .byte => 16
  else
    match m with
    | .numeric => 14
    | .alphanumeric => 13
    | .byte => 16

/-- The data-field length `dbits(m, n)` (43_bitstream R165). -/
def dbits (m : Mode) (n : Nat) : Nat :=
  match m with
  | .numeric => 10 * (n / 3) + (if n % 3 = 0 then 0 else if n % 3 = 1 then 4 else 7)
  | .alphanumeric => 11 * (n / 2) + 6 * (n % 2)
  | .byte => 8 * n

/-- The header length `eci_bits` (43_bitstream R171). -/
def eciBits (eciEn : Bool) : Nat := if eciEn then 12 else 0

/-- `need(n, m, v)` (43_bitstream R173). -/
def need (eciEn : Bool) (n : Nat) (m : Mode) (v : Nat) : Nat := eciBits eciEn + 4 + cci v m + dbits m n

/-! ### The packed stream -/

/-- The value of a digit. -/
def digit (b : Byte) : Nat := b.toNat - 0x30

/-- The Numeric data field (43_bitstream R166). -/
def numericField : List Byte → List Bool
  | a :: b :: c :: rest => bitsOf 10 (100 * digit a + 10 * digit b + digit c) ++ numericField rest
  | [a, b] => bitsOf 7 (10 * digit a + digit b)
  | [a] => bitsOf 4 (digit a)
  | [] => []

/-- The index of a byte the class test has admitted. -/
def alnumVal (b : Byte) : Nat := (alnumIndex b).getD 0

/-- The Alphanumeric data field (43_bitstream R167). -/
def alphanumericField : List Byte → List Bool
  | a :: b :: rest => bitsOf 11 (45 * alnumVal a + alnumVal b) ++ alphanumericField rest
  | [a] => bitsOf 6 (alnumVal a)
  | [] => []

/-- The data field of a mode; Byte mode emits each byte as it is (43_bitstream R168). -/
def dataField : Mode → List Byte → List Bool
  | .numeric, s => numericField s
  | .alphanumeric, s => alphanumericField s
  | .byte, s => unpackBits s

/-- The ECI header, or nothing (43_bitstream R171). -/
def eciHeader (eciEn : Bool) (designator : BitVec 8) : List Bool :=
  if eciEn then bitsOf 4 7 ++ bitsOf 8 designator.toNat else []

/-- The packed stream: header, mode indicator, count, data (43_bitstream R169, R170, R172). -/
def packedStream (eciEn : Bool) (designator : BitVec 8) (m : Mode) (v : Nat) (s : List Byte) : List Bool :=
  eciHeader eciEn designator ++ bitsOf 4 (modeValue m).toNat ++ bitsOf (cci v m) s.length ++ dataField m s

/-! ### Version selection -/

/-- `ERR_CAPACITY(e, m, fixed, cap)` (60_exceptions R314). -/
def errCapacity (e : BitVec 2) (m : Mode) (fixed : Nat) (cap : Nat) : CmdError :=
  .capacity { ecc := e, mode := modeValue m, fixed := BitVec.ofNat 6 fixed, cap := BitVec.ofNat 16 cap }

/-- The smallest version whose capacity admits `n` characters, if any (43_bitstream R174). -/
def minVersion (e : EccLevel) (m : Mode) (n : Nat) : Option Nat :=
  (List.range' 1 40).find? fun v => decide (n ≤ capTab v e m)

/-- The stream of `n` characters fits the data codewords of version `v` (43_bitstream R174). -/
def streamFits (eciEn : Bool) (e : EccLevel) (m : Mode) (n v : Nat) : Bool :=
  decide (need eciEn n m v ≤ 8 * (eccTab v e).dataCw)

/-- The version chosen for `n` characters in mode `m`, with the requested version (0: choose) (43_bitstream R174). -/
def chooseVersion (e : BitVec 2) (m : Mode) (n req : Nat) (eciEn : Bool) : Except CmdError Nat :=
  let lvl := eccLevel e
  if req = 0 then
    match minVersion lvl m n with
    | none => .error (errCapacity e m 0 (capTab 40 lvl m))
    | some vmin =>
      match (List.range' vmin (41 - vmin)).find? (streamFits eciEn lvl m n) with
      | none => .error (errCapacity e m 0 (capTab 40 lvl m))
      | some v => .ok v
  else
    match minVersion lvl m n with
    | none => .error (errCapacity e m req (capTab req lvl m))
    | some vmin =>
      if req < vmin then .error (errCapacity e m req (capTab req lvl m))
      else if streamFits eciEn lvl m n req then .ok req
      else .error (errCapacity e m req (capTab req lvl m))

/-- The mode `MODE` holds; `ERR_SEQUENCE` when no MODE_SELECT has set it (60_exceptions R317; log 15 for the values that
are no mode). -/
def currentMode (s : State) : Except CmdError Mode :=
  match modeOf s.regs.mode with
  | none => .error .sequence
  | some m => .ok m

/-- VERSION_SELECT (43_bitstream R175). -/
def cmdVersionSelect (s : State) : Except CmdError State := do
  let req := s.latch.ctrl.reqVersion.toNat
  raiseIf (decide (req > 40)) .arg
  raiseIf (decide (s.inLen > 8192)) .arg
  raiseIf s.eciBad .arg
  let m ← currentMode s
  let v ← chooseVersion s.latch.ctrl.ecc m s.inLen req s.latch.ctrl.eciEn
  .ok (s.setRegs fun r =>
    { r with version := BitVec.ofNat 6 v, dcw := BitVec.ofNat 12 (eccTab v s.level).dataCw })

/-- VERSION_SELECT (43_bitstream R175). -/
def execVersionSelect (s : State) : Host.Outcome State Fault Refusal := finish s (cmdVersionSelect s)

/-! ### Packing and padding -/

/-- PACK (43_bitstream R176). Its input-class test comes after the `ERR_SEQUENCE` tests (60_exceptions R321). -/
def cmdPack (s : State) : Except CmdError State := do
  raiseIf (decide (s.inLen > 8192)) .arg
  raiseIf s.eciBad .arg
  let m ← currentMode s
  raiseIf (decide (s.ver = 0)) .sequence
  raiseIf (!s.input.all (inClass m)) .arg
  let len := need s.latch.ctrl.eciEn s.inLen m s.ver
  raiseIf (decide (len > 8 * s.eccInfo.dataCw)) .overflow
  let stream := packedStream s.latch.ctrl.eciEn s.latch.ctrl.eciDesignator m s.ver s.input
  .ok ((s.writeBytes .cwm 0 (packBits stream)).setRegs fun r => { r with bitlen := BitVec.ofNat 16 len })

/-- PACK (43_bitstream R176). -/
def execPack (s : State) : Host.Outcome State Fault Refusal := finish s (cmdPack s)

/-- The `k` pad bytes `0xEC 0x11 0xEC ...` (43_bitstream R177). -/
def padBytes (k : Nat) : List Byte := (List.range k).map fun i => if i % 2 = 0 then 0xEC else 0x11

/-- `pad(S, L, D)` as the `D` bytes: terminator, zero fill to a byte, pad bytes (43_bitstream R177; 90_conflicts C1). -/
def padStream (stream : List Bool) (d : Nat) : List Byte :=
  let terminated := stream ++ List.replicate (min 4 (8 * d - stream.length)) false
  let whole := packBits terminated
  whole ++ padBytes (d - whole.length)

/-- The first `n` bits of the stream held in `CWM` (20_memory R67). -/
def streamBits (s : State) (n : Nat) : List Bool := (unpackBits (s.readBytes .cwm 0 ((n + 7) / 8))).take n

/-- PAD (43_bitstream R178). -/
def cmdPad (s : State) : Except CmdError State := do
  let len := s.regs.bitlen.toNat
  let d := s.eccInfo.dataCw
  raiseIf (decide (s.ver = 0)) .sequence
  raiseIf (decide (len > 8 * d)) .overflow
  .ok ((s.writeBytes .cwm 0 (padStream (streamBits s len) d)).setRegs fun r => { r with dcw := BitVec.ofNat 12 d })

/-- PAD (43_bitstream R178). -/
def execPad (s : State) : Host.Outcome State Fault Refusal := finish s (cmdPad s)

end Sys2Proof.Machine
end

