-- ==== Sys2Proof/Machine/Galois.lean ====
section
/-! DEFINITION. GF(256) arithmetic and the commands NOP (47_output R295), GF_EXP, GF_LOG, GF_MUL and GF_DIV
(40_galois R102 to R108). -/

namespace Sys2Proof.Machine

/-- Field multiplication through the tables; a zero operand gives 0 without a table read (40_galois R103). -/
def gfMul (a b : Byte) : Byte :=
  match romLog a, romLog b with
  | some i, some j => romExp ((i + j) % 255)
  | _, _ => 0

/-- Field division; division by zero raises `ERR_DOMAIN` (40_galois R104). -/
def gfDiv (a b : Byte) : Except CmdError Byte :=
  match romLog b with
  | none => .error .domain
  | some j =>
    match romLog a with
    | none => .ok 0
    | some i => .ok (romExp ((i + 255 - j) % 255))

/-- `RES0 <- v`. -/
def State.withRes0 (s : State) (v : Nat) : State := s.setRegs fun r => { r with res0 := BitVec.ofNat 32 v }

/-- NOP changes nothing but `STATUS` (47_output R295). -/
def execNop (s : State) : Host.Outcome State Fault Refusal := finish s (.ok s)

/-- GF_EXP (40_galois R105). -/
def execGfExp (a : Byte) (s : State) : Host.Outcome State Fault Refusal :=
  finish s (.ok (s.withRes0 (romExp a.toNat).toNat))

/-- GF_LOG (40_galois R106). -/
def cmdGfLog (a : Byte) (s : State) : Except CmdError State :=
  match romLog a with
  | none => .error .domain
  | some e => .ok (s.withRes0 e)

/-- GF_LOG (40_galois R106). -/
def execGfLog (a : Byte) (s : State) : Host.Outcome State Fault Refusal := finish s (cmdGfLog a s)

/-- GF_MUL (40_galois R107). -/
def execGfMul (a b : Byte) (s : State) : Host.Outcome State Fault Refusal :=
  finish s (.ok (s.withRes0 (gfMul a b).toNat))

/-- GF_DIV (40_galois R108). -/
def execGfDiv (a b : Byte) (s : State) : Host.Outcome State Fault Refusal :=
  finish s ((gfDiv a b).map fun q => s.withRes0 q.toNat)

end Sys2Proof.Machine
end

