-- ==== Sys2Proof/Machine/Bch.lean ====
section
/-! DEFINITION. The BCH format and version strings and the commands BCH_FORMAT and BCH_VERSION (42_bch R140 to R147). -/

namespace Sys2Proof.Machine

/-- `bch_rem(d, k, g, r)`: the remainder of `d * x^r` by `g`, from the leading bit down (42_bch R140). -/
def bchRem (d k g r : Nat) : Nat :=
  (List.range k).reverse.foldl (fun t j => if t.testBit (r + j) then t ^^^ (g <<< j) else t) (d <<< r)

/-- `format(ecc, mask)`: 5 data bits, 10 check bits, the fixed mask (42_bch R141, R142). -/
def formatString (e : BitVec 2) (m : BitVec 3) : BitVec 15 :=
  let fd := e.toNat <<< 3 ||| m.toNat
  BitVec.ofNat 15 ((fd <<< 10 ||| bchRem fd 5 0x537 10) ^^^ 0x5412)

/-- `verinfo(v)`: 6 data bits, 12 check bits, no mask (42_bch R144). -/
def versionString (v : BitVec 6) : BitVec 18 :=
  BitVec.ofNat 18 (v.toNat <<< 12 ||| bchRem v.toNat 6 0x1F25 12)

/-- BCH_FORMAT (42_bch R146). -/
def execBchFormat (e : BitVec 2) (m : BitVec 3) (s : State) : Host.Outcome State Fault Refusal :=
  finish s (.ok (s.withRes0 (formatString e m).toNat))

/-- BCH_VERSION: every 6-bit value is legal (42_bch R147). -/
def execBchVersion (v : BitVec 6) (s : State) : Host.Outcome State Fault Refusal :=
  finish s (.ok (s.withRes0 (versionString v).toNat))

end Sys2Proof.Machine
end

