-- ==== Sys2Proof/Machine/Matrix.lean ====
section
/-! DEFINITION. The module matrix as rows of modules, and its place in `MTX`: byte `256*r + c` holds row `r`, column
`c`, `dark` in bit 0 and `blk` in bit 1 (10_state R48, 00_scope R15, R16). -/

namespace Sys2Proof.Machine

/-- One module: its colour and whether it is blocked (10_state R48). -/
structure Module where
  dark : Bool
  blk : Bool
  deriving DecidableEq, Repr

/-- A light, unblocked module. -/
def Module.light : Module := { dark := false, blk := false }

/-- A matrix as its rows, row 0 first, column 0 first. -/
abbrev Matrix := List (List Module)

/-- The module a byte of `MTX` holds (10_state R48). -/
def moduleOf (b : Byte) : Module := { dark := b.getLsbD 0, blk := b.getLsbD 1 }

/-- The byte of a module (10_state R48). -/
def byteOfModule (m : Module) : Byte :=
  (BitVec.ofBool m.blk).setWidth 8 <<< 1 ||| (BitVec.ofBool m.dark).setWidth 8

/-- The `MTX` offset of a module (10_state R48). -/
def moduleOffset (r c : Nat) : Nat := 256 * r + c

/-- The module at a position. -/
def Matrix.get (g : Matrix) (r c : Nat) : Module := (g.getD r []).getD c Module.light

/-- Change the module at a position. -/
def Matrix.update (g : Matrix) (r c : Nat) (f : Module → Module) : Matrix := g.modify r fun row => row.modify c f

/-- *Place* a module: set its colour and block it (45_placement, section 2). -/
def Matrix.place (g : Matrix) (r c : Nat) (dark : Bool) : Matrix := g.update r c fun _ => { dark := dark, blk := true }

/-- *Reserve* a module: block it and keep its colour (45_placement, section 2). -/
def Matrix.reserve (g : Matrix) (r c : Nat) : Matrix := g.update r c fun m => { m with blk := true }

/-- Set a module's colour and keep its `blk` bit. -/
def Matrix.paint (g : Matrix) (r c : Nat) (dark : Bool) : Matrix := g.update r c fun m => { m with dark := dark }

/-- The `n` by `n` matrix of light, unblocked modules. -/
def Matrix.blank (n : Nat) : Matrix := List.replicate n (List.replicate n Module.light)

/-- The `n` by `n` matrix held in `MTX`. -/
def State.matrix (s : State) (n : Nat) : Matrix :=
  (List.range n).map fun r => (s.readBytes .mtx (moduleOffset r 0) n).map moduleOf

/-- Write rows of modules into `MTX` from row `r` on, each from column 0 on. -/
def State.writeRows (s : State) (r : Nat) : Matrix → State
  | [] => s
  | row :: rows => (s.writeBytes .mtx (moduleOffset r 0) (row.map byteOfModule)).writeRows (r + 1) rows

/-- Write a matrix into `MTX` from position `(0, 0)` on. -/
def State.writeMatrix (s : State) (g : Matrix) : State := s.writeRows 0 g

/-- The colours of a matrix. -/
def Matrix.colours (g : Matrix) : List (List Bool) := g.map fun row => row.map Module.dark

/-- A matrix of unblocked modules with the given colours. -/
def Matrix.ofColours (p : List (List Bool)) : Matrix := p.map fun row => row.map fun d => { dark := d, blk := false }

end Sys2Proof.Machine
end

