-- ==== Sys2Proof/Machine/Mask.lean ====
section
/-! DEFINITION. Mask patterns, the four penalty rules, mask selection and the metadata writer: the commands MASK_SCORE,
MASK_EVAL, MASK_APPLY and WRITE_INFO (46_mask R250 to R264). -/

namespace Sys2Proof.Machine

/-! ### Mask patterns -/

/-- The mask predicates, by index (46_mask R250). -/
def maskPred (m : BitVec 3) (r c : Nat) : Bool :=
  match m.toNat with
  | 0 => (r + c) % 2 == 0
  | 1 => r % 2 == 0
  | 2 => c % 3 == 0
  | 3 => (r + c) % 3 == 0
  | 4 => (r / 2 + c / 3) % 2 == 0
  | 5 => (r * c) % 2 + (r * c) % 3 == 0
  | 6 => ((r * c) % 2 + (r * c) % 3) % 2 == 0
  | _ => ((r + c) % 2 + (r * c) % 3) % 2 == 0

/-- A module under a mask: flipped where the predicate holds, unless it is blocked (46_mask R252). -/
def maskModule (m : BitVec 3) (r c : Nat) (x : Module) : Module :=
  if x.blk then x else { x with dark := x.dark ^^ maskPred m r c }

/-- Apply a mask to a matrix (46_mask R252). -/
def applyMask (m : BitVec 3) (g : Matrix) : Matrix :=
  g.mapIdx fun r row => row.mapIdx fun c x => maskModule m r c x

/-! ### Metadata -/

/-- The two modules of bit `i` of the format string (45_placement R227). -/
def formatCells (n i : Nat) : List (Nat × Nat) :=
  [if i ≤ 5 then (i, 8) else if i = 6 then (7, 8) else if i = 7 then (8, 8) else if i = 8 then (8, 7) else (8, 14 - i),
   if i ≤ 7 then (8, n - 1 - i) else (n - 15 + i, 8)]

/-- The two modules of bit `i` of the version string (45_placement R228). -/
def versionCells (n i : Nat) : List (Nat × Nat) := [(n - 11 + i % 3, i / 3), (i / 3, n - 11 + i % 3)]

/-- The positions the metadata writer paints, with their colours: the format string, and from version 7 on the version
string (45_placement R227, R228, 46_mask R264). -/
def infoCells (v : BitVec 6) (n : Nat) (e : BitVec 2) (m : BitVec 3) : List (Nat × Nat × Bool) :=
  ((List.range 15).flatMap fun i => (formatCells n i).map fun p => (p.1, p.2, (formatString e m).getLsbD i))
    ++ if 7 ≤ v.toNat then
        (List.range 18).flatMap fun i => (versionCells n i).map fun p => (p.1, p.2, (versionString v).getLsbD i)
      else []

/-- Write the metadata into a matrix; the `blk` bits stay (46_mask R257, R264). -/
def writeInfo (v : BitVec 6) (n : Nat) (e : BitVec 2) (m : BitVec 3) (g : Matrix) : Matrix :=
  (infoCells v n e m).foldl (fun g p => g.paint p.1 p.2.1 p.2.2) g

/-! ### Penalty rules -/

/-- The score of a maximal run (46_mask R253). -/
def runScore (len : Nat) : Nat := if 5 ≤ len then 3 + (len - 5) else 0

/-- The score of the runs from here on, when a run of `len` modules of colour `b` has just been read. -/
def runsFrom (b : Bool) (len : Nat) : List Bool → Nat
  | [] => runScore len
  | x :: xs => if x = b then runsFrom b (len + 1) xs else runScore len + runsFrom x 1 xs

/-- Rule 1 on one line (46_mask R253). -/
def lineRuns : List Bool → Nat
  | [] => 0
  | x :: xs => runsFrom x 1 xs

/-- Rule 2 on two adjacent rows: their 2 x 2 windows of one colour (46_mask R254). -/
def rowPairBlocks : List Bool → List Bool → Nat
  | a :: b :: as, c :: d :: bs =>
    (if a = b ∧ a = c ∧ a = d then 3 else 0) + rowPairBlocks (b :: as) (d :: bs)
  | _, _ => 0

/-- Rule 2 (46_mask R254). -/
def blockPenalty : List (List Bool) → Nat
  | p :: q :: rest => rowPairBlocks p q + blockPenalty (q :: rest)
  | _ => 0

/-- The pattern `1 0 1 1 1 0 1 0 0 0 0` of rule 3 (46_mask R255). -/
def finderThenLight : List Bool := [true, false, true, true, true, false, true, false, false, false, false]

/-- The pattern `0 0 0 0 1 0 1 1 1 0 1` of rule 3 (46_mask R255). -/
def lightThenFinder : List Bool := [false, false, false, false, true, false, true, true, true, false, true]

/-- The eleven modules from here on are one of the two patterns (46_mask R255). -/
def isFinderWindow (l : List Bool) : Bool := l.take 11 == finderThenLight || l.take 11 == lightThenFinder

/-- Rule 3 on one line: every window that lies in it (46_mask R255; 90_conflicts C2). -/
def lineWindows : List Bool → Nat
  | [] => 0
  | x :: xs => (if isFinderWindow (x :: xs) then 40 else 0) + lineWindows xs

/-- The columns of a matrix of `n` columns. -/
def transpose (n : Nat) (p : List (List Bool)) : List (List Bool) :=
  p.foldr (List.zipWith List.cons) (List.replicate n [])

/-- A line rule summed over every row and every column (46_mask, section 2). -/
def sumLines (n : Nat) (f : List Bool → Nat) (p : List (List Bool)) : Nat :=
  (p.map f).sum + ((transpose n p).map f).sum

/-- Rule 4 from the number of dark modules and of all modules (46_mask R256). -/
def balancePenalty (d t : Nat) : Nat := 10 * (((200 * d - 100 * t) + (100 * t - 200 * d) + 5 * t) / (10 * t))

/-- The four penalties of one candidate. -/
structure Penalty where
  p1 : Nat
  p2 : Nat
  p3 : Nat
  p4 : Nat
  deriving DecidableEq, Repr

/-- The penalties of the colours of an `n` by `n` matrix (46_mask R253 to R256). -/
def penaltyOf (n : Nat) (p : List (List Bool)) : Penalty :=
  { p1 := sumLines n lineRuns p
    p2 := blockPenalty p
    p3 := sumLines n lineWindows p
    p4 := balancePenalty (p.map fun row => row.count true).sum (n * n) }

/-- The total penalty (46_mask R258). -/
def Penalty.total (x : Penalty) : Nat := x.p1 + x.p2 + x.p3 + x.p4

/-- The candidate of mask `m`: mask, format string, version string, on a copy of the symbol (46_mask R257). -/
def candidate (v : BitVec 6) (n : Nat) (e : BitVec 2) (g : Matrix) (m : BitVec 3) : Matrix :=
  writeInfo v n e m (applyMask m g)

/-- The penalties of mask `m` on the symbol in `MTX`, which stays as it is (46_mask R257, R258). -/
def maskPenalty (s : State) (m : BitVec 3) : Penalty :=
  let n := s.regs.side.toNat
  penaltyOf n (candidate s.regs.version n s.latch.ctrl.ecc (s.matrix n) m).colours

/-- The index of the first least entry of the penalties of masks 0 to 7 (46_mask R259). -/
def bestMask (ps : List Nat) : Nat :=
  (List.range' 1 7).foldl (fun best m => if ps.getD m 0 < ps.getD best 0 then m else best) 0

/-! ### Commands -/

/-- MASK_SCORE (46_mask R260). -/
def cmdMaskScore (m : BitVec 3) (s : State) : Except CmdError State := do
  s.checkSymbol
  let p := maskPenalty s m
  .ok (s.setRegs fun r =>
    { r with
      pen := r.pen.set m.toNat (BitVec.ofNat 32 p.total) m.isLt
      res0 := BitVec.ofNat 32 p.p1
      res1 := BitVec.ofNat 32 p.p2
      res2 := BitVec.ofNat 32 p.p3
      res3 := BitVec.ofNat 32 p.p4 })

/-- MASK_SCORE (46_mask R260). -/
def execMaskScore (m : BitVec 3) (s : State) : Host.Outcome State Fault Refusal := finish s (cmdMaskScore m s)

/-- The total penalties of masks 0 to 7 (46_mask R258, R262). -/
def allPenalties (s : State) : List Nat := (List.range 8).map fun m => (maskPenalty s (BitVec.ofNat 3 m)).total

/-- MASK_EVAL (46_mask R262). -/
def cmdMaskEval (s : State) : Except CmdError State := do
  s.checkSymbol
  let ps := allPenalties s
  let best := bestMask ps
  .ok (s.setRegs fun r =>
    { r with
      pen := Vector.ofFn fun m => BitVec.ofNat 32 (ps.getD m.val 0)
      mask := BitVec.ofNat 3 best
      res0 := BitVec.ofNat 32 best
      res1 := BitVec.ofNat 32 (ps.getD best 0) })

/-- MASK_EVAL (46_mask R262). -/
def execMaskEval (s : State) : Host.Outcome State Fault Refusal := finish s (cmdMaskEval s)

/-- MASK_APPLY (46_mask R263). -/
def cmdMaskApply (m : BitVec 3) (s : State) : Except CmdError State := do
  s.checkSymbol
  .ok ((s.writeMatrix (applyMask m (s.matrix s.regs.side.toNat))).setRegs fun r => { r with mask := m })

/-- MASK_APPLY (46_mask R263). -/
def execMaskApply (m : BitVec 3) (s : State) : Host.Outcome State Fault Refusal := finish s (cmdMaskApply m s)

/-- WRITE_INFO (46_mask R264). -/
def cmdWriteInfo (m : BitVec 3) (s : State) : Except CmdError State := do
  s.checkSymbol
  let n := s.regs.side.toNat
  let e := s.latch.ctrl.ecc
  .ok ((s.writeMatrix (writeInfo s.regs.version n e m (s.matrix n))).setRegs fun r =>
    { r with
      format := formatString e m
      verinfo := if 7 ≤ r.version.toNat then versionString r.version else 0 })

/-- WRITE_INFO (46_mask R264). -/
def execWriteInfo (m : BitVec 3) (s : State) : Host.Outcome State Fault Refusal := finish s (cmdWriteInfo m s)

end Sys2Proof.Machine
end

