-- ==== Sys2Proof/Machine/ReedSolomon.lean ====
section
/-! DEFINITION. The Reed-Solomon encoder: generator polynomial, block remainder, and the commands RS_GENPOLY and
RS_ENCODE (41_reed_solomon R120 to R127). Polynomials are coefficient lists, highest degree first (R120). -/

namespace Sys2Proof.Machine

/-- One step of the generator's iteration: multiply by `(x + α^i)` (41_reed_solomon R122). -/
def genPolyStep (g : List Byte) (i : Nat) : List Byte :=
  List.zipWith (· ^^^ ·) (g ++ [0]) (0 :: g.map fun c => gfMul c (romExp i))

/-- The coefficients `[g_0, ..., g_n]` of the generator polynomial of degree `n` (41_reed_solomon R121, R122). -/
def genPoly (n : Nat) : List Byte := (List.range n).foldl genPolyStep [1]

/-- One step of the shift-register division by the polynomial whose coefficients after the leading 1 are `g`
(41_reed_solomon R124). -/
def rsStep (g rem : List Byte) (d : Byte) : List Byte :=
  let f := d ^^^ rem.headD 0
  List.zipWith (fun r c => r ^^^ gfMul c f) (rem.tail ++ [0]) g

/-- `rs_ecc(d, n)`, the `n` ECC codewords of a block (41_reed_solomon R123, R124). -/
def rsEcc (d : List Byte) (n : Nat) : List Byte := d.foldl (rsStep (genPoly n).tail) (List.replicate n 0)

/-- RS_GENPOLY (41_reed_solomon R126). -/
def cmdRsGenpoly (n : Byte) (s : State) : Except CmdError State := do
  let dst := s.latch.arg1.toNat
  raiseIf (decide (n = 0)) .arg
  raiseIf (decide (dst + n.toNat + 1 > 8192)) .arg
  .ok ((s.writeBytes .cwm dst (genPoly n.toNat)).withRes0 (n.toNat + 1))

/-- RS_GENPOLY (41_reed_solomon R126). -/
def execRsGenpoly (n : Byte) (s : State) : Host.Outcome State Fault Refusal := finish s (cmdRsGenpoly n s)

/-- RS_ENCODE: every source byte is read before any byte is written (41_reed_solomon R127). -/
def cmdRsEncode (k n : Byte) (s : State) : Except CmdError State := do
  let src := s.latch.arg0.toNat
  let dst := s.latch.arg1.toNat
  raiseIf (decide (n = 0)) .arg
  raiseIf (decide (src + k.toNat > 8192)) .arg
  raiseIf (decide (dst + n.toNat > 8192)) .arg
  let e := rsEcc (s.readBytes .cwm src k.toNat) n.toNat
  .ok ((s.writeBytes .cwm dst e).withRes0 n.toNat)

/-- RS_ENCODE (41_reed_solomon R127). -/
def execRsEncode (k n : Byte) (s : State) : Host.Outcome State Fault Refusal := finish s (cmdRsEncode k n s)

end Sys2Proof.Machine
end

