-- ==== Sys2Proof/Machine/Blocks.lean ====
section
/-! DEFINITION. Block split and interleaving, and the commands INTERLEAVE, QUERY_ECC, QUERY_CAP and QUERY_ALIGN
(44_blocks R207 to R213). -/

namespace Sys2Proof.Machine

/-- Cut a list into consecutive pieces of the given lengths. -/
def cutBy : List Nat → List Byte → List (List Byte)
  | [], _ => []
  | n :: ns, d => d.take n :: cutBy ns (d.drop n)

/-- The blocks of the data codewords: group 1, then group 2 (44_blocks R207). -/
def splitBlocks (info : EccInfo) (d : List Byte) : List (List Byte) :=
  cutBy (List.replicate info.blocks1 info.cw1 ++ List.replicate info.blocks2 info.cw2) d

/-- Entry 0 of every list that has one, then entry 1, and so on below `k` (44_blocks R208). -/
def columnsOf (k : Nat) (blocks : List (List Byte)) : List Byte :=
  (List.range k).flatMap fun i => blocks.filterMap fun b => b[i]?

/-- The final codeword stream: the data columns, then the ECC columns (44_blocks R208). -/
def codewordStream (info : EccInfo) (d : List Byte) : List Byte :=
  let blocks := splitBlocks info d
  columnsOf (max info.cw1 info.cw2) blocks
    ++ columnsOf info.eccPerBlock (blocks.map fun b => rsEcc b info.eccPerBlock)

/-- Where `STREAM` begins in `CWM` (10_state R47). -/
def streamBase : Nat := 0x1000

/-- INTERLEAVE (44_blocks R209). -/
def cmdInterleave (s : State) : Except CmdError State := do
  raiseIf (decide (s.ver = 0)) .sequence
  let out := codewordStream s.eccInfo (s.readBytes .cwm 0 s.eccInfo.dataCw)
  .ok ((s.writeBytes .cwm streamBase out).setRegs fun r =>
    { r with totcw := BitVec.ofNat 12 out.length, rembits := BitVec.ofNat 3 (remTab s.ver) })

/-- INTERLEAVE (44_blocks R209). -/
def execInterleave (s : State) : Host.Outcome State Fault Refusal := finish s (cmdInterleave s)

/-- The total number of codewords of a symbol, `D + n*(b1 + b2)` (44_blocks R200). -/
def EccInfo.total (i : EccInfo) : Nat := i.dataCw + i.eccPerBlock * (i.blocks1 + i.blocks2)

/-- Write all four result registers. -/
def State.withRes (s : State) (a b c d : Nat) : State :=
  s.setRegs fun r =>
    { r with
      res0 := BitVec.ofNat 32 a
      res1 := BitVec.ofNat 32 b
      res2 := BitVec.ofNat 32 c
      res3 := BitVec.ofNat 32 d }

/-- Four bytes as one word, the first in the low byte (44_blocks R211, R213). -/
def packBytes (a b c d : Nat) : Nat := a ||| b <<< 8 ||| c <<< 16 ||| d <<< 24

/-- QUERY_ECC (44_blocks R211). -/
def cmdQueryEcc (v : BitVec 6) (e : BitVec 2) (s : State) : Except CmdError State := do
  raiseIf (!versionOk v) .arg
  let i := eccTab v.toNat (eccLevel e)
  .ok (s.withRes i.dataCw i.eccPerBlock (packBytes i.blocks1 i.cw1 i.blocks2 i.cw2)
    (i.total ||| remTab v.toNat <<< 16))

/-- QUERY_ECC (44_blocks R211). -/
def execQueryEcc (v : BitVec 6) (e : BitVec 2) (s : State) : Host.Outcome State Fault Refusal :=
  finish s (cmdQueryEcc v e s)

/-- QUERY_CAP (44_blocks R212). -/
def cmdQueryCap (v : BitVec 6) (md : BitVec 4) (e : BitVec 2) (s : State) : Except CmdError State := do
  raiseIf (!versionOk v) .arg
  match modeOf md with
  | none => .error .arg
  | some m => .ok (s.withRes0 (capTab v.toNat (eccLevel e) m))

/-- QUERY_CAP (44_blocks R212). -/
def execQueryCap (v : BitVec 6) (md : BitVec 4) (e : BitVec 2) (s : State) : Host.Outcome State Fault Refusal :=
  finish s (cmdQueryCap v md e s)

/-- QUERY_ALIGN; missing entries are 0 (44_blocks R213). -/
def cmdQueryAlign (v : BitVec 6) (s : State) : Except CmdError State := do
  raiseIf (!versionOk v) .arg
  let p := alignTab v.toNat
  .ok (s.withRes p.length (packBytes (p.getD 0 0) (p.getD 1 0) (p.getD 2 0) (p.getD 3 0))
    (packBytes (p.getD 4 0) (p.getD 5 0) (p.getD 6 0) 0) (side v.toNat))

/-- QUERY_ALIGN (44_blocks R213). -/
def execQueryAlign (v : BitVec 6) (s : State) : Host.Outcome State Fault Refusal := finish s (cmdQueryAlign v s)

end Sys2Proof.Machine
end

