-- ==== Sys2Proof/Machine/Placement.lean ====
section
/-! DEFINITION. The ModulePlacer: function patterns, reserved areas and the zig-zag data placement, and the commands
PLACE_FUNCTION and PLACE_DATA (45_placement R220 to R233). `n` is the side length. -/

namespace Sys2Proof.Machine

/-- All pairs of a list with a list, the first component slowest. -/
def pairs (xs ys : List Nat) : List (Nat × Nat) := xs.flatMap fun x => ys.map fun y => (x, y)

/-- The Chebyshev distance of `(i, j)` from `(k, k)`. -/
def ringOf (k i j : Nat) : Nat := max (max i k - min i k) (max j k - min j k)

/-! ### Function patterns and reserved areas (steps 1 to 6) -/

/-- A finder pattern with top-left corner `(r0, c0)` (45_placement R221). -/
def placeFinder (g : Matrix) (r0 c0 : Nat) : Matrix :=
  (pairs (List.range 7) (List.range 7)).foldl
    (fun g (i, j) => g.place (r0 + i) (c0 + j) (ringOf 3 i j != 2)) g

/-- Step 1: the three finder patterns (45_placement R221). -/
def stepFinders (n : Nat) (g : Matrix) : Matrix := placeFinder (placeFinder (placeFinder g 0 0) 0 (n - 7)) (n - 7) 0

/-- Reserve a list of positions. -/
def reserveAll (g : Matrix) (ps : List (Nat × Nat)) : Matrix := ps.foldl (fun g (r, c) => g.reserve r c) g

/-- Step 2: the one-module strips beside the finder patterns (45_placement R222). -/
def stepSeparators (n : Nat) (g : Matrix) : Matrix :=
  reserveAll g ((List.range 8).flatMap fun i =>
    [(i, 7), (7, i), (i, n - 8), (7, n - 8 + i), (n - 8, i), (n - 8 + i, 7)])

/-- The 25 positions of the alignment pattern centred at `(r, c)`, with their offsets from its corner. -/
def alignmentCells (r c : Nat) : List (Nat × Nat × Nat × Nat) :=
  (pairs (List.range 5) (List.range 5)).map fun (i, j) => (r + i - 2, c + j - 2, i, j)

/-- One candidate centre of step 3: skipped if its box meets a blocked module (45_placement R223). -/
def placeAlignment (g : Matrix) (r c : Nat) : Matrix :=
  if (alignmentCells r c).any fun (y, x, _, _) => (g.get y x).blk then g
  else (alignmentCells r c).foldl (fun g (y, x, i, j) => g.place y x (ringOf 2 i j != 1)) g

/-- Step 3: the alignment patterns (45_placement R223, 44_blocks R205). -/
def stepAlignment (v : Nat) (g : Matrix) : Matrix :=
  (pairs (alignTab v) (alignTab v)).foldl (fun g (r, c) => placeAlignment g r c) g

/-- Place a timing module unless it is blocked; dark at even offsets (45_placement R224; 90_conflicts C3). -/
def placeTiming (g : Matrix) (r c i : Nat) : Matrix := if (g.get r c).blk then g else g.place r c (i % 2 == 0)

/-- Step 4: the timing patterns on row 6 and column 6 (45_placement R224). -/
def stepTiming (n : Nat) (g : Matrix) : Matrix :=
  (List.range n).foldl (fun g i => placeTiming (placeTiming g 6 i i) i 6 i) g

/-- Step 5: the dark module (45_placement R225). -/
def stepDarkModule (v : Nat) (g : Matrix) : Matrix := g.place (4 * v + 9) 8 true

/-- Step 6a: the format areas (45_placement R226). -/
def stepFormatAreas (n : Nat) (g : Matrix) : Matrix :=
  reserveAll g
    ((List.range 9).flatMap (fun i => [(8, i), (i, 8)])
      ++ (List.range 8).flatMap fun i => [(8, n - 8 + i), (n - 8 + i, 8)])

/-- Step 6b: the version areas, from version 7 on (45_placement R228). -/
def stepVersionAreas (v n : Nat) (g : Matrix) : Matrix :=
  if 7 ≤ v then
    reserveAll g ((pairs (List.range 6) (List.range 3)).flatMap fun (x, y) => [(x, n - 11 + y), (n - 11 + y, x)])
  else g

/-- The matrix of version `v` after steps 1 to 6 (45_placement R230). -/
def functionMatrix (v : Nat) : Matrix :=
  let n := side v
  stepVersionAreas v n (stepFormatAreas n (stepDarkModule v (stepTiming n (stepAlignment v
    (stepSeparators n (stepFinders n (Matrix.blank n)))))))

/-- PLACE_FUNCTION (45_placement R230). -/
def cmdPlaceFunction (s : State) : Except CmdError State := do
  raiseIf (decide (s.ver = 0)) .sequence
  .ok ((((s.clearMem .mtx).writeMatrix (functionMatrix s.ver)).setRegs fun r =>
    { r with side := BitVec.ofNat 8 (side s.ver) }).setQz false)

/-- PLACE_FUNCTION (45_placement R230). -/
def execPlaceFunction (s : State) : Host.Outcome State Fault Refusal := finish s (cmdPlaceFunction s)

/-! ### The zig-zag scan (step 7) -/

/-- The double columns of the scan from column `right` on, each with its direction; `fuel` bounds their number
(45_placement R231). -/
def scanColumns : Nat → Nat → Bool → List (Nat × Bool)
  | 0, _, _ => []
  | fuel + 1, right, up =>
    if right = 0 then []
    else
      let right := if right = 6 then 5 else right
      (right, up) :: scanColumns fuel (right - 2) (!up)

/-- The scan order of an `n` by `n` symbol (45_placement R231). -/
def scanOrder (n : Nat) : List (Nat × Nat) :=
  (scanColumns n (n - 1) true).flatMap fun (right, up) =>
    (List.range n).flatMap fun k =>
      let r := if up then n - 1 - k else k
      [(r, right), (r, right - 1)]

/-- The scan in progress: the matrix, the bits still to place, and the unblocked modules met. -/
structure Scan where
  matrix : Matrix
  bits : List Bool
  met : Nat
  deriving DecidableEq, Repr

/-- Visit one position: an unblocked module takes the next bit, if one is left, and stays unblocked (45_placement
R232, R233). -/
def scanVisit (t : Scan) (p : Nat × Nat) : Scan :=
  if (t.matrix.get p.1 p.2).blk then t
  else
    match t.bits with
    | [] => { t with met := t.met + 1 }
    | b :: bs => { matrix := t.matrix.paint p.1 p.2 b, bits := bs, met := t.met + 1 }

/-- Place a bit string into a matrix of side `n` (45_placement R232). -/
def placeBits (n : Nat) (g : Matrix) (bits : List Bool) : Scan :=
  (scanOrder n).foldl scanVisit { matrix := g, bits := bits, met := 0 }

/-- The bit sequence placed: the codeword stream and the remainder bits (45_placement R232). -/
def dataBits (s : State) : List Bool :=
  unpackBits (s.readBytes .cwm streamBase s.regs.totcw.toNat) ++ List.replicate s.regs.rembits.toNat false

/-- PLACE_DATA (45_placement R233). -/
def cmdPlaceData (s : State) : Except CmdError State := do
  s.checkSymbol
  raiseIf (decide (s.regs.totcw.toNat > 4096)) .sequence
  let n := s.regs.side.toNat
  let bits := dataBits s
  let t := placeBits n (s.matrix n) bits
  .ok ((s.writeMatrix t.matrix).setRegs fun r =>
    { r with res0 := BitVec.ofNat 32 (bits.length - t.bits.length), res1 := BitVec.ofNat 32 t.met })

/-- PLACE_DATA (45_placement R233). -/
def execPlaceData (s : State) : Host.Outcome State Fault Refusal := finish s (cmdPlaceData s)

end Sys2Proof.Machine
end

