-- ==== Sys2Proof/Machine/Output.lean ====
section
/-! DEFINITION. The quiet zone, the compact binary form, and the whole pipeline: the commands QUIET_ZONE, SERIALIZE,
DESERIALIZE and GENERATE (47_output R280 to R299). -/

namespace Sys2Proof.Machine

/-- The quiet-zoned matrix of an `n` by `n` symbol: four light modules on every side (47_output R280). -/
def quietZone (n : Nat) (p : List (List Bool)) : List (List Bool) :=
  let margin := List.replicate 4 (List.replicate (n + 8) false)
  let edge := List.replicate 4 false
  margin ++ p.map (fun row => edge ++ row ++ edge) ++ margin

/-- QUIET_ZONE (47_output R281). -/
def cmdQuietZone (s : State) : Except CmdError State := do
  s.checkSymbol
  let n := s.regs.side.toNat
  let z := quietZone n (s.matrix n).colours
  .ok ((((s.clearMem .mtx).writeMatrix (Matrix.ofColours z)).setRegs fun r =>
    { r with side := BitVec.ofNat 8 (n + 8) }).setQz true)

/-- QUIET_ZONE (47_output R281). -/
def execQuietZone (s : State) : Host.Outcome State Fault Refusal := finish s (cmdQuietZone s)

/-! ### The compact binary form -/

/-- The binary form of a quiet-zoned matrix of side `n`: signature, reserved byte, side, modules row by row
(47_output R286). -/
def binaryForm (n : Nat) (p : List (List Bool)) : List Byte :=
  [0x51, 0x52, 0x52, 0x00, BitVec.ofNat 8 n] ++ packBits p.flatten

/-- SERIALIZE (47_output R287). -/
def cmdSerialize (s : State) : Except CmdError State := do
  let n := s.regs.side.toNat
  raiseIf (decide (s.ver = 0) || !s.status.qz || decide (n ≠ side s.ver + 8)) .sequence
  let form := binaryForm n (s.matrix n).colours
  .ok ((s.writeBytes .out 0 form).setRegs fun r => { r with outlen := BitVec.ofNat 14 form.length })

/-- SERIALIZE (47_output R287). -/
def execSerialize (s : State) : Host.Outcome State Fault Refusal := finish s (cmdSerialize s)

/-- Cut a bit string into rows of `n` bits. -/
def rowsOf (n : Nat) : Nat → List Bool → List (List Bool)
  | 0, _ => []
  | k + 1, bs => bs.take n :: rowsOf n k (bs.drop n)

/-- The number of body bytes of the binary form of side `n`, `ceil(n*n / 8)` (47_output R286). -/
def bodyLength (n : Nat) : Nat := (n * n + 7) / 8

/-- A byte is the post-quiet-zone side of a version 1 to 40 (47_output R282, R289). -/
def isQuietSide (n : Nat) : Bool := decide (29 ≤ n) && decide (n ≤ 185) && decide ((n - 29) % 4 = 0)

/-- DESERIALIZE (47_output R289). -/
def cmdDeserialize (s : State) : Except CmdError State := do
  let len := s.latch.outlen.toNat
  raiseIf (decide (len > 8192)) .arg
  raiseIf (decide (len < 5)) .malformed
  raiseIf (s.readBytes .out 0 3 != [0x51, 0x52, 0x52]) .malformed
  let n := (s.readByte .out 4).toNat
  raiseIf (!isQuietSide n) .malformed
  raiseIf (decide (len < 5 + bodyLength n)) .malformed
  let p := rowsOf n n (unpackBits (s.readBytes .out 5 (bodyLength n)))
  .ok ((((s.clearMem .mtx).writeMatrix (Matrix.ofColours p)).setRegs fun r =>
    { r with side := BitVec.ofNat 8 n, version := BitVec.ofNat 6 ((n - 29) / 4 + 1) }).setQz true)

/-- DESERIALIZE (47_output R289). -/
def execDeserialize (s : State) : Host.Outcome State Fault Refusal := finish s (cmdDeserialize s)

/-! ### The whole pipeline -/

/-- The validation of GENERATE: its errors, or that it goes on (47_output R296). -/
def generateChecks (s : State) : Except CmdError Unit := do
  let req := s.latch.ctrl.reqVersion.toNat
  raiseIf (decide (req > 40) || decide (s.inLen > 8192)) .arg
  raiseIf s.eciBad .arg
  let m := selectMode s.input s.latch.ctrl.forceByte
  let _ ← chooseVersion s.latch.ctrl.ecc m s.inLen req s.latch.ctrl.eciEn
  .ok ()

/-- The commands GENERATE runs up to the mask evaluation, in order, on the same latched operands (47_output R296). -/
def generateSymbol (s : State) : Except CmdError State := do
  let s ← cmdModeSelect s
  let s ← cmdVersionSelect s
  let s ← cmdPack s
  let s ← cmdPad s
  let s ← cmdInterleave s
  let s ← cmdPlaceFunction s
  let s ← cmdPlaceData s
  cmdMaskEval s

/-- The commands GENERATE runs with the selected mask, and its result registers (47_output R296). -/
def generateFinish (s : State) : Except CmdError State := do
  let best := s.regs.mask
  let s ← cmdMaskApply best s
  let s ← cmdWriteInfo best s
  let s ← cmdQuietZone s
  .ok (s.withRes s.ver best.toNat s.regs.side.toNat s.regs.bitlen.toNat)

/-- GENERATE: validation, then construction; on an error nothing is written (47_output R296, R297). -/
def cmdGenerate (s : State) : Except CmdError State := do
  generateChecks s
  let t ← generateSymbol s
  generateFinish t

/-- GENERATE (47_output R296). -/
def execGenerate (s : State) : Host.Outcome State Fault Refusal := finish s (cmdGenerate s)

end Sys2Proof.Machine
end

