-- ==== Sys2Proof/Machine/Abort.lean ====
section
/-! DEFINITION. The result of every command before its completion, the bytes its rule writes, and the soft reset, which
makes the bytes of an aborted command unspecified (70_reset_and_hazards R341; log 8). -/

namespace Sys2Proof.Machine

/-- What a command answers before its completion: the state with its writes made, or its error. -/
def command : Instr → State → Except CmdError State
  | .nop, s => .ok s
  | .gfExp a, s => .ok (s.withRes0 (romExp a.toNat).toNat)
  | .gfLog a, s => cmdGfLog a s
  | .gfMul a b, s => .ok (s.withRes0 (gfMul a b).toNat)
  | .gfDiv a b, s => (gfDiv a b).map fun q => s.withRes0 q.toNat
  | .rsGenpoly n, s => cmdRsGenpoly n s
  | .rsEncode k n, s => cmdRsEncode k n s
  | .bchFormat e m, s => .ok (s.withRes0 (formatString e m).toNat)
  | .bchVersion v, s => .ok (s.withRes0 (versionString v).toNat)
  | .modeSelect, s => cmdModeSelect s
  | .versionSelect, s => cmdVersionSelect s
  | .pack, s => cmdPack s
  | .pad, s => cmdPad s
  | .queryEcc v e, s => cmdQueryEcc v e s
  | .queryCap v md e, s => cmdQueryCap v md e s
  | .queryAlign v, s => cmdQueryAlign v s
  | .interleave, s => cmdInterleave s
  | .placeFunction, s => cmdPlaceFunction s
  | .placeData, s => cmdPlaceData s
  | .maskScore m, s => cmdMaskScore m s
  | .maskEval, s => cmdMaskEval s
  | .maskApply m, s => cmdMaskApply m s
  | .writeInfo m, s => cmdWriteInfo m s
  | .quietZone, s => cmdQuietZone s
  | .serialize, s => cmdSerialize s
  | .deserialize, s => cmdDeserialize s
  | .generate, s => cmdGenerate s

/-- Consecutive bytes of a memory: the region, the first offset, the number. -/
abbrev Span := Region × Nat × Nat

/-- All of `MTX`. -/
def wholeMtx : Span := (.mtx, 0, 65536)

/-- The unblocked positions of a matrix of side `n` among a list of positions. -/
def unblockedOf (g : Matrix) (ps : List (Nat × Nat)) : List (Nat × Nat) := ps.filter fun p => !(g.get p.1 p.2).blk

/-- The byte of each position. -/
def moduleSpans (ps : List (Nat × Nat)) : List Span := ps.map fun p => (.mtx, moduleOffset p.1 p.2, 1)

/-- The memory bytes the rule of a command that does not end in error writes, started in `s` and ended in `t`: exactly
the offsets its pseudocode assigns to. -/
def writtenBy (i : Instr) (s t : State) : List Span :=
  let n := s.regs.side.toNat
  match i with
  | .rsGenpoly d => [(.cwm, s.latch.arg1.toNat, d.toNat + 1)]
  | .rsEncode _ d => [(.cwm, s.latch.arg1.toNat, d.toNat)]
  | .pack => [(.cwm, 0, (t.regs.bitlen.toNat + 7) / 8)]
  | .pad => [(.cwm, 0, s.eccInfo.dataCw)]
  | .interleave => [(.cwm, streamBase, t.regs.totcw.toNat)]
  | .placeFunction | .quietZone | .deserialize => [wholeMtx]
  | .placeData => moduleSpans ((unblockedOf (s.matrix n) (scanOrder n)).take (dataBits s).length)
  | .maskApply _ => moduleSpans (unblockedOf (s.matrix n) (pairs (List.range n) (List.range n)))
  | .writeInfo m => moduleSpans ((infoCells s.regs.version n s.latch.ctrl.ecc m).map fun p => (p.1, p.2.1))
  | .serialize => [(.out, 0, 5 + bodyLength n)]
  | .generate => [(.cwm, 0, t.regs.dcw.toNat), (.cwm, streamBase, t.regs.totcw.toNat), wholeMtx]
  | .nop | .gfExp _ | .gfLog _ | .gfMul _ _ | .gfDiv _ _ | .bchFormat _ _ | .bchVersion _ | .modeSelect | .versionSelect
  | .queryEcc _ _ | .queryCap _ _ _ | .queryAlign _ | .maskScore _ | .maskEval => []

/-- The memory bytes the running command's rule writes: none if the word is illegal or the command ends in error. -/
def State.footprint (s : State) : List Span :=
  match decode s.latch.word with
  | .error _ => []
  | .ok i =>
    match command i s with
    | .error _ => []
    | .ok t => writtenBy i s t

/-- The bytes of a span become unspecified. -/
def State.forget (s : State) (p : Span) : State :=
  s.writeBytes p.1 p.2.1 ((List.range p.2.2).map fun k => Config.freeByte s.free p.1 (p.2.1 + k))

/-- The running command is aborted: every byte its rule writes becomes unspecified (70_reset_and_hazards R341). -/
def State.abort (s : State) : State :=
  { s.footprint.foldl State.forget s with free := s.free + 1 }

/-- Every register takes its reset value and the sequencer is idle; memories and host side stay (70_reset_and_hazards
R341). -/
def State.resetRegs (s : State) : State := { s with regs := Regs.reset, status := Status.reset, latch := Latch.reset }

/-- The soft reset (10_state R28, 70_reset_and_hazards R341). -/
def State.softReset (s : State) : State := if s.status.busy then s.abort.resetRegs else s.resetRegs

end Sys2Proof.Machine
end

