-- ==== Sys2Proof/Machine/Bus.lean ====
section
/-! DEFINITION. The host bus: the address map, the access rules, and what each access does (20_memory R60 to R73,
10_state R20 to R39, 70_reset_and_hazards R350 to R353). -/

namespace Sys2Proof.Machine

/-- The registers of 10_state R20. -/
inductive Reg where
  | id | ctrl | cmd | status | arg0 | arg1 | inlen | outlen
  | res0 | res1 | res2 | res3
  | version | mode | bitlen | mask | format | verinfo | side
  | dcw | totcw | rembits
  | pen (m : Fin 8)
  | errinfo0 | errinfo1
  deriving DecidableEq, Repr

/-- The register at an offset of the register page, if the table lists one (10_state R20). -/
def regAt (offset : Nat) : Option Reg :=
  match offset with
  | 0x000 => some .id
  | 0x004 => some .ctrl
  | 0x008 => some .cmd
  | 0x00C => some .status
  | 0x010 => some .arg0
  | 0x014 => some .arg1
  | 0x018 => some .inlen
  | 0x01C => some .outlen
  | 0x020 => some .res0
  | 0x024 => some .res1
  | 0x028 => some .res2
  | 0x02C => some .res3
  | 0x030 => some .version
  | 0x034 => some .mode
  | 0x038 => some .bitlen
  | 0x03C => some .mask
  | 0x040 => some .format
  | 0x044 => some .verinfo
  | 0x048 => some .side
  | 0x050 => some .dcw
  | 0x054 => some .totcw
  | 0x058 => some .rembits
  | 0x060 => some (.pen 0)
  | 0x064 => some (.pen 1)
  | 0x068 => some (.pen 2)
  | 0x06C => some (.pen 3)
  | 0x070 => some (.pen 4)
  | 0x074 => some (.pen 5)
  | 0x078 => some (.pen 6)
  | 0x07C => some (.pen 7)
  | 0x080 => some .errinfo0
  | 0x084 => some .errinfo1
  | _ => none

/-- The offset of a register in the window (10_state R20). -/
def regOffset : Reg → Nat
  | .id => 0x000
  | .ctrl => 0x004
  | .cmd => 0x008
  | .status => 0x00C
  | .arg0 => 0x010
  | .arg1 => 0x014
  | .inlen => 0x018
  | .outlen => 0x01C
  | .res0 => 0x020
  | .res1 => 0x024
  | .res2 => 0x028
  | .res3 => 0x02C
  | .version => 0x030
  | .mode => 0x034
  | .bitlen => 0x038
  | .mask => 0x03C
  | .format => 0x040
  | .verinfo => 0x044
  | .side => 0x048
  | .dcw => 0x050
  | .totcw => 0x054
  | .rembits => 0x058
  | .pen m => 0x060 + 4 * m.val
  | .errinfo0 => 0x080
  | .errinfo1 => 0x084

/-- The first window offset of a memory (20_memory R60). -/
def memBase : Region → Nat
  | .inp => 0x10000
  | .cwm => 0x20000
  | .mtx => 0x30000
  | .out => 0x40000

/-- The number of bytes of an access. -/
def widthBytes : Width → Nat
  | .byte => 1
  | .half => 2
  | .word => 4

/-- What an access reaches: a register, or a memory at an offset. -/
inductive Target where
  | reg (r : Reg)
  | mem (r : Region) (offset : Nat)
  deriving DecidableEq, Repr

/-- The memory that holds a window offset, if one does (20_memory R60). -/
def regionAt (o : Nat) : Option Region :=
  if 0x10000 ≤ o ∧ o < 0x12000 then some .inp
  else if 0x20000 ≤ o ∧ o < 0x22000 then some .cwm
  else if 0x30000 ≤ o ∧ o < 0x40000 then some .mtx
  else if 0x40000 ≤ o ∧ o < 0x42000 then some .out
  else none

/-- What an access of a width at a window offset reaches; nothing for an access the rules forbid (20_memory R62 to
R64). -/
def target (w : Width) (offset : BitVec 20) : Option Target :=
  let o := offset.toNat
  if o < 0x1000 then
    if w = .word then (regAt o).map .reg else none
  else if o % widthBytes w = 0 then (regionAt o).map fun r => .mem r (o - memBase r)
  else none

/-- The value of a register (10_state R20 to R39). -/
def State.readReg (s : State) : Reg → Word
  | .id => 0x51524301
  | .ctrl => s.regs.ctrl.toWord
  | .cmd => 0
  | .status => s.status.toWord
  | .arg0 => s.regs.arg0.setWidth 32
  | .arg1 => s.regs.arg1.setWidth 32
  | .inlen => s.regs.inlen.setWidth 32
  | .outlen => s.regs.outlen.setWidth 32
  | .res0 => s.regs.res0
  | .res1 => s.regs.res1
  | .res2 => s.regs.res2
  | .res3 => s.regs.res3
  | .version => s.regs.version.setWidth 32
  | .mode => s.regs.mode.setWidth 32
  | .bitlen => s.regs.bitlen.setWidth 32
  | .mask => s.regs.mask.setWidth 32
  | .format => s.regs.format.setWidth 32
  | .verinfo => s.regs.verinfo.setWidth 32
  | .side => s.regs.side.setWidth 32
  | .dcw => s.regs.dcw.setWidth 32
  | .totcw => s.regs.totcw.setWidth 32
  | .rembits => s.regs.rembits.setWidth 32
  | .pen m => s.regs.pen.get m
  | .errinfo0 => s.regs.errinfo.word0
  | .errinfo1 => s.regs.errinfo.word1

/-- The bits of a register that are not reserved (10_state R20 to R39, R52; bit 31 of `CTRL` always reads 0, R28).
DEDUCED (log 20): all of `CMD` (R29) and bit 31 of `CTRL` count as reserved, so they read 0 while a command runs too. -/
def regBits : Reg → Word
  | .id => 0xFFFFFFFF
  | .ctrl => 0x00FF3F1F
  | .cmd => 0
  | .status => 0x0000FF1F
  | .arg0 | .arg1 => 0x1FFF
  | .inlen | .outlen => 0x3FFF
  | .res0 | .res1 | .res2 | .res3 => 0xFFFFFFFF
  | .version => 0x3F
  | .mode => 0xF
  | .bitlen => 0xFFFF
  | .mask => 0x7
  | .format => 0x7FFF
  | .verinfo => 0x3FFFF
  | .side => 0xFF
  | .dcw | .totcw => 0xFFF
  | .rembits => 0x7
  | .pen _ => 0xFFFFFFFF
  | .errinfo0 => 0x3FF3
  | .errinfo1 => 0xFFFF

/-- A register whose reads are true while a command runs (70_reset_and_hazards R353). -/
def readsTrueWhileBusy : Reg → Bool
  | .id | .status => true
  | _ => false

/-- A host read of a register: its value, or while a command runs a free value with the reserved bits 0
(70_reset_and_hazards R353; log 5). -/
def State.hostReadReg (s : State) (r : Reg) : State :=
  if s.status.busy && !readsTrueWhileBusy r then
    { s with rdata := Config.freeWord s.free &&& regBits r, free := s.free + 1 }
  else { s with rdata := s.readReg r }

/-- A host write to `CTRL`: the soft reset if bit 31 is set, else the fields (10_state R22, R28). -/
def State.writeCtrl (s : State) (d : Word) : State :=
  if d.getLsbD 31 then s.softReset else s.setRegs fun r => { r with ctrl := Ctrl.ofWord d }

/-- A host write to `CMD`: the command starts, or the word is dropped and `OVERRUN` set (10_state R29,
70_reset_and_hazards R350, R351). -/
def State.writeCmd (s : State) (d : Word) : State :=
  if s.status.busy then { s with status := { s.status with overrun := true } } else s.start d

/-- A host write to a register; a read-only register ignores it (10_state R20, R31, R52). -/
def State.hostWriteReg (s : State) (r : Reg) (d : Word) : State :=
  match r with
  | .ctrl => s.writeCtrl d
  | .cmd => s.writeCmd d
  | .status => { s with status := s.status.cleared d }
  | .arg0 => s.setRegs fun r => { r with arg0 := d.setWidth 13 }
  | .arg1 => s.setRegs fun r => { r with arg1 := d.setWidth 13 }
  | .inlen => s.setRegs fun r => { r with inlen := d.setWidth 14 }
  | .outlen => s.setRegs fun r => { r with outlen := d.setWidth 14 }
  | .id | .res0 | .res1 | .res2 | .res3 | .version | .mode | .bitlen | .mask | .format | .verinfo | .side | .dcw
  | .totcw | .rembits | .pen _ | .errinfo0 | .errinfo1 => s

/-- The bytes of a word, low byte first (20_memory R65). -/
def wordBytes (n : Nat) (d : Word) : List Byte := (List.range n).map fun k => d.extractLsb' (8 * k) 8

/-- The word of some bytes, the first in the low bits (20_memory R65). -/
def wordOfBytes : List Byte → Word
  | [] => 0
  | b :: bs => b.setWidth 32 ||| wordOfBytes bs <<< 8

/-- A host read of a memory (20_memory R65). PRESUMED (log 19): the byte of an 8-bit access stands in bits 7:0, and the bits
above a narrow read's bytes are 0. -/
def State.hostReadMem (s : State) (w : Width) (r : Region) (a : Nat) : State :=
  { s with rdata := wordOfBytes (s.readBytes r a (widthBytes w)) }

/-- A host write to a memory (20_memory R65). PRESUMED (log 19): the byte of an 8-bit access is bits 7:0 of the data. -/
def State.hostWriteMem (s : State) (w : Width) (r : Region) (a : Nat) (d : Word) : State :=
  s.writeBytes r a (wordBytes (widthBytes w) d)

/-- One host access (20_memory R64, R68, R71; 70_reset_and_hazards R352). DEDUCED (log 6): a forbidden access is a bus error
while a command runs too, and no hazard. -/
def hostAccess (op : BusOp) (s : State) : Host.Outcome State Fault Refusal :=
  match op with
  | .read w o =>
    match target w o with
    | none => .fault .busError
    | some (.reg r) => .next (s.hostReadReg r)
    | some (.mem r a) => if s.status.busy then .fault .memoryHazard else .next (s.hostReadMem w r a)
  | .write w o d =>
    match target w o with
    | none => .fault .busError
    | some (.reg r) => .next (s.hostWriteReg r d)
    | some (.mem r a) => if s.status.busy then .fault .memoryHazard else .next (s.hostWriteMem w r a d)

/-- The window offset of a host address, if it lies in the window at `QRCORE_BASE` (20_memory R61). -/
def windowOffset (addr : Nat) : Option (BitVec 20) :=
  if Config.qrcoreBase ≤ addr ∧ addr < Config.qrcoreBase + 0x100000 then
    some (BitVec.ofNat 20 (addr - Config.qrcoreBase))
  else none

/-- The host issues an access at a host address: it waits behind the ones issued before (20_memory R71); an address
outside the window does not reach this block (R61, R76). -/
def State.hostIssue (s : State) (addr : Nat) (op : BitVec 20 → BusOp) : State :=
  match windowOffset addr with
  | none => s
  | some o => { s with bus := s.bus ++ [.access (op o)] }

end Sys2Proof.Machine
end

