-- ==== Sys2Proof/Machine/Dispatch.lean ====
section
/-! DEFINITION. The meaning of every command: one arm per constructor, in the order of the opcode table. -/

namespace Sys2Proof.Machine

def exec (i : Instr) (s : State) : Host.Outcome State Fault Refusal :=
  match i with
  | .nop => Sys2Proof.Machine.execNop s
  | .gfExp a => Sys2Proof.Machine.execGfExp a s
  | .gfLog a => Sys2Proof.Machine.execGfLog a s
  | .gfMul a b => Sys2Proof.Machine.execGfMul a b s
  | .gfDiv a b => Sys2Proof.Machine.execGfDiv a b s
  | .rsGenpoly n => Sys2Proof.Machine.execRsGenpoly n s
  | .rsEncode k n => Sys2Proof.Machine.execRsEncode k n s
  | .bchFormat e m => Sys2Proof.Machine.execBchFormat e m s
  | .bchVersion v => Sys2Proof.Machine.execBchVersion v s
  | .modeSelect => Sys2Proof.Machine.execModeSelect s
  | .versionSelect => Sys2Proof.Machine.execVersionSelect s
  | .pack => Sys2Proof.Machine.execPack s
  | .pad => Sys2Proof.Machine.execPad s
  | .queryEcc v e => Sys2Proof.Machine.execQueryEcc v e s
  | .queryCap v md e => Sys2Proof.Machine.execQueryCap v md e s
  | .queryAlign v => Sys2Proof.Machine.execQueryAlign v s
  | .interleave => Sys2Proof.Machine.execInterleave s
  | .placeFunction => Sys2Proof.Machine.execPlaceFunction s
  | .placeData => Sys2Proof.Machine.execPlaceData s
  | .maskScore m => Sys2Proof.Machine.execMaskScore m s
  | .maskEval => Sys2Proof.Machine.execMaskEval s
  | .maskApply m => Sys2Proof.Machine.execMaskApply m s
  | .writeInfo m => Sys2Proof.Machine.execWriteInfo m s
  | .quietZone => Sys2Proof.Machine.execQuietZone s
  | .serialize => Sys2Proof.Machine.execSerialize s
  | .deserialize => Sys2Proof.Machine.execDeserialize s
  | .generate => Sys2Proof.Machine.execGenerate s

end Sys2Proof.Machine
end

