-- ==== Sys2Proof/Machine/Sequencer.lean ====
section
/-! DEFINITION. The sequencer's turn and the order of the two agents (10_state R50, 20_memory R71, R72; logs 3, 7). -/

namespace Sys2Proof.Machine

/-- The running command completes: the latched word is decoded and executed; an illegal word completes with
`ERR_ILLEGAL_CMD` (30_encoding R85, 60_exceptions R313). -/
def runCommand (s : State) : Host.Outcome State Fault Refusal :=
  match decode s.latch.word with
  | .error _ => .next (s.raise .illegalCmd)
  | .ok i => exec i s

/-- The sequencer's turn: the running command completes; while idle nothing happens (60_exceptions R330). -/
def sequencerTurn (s : State) : Host.Outcome State Fault Refusal := if s.status.busy then runCommand s else .next s

/-- The next event: the oldest of `bus`, or the sequencer's turn when the host has nothing to do (log 3). -/
def nextEvent (s : State) : Host.Outcome State Fault Refusal :=
  match s.bus with
  | [] => sequencerTurn s
  | .sequencer :: rest => sequencerTurn { s with bus := rest }
  | .access op :: rest => hostAccess op { s with bus := rest }

/-- A command word at the point of execution: the sequencer has latched it and has the next turn (log 4). -/
def State.placeCommand (s : State) (w : Word) : State := { s.start w with bus := .sequencer :: s.bus }

end Sys2Proof.Machine
end

