-- ==== Sys2Proof/Machine/Step.lean ====
section
/-! DEFINITION. One step of the machine: one host access, or the completion of one command. -/

namespace Sys2Proof.Machine

/-- One step (20_memory R71, R72; log 3). -/
def step (s : State) : Host.Outcome State Fault Refusal := nextEvent s

/-- The state whose next step runs the command of a word: the word's lower `nbits` bits latched by the sequencer, the
others 0, and the sequencer's turn (log 4). -/
def State.withFetchWord (s : State) (nbits w : Nat) : State := s.placeCommand (BitVec.ofNat 32 (w % 2 ^ nbits))

end Sys2Proof.Machine
end

