-- ==== Sys2Proof/Safety.lean ====
section
/-! DEFINITION. The terms claims are stated in: the machine's invariants, what it means that memory or the host side is
unchanged, the tests that raise `ERR_ARG` and `ERR_SEQUENCE`, and small readers of outcomes. -/

namespace Sys2Proof.Machine

/-! ### Invariants -/

/-- Every local memory is in canonical form (log 2). -/
def State.canonical (s : State) : Prop := ∀ r : Region, (s.mem r).wf = true

/-- Every listed offset lies in its memory, and `MTX` lists only implemented bits (20_memory R60, 10_state R48). -/
def State.bounded (s : State) : Prop :=
  ∀ r : Region, ∀ c ∈ (s.mem r).cells, c.1 < memSize r ∧ c.2 &&& memBits r = c.2

/-- `SIDE` agrees with `STATUS.QZ`: no matrix or a symbol's side when `QZ = 0`, a quiet-zoned side when `QZ = 1`
(10_state R30, R36, 47_output R282, R284). -/
def State.sideOk (s : State) : Prop :=
  if s.status.qz then isQuietSide s.regs.side.toNat = true
  else s.regs.side = 0 ∨ ∃ v, 1 ≤ v ∧ v ≤ 40 ∧ s.regs.side.toNat = side v

/-- The values the spec lets the pipeline registers and the error flags hold (10_state R36, 60_exceptions R310 to
R312). -/
def State.ranged (s : State) : Prop :=
  s.regs.version.toNat ≤ 40 ∧
    (s.regs.mode = 0 ∨ s.regs.mode = 1 ∨ s.regs.mode = 2 ∨ s.regs.mode = 4) ∧
    s.status.errcode.toNat ≤ 7 ∧
    (s.status.err = true ↔ s.status.errcode ≠ 0) ∧ s.sideOk

/-! ### What stays the same -/

/-- Every byte of every memory reads as before. -/
def SameMemory (s t : State) : Prop := ∀ (r : Region) (x : Nat), t.readByte r x = s.readByte r x

/-- Every byte of every memory reads as before, but for the `n` bytes of a region from offset `a` on. -/
def SameOutside (s t : State) (r : Region) (a n : Nat) : Prop :=
  ∀ (q : Region) (x : Nat), q ≠ r ∨ x < a ∨ a + n ≤ x → t.readByte q x = s.readByte q x

/-- Every byte of every memory but `MTX` reads as before. -/
def SameButMtx (s t : State) : Prop := ∀ (q : Region) (x : Nat), q ≠ .mtx → t.readByte q x = s.readByte q x

/-- The sequencer's latch and the host's side are as before: events to come, last read data, free-value counter. -/
def SameHostSide (s t : State) : Prop := t.latch = s.latch ∧ t.bus = s.bus ∧ t.rdata = s.rdata ∧ t.free = s.free

/-- A command has completed without error: the flags of 60_exceptions R310 with `QZ` as given, and the latch and the
host's side as before. -/
def CompletedWith (s t : State) (qz : Bool) : Prop :=
  t.status = { s.status with qz := qz, err := false, errcode := 0, busy := false, done := true } ∧ SameHostSide s t

/-- A command that does not touch `QZ` has completed without error (60_exceptions R310). -/
def Completed (s t : State) : Prop := CompletedWith s t s.status.qz

/-- A command has ended in an error other than `ERR_CAPACITY`, with the given code: nothing but `STATUS` has changed
(60_exceptions R311). -/
def FailedWith (s t : State) (code : BitVec 8) : Prop :=
  t.regs = s.regs ∧ t.status = { s.status with err := true, errcode := code, busy := false, done := true } ∧
    SameMemory s t ∧ SameHostSide s t

/-! ### Modules as `MTX` holds them (10_state R48) -/

/-- `MTX.dark(r, c)` (00_scope R13). -/
def State.dark (s : State) (r c : Nat) : Bool := (s.readByte .mtx (256 * r + c)).getLsbD 0

/-- `MTX.blk(r, c)` (00_scope R13). -/
def State.blk (s : State) (r c : Nat) : Bool := (s.readByte .mtx (256 * r + c)).getLsbD 1

/-- Bit `i` of the stream held in `CWM` from offset `base` on (20_memory R67). -/
def State.streamBit (s : State) (base i : Nat) : Bool := (s.readByte .cwm (base + i / 8)).getLsbD (7 - i % 8)

/-- Every module reads light and unblocked outside the first `n` rows and columns. -/
def State.blankBeyond (s : State) (n : Nat) : Prop :=
  ∀ r c, r < 256 → c < 256 → n ≤ r ∨ n ≤ c → s.readByte .mtx (256 * r + c) = 0

/-- `MTX` holds a finished quiet-zoned matrix, as QUIET_ZONE, GENERATE and DESERIALIZE leave it (47_output R281, R283,
R289): no module is blocked and everything outside the matrix is light. -/
def State.finished (s : State) : Prop :=
  1 ≤ s.ver ∧ s.ver ≤ 40 ∧ s.regs.side.toNat = 17 + 4 * s.ver + 8 ∧ s.status.qz = true ∧
    (∀ r c, r < 256 → c < 256 → s.blk r c = false) ∧ s.blankBeyond s.regs.side.toNat

/-- `MTX` holds an unmasked symbol of the current version (60_exceptions R317). -/
def State.hasSymbol (s : State) : Prop :=
  1 ≤ s.ver ∧ s.ver ≤ 40 ∧ s.regs.side.toNat = side s.ver ∧ s.status.qz = false

/-! ### The tests that raise errors -/

/-- The `ERR_ARG` test of a command on its operand fields and latched registers, PACK's input-class test aside
(60_exceptions R316, R321). -/
def argTest (i : Instr) (s : State) : Bool :=
  match i with
  | .rsGenpoly n => decide (n = 0) || decide (s.latch.arg1.toNat + n.toNat + 1 > 8192)
  | .rsEncode k n =>
    decide (n = 0) || decide (s.latch.arg0.toNat + k.toNat > 8192) || decide (s.latch.arg1.toNat + n.toNat > 8192)
  | .modeSelect => decide (s.latch.inlen.toNat > 8192)
  | .versionSelect | .generate =>
    decide (s.latch.ctrl.reqVersion.toNat > 40) || decide (s.latch.inlen.toNat > 8192)
      || (s.latch.ctrl.eciEn && decide (s.latch.ctrl.eciDesignator.toNat ≥ 128))
  | .pack =>
    decide (s.latch.inlen.toNat > 8192) || (s.latch.ctrl.eciEn && decide (s.latch.ctrl.eciDesignator.toNat ≥ 128))
  | .queryEcc v _ | .queryAlign v => decide (v.toNat = 0) || decide (v.toNat > 40)
  | .queryCap v md _ => decide (v.toNat = 0) || decide (v.toNat > 40) || !(md == 1 || md == 2 || md == 4)
  | .deserialize => decide (s.latch.outlen.toNat > 8192)
  | .nop | .gfExp _ | .gfLog _ | .gfMul _ _ | .gfDiv _ _ | .bchFormat _ _ | .bchVersion _ | .pad | .interleave
  | .placeFunction | .placeData | .maskScore _ | .maskEval | .maskApply _ | .writeInfo _ | .quietZone | .serialize =>
    false

/-- The precondition of a command on the pipeline registers (60_exceptions R317). -/
def sequenceOk (i : Instr) (s : State) : Bool :=
  let symbol := decide (s.regs.version ≠ 0) && decide (s.regs.side.toNat = side s.regs.version.toNat) && !s.status.qz
  match i with
  | .versionSelect => decide (s.regs.mode ≠ 0)
  | .pack => decide (s.regs.mode ≠ 0) && decide (s.regs.version ≠ 0)
  | .pad | .interleave | .placeFunction => decide (s.regs.version ≠ 0)
  | .placeData => symbol && decide (s.regs.totcw.toNat ≤ 4096)
  | .maskScore _ | .maskEval | .maskApply _ | .writeInfo _ | .quietZone => symbol
  | .serialize =>
    decide (s.regs.version ≠ 0) && s.status.qz && decide (s.regs.side.toNat = side s.regs.version.toNat + 8)
  | .nop | .gfExp _ | .gfLog _ | .gfMul _ _ | .gfDiv _ _ | .rsGenpoly _ | .rsEncode _ _ | .bchFormat _ _
  | .bchVersion _ | .modeSelect | .queryEcc _ _ | .queryCap _ _ _ | .queryAlign _ | .deserialize | .generate => true

/-- PACK's `ERR_ARG` test on the input bytes (43_bitstream R176): some byte is outside the class of `MODE`. -/
def packClassTest (s : State) : Bool :=
  (modeOf s.regs.mode).any fun m => s.input.any fun b => !inClass m b

/-! ### The field by its recurrence -/

/-- Double a field element and reduce it (40_galois R100). -/
def doubled (x : Nat) : Nat := if 2 * x > 255 then (2 * x) ^^^ 0x11D else 2 * x

/-- `α^i` by repeated doubling, apart from the ROM (40_galois R100). -/
def alphaPow (i : Nat) : Nat := (List.range i).foldl (fun x _ => doubled x) 1

/-! ### Reed-Solomon as polynomials -/

/-- The value at `x` of a polynomial given by its coefficients, highest degree first (41_reed_solomon R120). -/
def polyAt (x : Byte) (p : List Byte) : Byte := p.foldl (fun acc c => gfMul acc x ^^^ c) 0

/-! ### Character classes and versions -/

/-- A digit byte (43_bitstream R160). -/
def numericByte (b : Byte) : Bool := decide (0x30 ≤ b.toNat ∧ b.toNat ≤ 0x39)

/-- A byte of the Alphanumeric class, as the table lists it (43_bitstream R160). -/
def alphanumericByte (b : Byte) : Bool :=
  decide ((0x30 ≤ b.toNat ∧ b.toNat ≤ 0x39) ∨ (0x41 ≤ b.toNat ∧ b.toNat ≤ 0x5A) ∨
    b.toNat ∈ [0x20, 0x24, 0x25, 0x2A, 0x2B, 0x2D, 0x2E, 0x2F, 0x3A])

/-- Version `v` takes `n` characters in mode `m`: its table capacity admits them and the stream, header included, fits
its data codewords (43_bitstream R174). -/
def VersionFits (eciEn : Bool) (e : EccLevel) (m : Mode) (n v : Nat) : Prop :=
  1 ≤ v ∧ v ≤ 40 ∧ n ≤ capTab v e m ∧ need eciEn n m v ≤ 8 * (eccTab v e).dataCw

/-- The version a selection with requested version `req` gives: the requested one, or the smallest that fits
(43_bitstream R174). -/
def VersionChosen (eciEn : Bool) (e : EccLevel) (m : Mode) (n req v : Nat) : Prop :=
  VersionFits eciEn e m n v ∧ (req = 0 → ∀ u, u < v → ¬VersionFits eciEn e m n u) ∧ (req ≠ 0 → v = req)

/-! ### The address map -/

/-- The offsets of the register page that hold a register (10_state R20). -/
def registerOffsets : List Nat :=
  [0x000, 0x004, 0x008, 0x00C, 0x010, 0x014, 0x018, 0x01C, 0x020, 0x024, 0x028, 0x02C, 0x030, 0x034, 0x038, 0x03C]
    ++ [0x040, 0x044, 0x048, 0x050, 0x054, 0x058, 0x060, 0x064, 0x068, 0x06C, 0x070, 0x074, 0x078, 0x07C, 0x080, 0x084]

/-- A window offset lies in one of the four memories (20_memory R60). -/
def inMemoryWindow (p : Nat) : Prop :=
  (0x10000 ≤ p ∧ p ≤ 0x11FFF) ∨ (0x20000 ≤ p ∧ p ≤ 0x21FFF) ∨ (0x30000 ≤ p ∧ p ≤ 0x3FFFF) ∨ (0x40000 ≤ p ∧ p ≤ 0x41FFF)

/-- An access of a width at a window offset is one 20_memory R62 and R63 admit, on a mapped offset (R64). -/
def AccessAdmitted (w : Width) (p : Nat) : Prop :=
  (w = .word ∧ p ∈ registerOffsets) ∨ (inMemoryWindow p ∧ p % widthBytes w = 0)

/-- A register a host write changes nothing in (10_state R20, R52). -/
def Reg.readOnly : Reg → Bool
  | .ctrl | .cmd | .status | .arg0 | .arg1 | .inlen | .outlen => false
  | .id | .res0 | .res1 | .res2 | .res3 | .version | .mode | .bitlen | .mask | .format | .verinfo | .side | .dcw
  | .totcw | .rembits | .pen _ | .errinfo0 | .errinfo1 => true

/-! ### Penalties by counting -/

/-- The colours of an `n` by `n` matrix as rows (46_mask, section 2). -/
def gridRows (n : Nat) (f : Nat → Nat → Bool) : List (List Bool) :=
  (List.range n).map fun r => (List.range n).map fun c => f r c

/-- The `2n` lines of an `n` by `n` matrix: its rows, then its columns. -/
def gridLines (n : Nat) (f : Nat → Nat → Bool) : List (List Bool) :=
  gridRows n f ++ gridRows n fun r c => f c r

/-- The eleven modules of a line from `i` on are one of the two patterns of rule 3 (46_mask R255). -/
def windowAt (l : List Bool) (i : Nat) : Bool :=
  (l.drop i).take 11 == [true, false, true, true, true, false, true, false, false, false, false]
    || (l.drop i).take 11 == [false, false, false, false, true, false, true, true, true, false, true]

/-! ### Outcomes -/

/-- The outcome is a next state that satisfies a test. -/
def nextSatisfies (o : Host.Outcome State Fault Refusal) (p : State → Bool) : Bool :=
  match o with
  | .next t => p t
  | .fault _ => false
  | .refused _ => false

/-- The outcome is the given fault. -/
def isFault (o : Host.Outcome State Fault Refusal) (f : Fault) : Bool :=
  match o with
  | .next _ => false
  | .fault g => g == f
  | .refused _ => false

end Sys2Proof.Machine
end

