-- ==== Sys2Proof/Certificates/Slice0/Obligations.lean ====
section
/-! DEFINITION. The statements for the provers, each from the spec's rules. -/

open Sys2Proof Sys2Proof.Machine

/-! ### Encoding (30_encoding) -/

/-- Every command is well-formed and decodes from its own word: no bit of an encoding is dropped (R80 to R83). -/
def Obligations.DecodeEncodeRoundTrip : Prop := ∀ i : Instr, i.wellFormed = true ∧ decode (encode i) = .ok i

/-- A word that decodes is the word of the command it decodes to: each word has one meaning (R80, R86). -/
def Obligations.EncodeDecodeRoundTrip : Prop := ∀ (w : Word) (i : Instr), decode w = .ok i → encode i = w

/-- A word decodes to a command exactly if it matches that command's row, and is illegal exactly if it matches no row
(R83, R85). -/
def Obligations.IllegalWordsMatchNoRow : Prop :=
  ∀ w : Word,
    (∀ i, decode w = .ok i → w &&& i.opcode.mask = i.opcode.matchValue) ∧
    (∀ o : Opcode, w &&& o.mask = o.matchValue → ∃ i, decode w = .ok i ∧ i.opcode = o) ∧
    ((∃ e, decode w = .error e) ↔ ∀ o : Opcode, w &&& o.mask ≠ o.matchValue)

/-- The words of the examples of the command rules decode to their commands, one of each family. -/
def Obligations.ExampleWordsDecode : Prop :=
  decode 0x01000008 = .ok (.gfExp 8) ∧ decode 0x030053CA = .ok (.gfMul 0x53 0xCA) ∧
    decode 0x1100100A = .ok (.rsEncode 16 10) ∧ decode 0x20000008 = .ok (.bchFormat 1 0) ∧
    decode 0x32000000 = .ok .pack ∧ decode 0x34000503 = .ok (.queryEcc 5 3) ∧
    decode 0x35000111 = .ok (.queryCap 1 1 1) ∧ decode 0x40000000 = .ok .placeFunction ∧
    decode 0x52000001 = .ok (.maskApply 1) ∧ decode 0x61000000 = .ok .serialize ∧ decode 0x70000000 = .ok .generate

/-- The assembler gives the word of a command for the command's line, gives no other word, and refuses a line with a
wrong number of operands or an operand that does not fit (R88). -/
def Obligations.AssemblerNeverTruncates : Prop :=
  (∀ i : Instr, i.asm.assemble = some (encode i)) ∧
    (∀ (l : Asm) (w : Word), l.assemble = some w → ∃ i : Instr, i.asm = l ∧ encode i = w) ∧
    (∀ l : Asm, l.arityOk = false ∨ l.operandsFit = false → l.assemble = none)

/-! ### The step -/

/-- A step at a running command whose latched word decodes runs that command, when the sequencer has the turn: with no
event waiting, or with its turn at the front of the bus. A host access at the front is performed instead, and an idle
sequencer's turn changes nothing (20_memory R71, R72; the order of the two agents is the model's, log 3). -/
def Obligations.StepRunsDecodedCommand : Prop :=
  (∀ (s : State) (i : Instr), s.status.busy = true → decode s.latch.word = .ok i →
    (s.bus = [] → step s = exec i s) ∧
    (∀ rest, s.bus = .sequencer :: rest → step s = exec i { s with bus := rest })) ∧
  (∀ (s : State) (w : Word) (i : Instr), decode w = .ok i → step (s.withFetchWord 32 w.toNat) = exec i (s.start w)) ∧
  (∀ (s : State) op rest, s.bus = .access op :: rest → step s = hostAccess op { s with bus := rest }) ∧
  (∀ s : State, s.status.busy = false →
    (s.bus = [] → step s = .next s) ∧ (∀ rest, s.bus = .sequencer :: rest → step s = .next { s with bus := rest }))

/-- An illegal word completes with code 1 and changes nothing but `STATUS` (60_exceptions R313, 30_encoding R85). -/
def Obligations.IllegalWordCompletes : Prop :=
  ∀ (s : State) (e : DecodeError), s.status.busy = true → s.bus = [] → decode s.latch.word = .error e →
    ∃ t, step s = .next t ∧ FailedWith s t 0x01

/-- A host write to `CMD` starts a command while the block is idle, and is dropped with `OVERRUN` set while it is busy
(10_state R29, 70_reset_and_hazards R350, R351). -/
def Obligations.CommandStart : Prop :=
  ∀ (s : State) (w : Word) (rest : List BusEvent), s.bus = .access (.write .word 0x00008 w) :: rest →
    (s.status.busy = false → step s = .next
      { s with
        bus := rest
        status := { s.status with busy := true, done := false }
        latch :=
          { word := w
            ctrl := s.regs.ctrl
            arg0 := s.regs.arg0
            arg1 := s.regs.arg1
            inlen := s.regs.inlen
            outlen := s.regs.outlen } }) ∧
    (s.status.busy = true → step s = .next { s with bus := rest, status := { s.status with overrun := true } })

/-! ### Completion and errors (60_exceptions) -/

/-- Every command goes on to a next state with `BUSY` clear and `DONE` set; without error `ERR` and `ERRCODE` are 0, and
with an error nothing but `STATUS` and, for code 4, `ERRINFO` has changed (R310, R311, R312, R322). -/
def Obligations.CommandsAreAllOrNothing : Prop :=
  ∀ (i : Instr) (s : State), ∃ t, exec i s = .next t ∧
    t.status.busy = false ∧ t.status.done = true ∧ t.status.overrun = s.status.overrun ∧ SameHostSide s t ∧
    t.status.errcode.toNat ≤ 7 ∧
    (t.status.err = false → t.status.errcode = 0 ∧ t.regs.errinfo = s.regs.errinfo) ∧
    (t.status.err = true → t.status.errcode ≠ 0 ∧ t.status.qz = s.status.qz ∧ SameMemory s t ∧
      t.regs = { s.regs with errinfo := t.regs.errinfo } ∧
      (t.status.errcode ≠ 0x04 → t.regs.errinfo = s.regs.errinfo))

/-- A command writes a register, `STATUS.QZ` or a memory only if the register's or memory's rule names it as a writer
(10_state R22, R30, R32 to R34, R36 to R39, R46 to R49). -/
def Obligations.OnlyNamedCommandsWrite : Prop :=
  ∀ (i : Instr) (s t : State), exec i s = .next t →
    (t.regs.ctrl = s.regs.ctrl ∧ t.regs.arg0 = s.regs.arg0 ∧ t.regs.arg1 = s.regs.arg1 ∧
      t.regs.inlen = s.regs.inlen) ∧
    (t.regs.outlen ≠ s.regs.outlen → i = .serialize) ∧
    (t.regs.version ≠ s.regs.version → i ∈ [.versionSelect, .deserialize, .generate]) ∧
    (t.regs.mode ≠ s.regs.mode → i ∈ [.modeSelect, .generate]) ∧
    (t.regs.bitlen ≠ s.regs.bitlen → i ∈ [.pack, .generate]) ∧
    (t.regs.mask ≠ s.regs.mask → i ∈ [.maskEval, .generate] ∨ ∃ m, i = .maskApply m) ∧
    (t.regs.format ≠ s.regs.format ∨ t.regs.verinfo ≠ s.regs.verinfo → i = .generate ∨ ∃ m, i = .writeInfo m) ∧
    (t.regs.side ≠ s.regs.side ∨ t.status.qz ≠ s.status.qz →
      i ∈ [.placeFunction, .quietZone, .deserialize, .generate]) ∧
    (t.regs.dcw ≠ s.regs.dcw → i ∈ [.versionSelect, .pad, .generate]) ∧
    (t.regs.totcw ≠ s.regs.totcw ∨ t.regs.rembits ≠ s.regs.rembits → i ∈ [.interleave, .generate]) ∧
    (∀ k : Fin 8, t.regs.pen.get k ≠ s.regs.pen.get k →
      i ∈ [.maskEval, .generate] ∨ ∃ m, i = .maskScore m ∧ m.toNat = k.val) ∧
    (t.regs.errinfo ≠ s.regs.errinfo → i ∈ [.versionSelect, .generate] ∧ t.status.errcode = 0x04) ∧
    (∀ x, t.readByte .inp x = s.readByte .inp x) ∧
    (∀ x, t.readByte .out x ≠ s.readByte .out x → i = .serialize) ∧
    (∀ x, t.readByte .cwm x ≠ s.readByte .cwm x →
      i ∈ [.pack, .pad, .interleave, .generate] ∨ (∃ n, i = .rsGenpoly n) ∨ ∃ k n, i = .rsEncode k n) ∧
    (∀ x, t.readByte .mtx x ≠ s.readByte .mtx x →
      i ∈ [.placeFunction, .placeData, .quietZone, .deserialize, .generate] ∨ (∃ m, i = .maskApply m) ∨
        ∃ m, i = .writeInfo m)

/-- A command reads only the latched copies of `CTRL`, `ARG0`, `ARG1`, `INLEN` and `OUTLEN`: whatever the host wrote to
them since the start stays in them (but for the `OUTLEN` that SERIALIZE writes) and changes nothing else
(70_reset_and_hazards R351; log 18 for `OUTLEN`). -/
def Obligations.OnlyLatchedOperandsAreRead : Prop :=
  ∀ (i : Instr) (s t : State) (c : Ctrl) (a b : BitVec 13) (n o : BitVec 14), exec i s = .next t →
    ∃ u, exec i { s with regs := { s.regs with ctrl := c, arg0 := a, arg1 := b, inlen := n, outlen := o } } = .next u ∧
      u = { t with regs := { t.regs with ctrl := c, arg0 := a, arg1 := b, inlen := n, outlen := u.regs.outlen } } ∧
      (i = .serialize ∧ t.status.err = false → u.regs.outlen = t.regs.outlen) ∧
      (¬(i = .serialize ∧ t.status.err = false) → u.regs.outlen = o)

/-- `ERR_ARG` is raised by exactly the tests of the table; PACK's input-class test is made after its `ERR_SEQUENCE`
tests (R316, R321). -/
def Obligations.ErrArgExactly : Prop :=
  ∀ (i : Instr) (s t : State), exec i s = .next t →
    (t.status.errcode = 0x02 ↔
      argTest i s = true ∨ (i = .pack ∧ sequenceOk i s = true ∧ packClassTest s = true))

/-- `ERR_SEQUENCE` is raised exactly when the command's `ERR_ARG` tests pass and its precondition fails (R317, R321). -/
def Obligations.ErrSequenceExactly : Prop :=
  ∀ (i : Instr) (s t : State), s.ranged → exec i s = .next t →
    (t.status.errcode = 0x03 ↔ argTest i s = false ∧ sequenceOk i s = false)

/-- `ERR_OVERFLOW` is raised exactly by a PACK or a PAD whose stream exceeds the data codewords, `ERR_MALFORMED` exactly
by a DESERIALIZE of a blob that fails a test, `ERR_DOMAIN` exactly by GF_LOG 0 and GF_DIV by 0 (R315, R318, R319). -/
def Obligations.DataErrorsExactly : Prop :=
  ∀ (i : Instr) (s t : State), exec i s = .next t →
    (t.status.errcode = 0x05 ↔
      (i = .pad ∧ s.ver ≠ 0 ∧ s.regs.bitlen.toNat > 8 * s.eccInfo.dataCw) ∨
      (i = .pack ∧ argTest i s = false ∧ sequenceOk i s = true ∧ packClassTest s = false ∧
        ∃ m, modeOf s.regs.mode = some m ∧
          need s.latch.ctrl.eciEn s.latch.inlen.toNat m s.ver > 8 * s.eccInfo.dataCw)) ∧
    (t.status.errcode = 0x06 ↔
      i = .deserialize ∧ s.latch.outlen.toNat ≤ 8192 ∧
        (s.latch.outlen.toNat < 5 ∨
          (s.readByte .out 0 ≠ 0x51 ∨ s.readByte .out 1 ≠ 0x52 ∨ s.readByte .out 2 ≠ 0x52) ∨
          ¬(∃ v, 1 ≤ v ∧ v ≤ 40 ∧ (s.readByte .out 4).toNat = 17 + 4 * v + 8) ∨
          s.latch.outlen.toNat < 5 + ((s.readByte .out 4).toNat * (s.readByte .out 4).toNat + 7) / 8)) ∧
    (t.status.errcode = 0x07 ↔ i = .gfLog 0 ∨ ∃ a, i = .gfDiv a 0)

/-- VERSION_SELECT and GENERATE end in `ERR_CAPACITY`, with its diagnostics, when no version fits or the requested one
does not (43_bitstream R174, 60_exceptions R314). -/
def Obligations.CapacityErrorReportsDiagnostics : Prop :=
  ∀ (i : Instr) (s : State) (m : Mode),
    (i = .versionSelect ∧ modeOf s.regs.mode = some m) ∨
      (i = .generate ∧ m = selectMode s.input s.latch.ctrl.forceByte) →
    argTest i s = false →
    (∀ v, ¬VersionChosen s.latch.ctrl.eciEn s.level m s.inLen s.latch.ctrl.reqVersion.toNat v) →
    ∃ t, exec i s = .next t ∧
      t.status = { s.status with err := true, errcode := 0x04, busy := false, done := true } ∧
      t.regs = { s.regs with errinfo := t.regs.errinfo } ∧ SameMemory s t ∧ SameHostSide s t ∧
      t.readReg .errinfo0 = BitVec.ofNat 32 (s.latch.ctrl.ecc.toNat + (modeValue m).toNat * 2 ^ 4
        + s.latch.ctrl.reqVersion.toNat * 2 ^ 8) ∧
      t.readReg .errinfo1 = BitVec.ofNat 32 (capTab
        (if s.latch.ctrl.reqVersion = 0 then 40 else s.latch.ctrl.reqVersion.toNat) s.level m)

/-! ### The interrupt output -/

/-- The interrupt output is `DONE and IRQ_EN`: it rises at a completion while enabled or when enabled while `DONE` is
set, and falls at a command's start, when `DONE` or `IRQ_EN` is cleared, and at reset (R320). -/
def Obligations.InterruptFollowsDone : Prop :=
  (∀ s : State, s.irq = (s.status.done && s.regs.ctrl.irqEn)) ∧
    (∀ (i : Instr) (s t : State), exec i s = .next t → t.irq = s.regs.ctrl.irqEn) ∧
    (∀ (s : State) (w : Word), (s.start w).irq = false) ∧
    (∀ (s : State) (d : Word), d.getLsbD 1 = true → (s.hostWriteReg .status d).irq = false) ∧
    (∀ (s : State) (d : Word), d.getLsbD 31 = false →
      (s.hostWriteReg .ctrl d).irq = (s.status.done && d.getLsbD 4)) ∧
    (∀ (s : State) (d : Word), d.getLsbD 31 = true → (s.hostWriteReg .ctrl d).irq = false) ∧
    State.reset.irq = false

/-! ### NOP and the field (47_output R295, 40_galois) -/

/-- NOP changes no register other than `STATUS` and no memory (47_output R295). -/
def Obligations.NopCompletes : Prop :=
  ∀ s : State, ∃ t, exec .nop s = .next t ∧ t.regs = s.regs ∧ Completed s t ∧ SameMemory s t

/-- GF_EXP gives `α^a`, and GF_LOG the exponent in 0 to 254 of a nonzero element, with `α^i` taken from the recurrence
and not from the ROM; every nonzero element has one; GF_LOG 0 ends in `ERR_DOMAIN` (R100, R101, R105, R106). -/
def Obligations.GfExpAndLogResults : Prop :=
  ∀ s : State,
    (∀ a : Byte, ∃ t, exec (.gfExp a) s = .next t ∧
      t.regs = { s.regs with res0 := BitVec.ofNat 32 (alphaPow a.toNat) } ∧ Completed s t ∧ SameMemory s t) ∧
    (∀ (a : Byte) (e : Nat), e ≤ 254 → alphaPow e = a.toNat → ∃ t, exec (.gfLog a) s = .next t ∧
      t.regs = { s.regs with res0 := BitVec.ofNat 32 e } ∧ Completed s t ∧ SameMemory s t) ∧
    (∀ a : Byte, a ≠ 0 → ∃ e, e ≤ 254 ∧ alphaPow e = a.toNat) ∧
    (∃ t, exec (.gfLog 0) s = .next t ∧ FailedWith s t 0x07)

/-- GF_MUL and GF_DIV give the product and the quotient by exponents, with `α^i` taken from the recurrence; a zero
factor or dividend gives 0; a zero divisor ends in `ERR_DOMAIN` (R103, R104, R107, R108). -/
def Obligations.GfMulAndDivResults : Prop :=
  ∀ s : State,
    (∀ a b : Byte, a = 0 ∨ b = 0 → ∃ t, exec (.gfMul a b) s = .next t ∧
      t.regs = { s.regs with res0 := 0 } ∧ Completed s t ∧ SameMemory s t) ∧
    (∀ (a b : Byte) (i j : Nat), i ≤ 254 → j ≤ 254 → alphaPow i = a.toNat → alphaPow j = b.toNat →
      ∃ t, exec (.gfMul a b) s = .next t ∧
        t.regs = { s.regs with res0 := BitVec.ofNat 32 (alphaPow ((i + j) % 255)) } ∧ Completed s t ∧ SameMemory s t) ∧
    (∀ b : Byte, b ≠ 0 → ∃ t, exec (.gfDiv 0 b) s = .next t ∧
      t.regs = { s.regs with res0 := 0 } ∧ Completed s t ∧ SameMemory s t) ∧
    (∀ (a b : Byte) (i j : Nat), i ≤ 254 → j ≤ 254 → alphaPow i = a.toNat → alphaPow j = b.toNat →
      ∃ t, exec (.gfDiv a b) s = .next t ∧
        t.regs = { s.regs with res0 := BitVec.ofNat 32 (alphaPow ((i + 255 - j) % 255)) } ∧ Completed s t ∧
        SameMemory s t) ∧
    (∀ a : Byte, ∃ t, exec (.gfDiv a 0) s = .next t ∧ FailedWith s t 0x07)

/-- The laws of the field (R109). -/
def Obligations.FieldLaws : Prop :=
  (∀ a b : Byte, gfMul a b = gfMul b a) ∧
    (∀ a b c : Byte, gfMul (gfMul a b) c = gfMul a (gfMul b c)) ∧
    (∀ a b c : Byte, gfMul a (b ^^^ c) = gfMul a b ^^^ gfMul a c) ∧
    (∀ a : Byte, gfMul a 1 = a ∧ gfMul a 0 = 0) ∧
    (∀ a b : Byte, b ≠ 0 → ∃ q, gfDiv a b = .ok q ∧ gfMul q b = a) ∧
    (∀ i j : Nat, i ≤ 254 → j ≤ 254 → romExp ((i + j) % 255) = gfMul (romExp i) (romExp j))

/-! ### Reed-Solomon (41_reed_solomon) -/

/-- The generator polynomial is monic of degree `n`, its value at every point is the product of the `x - α^i`, and its
coefficients follow the iteration (R121, R122). -/
def Obligations.GeneratorPolynomialIsTheProduct : Prop :=
  ∀ n : Nat, n ≤ 255 →
    (genPoly n).length = n + 1 ∧ (genPoly n).getD 0 0 = 1 ∧
    (∀ x : Byte, polyAt x (genPoly n) = (List.range n).foldl (fun acc i => gfMul acc (x ^^^ romExp i)) 1) ∧
    genPoly 0 = [1] ∧
    (∀ j : Nat, j ≤ n + 1 → (genPoly (n + 1)).getD j 0 =
      (genPoly n).getD j 0 ^^^ (if j = 0 then 0 else gfMul ((genPoly n).getD (j - 1) 0) (romExp n))) ∧
    genPoly 7 = [1, 127, 122, 154, 164, 11, 68, 117]

/-- RS_GENPOLY writes the `n + 1` coefficients from `ARG1` on and their number to `RES0`; it ends in `ERR_ARG` if `n` is
0 or they do not fit in `CWM` (R126). -/
def Obligations.RsGenpolyResult : Prop :=
  ∀ (n : Byte) (s : State),
    (n ≠ 0 → s.latch.arg1.toNat + n.toNat + 1 ≤ 8192 → ∃ t, exec (.rsGenpoly n) s = .next t ∧
      t.regs = { s.regs with res0 := BitVec.ofNat 32 (n.toNat + 1) } ∧ Completed s t ∧
      (∀ j : Nat, j ≤ n.toNat → t.readByte .cwm (s.latch.arg1.toNat + j) = (genPoly n.toNat).getD j 0) ∧
      SameOutside s t .cwm s.latch.arg1.toNat (n.toNat + 1)) ∧
    (n = 0 ∨ s.latch.arg1.toNat + n.toNat + 1 > 8192 → ∃ t, exec (.rsGenpoly n) s = .next t ∧ FailedWith s t 0x02)

/-- RS_ENCODE writes the `n` ECC codewords of the `k` bytes read from `ARG0` on, from `ARG1` on, and `n` to `RES0`; it
ends in `ERR_ARG` if `n` is 0 or a range leaves `CWM` (R127). -/
def Obligations.RsEncodeResult : Prop :=
  ∀ (k n : Byte) (s : State),
    (n ≠ 0 → s.latch.arg0.toNat + k.toNat ≤ 8192 → s.latch.arg1.toNat + n.toNat ≤ 8192 →
      ∃ t, exec (.rsEncode k n) s = .next t ∧
        t.regs = { s.regs with res0 := BitVec.ofNat 32 n.toNat } ∧ Completed s t ∧
        (∀ j : Nat, j < n.toNat → t.readByte .cwm (s.latch.arg1.toNat + j) =
          (rsEcc ((List.range k.toNat).map fun i => s.readByte .cwm (s.latch.arg0.toNat + i)) n.toNat).getD j 0) ∧
        SameOutside s t .cwm s.latch.arg1.toNat n.toNat) ∧
    (n = 0 ∨ s.latch.arg0.toNat + k.toNat > 8192 ∨ s.latch.arg1.toNat + n.toNat > 8192 →
      ∃ t, exec (.rsEncode k n) s = .next t ∧ FailedWith s t 0x02)

/-- The ECC codewords are always `n`, are 0 for empty and for all-zero data, are the sum of the data for `n = 1`, and
are linear in the data; and data followed by its ECC codewords, read as a polynomial, vanishes at every root `α^i` of
the generator: the codeword is divisible by it (R123, R125). -/
def Obligations.RsCodewordsAreDivisible : Prop :=
  (∀ (d : List Byte) (n : Nat), (rsEcc d n).length = n) ∧
    (∀ k n : Nat, rsEcc (List.replicate k 0) n = List.replicate n 0) ∧
    (∀ d : List Byte, rsEcc d 1 = [d.foldl (fun acc x => acc ^^^ x) 0]) ∧
    (∀ (d d' : List Byte) (n : Nat), d.length = d'.length →
      rsEcc (List.zipWith (fun x y => x ^^^ y) d d') n =
        List.zipWith (fun x y => x ^^^ y) (rsEcc d n) (rsEcc d' n)) ∧
    (∀ (d : List Byte) (n i : Nat), n ≤ 255 → i < n → polyAt (romExp i) (d ++ rsEcc d n) = 0)

/-! ### BCH (42_bch) -/

/-- BCH_FORMAT and BCH_VERSION give the format and version strings, and both strings are divisible by their generators
once the format mask is removed (R142 to R144, R146, R147). -/
def Obligations.BchStringsAndIntegrity : Prop :=
  (∀ (e : BitVec 2) (m : BitVec 3) (s : State), ∃ t, exec (.bchFormat e m) s = .next t ∧
    t.regs =
      { s.regs with
        res0 := BitVec.ofNat 32
          (((e.toNat * 8 + m.toNat) * 2 ^ 10 + bchRem (e.toNat * 8 + m.toNat) 5 0x537 10) ^^^ 0x5412) } ∧
    Completed s t ∧ SameMemory s t ∧ bchRem (t.regs.res0.toNat ^^^ 0x5412) 15 0x537 10 = 0) ∧
  (∀ (v : BitVec 6) (s : State), ∃ t, exec (.bchVersion v) s = .next t ∧
    t.regs = { s.regs with res0 := BitVec.ofNat 32 (v.toNat * 2 ^ 12 + bchRem v.toNat 6 0x1F25 12) } ∧
    Completed s t ∧ SameMemory s t ∧ bchRem t.regs.res0.toNat 18 0x1F25 12 = 0)

/-! ### Mode, version, packing, padding (43_bitstream) -/

/-- MODE_SELECT sets `MODE` to Byte if it is forced, else to the first of Numeric, Alphanumeric, Byte whose class holds
every input byte; it ends in `ERR_ARG` if `INLEN` exceeds 8192 (R160, R162, R163). -/
def Obligations.ModeSelectResult : Prop :=
  ∀ s : State,
    (s.latch.inlen.toNat ≤ 8192 → ∃ t, exec .modeSelect s = .next t ∧
      t.regs =
        { s.regs with
          mode :=
            if s.latch.ctrl.forceByte = true then 4
            else if (List.range s.latch.inlen.toNat).all (fun j => numericByte (s.readByte .inp j)) = true then 1
            else if (List.range s.latch.inlen.toNat).all (fun j => alphanumericByte (s.readByte .inp j)) = true then 2
            else 4 } ∧
      Completed s t ∧ SameMemory s t) ∧
    (s.latch.inlen.toNat > 8192 → ∃ t, exec .modeSelect s = .next t ∧ FailedWith s t 0x02)

/-- VERSION_SELECT sets `VERSION` to the requested version or, with none requested, the smallest that fits, and `DCW` to
its data codewords (R174, R175). -/
def Obligations.VersionSelectResult : Prop :=
  ∀ (s : State) (m : Mode) (v : Nat), modeOf s.regs.mode = some m → argTest .versionSelect s = false →
    VersionChosen s.latch.ctrl.eciEn s.level m s.inLen s.latch.ctrl.reqVersion.toNat v →
    ∃ t, exec .versionSelect s = .next t ∧
      t.regs =
        { s.regs with version := BitVec.ofNat 6 v, dcw := BitVec.ofNat 12 (eccTab v s.level).dataCw } ∧
      Completed s t ∧ SameMemory s t

/-- Each capacity is the largest number of characters whose stream without header fits the data codewords, fits its
count field, and grows with the version (44_blocks R203). -/
def Obligations.CapacitiesAreTheLargestThatFit : Prop :=
  ∀ (v : Nat) (e : EccLevel) (m : Mode), 1 ≤ v → v ≤ 40 →
    (∀ n : Nat, 4 + cci v m + dbits m n ≤ 8 * (eccTab v e).dataCw ↔ n ≤ capTab v e m) ∧
    capTab v e m ≤ 2 ^ cci v m - 1 ∧ (v < 40 → capTab v e m < capTab (v + 1) e m)

/-- PACK writes the packed stream, most significant bit first, fills its last byte with zeros, writes no other byte and
sets `BITLEN` to the length (R172, R173, R176). -/
def Obligations.PackResult : Prop :=
  ∀ (s : State) (m : Mode), modeOf s.regs.mode = some m → s.ver ≠ 0 → argTest .pack s = false →
    packClassTest s = false → need s.latch.ctrl.eciEn s.inLen m s.ver ≤ 8 * s.eccInfo.dataCw →
    let stream := packedStream s.latch.ctrl.eciEn s.latch.ctrl.eciDesignator m s.ver s.input
    stream.length = need s.latch.ctrl.eciEn s.inLen m s.ver ∧
    ∃ t, exec .pack s = .next t ∧ t.regs = { s.regs with bitlen := BitVec.ofNat 16 stream.length } ∧ Completed s t ∧
      (∀ i, i < stream.length → t.streamBit 0 i = stream.getD i false) ∧
      (∀ i, stream.length ≤ i → i < 8 * ((stream.length + 7) / 8) → t.streamBit 0 i = false) ∧
      SameOutside s t .cwm 0 ((stream.length + 7) / 8)

/-- The packed stream has the length `need` gives, begins with the mode indicator and the count behind the header, and
its data field determines the input bytes (R166 to R173). -/
def Obligations.PackedStreamDeterminesInput : Prop :=
  ∀ (eciEn : Bool) (d : BitVec 8) (m : Mode) (v : Nat) (b : List Byte),
    (packedStream eciEn d m v b).length = need eciEn b.length m v ∧
    bitsVal (((packedStream eciEn d m v b).drop (eciBits eciEn)).take 4) = (modeValue m).toNat ∧
    (b.length < 2 ^ cci v m →
      bitsVal (((packedStream eciEn d m v b).drop (eciBits eciEn + 4)).take (cci v m)) = b.length) ∧
    (∀ b' : List Byte, b.all (inClass m) = true → b'.all (inClass m) = true → b.length = b'.length →
      packedStream eciEn d m v b = packedStream eciEn d m v b' → b = b')

/-- PAD keeps the `L` bits of the stream, appends up to four terminator zeros and zeros to a byte boundary, fills the
`D` data codewords with `0xEC`, `0x11` in turn, and sets `DCW`; it ends in `ERR_SEQUENCE` without a version and in
`ERR_OVERFLOW` if the stream is too long (R177, R178). -/
def Obligations.PadResult : Prop :=
  ∀ s : State,
    let d := s.eccInfo.dataCw
    let len := s.regs.bitlen.toNat
    let whole := (len + min 4 (8 * d - len) + 7) / 8
    (s.ver ≠ 0 → len ≤ 8 * d → ∃ t, exec .pad s = .next t ∧
      t.regs = { s.regs with dcw := BitVec.ofNat 12 d } ∧ Completed s t ∧ whole ≤ d ∧
      (∀ i, i < len → t.streamBit 0 i = s.streamBit 0 i) ∧
      (∀ i, len ≤ i → i < 8 * whole → t.streamBit 0 i = false) ∧
      (∀ k, whole + k < d → t.readByte .cwm (whole + k) = if k % 2 = 0 then 0xEC else 0x11) ∧
      SameOutside s t .cwm 0 d) ∧
    (s.ver = 0 → ∃ t, exec .pad s = .next t ∧ FailedWith s t 0x03) ∧
    (s.ver ≠ 0 → len > 8 * d → ∃ t, exec .pad s = .next t ∧ FailedWith s t 0x05)

/-! ### Blocks (44_blocks) -/

/-- INTERLEAVE writes the codeword stream of the `D` bytes of `DATA` to `STREAM` and its size to `TOTCW` and `REMBITS`;
it ends in `ERR_SEQUENCE` without a version (R209). -/
def Obligations.InterleaveResult : Prop :=
  ∀ s : State,
    let stream := codewordStream s.eccInfo ((List.range s.eccInfo.dataCw).map fun i => s.readByte .cwm i)
    (1 ≤ s.ver → s.ver ≤ 40 → ∃ t, exec .interleave s = .next t ∧
      t.regs =
        { s.regs with totcw := BitVec.ofNat 12 stream.length, rembits := BitVec.ofNat 3 (remTab s.ver) } ∧
      Completed s t ∧ stream.length ≤ 4096 ∧
      (∀ i, i < stream.length → t.readByte .cwm (0x1000 + i) = stream.getD i 0) ∧
      SameOutside s t .cwm 0x1000 stream.length) ∧
    (s.ver = 0 → ∃ t, exec .interleave s = .next t ∧ FailedWith s t 0x03)

/-- The codeword stream holds codeword `i` of every block, block by block, for each `i` in turn, and then the ECC
codewords of the blocks in the same order (R207, R208). -/
def Obligations.InterleavedOrder : Prop :=
  ∀ (v : Nat) (e : EccLevel) (d : List Byte), 1 ≤ v → v ≤ 40 → d.length = (eccTab v e).dataCw →
    let r := eccTab v e
    let blocks := r.blocks1 + r.blocks2
    let first := fun b => if b < r.blocks1 then b * r.cw1 else r.blocks1 * r.cw1 + (b - r.blocks1) * r.cw2
    let size := fun b => if b < r.blocks1 then r.cw1 else r.cw2
    let stream := codewordStream r d
    stream.length = r.dataCw + r.eccPerBlock * blocks ∧
    (∀ i b, i < r.cw1 → b < blocks → stream.getD (i * blocks + b) 0 = d.getD (first b + i) 0) ∧
    (∀ b, r.blocks1 ≤ b → b < blocks →
      stream.getD (r.cw1 * blocks + (b - r.blocks1)) 0 = d.getD (first b + r.cw1) 0) ∧
    (∀ i b, i < r.eccPerBlock → b < blocks →
      stream.getD (r.dataCw + i * blocks + b) 0 = (rsEcc ((d.drop (first b)).take (size b)) r.eccPerBlock).getD i 0)

/-- The query commands give the table entries of a version 1 to 40 in their result registers, and end in `ERR_ARG` for
any other version or for a mode other than 1, 2 and 4 (R211 to R213). -/
def Obligations.QueryResults : Prop :=
  ∀ (s : State) (v : BitVec 6) (e : BitVec 2) (md : BitVec 4),
    let r := eccTab v.toNat (eccLevel e)
    let p := alignTab v.toNat
    (1 ≤ v.toNat → v.toNat ≤ 40 →
      (∃ t, exec (.queryEcc v e) s = .next t ∧
        t.regs =
          { s.regs with
            res0 := BitVec.ofNat 32 r.dataCw
            res1 := BitVec.ofNat 32 r.eccPerBlock
            res2 := BitVec.ofNat 32 (r.blocks1 + r.cw1 * 2 ^ 8 + r.blocks2 * 2 ^ 16 + r.cw2 * 2 ^ 24)
            res3 := BitVec.ofNat 32
              (r.dataCw + r.eccPerBlock * (r.blocks1 + r.blocks2) + remTab v.toNat * 2 ^ 16) } ∧
        Completed s t ∧ SameMemory s t) ∧
      (∀ m, modeOf md = some m → ∃ t, exec (.queryCap v md e) s = .next t ∧
        t.regs = { s.regs with res0 := BitVec.ofNat 32 (capTab v.toNat (eccLevel e) m) } ∧ Completed s t ∧
        SameMemory s t) ∧
      (∃ t, exec (.queryAlign v) s = .next t ∧
        t.regs =
          { s.regs with
            res0 := BitVec.ofNat 32 p.length
            res1 := BitVec.ofNat 32
              (p.getD 0 0 + p.getD 1 0 * 2 ^ 8 + p.getD 2 0 * 2 ^ 16 + p.getD 3 0 * 2 ^ 24)
            res2 := BitVec.ofNat 32 (p.getD 4 0 + p.getD 5 0 * 2 ^ 8 + p.getD 6 0 * 2 ^ 16)
            res3 := BitVec.ofNat 32 (17 + 4 * v.toNat) } ∧
        Completed s t ∧ SameMemory s t)) ∧
    (v.toNat = 0 ∨ v.toNat > 40 →
      (∃ t, exec (.queryEcc v e) s = .next t ∧ FailedWith s t 0x02) ∧
      (∃ t, exec (.queryAlign v) s = .next t ∧ FailedWith s t 0x02)) ∧
    (v.toNat = 0 ∨ v.toNat > 40 ∨ (md ≠ 1 ∧ md ≠ 2 ∧ md ≠ 4) →
      ∃ t, exec (.queryCap v md e) s = .next t ∧ FailedWith s t 0x02)

/-! ### Placement (45_placement) -/

/-- PLACE_FUNCTION leaves the function matrix of the current version in `MTX` and 0 everywhere else, sets `SIDE` and
clears `QZ`; it ends in `ERR_SEQUENCE` without a version (R220, R230). -/
def Obligations.PlaceFunctionResult : Prop :=
  ∀ s : State,
    (1 ≤ s.ver → s.ver ≤ 40 → ∃ t, exec .placeFunction s = .next t ∧
      t.regs = { s.regs with side := BitVec.ofNat 8 (21 + 4 * (s.ver - 1)) } ∧ CompletedWith s t false ∧
      (∀ r c, r < 21 + 4 * (s.ver - 1) → c < 21 + 4 * (s.ver - 1) →
        t.dark r c = ((functionMatrix s.ver).get r c).dark ∧ t.blk r c = ((functionMatrix s.ver).get r c).blk) ∧
      t.blankBeyond (21 + 4 * (s.ver - 1)) ∧ SameButMtx s t) ∧
    (s.ver = 0 → ∃ t, exec .placeFunction s = .next t ∧ FailedWith s t 0x03)

/-- What the function matrix of every version holds: finder patterns and separators in the three corner squares,
alignment patterns but at the three corners, timing patterns, the dark module, the reserved format and version areas,
and light modules wherever it is unblocked (R221 to R228). -/
def Obligations.FunctionMatrixPatterns : Prop :=
  ∀ v : Nat, 1 ≤ v → v ≤ 40 →
    let n := 17 + 4 * v
    let g := functionMatrix v
    (∀ i j, i < 7 → j < 7 → ∀ p ∈ [(0, 0), (0, n - 7), (n - 7, 0)],
      g.get (p.1 + i) (p.2 + j) = { dark := ringOf 3 i j != 2, blk := true }) ∧
    (∀ i, i < 8 → ∀ p ∈ [(i, 7), (7, i), (i, n - 8), (7, n - 8 + i), (n - 8, i), (n - 8 + i, 7)],
      g.get p.1 p.2 = { dark := false, blk := true }) ∧
    (∀ r ∈ alignTab v, ∀ c ∈ alignTab v, (r, c) ∉ [(6, 6), (6, n - 7), (n - 7, 6)] → ∀ i j, i < 5 → j < 5 →
      g.get (r + i - 2) (c + j - 2) = { dark := ringOf 2 i j != 1, blk := true }) ∧
    (∀ i, 8 ≤ i → i ≤ n - 9 →
      g.get 6 i = { dark := i % 2 == 0, blk := true } ∧ g.get i 6 = { dark := i % 2 == 0, blk := true }) ∧
    g.get (4 * v + 9) 8 = { dark := true, blk := true } ∧
    (∀ i, i ≤ 8 → (g.get 8 i).blk = true ∧ (g.get i 8).blk = true) ∧
    (∀ i, n - 8 ≤ i → i < n → (g.get 8 i).blk = true ∧ (g.get i 8).blk = true) ∧
    (7 ≤ v → ∀ x y, x < 6 → y < 3 →
      g.get x (n - 11 + y) = { dark := false, blk := true } ∧ g.get (n - 11 + y) x = { dark := false, blk := true }) ∧
    (∀ r c, (g.get r c).blk = false → (g.get r c).dark = false)

/-- The number of unblocked modules of every version is eight times its codewords plus its remainder bits, at every
level (R229, 44_blocks R201, R206). -/
def Obligations.FreeModulesHoldTheStream : Prop :=
  ∀ (v : Nat) (e : EccLevel), 1 ≤ v → v ≤ 40 →
    ((functionMatrix v).map fun row => row.countP fun m => !m.blk).sum = 8 * (eccTab v e).total + remTab v

/-- The scan visits every module outside column 6 exactly once (R231). -/
def Obligations.ScanVisitsEveryModuleOnce : Prop :=
  ∀ v : Nat, 1 ≤ v → v ≤ 40 →
    (scanOrder (17 + 4 * v)).Nodup ∧
    ∀ r c, (r, c) ∈ scanOrder (17 + 4 * v) ↔ r < 17 + 4 * v ∧ c < 17 + 4 * v ∧ c ≠ 6

/-- PLACE_DATA gives bit `j` of the codeword stream and its remainder bits to the `j`-th unblocked module of the scan,
keeps the modules past the last bit and every blocked module, blocks none, and counts the bits placed in `RES0` and the
unblocked modules in `RES1` (R232, R233). -/
def Obligations.PlaceDataResult : Prop :=
  ∀ s : State, s.hasSymbol → s.regs.totcw.toNat ≤ 4096 →
    let free := (scanOrder s.regs.side.toNat).filter fun p => !s.blk p.1 p.2
    let count := 8 * s.regs.totcw.toNat + s.regs.rembits.toNat
    ∃ t, exec .placeData s = .next t ∧
      t.regs =
        { s.regs with res0 := BitVec.ofNat 32 (min count free.length), res1 := BitVec.ofNat 32 free.length } ∧
      Completed s t ∧
      (∀ j r c, free[j]? = some (r, c) → t.dark r c =
        if j < 8 * s.regs.totcw.toNat then s.streamBit 0x1000 j else if j < count then false else s.dark r c) ∧
      (∀ r c, r < 256 → c < 256 → t.blk r c = s.blk r c) ∧
      (∀ r c, r < 256 → c < 256 → (r, c) ∉ free → t.readByte .mtx (256 * r + c) = s.readByte .mtx (256 * r + c)) ∧
      SameButMtx s t

/-! ### Masks (46_mask) -/

/-- The four penalties of a matrix by counting: rule 1 over the runs of every line, rule 2 over the windows of one
colour, rule 3 over the places of the two patterns in every line, rule 4 by the formula; and rule 1 of one line is that
of its maximal runs (R253 to R256). -/
def Obligations.PenaltiesCountTheRules : Prop :=
  (∀ (n : Nat) (f : Nat → Nat → Bool), 1 ≤ n →
    let dark := (pairs (List.range n) (List.range n)).countP fun p => f p.1 p.2
    let same := fun r c => f r c == f r (c + 1) && f r c == f (r + 1) c && f r c == f (r + 1) (c + 1)
    (penaltyOf n (gridRows n f)).p1 = ((gridLines n f).map lineRuns).sum ∧
    (penaltyOf n (gridRows n f)).p2 =
      3 * (pairs (List.range (n - 1)) (List.range (n - 1))).countP (fun p => same p.1 p.2) ∧
    (penaltyOf n (gridRows n f)).p3 =
      40 * ((gridLines n f).map fun l => (List.range (n - 10)).countP fun i => windowAt l i).sum ∧
    ((penaltyOf n (gridRows n f)).p4 : Int) =
      10 * ((((200 * dark - 100 * (n * n) : Int)).natAbs + 5 * (n * n)) / (10 * (n * n)))) ∧
  (∀ (b : Bool) (len : Nat), lineRuns (List.replicate len b) = if 5 ≤ len then 3 + (len - 5) else 0) ∧
  (∀ (b : Bool) (l k : List Bool), lineRuns (l ++ [b] ++ (!b) :: k) = lineRuns (l ++ [b]) + lineRuns ((!b) :: k))

/-- The candidate of a mask is the symbol that MASK_APPLY and WRITE_INFO of that mask leave in `MTX` (R252, R257,
R263, R264). -/
def Obligations.CandidateIsTheCommittedSymbol : Prop :=
  ∀ (s t u : State) (m : BitVec 3), s.hasSymbol → exec (.maskApply m) s = .next t → exec (.writeInfo m) t = .next u →
    u.status.err = false ∧ u.matrix s.regs.side.toNat =
      candidate s.regs.version s.regs.side.toNat s.latch.ctrl.ecc (s.matrix s.regs.side.toNat) m

/-- MASK_SCORE writes the four penalties of the candidate and their sum, and leaves the other `PEN` registers and every
memory (R258, R260). -/
def Obligations.MaskScoreResult : Prop :=
  ∀ (s : State) (m : BitVec 3), s.hasSymbol →
    let p := penaltyOf s.regs.side.toNat
      (candidate s.regs.version s.regs.side.toNat s.latch.ctrl.ecc (s.matrix s.regs.side.toNat) m).colours
    ∃ t, exec (.maskScore m) s = .next t ∧
      t.regs =
        { s.regs with
          pen := t.regs.pen
          res0 := BitVec.ofNat 32 p.p1
          res1 := BitVec.ofNat 32 p.p2
          res2 := BitVec.ofNat 32 p.p3
          res3 := BitVec.ofNat 32 p.p4 } ∧
      (∀ k : Fin 8, t.regs.pen.get k =
        if k.val = m.toNat then BitVec.ofNat 32 (p.p1 + p.p2 + p.p3 + p.p4) else s.regs.pen.get k) ∧
      Completed s t ∧ SameMemory s t

/-- MASK_EVAL selects the lowest-numbered mask of least penalty and writes all eight penalties (R259, R262). -/
def Obligations.MaskEvalSelectsTheLeastPenalty : Prop :=
  ∀ s : State, s.hasSymbol →
    let pen := fun m : BitVec 3 => (maskPenalty s m).total
    ∃ (t : State) (best : BitVec 3), exec .maskEval s = .next t ∧
      (∀ m, pen best ≤ pen m) ∧ (∀ m : BitVec 3, m.toNat < best.toNat → pen best < pen m) ∧
      t.regs =
        { s.regs with
          pen := t.regs.pen
          mask := best
          res0 := best.setWidth 32
          res1 := BitVec.ofNat 32 (pen best) } ∧
      (∀ k : Fin 8, t.regs.pen.get k = BitVec.ofNat 32 (pen (BitVec.ofNat 3 k.val))) ∧
      Completed s t ∧ SameMemory s t

/-- MASK_APPLY flips each unblocked module of the symbol where the predicate holds, and changes nothing else of `MTX`; a
second one with the same mask restores it (R252, R263). -/
def Obligations.MaskApplyFlipsUnblockedModules : Prop :=
  ∀ (s : State) (m : BitVec 3), s.hasSymbol →
    ∃ t, exec (.maskApply m) s = .next t ∧ t.regs = { s.regs with mask := m } ∧ Completed s t ∧
      (∀ r c, r < 256 → c < 256 → t.blk r c = s.blk r c ∧ t.dark r c =
        if r < s.regs.side.toNat ∧ c < s.regs.side.toNat ∧ s.blk r c = false then s.dark r c ^^ maskPred m r c
        else s.dark r c) ∧
      SameButMtx s t ∧
      ∃ u, exec (.maskApply m) t = .next u ∧
        ∀ r c, r < 256 → c < 256 → u.readByte .mtx (256 * r + c) = s.readByte .mtx (256 * r + c)

/-- WRITE_INFO writes each bit of the format string, and from version 7 on of the version string, at its two modules,
keeps every other module and every `blk` bit, and records both strings (R264, 45_placement R227, R228). -/
def Obligations.WriteInfoResult : Prop :=
  ∀ (s : State) (m : BitVec 3), s.hasSymbol →
    let n := s.regs.side.toNat
    ∃ t, exec (.writeInfo m) s = .next t ∧
      t.regs =
        { s.regs with
          format := formatString s.latch.ctrl.ecc m
          verinfo := if 7 ≤ s.ver then versionString s.regs.version else 0 } ∧
      Completed s t ∧
      (∀ i, i < 15 → ∀ p ∈ formatCells n i, t.dark p.1 p.2 = (formatString s.latch.ctrl.ecc m).getLsbD i) ∧
      (7 ≤ s.ver → ∀ i, i < 18 → ∀ p ∈ versionCells n i, t.dark p.1 p.2 = (versionString s.regs.version).getLsbD i) ∧
      (∀ r c, r < 256 → c < 256 → t.blk r c = s.blk r c) ∧
      (∀ r c, r < 256 → c < 256 → (∀ i, i < 15 → (r, c) ∉ formatCells n i) →
        (7 ≤ s.ver → ∀ i, i < 18 → (r, c) ∉ versionCells n i) →
        t.readByte .mtx (256 * r + c) = s.readByte .mtx (256 * r + c)) ∧
      SameButMtx s t

/-! ### Output (47_output) -/

/-- QUIET_ZONE moves the symbol four modules down and right, leaves light, unblocked modules everywhere else, and sets
`SIDE` and `QZ`; the result is a finished matrix (R280, R281, R284). -/
def Obligations.QuietZoneResult : Prop :=
  ∀ s : State, s.hasSymbol →
    let n := s.regs.side.toNat
    ∃ t, exec .quietZone s = .next t ∧ t.regs = { s.regs with side := BitVec.ofNat 8 (n + 8) } ∧
      CompletedWith s t true ∧
      (∀ r c, r < 256 → c < 256 → t.dark r c =
        if 4 ≤ r ∧ r < n + 4 ∧ 4 ≤ c ∧ c < n + 4 then s.dark (r - 4) (c - 4) else false) ∧
      SameButMtx s t ∧ t.finished

/-- SERIALIZE writes the signature, 0, the side and the modules row by row, most significant bit first and zero-padded,
to the first bytes of `OUT` and their number to `OUTLEN`; it ends in `ERR_SEQUENCE` without a quiet-zoned matrix of the
current version (R286, R287). -/
def Obligations.SerializeResult : Prop :=
  ∀ s : State, s.ver ≤ 40 →
    let n := s.regs.side.toNat
    let len := 5 + (n * n + 7) / 8
    (s.ver ≠ 0 → s.status.qz = true → n = 17 + 4 * s.ver + 8 → ∃ t, exec .serialize s = .next t ∧
      t.regs = { s.regs with outlen := BitVec.ofNat 14 len } ∧ Completed s t ∧
      (t.readByte .out 0 = 0x51 ∧ t.readByte .out 1 = 0x52 ∧ t.readByte .out 2 = 0x52 ∧ t.readByte .out 3 = 0x00 ∧
        t.readByte .out 4 = s.regs.side) ∧
      (∀ r c, r < n → c < n →
        (t.readByte .out (5 + (n * r + c) / 8)).getLsbD (7 - (n * r + c) % 8) = s.dark r c) ∧
      (∀ k, n * n ≤ k → k < 8 * ((n * n + 7) / 8) → (t.readByte .out (5 + k / 8)).getLsbD (7 - k % 8) = false) ∧
      SameOutside s t .out 0 len) ∧
    (s.ver = 0 ∨ s.status.qz = false ∨ n ≠ 17 + 4 * s.ver + 8 →
      ∃ t, exec .serialize s = .next t ∧ FailedWith s t 0x03)

/-- DESERIALIZE of a well-formed blob leaves its modules in a finished matrix of the version of its side (R289). -/
def Obligations.DeserializeResult : Prop :=
  ∀ (s : State) (v : Nat), 1 ≤ v → v ≤ 40 →
    let n := 17 + 4 * v + 8
    s.readByte .out 0 = 0x51 → s.readByte .out 1 = 0x52 → s.readByte .out 2 = 0x52 →
    (s.readByte .out 4).toNat = n → 5 + (n * n + 7) / 8 ≤ s.latch.outlen.toNat → s.latch.outlen.toNat ≤ 8192 →
    ∃ t, exec .deserialize s = .next t ∧
      t.regs = { s.regs with side := BitVec.ofNat 8 n, version := BitVec.ofNat 6 v } ∧ CompletedWith s t true ∧
      (∀ r c, r < n → c < n →
        t.dark r c = (s.readByte .out (5 + (n * r + c) / 8)).getLsbD (7 - (n * r + c) % 8)) ∧
      SameButMtx s t ∧ t.finished

/-- SERIALIZE and then DESERIALIZE leave a finished matrix, its side, its version and `QZ` as they were (R288). -/
def Obligations.SerializeRoundTrip : Prop :=
  ∀ (s t : State) (w : Word), s.finished → exec .serialize s = .next t →
    ∃ u, exec .deserialize (t.start w) = .next u ∧ u.status.err = false ∧
      (∀ r c, r < 256 → c < 256 → u.readByte .mtx (256 * r + c) = s.readByte .mtx (256 * r + c)) ∧
      u.regs.side = s.regs.side ∧ u.regs.version = s.regs.version ∧ u.status.qz = s.status.qz

/-- GENERATE, once its validation passes, completes without error with the effects of the pipeline's commands in their
order on the same latched operands, its four result registers, and a finished matrix (R296, R298). -/
def Obligations.GenerateRunsThePipeline : Prop :=
  ∀ (s : State) (m : Mode) (v : Nat), argTest .generate s = false → m = selectMode s.input s.latch.ctrl.forceByte →
    VersionChosen s.latch.ctrl.eciEn s.level m s.inLen s.latch.ctrl.reqVersion.toNat v →
    ∃ t a b c d e f g h i j k,
      exec .generate s = .next t ∧ CompletedWith s t true ∧
      command .modeSelect s = .ok a ∧ command .versionSelect a = .ok b ∧ command .pack b = .ok c ∧
      command .pad c = .ok d ∧ command .interleave d = .ok e ∧ command .placeFunction e = .ok f ∧
      command .placeData f = .ok g ∧ command .maskEval g = .ok h ∧ command (.maskApply h.regs.mask) h = .ok i ∧
      command (.writeInfo h.regs.mask) i = .ok j ∧ command .quietZone j = .ok k ∧
      t.regs =
        { k.regs with
          res0 := BitVec.ofNat 32 v
          res1 := h.regs.mask.setWidth 32
          res2 := BitVec.ofNat 32 (17 + 4 * v + 8)
          res3 := BitVec.ofNat 32 (need s.latch.ctrl.eciEn s.inLen m v) } ∧
      SameMemory k t ∧
      t.ver = v ∧ t.regs.mode = modeValue m ∧ t.regs.bitlen.toNat = need s.latch.ctrl.eciEn s.inLen m v ∧
      t.regs.dcw.toNat = (eccTab v s.level).dataCw ∧ t.regs.totcw.toNat = (eccTab v s.level).total ∧
      t.regs.rembits.toNat = remTab v ∧ t.regs.format = formatString s.latch.ctrl.ecc t.regs.mask ∧
      t.regs.verinfo = (if 7 ≤ v then versionString (BitVec.ofNat 6 v) else 0) ∧
      (∀ (q : Region) (x : Nat), q = .inp ∨ q = .out → t.readByte q x = s.readByte q x) ∧ t.finished

/-- What GENERATE leaves depends only on the latched `CTRL` and `INLEN` and on the input bytes, and on no earlier content
of `CWM`, `MTX` or a result register; of an error, so does the code, and with code 4 what `ERRINFO` reports (R299). -/
def Obligations.GenerateDependsOnlyOnItsInputs : Prop :=
  ∀ s s' t t' : State, s'.latch.ctrl = s.latch.ctrl → s'.latch.inlen = s.latch.inlen →
    (∀ x, x < s.latch.inlen.toNat → s'.readByte .inp x = s.readByte .inp x) →
    exec .generate s = .next t → exec .generate s' = .next t' →
    t'.status.errcode = t.status.errcode ∧
    (t.status.errcode = 0x04 → t'.regs.errinfo = t.regs.errinfo) ∧
    (t.status.err = false →
      (t'.regs.version = t.regs.version ∧ t'.regs.mode = t.regs.mode ∧ t'.regs.bitlen = t.regs.bitlen ∧
        t'.regs.mask = t.regs.mask ∧ t'.regs.format = t.regs.format ∧ t'.regs.verinfo = t.regs.verinfo ∧
        t'.regs.side = t.regs.side ∧ t'.regs.dcw = t.regs.dcw ∧ t'.regs.totcw = t.regs.totcw ∧
        t'.regs.rembits = t.regs.rembits ∧ t'.regs.pen = t.regs.pen) ∧
      (t'.regs.res0 = t.regs.res0 ∧ t'.regs.res1 = t.regs.res1 ∧ t'.regs.res2 = t.regs.res2 ∧
        t'.regs.res3 = t.regs.res3) ∧
      (∀ r c, r < 256 → c < 256 → t'.readByte .mtx (256 * r + c) = t.readByte .mtx (256 * r + c)) ∧
      (∀ x, x < t.regs.dcw.toNat → t'.readByte .cwm x = t.readByte .cwm x) ∧
      (∀ x, x < t.regs.totcw.toNat → t'.readByte .cwm (0x1000 + x) = t.readByte .cwm (0x1000 + x)))

/-! ### Invariants of the step -/

/-- Every step keeps every memory in its canonical form (log 2). -/
def Obligations.StepKeepsCanonicalMemory : Prop :=
  ∀ s t : State, s.canonical → step s = .next t → t.canonical

/-- Every step keeps `VERSION`, `MODE`, `ERRCODE`, `ERR`, `SIDE` and `QZ` at values the spec lets them hold (10_state R30,
R36, 60_exceptions R310 to R312). -/
def Obligations.StepKeepsPipelineRanges : Prop := ∀ s t : State, s.ranged → step s = .next t → t.ranged

/-- Every step keeps every listed byte inside its memory and every byte of `MTX` within bits 1:0, whatever the host
does (20_memory R60, 10_state R48). -/
def Obligations.StepKeepsMemoriesBounded : Prop :=
  ∀ s t : State, s.ranged → s.bounded → step s = .next t → t.bounded

/-- After power-on reset every register reads its reset value, the sequencer is idle, `irq` is low, and the invariants
hold (10_state R53, 70_reset_and_hazards R340). -/
def Obligations.ResetState : Prop :=
  (∀ r : Reg, State.reset.readReg r = if r = .id then 0x51524301 else 0) ∧ State.reset.status.busy = false ∧
    State.reset.irq = false ∧ State.reset.canonical ∧ State.reset.ranged ∧ State.reset.bounded

/-! ### The bus (20_memory, 10_state, 70_reset_and_hazards) -/

/-- An access ends in a bus error exactly if its width, alignment or offset is not one the rules admit (R62 to R64); that
it does so while a command runs too, where an admitted memory access is a hazard, is the model's (DEDUCED, log 6). -/
def Obligations.ForbiddenAccessesFault : Prop :=
  ∀ (s : State) (w : Width) (o : BitVec 20) (d : Word),
    (hostAccess (.read w o) s = .fault .busError ↔ ¬AccessAdmitted w o.toNat) ∧
    (hostAccess (.write w o d) s = .fault .busError ↔ ¬AccessAdmitted w o.toNat)

/-- A memory access of an idle block moves the bytes of its width, lowest offset in the lowest bits, and nothing else
changes; while a command runs it is the host's fault (R63, R65, R352). That the byte of an 8-bit access stands in bits 7:0
of the data is the model's (PRESUMED, log 19): R65 places the bytes of 16-bit and 32-bit accesses only. -/
def Obligations.HostMemoryAccessIsLittleEndian : Prop :=
  ∀ (s : State) (w : Width) (r : Region) (a : Nat) (o : BitVec 20) (d : Word),
    a + widthBytes w ≤ memSize r → a % widthBytes w = 0 → o.toNat = memBase r + a →
    (s.status.busy = false →
      (∃ t, hostAccess (.write w o d) s = .next t ∧ t.regs = s.regs ∧ t.status = s.status ∧ SameHostSide s t ∧
        (∀ k, k < widthBytes w → t.readByte r (a + k) = d.extractLsb' (8 * k) 8 &&& memBits r) ∧
        SameOutside s t r a (widthBytes w)) ∧
      (∃ t, hostAccess (.read w o) s = .next t ∧ t = { s with rdata := t.rdata } ∧
        ∀ k, k < widthBytes w → t.rdata.extractLsb' (8 * k) 8 = s.readByte r (a + k))) ∧
    (s.status.busy = true →
      hostAccess (.write w o d) s = .fault .memoryHazard ∧ hostAccess (.read w o) s = .fault .memoryHazard)

/-- A read has no side effect on any register, flag or memory; of a register it gives the value, and while a command runs
`ID` and `STATUS` read true and any other register reads with its reserved bits 0 (R68, R353). The counter of free values
is the model's (DESIGN CHOICE, log 5), and so is that all of `CMD` and bit 31 of `CTRL` count as reserved and read 0 while
a command runs (DEDUCED, log 20). -/
def Obligations.ReadsHaveNoSideEffects : Prop :=
  (∀ (s t : State) (w : Width) (o : BitVec 20), hostAccess (.read w o) s = .next t →
    t = { s with rdata := t.rdata, free := t.free }) ∧
  (∀ (s : State) (r : Reg), ∃ t, hostAccess (.read .word (BitVec.ofNat 20 (regOffset r))) s = .next t ∧
    (s.status.busy = false ∨ r = .id ∨ r = .status → t.rdata = s.readReg r) ∧ t.rdata &&& ~~~regBits r = 0)

/-- A host write reaches the register at its offset: it stores the implemented bits of `CTRL`, `ARG0`, `ARG1`, `INLEN`
or `OUTLEN` and nothing else, clears `DONE` and `OVERRUN` by ones written to `STATUS`, and is ignored by a read-only
register; reserved bits read 0 (10_state R20, R22, R31 to R34, R52). -/
def Obligations.RegisterWrites : Prop :=
  (∀ (s : State) (r : Reg) (d : Word),
    hostAccess (.write .word (BitVec.ofNat 20 (regOffset r)) d) s = .next (s.hostWriteReg r d)) ∧
  (∀ (s : State) (r : Reg), s.readReg r &&& ~~~regBits r = 0) ∧
  (∀ (s : State) (r : Reg) (d : Word), r.readOnly = true → s.hostWriteReg r d = s) ∧
  (∀ (s : State) (r : Reg) (d : Word), r ∈ [.ctrl, .arg0, .arg1, .inlen, .outlen] →
    (r = .ctrl → d.getLsbD 31 = false) →
    (s.hostWriteReg r d).readReg r = d &&& regBits r ∧
    (∀ q, q ≠ r → (s.hostWriteReg r d).readReg q = s.readReg q) ∧
    SameHostSide s (s.hostWriteReg r d) ∧ SameMemory s (s.hostWriteReg r d)) ∧
  (∀ (s : State) (d : Word), s.hostWriteReg .status d =
    { s with
      status :=
        { s.status with
          done := s.status.done && !d.getLsbD 1
          overrun := s.status.overrun && !d.getLsbD 3 } })

/-- A write to `CTRL` with bit 31 set resets every register and idles the sequencer. With no command running every memory
byte stays; with one running every byte outside the bytes that command writes stays (10_state R28, 70_reset_and_hazards
R341; the bytes a command writes as log 8 lists them, which take in every byte it changes). -/
def Obligations.SoftResetKeepsOtherBytes : Prop :=
  (∀ (s : State) (d : Word), d.getLsbD 31 = true → ∃ t, hostAccess (.write .word 0x00004 d) s = .next t ∧
    (∀ r : Reg, t.readReg r = if r = .id then 0x51524301 else 0) ∧ t.status = Status.reset ∧ t.bus = s.bus ∧
    (s.status.busy = false → SameMemory s t) ∧
    (s.status.busy = true → ∀ (q : Region) (x : Nat),
      (∀ p ∈ s.footprint, q ≠ p.1 ∨ x < p.2.1 ∨ p.2.1 + p.2.2 ≤ x) → t.readByte q x = s.readByte q x)) ∧
  (∀ (s t : State) (i : Instr), s.ranged → decode s.latch.word = .ok i → exec i s = .next t →
    ∀ (q : Region) (x : Nat), x < memSize q → t.readByte q x ≠ s.readByte q x →
      ∃ p ∈ s.footprint, q = p.1 ∧ p.2.1 ≤ x ∧ x < p.2.1 + p.2.2)
end

