-- ==== Sys2Proof/Laws/Bits.lean ====
section
/-! SUPPORT. Bit strings: their lengths, their values, and bytes as bit strings, most significant bit first (00_scope
R12, 20_memory R67). -/

namespace Sys2Proof.Machine

@[simp] theorem bitsOf_length (w x : Nat) : (bitsOf w x).length = w := by simp [bitsOf]

/-- Bit `i` of a field, counted from its first character. -/
theorem bitsOf_getD (w x i : Nat) (h : i < w) : (bitsOf w x).getD i false = x.testBit (w - 1 - i) := by
  simp [bitsOf, List.getD_eq_getElem?_getD, h]

theorem bitsOf_succ (w x : Nat) : bitsOf (w + 1) x = x.testBit w :: bitsOf w x := by
  simp only [bitsOf, List.range_succ_eq_map, List.map_cons, List.map_map]
  refine congrArg₂ _ (by simp) (List.map_congr_left fun i _ => ?_)
  simp only [Function.comp]
  congr 1
  omega

theorem bitsVal_foldl (acc : Nat) (l : List Bool) :
    l.foldl (fun acc b => 2 * acc + b.toNat) acc = acc * 2 ^ l.length + bitsVal l := by
  unfold bitsVal
  induction l generalizing acc with
  | nil => simp
  | cons b l ih =>
    simp only [List.foldl_cons, List.length_cons]
    rw [ih, ih (2 * 0 + b.toNat)]
    ring

@[simp] theorem bitsVal_nil : bitsVal [] = 0 := rfl

theorem bitsVal_cons (b : Bool) (l : List Bool) : bitsVal (b :: l) = b.toNat * 2 ^ l.length + bitsVal l := by
  have := bitsVal_foldl b.toNat l
  simpa [bitsVal] using this

/-- The value of a bit string is below 2 to its length. -/
theorem bitsVal_lt (l : List Bool) : bitsVal l < 2 ^ l.length := by
  induction l with
  | nil => simp
  | cons b l ih =>
    rw [bitsVal_cons]
    have : b.toNat ≤ 1 := Bool.toNat_le b
    have h2 : b.toNat * 2 ^ l.length ≤ 1 * 2 ^ l.length := Nat.mul_le_mul_right _ this
    simp only [List.length_cons, pow_succ]
    omega

/-- The value of the field of a number is the number, if it fits. -/
theorem bitsVal_bitsOf (w x : Nat) : bitsVal (bitsOf w x) = x % 2 ^ w := by
  induction w with
  | zero => simp [bitsOf, Nat.mod_one]
  | succ w ih =>
    rw [bitsOf_succ, bitsVal_cons, ih, bitsOf_length, Nat.mod_pow_succ, Nat.toNat_testBit]
    ring

/-- Bit `i` of the value of a bit string is its `i`-th character from the end. -/
theorem bitsVal_testBit (l : List Bool) (i : Nat) (h : i < l.length) :
    (bitsVal l).testBit i = l.getD (l.length - 1 - i) false := by
  induction l with
  | nil => simp at h
  | cons b l ih =>
    rw [bitsVal_cons, Nat.mul_comm]
    simp only [List.length_cons] at h ⊢
    rw [Nat.testBit_two_pow_mul_add _ (bitsVal_lt l)]
    by_cases hi : i < l.length
    · rw [if_pos hi, ih hi]
      have : l.length + 1 - 1 - i = l.length - 1 - i + 1 := by omega
      rw [this, List.getD_cons_succ]
    · have hi : i = l.length := by omega
      subst hi
      cases b <;> simp

/-- Bit `7 - i` of the byte of a bit string is its `i`-th character, or 0. -/
theorem byteOfBits_getLsbD (bs : List Bool) (i : Nat) (h : i < 8) :
    (byteOfBits bs).getLsbD (7 - i) = bs.getD i false := by
  unfold byteOfBits
  have hl : ((bs ++ List.replicate 8 false).take 8).length = 8 := by simp
  rw [BitVec.getLsbD_ofNat, bitsVal_testBit _ _ (by rw [hl]; omega), hl]
  have h1 : 8 - 1 - (7 - i) = i := by omega
  rw [h1]
  simp only [show 7 - i < 8 by omega, decide_true, Bool.true_and, List.getD_eq_getElem?_getD, List.getElem?_take, h,
    if_true]
  by_cases hb : i < bs.length
  · rw [List.getElem?_append_left hb]
  · rw [List.getElem?_append_right (by omega), List.getElem?_eq_none (by omega : bs.length ≤ i)]
    rw [List.getElem?_replicate]
    split <;> rfl

@[simp] theorem bytesOfBits_length (k : Nat) (bs : List Bool) : (bytesOfBits k bs).length = k := by
  induction k generalizing bs with
  | zero => rfl
  | succ k ih => simp [bytesOfBits, ih]

/-- Bit `i` of a bit string laid out in `k` bytes. -/
theorem bytesOfBits_bit (k : Nat) (bs : List Bool) (i : Nat) (h : i < 8 * k) :
    ((bytesOfBits k bs).getD (i / 8) 0).getLsbD (7 - i % 8) = bs.getD i false := by
  induction k generalizing bs i with
  | zero => omega
  | succ k ih =>
    rw [bytesOfBits]
    by_cases hi : i < 8
    · rw [Nat.div_eq_of_lt hi, Nat.mod_eq_of_lt hi, List.getD_cons_zero, byteOfBits_getLsbD _ _ hi]
      simp [List.getD_eq_getElem?_getD, hi]
    · obtain ⟨j, rfl⟩ : ∃ j, i = j + 8 := ⟨i - 8, by omega⟩
      have h1 : (j + 8) / 8 = j / 8 + 1 := by omega
      have h2 : (j + 8) % 8 = j % 8 := by omega
      rw [h1, h2, List.getD_cons_succ, ih _ _ (by omega)]
      simp [List.getD_eq_getElem?_getD, List.getElem?_drop, Nat.add_comm]

@[simp] theorem packBits_length (bs : List Bool) : (packBits bs).length = (bs.length + 7) / 8 := by simp [packBits]

/-- Bit `i` of a bit string in its bytes, the fill bits 0. -/
theorem packBits_bit (bs : List Bool) (i : Nat) (h : i < 8 * ((bs.length + 7) / 8)) :
    ((packBits bs).getD (i / 8) 0).getLsbD (7 - i % 8) = bs.getD i false := bytesOfBits_bit _ _ _ h

@[simp] theorem unpackBits_length (bytes : List Byte) : (unpackBits bytes).length = 8 * bytes.length := by
  induction bytes with
  | nil => rfl
  | cons b bs ih =>
    simp only [unpackBits, List.flatMap_cons, List.length_append, bitsOf_length] at ih ⊢
    rw [ih, List.length_cons]; ring

/-- Bit `i` of a byte string. -/
theorem unpackBits_bit (bytes : List Byte) (i : Nat) (h : i < 8 * bytes.length) :
    (unpackBits bytes).getD i false = (bytes.getD (i / 8) 0).getLsbD (7 - i % 8) := by
  induction bytes generalizing i with
  | nil => simp at h
  | cons b bs ih =>
    have hu : unpackBits (b :: bs) = bitsOf 8 b.toNat ++ unpackBits bs := rfl
    rw [hu]
    by_cases hi : i < 8
    · rw [Nat.div_eq_of_lt hi, Nat.mod_eq_of_lt hi, List.getD_cons_zero, List.getD_append _ _ _ _ (by simpa using hi),
        bitsOf_getD _ _ _ hi]
      rfl
    · obtain ⟨j, rfl⟩ : ∃ j, i = j + 8 := ⟨i - 8, by omega⟩
      have h1 : (j + 8) / 8 = j / 8 + 1 := by omega
      have h2 : (j + 8) % 8 = j % 8 := by omega
      rw [h1, h2, List.getD_cons_succ, List.getD_append_right _ _ _ _ (by simp), bitsOf_length,
        show j + 8 - 8 = j by omega]
      exact ih j (by simp only [List.length_cons] at h; omega)

end Sys2Proof.Machine
end

