-- ==== Sys2Proof/Laws/Bus.lean ====
section
/-! SUPPORT. What a host access reaches, and all it can do. Callers cite these lemmas and do not unfold the address map. -/

namespace Sys2Proof.Machine

/-- A word access at a register's offset reaches it. -/
theorem target_regOffset (r : Reg) : target .word (BitVec.ofNat 20 (regOffset r)) = some (.reg r) := by
  cases r with
  | pen m => revert m; decide
  | _ => rfl

/-- The register at an offset has that offset. -/
theorem regOffset_of_regAt {o : Nat} {r : Reg} (h : regAt o = some r) : regOffset r = o := by
  unfold regAt at h
  split at h <;> simp_all <;> (subst h; rfl)

/-- The memory at an offset: the offset lies in its window. -/
theorem regionAt_spec {o : Nat} {r : Region} (h : regionAt o = some r) : memBase r ≤ o ∧ o < memBase r + memSize r := by
  unfold regionAt at h
  split at h
  · simp at h; subst h; simp [memBase, memSize]; omega
  · split at h
    · simp at h; subst h; simp [memBase, memSize]; omega
    · split at h
      · simp at h; subst h; simp [memBase, memSize]; omega
      · split at h
        · simp at h; subst h; simp [memBase, memSize]; omega
        · simp at h

/-- An offset in a memory's window is that memory's. -/
theorem regionAt_of {o : Nat} {r : Region} (h1 : memBase r ≤ o) (h2 : o < memBase r + memSize r) :
    regionAt o = some r := by
  unfold regionAt
  cases r <;> simp only [memBase, memSize] at h1 h2 <;> split_ifs <;> first | rfl | omega

theorem memBase_mod (r : Region) (w : Width) : memBase r % widthBytes w = 0 := by cases r <;> cases w <;> rfl

theorem memSize_mod (r : Region) (w : Width) : memSize r % widthBytes w = 0 := by cases r <;> cases w <;> rfl

theorem widthBytes_pos (w : Width) : 0 < widthBytes w := by cases w <;> decide

/-- All an access can reach: a register at its offset by a word, or aligned bytes inside a memory. -/
theorem target_cases {w : Width} {o : BitVec 20} {t : Target} (h : target w o = some t) :
    (∃ r, t = .reg r ∧ w = .word ∧ o.toNat = regOffset r) ∨
      ∃ r a, t = .mem r a ∧ o.toNat = memBase r + a ∧ a + widthBytes w ≤ memSize r ∧ a % widthBytes w = 0 := by
  unfold target at h
  simp only at h
  split at h
  · split at h
    · obtain ⟨r, hr, rfl⟩ := Option.map_eq_some_iff.mp h
      exact .inl ⟨r, rfl, ‹_›, (regOffset_of_regAt hr).symm⟩
    · simp at h
  · split at h
    · obtain ⟨r, hr, rfl⟩ := Option.map_eq_some_iff.mp h
      obtain ⟨h1, h2⟩ := regionAt_spec hr
      have hm : (o.toNat - memBase r) % widthBytes w = 0 := by
        have := memBase_mod r w
        rename_i hal
        exact Nat.sub_mod_eq_zero_of_mod_eq (by rw [hal, this])
      refine .inr ⟨r, _, rfl, by omega, ?_, hm⟩
      have h3 := memSize_mod r w
      have h4 := widthBytes_pos w
      obtain ⟨x, hx⟩ := Nat.dvd_of_mod_eq_zero hm
      obtain ⟨y, hy⟩ := Nat.dvd_of_mod_eq_zero h3
      have h5 : o.toNat - memBase r < memSize r := by omega
      rw [hx, hy] at h5 ⊢
      have : x < y := Nat.lt_of_mul_lt_mul_left h5
      calc widthBytes w * x + widthBytes w = widthBytes w * (x + 1) := by ring
        _ ≤ widthBytes w * y := Nat.mul_le_mul_left _ this
    · simp at h

/-- Aligned bytes inside a memory are reached at their window offset. -/
theorem target_mem {w : Width} {r : Region} {a : Nat} {o : BitVec 20} (h1 : a + widthBytes w ≤ memSize r)
    (h2 : a % widthBytes w = 0) (ho : o.toNat = memBase r + a) : target w o = some (.mem r a) := by
  have hw := widthBytes_pos w
  have hb := memBase_mod r w
  have hmod : (memBase r + a) % widthBytes w = 0 := by rw [Nat.add_mod, hb, h2]; simp
  have hr : regionAt (memBase r + a) = some r :=
    regionAt_of (by omega) (by omega)
  unfold target
  simp only [ho]
  rw [if_neg (by cases r <;> simp [memBase] <;> omega), if_pos hmod, hr]
  simp

/-- All a host access can do: a bus error, a memory hazard while a command runs, or the access itself. -/
theorem hostAccess_cases (op : BusOp) (s : State) :
    hostAccess op s = .fault .busError ∨ (s.status.busy = true ∧ hostAccess op s = .fault .memoryHazard) ∨
      (∃ w o r, op = .read w o ∧ hostAccess op s = .next (s.hostReadReg r)) ∨
      (∃ w o r a, op = .read w o ∧ hostAccess op s = .next (s.hostReadMem w r a)) ∨
      (∃ w o d r, op = .write w o d ∧ hostAccess op s = .next (s.hostWriteReg r d)) ∨
      ∃ w o d r a, op = .write w o d ∧ a + widthBytes w ≤ memSize r ∧
        hostAccess op s = .next (s.hostWriteMem w r a d) := by
  cases op with
  | read w o =>
    unfold hostAccess
    cases h : target w o with
    | none => exact .inl (by simp [h])
    | some t =>
      rcases target_cases h with ⟨r, rfl, -, -⟩ | ⟨r, a, rfl, -, h2, -⟩
      · exact .inr (.inr (.inl ⟨w, o, r, rfl, by simp [h]⟩))
      · cases hb : s.status.busy with
        | true => exact .inr (.inl ⟨rfl, by simp [h]⟩)
        | false => exact .inr (.inr (.inr (.inl ⟨w, o, r, a, rfl, by simp [h]⟩)))
  | write w o d =>
    unfold hostAccess
    cases h : target w o with
    | none => exact .inl (by simp [h])
    | some t =>
      rcases target_cases h with ⟨r, rfl, -, -⟩ | ⟨r, a, rfl, -, h2, -⟩
      · exact .inr (.inr (.inr (.inr (.inl ⟨w, o, d, r, rfl, by simp [h]⟩))))
      · cases hb : s.status.busy with
        | true => exact .inr (.inl ⟨rfl, by simp [h]⟩)
        | false => exact .inr (.inr (.inr (.inr (.inr ⟨w, o, d, r, a, rfl, h2, by simp [h]⟩))))

end Sys2Proof.Machine
end

