-- ==== Sys2Proof/Laws/State.lean ====
section
/-! SUPPORT. One lemma per field per named update of the state, so that no later proof unfolds a record update. -/

namespace Sys2Proof.Machine

/-! ### complete -/

@[simp] theorem State.complete_regs (s : State) : (s.complete).regs = s.regs := rfl
@[simp] theorem State.complete_status (s : State) : (s.complete).status = s.status.completed := rfl
@[simp] theorem State.complete_latch (s : State) : (s.complete).latch = s.latch := rfl
@[simp] theorem State.complete_inp (s : State) : (s.complete).inp = s.inp := rfl
@[simp] theorem State.complete_cwm (s : State) : (s.complete).cwm = s.cwm := rfl
@[simp] theorem State.complete_mtx (s : State) : (s.complete).mtx = s.mtx := rfl
@[simp] theorem State.complete_out (s : State) : (s.complete).out = s.out := rfl
@[simp] theorem State.complete_bus (s : State) : (s.complete).bus = s.bus := rfl
@[simp] theorem State.complete_rdata (s : State) : (s.complete).rdata = s.rdata := rfl
@[simp] theorem State.complete_free (s : State) : (s.complete).free = s.free := rfl

/-! ### raise -/

@[simp] theorem State.raise_regs (s : State) (e : CmdError) : (s.raise e).regs = { s.regs with errinfo := s.regs.errinfo.after e } := rfl
@[simp] theorem State.raise_status (s : State) (e : CmdError) : (s.raise e).status = s.status.failed e := rfl
@[simp] theorem State.raise_latch (s : State) (e : CmdError) : (s.raise e).latch = s.latch := rfl
@[simp] theorem State.raise_inp (s : State) (e : CmdError) : (s.raise e).inp = s.inp := rfl
@[simp] theorem State.raise_cwm (s : State) (e : CmdError) : (s.raise e).cwm = s.cwm := rfl
@[simp] theorem State.raise_mtx (s : State) (e : CmdError) : (s.raise e).mtx = s.mtx := rfl
@[simp] theorem State.raise_out (s : State) (e : CmdError) : (s.raise e).out = s.out := rfl
@[simp] theorem State.raise_bus (s : State) (e : CmdError) : (s.raise e).bus = s.bus := rfl
@[simp] theorem State.raise_rdata (s : State) (e : CmdError) : (s.raise e).rdata = s.rdata := rfl
@[simp] theorem State.raise_free (s : State) (e : CmdError) : (s.raise e).free = s.free := rfl

/-! ### start -/

@[simp] theorem State.start_regs (s : State) (w : Word) : (s.start w).regs = s.regs := rfl
@[simp] theorem State.start_status (s : State) (w : Word) : (s.start w).status = s.status.started := rfl
@[simp] theorem State.start_latch (s : State) (w : Word) : (s.start w).latch = 
      { word := w, ctrl := s.regs.ctrl, arg0 := s.regs.arg0, arg1 := s.regs.arg1, inlen := s.regs.inlen, outlen := s.regs.outlen } := rfl
@[simp] theorem State.start_inp (s : State) (w : Word) : (s.start w).inp = s.inp := rfl
@[simp] theorem State.start_cwm (s : State) (w : Word) : (s.start w).cwm = s.cwm := rfl
@[simp] theorem State.start_mtx (s : State) (w : Word) : (s.start w).mtx = s.mtx := rfl
@[simp] theorem State.start_out (s : State) (w : Word) : (s.start w).out = s.out := rfl
@[simp] theorem State.start_bus (s : State) (w : Word) : (s.start w).bus = s.bus := rfl
@[simp] theorem State.start_rdata (s : State) (w : Word) : (s.start w).rdata = s.rdata := rfl
@[simp] theorem State.start_free (s : State) (w : Word) : (s.start w).free = s.free := rfl

/-! ### setRegs -/

@[simp] theorem State.setRegs_regs (s : State) (f : Regs → Regs) : (s.setRegs f).regs = f s.regs := rfl
@[simp] theorem State.setRegs_status (s : State) (f : Regs → Regs) : (s.setRegs f).status = s.status := rfl
@[simp] theorem State.setRegs_latch (s : State) (f : Regs → Regs) : (s.setRegs f).latch = s.latch := rfl
@[simp] theorem State.setRegs_inp (s : State) (f : Regs → Regs) : (s.setRegs f).inp = s.inp := rfl
@[simp] theorem State.setRegs_cwm (s : State) (f : Regs → Regs) : (s.setRegs f).cwm = s.cwm := rfl
@[simp] theorem State.setRegs_mtx (s : State) (f : Regs → Regs) : (s.setRegs f).mtx = s.mtx := rfl
@[simp] theorem State.setRegs_out (s : State) (f : Regs → Regs) : (s.setRegs f).out = s.out := rfl
@[simp] theorem State.setRegs_bus (s : State) (f : Regs → Regs) : (s.setRegs f).bus = s.bus := rfl
@[simp] theorem State.setRegs_rdata (s : State) (f : Regs → Regs) : (s.setRegs f).rdata = s.rdata := rfl
@[simp] theorem State.setRegs_free (s : State) (f : Regs → Regs) : (s.setRegs f).free = s.free := rfl

/-! ### setQz -/

@[simp] theorem State.setQz_regs (s : State) (b : Bool) : (s.setQz b).regs = s.regs := rfl
@[simp] theorem State.setQz_status (s : State) (b : Bool) : (s.setQz b).status = { s.status with qz := b } := rfl
@[simp] theorem State.setQz_latch (s : State) (b : Bool) : (s.setQz b).latch = s.latch := rfl
@[simp] theorem State.setQz_inp (s : State) (b : Bool) : (s.setQz b).inp = s.inp := rfl
@[simp] theorem State.setQz_cwm (s : State) (b : Bool) : (s.setQz b).cwm = s.cwm := rfl
@[simp] theorem State.setQz_mtx (s : State) (b : Bool) : (s.setQz b).mtx = s.mtx := rfl
@[simp] theorem State.setQz_out (s : State) (b : Bool) : (s.setQz b).out = s.out := rfl
@[simp] theorem State.setQz_bus (s : State) (b : Bool) : (s.setQz b).bus = s.bus := rfl
@[simp] theorem State.setQz_rdata (s : State) (b : Bool) : (s.setQz b).rdata = s.rdata := rfl
@[simp] theorem State.setQz_free (s : State) (b : Bool) : (s.setQz b).free = s.free := rfl

/-! ### withRes0 -/

@[simp] theorem State.withRes0_regs (s : State) (v : Nat) : (s.withRes0 v).regs = { s.regs with res0 := BitVec.ofNat 32 v } := rfl
@[simp] theorem State.withRes0_status (s : State) (v : Nat) : (s.withRes0 v).status = s.status := rfl
@[simp] theorem State.withRes0_latch (s : State) (v : Nat) : (s.withRes0 v).latch = s.latch := rfl
@[simp] theorem State.withRes0_inp (s : State) (v : Nat) : (s.withRes0 v).inp = s.inp := rfl
@[simp] theorem State.withRes0_cwm (s : State) (v : Nat) : (s.withRes0 v).cwm = s.cwm := rfl
@[simp] theorem State.withRes0_mtx (s : State) (v : Nat) : (s.withRes0 v).mtx = s.mtx := rfl
@[simp] theorem State.withRes0_out (s : State) (v : Nat) : (s.withRes0 v).out = s.out := rfl
@[simp] theorem State.withRes0_bus (s : State) (v : Nat) : (s.withRes0 v).bus = s.bus := rfl
@[simp] theorem State.withRes0_rdata (s : State) (v : Nat) : (s.withRes0 v).rdata = s.rdata := rfl
@[simp] theorem State.withRes0_free (s : State) (v : Nat) : (s.withRes0 v).free = s.free := rfl

/-! ### withRes -/

@[simp] theorem State.withRes_regs (s : State) (a b c d : Nat) : (s.withRes a b c d).regs = 
      { s.regs with
        res0 := BitVec.ofNat 32 a
        res1 := BitVec.ofNat 32 b
        res2 := BitVec.ofNat 32 c
        res3 := BitVec.ofNat 32 d } := rfl
@[simp] theorem State.withRes_status (s : State) (a b c d : Nat) : (s.withRes a b c d).status = s.status := rfl
@[simp] theorem State.withRes_latch (s : State) (a b c d : Nat) : (s.withRes a b c d).latch = s.latch := rfl
@[simp] theorem State.withRes_inp (s : State) (a b c d : Nat) : (s.withRes a b c d).inp = s.inp := rfl
@[simp] theorem State.withRes_cwm (s : State) (a b c d : Nat) : (s.withRes a b c d).cwm = s.cwm := rfl
@[simp] theorem State.withRes_mtx (s : State) (a b c d : Nat) : (s.withRes a b c d).mtx = s.mtx := rfl
@[simp] theorem State.withRes_out (s : State) (a b c d : Nat) : (s.withRes a b c d).out = s.out := rfl
@[simp] theorem State.withRes_bus (s : State) (a b c d : Nat) : (s.withRes a b c d).bus = s.bus := rfl
@[simp] theorem State.withRes_rdata (s : State) (a b c d : Nat) : (s.withRes a b c d).rdata = s.rdata := rfl
@[simp] theorem State.withRes_free (s : State) (a b c d : Nat) : (s.withRes a b c d).free = s.free := rfl

/-! ### setMem -/

@[simp] theorem State.setMem_regs (s : State) (r : Region) (m : Memory) : (s.setMem r m).regs = s.regs := by
  cases r <;> rfl
@[simp] theorem State.setMem_status (s : State) (r : Region) (m : Memory) : (s.setMem r m).status = s.status := by
  cases r <;> rfl
@[simp] theorem State.setMem_latch (s : State) (r : Region) (m : Memory) : (s.setMem r m).latch = s.latch := by
  cases r <;> rfl
@[simp] theorem State.setMem_bus (s : State) (r : Region) (m : Memory) : (s.setMem r m).bus = s.bus := by
  cases r <;> rfl
@[simp] theorem State.setMem_rdata (s : State) (r : Region) (m : Memory) : (s.setMem r m).rdata = s.rdata := by
  cases r <;> rfl
@[simp] theorem State.setMem_free (s : State) (r : Region) (m : Memory) : (s.setMem r m).free = s.free := by
  cases r <;> rfl

/-! ### writeBytes -/

@[simp] theorem State.writeBytes_regs (s : State) (r : Region) (a : Nat) (bs : List Byte) : (s.writeBytes r a bs).regs = s.regs := by
  simp [State.writeBytes]
@[simp] theorem State.writeBytes_status (s : State) (r : Region) (a : Nat) (bs : List Byte) : (s.writeBytes r a bs).status = s.status := by
  simp [State.writeBytes]
@[simp] theorem State.writeBytes_latch (s : State) (r : Region) (a : Nat) (bs : List Byte) : (s.writeBytes r a bs).latch = s.latch := by
  simp [State.writeBytes]
@[simp] theorem State.writeBytes_bus (s : State) (r : Region) (a : Nat) (bs : List Byte) : (s.writeBytes r a bs).bus = s.bus := by
  simp [State.writeBytes]
@[simp] theorem State.writeBytes_rdata (s : State) (r : Region) (a : Nat) (bs : List Byte) : (s.writeBytes r a bs).rdata = s.rdata := by
  simp [State.writeBytes]
@[simp] theorem State.writeBytes_free (s : State) (r : Region) (a : Nat) (bs : List Byte) : (s.writeBytes r a bs).free = s.free := by
  simp [State.writeBytes]

/-! ### clearMem -/

@[simp] theorem State.clearMem_regs (s : State) (r : Region) : (s.clearMem r).regs = s.regs := by
  simp [State.clearMem]
@[simp] theorem State.clearMem_status (s : State) (r : Region) : (s.clearMem r).status = s.status := by
  simp [State.clearMem]
@[simp] theorem State.clearMem_latch (s : State) (r : Region) : (s.clearMem r).latch = s.latch := by
  simp [State.clearMem]
@[simp] theorem State.clearMem_bus (s : State) (r : Region) : (s.clearMem r).bus = s.bus := by
  simp [State.clearMem]
@[simp] theorem State.clearMem_rdata (s : State) (r : Region) : (s.clearMem r).rdata = s.rdata := by
  simp [State.clearMem]
@[simp] theorem State.clearMem_free (s : State) (r : Region) : (s.clearMem r).free = s.free := by
  simp [State.clearMem]

/-! ### writeRows and writeMatrix -/

@[simp] theorem State.writeRows_regs (s : State) (r : Nat) (g : Matrix) : (s.writeRows r g).regs = s.regs := by
  induction g generalizing s r with
  | nil => rfl
  | cons row rows ih => simp [State.writeRows, ih]
@[simp] theorem State.writeMatrix_regs (s : State) (g : Matrix) : (s.writeMatrix g).regs = s.regs := by
  simp [State.writeMatrix]
@[simp] theorem State.writeRows_status (s : State) (r : Nat) (g : Matrix) : (s.writeRows r g).status = s.status := by
  induction g generalizing s r with
  | nil => rfl
  | cons row rows ih => simp [State.writeRows, ih]
@[simp] theorem State.writeMatrix_status (s : State) (g : Matrix) : (s.writeMatrix g).status = s.status := by
  simp [State.writeMatrix]
@[simp] theorem State.writeRows_latch (s : State) (r : Nat) (g : Matrix) : (s.writeRows r g).latch = s.latch := by
  induction g generalizing s r with
  | nil => rfl
  | cons row rows ih => simp [State.writeRows, ih]
@[simp] theorem State.writeMatrix_latch (s : State) (g : Matrix) : (s.writeMatrix g).latch = s.latch := by
  simp [State.writeMatrix]
@[simp] theorem State.writeRows_bus (s : State) (r : Nat) (g : Matrix) : (s.writeRows r g).bus = s.bus := by
  induction g generalizing s r with
  | nil => rfl
  | cons row rows ih => simp [State.writeRows, ih]
@[simp] theorem State.writeMatrix_bus (s : State) (g : Matrix) : (s.writeMatrix g).bus = s.bus := by
  simp [State.writeMatrix]
@[simp] theorem State.writeRows_rdata (s : State) (r : Nat) (g : Matrix) : (s.writeRows r g).rdata = s.rdata := by
  induction g generalizing s r with
  | nil => rfl
  | cons row rows ih => simp [State.writeRows, ih]
@[simp] theorem State.writeMatrix_rdata (s : State) (g : Matrix) : (s.writeMatrix g).rdata = s.rdata := by
  simp [State.writeMatrix]
@[simp] theorem State.writeRows_free (s : State) (r : Nat) (g : Matrix) : (s.writeRows r g).free = s.free := by
  induction g generalizing s r with
  | nil => rfl
  | cons row rows ih => simp [State.writeRows, ih]
@[simp] theorem State.writeMatrix_free (s : State) (g : Matrix) : (s.writeMatrix g).free = s.free := by
  simp [State.writeMatrix]

/-! ### The memories of an updated state -/

@[simp] theorem State.mem_setMem_same (s : State) (r : Region) (m : Memory) : (s.setMem r m).mem r = m := by
  cases r <;> rfl

theorem State.mem_setMem_other (s : State) {r q : Region} (m : Memory) (h : q ≠ r) : (s.setMem r m).mem q = s.mem q := by
  cases r <;> cases q <;> first | rfl | exact absurd rfl h

@[simp] theorem State.mem_writeBytes_same (s : State) (r : Region) (a : Nat) (bs : List Byte) :
    (s.writeBytes r a bs).mem r = (s.mem r).write a (bs.map (· &&& memBits r)) := by
  simp [State.writeBytes]

theorem State.mem_writeBytes_other (s : State) {r q : Region} (a : Nat) (bs : List Byte) (h : q ≠ r) :
    (s.writeBytes r a bs).mem q = s.mem q := by
  simp [State.writeBytes, State.mem_setMem_other _ _ h]

@[simp] theorem State.mem_clearMem_same (s : State) (r : Region) : (s.clearMem r).mem r = Memory.zeros := by
  simp [State.clearMem]

theorem State.mem_clearMem_other (s : State) {r q : Region} (h : q ≠ r) : (s.clearMem r).mem q = s.mem q := by
  simp [State.clearMem, State.mem_setMem_other _ _ h]

@[simp] theorem State.mem_setRegs (s : State) (f : Regs → Regs) (r : Region) : (s.setRegs f).mem r = s.mem r := by
  cases r <;> rfl

@[simp] theorem State.mem_setQz (s : State) (b : Bool) (r : Region) : (s.setQz b).mem r = s.mem r := by
  cases r <;> rfl

@[simp] theorem State.mem_complete (s : State) (r : Region) : s.complete.mem r = s.mem r := by cases r <;> rfl

@[simp] theorem State.mem_raise (s : State) (e : CmdError) (r : Region) : (s.raise e).mem r = s.mem r := by
  cases r <;> rfl

@[simp] theorem State.mem_start (s : State) (w : Word) (r : Region) : (s.start w).mem r = s.mem r := by cases r <;> rfl

@[simp] theorem State.mem_withRes0 (s : State) (v : Nat) (r : Region) : (s.withRes0 v).mem r = s.mem r := by
  cases r <;> rfl

@[simp] theorem State.mem_withRes (s : State) (a b c d : Nat) (r : Region) : (s.withRes a b c d).mem r = s.mem r := by
  cases r <;> rfl

theorem State.mem_writeRows_other (s : State) (n : Nat) (g : Matrix) {q : Region} (h : q ≠ .mtx) :
    (s.writeRows n g).mem q = s.mem q := by
  induction g generalizing s n with
  | nil => rfl
  | cons row rows ih => simp [State.writeRows, ih, State.mem_writeBytes_other _ _ _ h]

theorem State.mem_writeMatrix_other (s : State) (g : Matrix) {q : Region} (h : q ≠ .mtx) :
    (s.writeMatrix g).mem q = s.mem q := State.mem_writeRows_other s 0 g h

end Sys2Proof.Machine
end

