-- ==== Sys2Proof/Laws/Memory.lean ====
section
/-! SUPPORT. What the memory operations do: a read after a write, block reads as byte reads, and the canonical form
that every operation keeps. Callers cite these lemmas and do not unfold the operations. -/

namespace Sys2Proof.Machine

/-! ### Lookup -/

theorem cellAt_append (l k : List Host.Cell) (x : Nat) : cellAt (l ++ k) x = (cellAt l x).or (cellAt k x) := by
  induction l with
  | nil => simp [cellAt]
  | cons c cs ih =>
    by_cases h : c.1 = x
    · simp [cellAt, h]
    · simp [cellAt, h, ih]

/-- Filtering by the offset keeps the lookups it admits. -/
theorem cellAt_filter_keep (l : List Host.Cell) (p : Nat → Bool) (x : Nat) (h : p x = true) :
    cellAt (l.filter fun c => p c.1) x = cellAt l x := by
  induction l with
  | nil => rfl
  | cons c cs ih =>
    by_cases hc : c.1 = x
    · simp [cellAt, hc, h]
    · by_cases hp : p c.1 = true <;> simp [cellAt, hc, hp, ih]

/-- Filtering by the offset removes the lookups it does not admit. -/
theorem cellAt_filter_drop (l : List Host.Cell) (p : Nat → Bool) (x : Nat) (h : p x = false) :
    cellAt (l.filter fun c => p c.1) x = none := by
  induction l with
  | nil => rfl
  | cons c cs ih =>
    by_cases hp : p c.1 = true
    · have hc : c.1 ≠ x := by intro e; simp [e, h] at hp
      simp [cellAt, hc, hp, ih]
    · simp [hp, ih]

/-- Every offset a block of bytes lists lies in the block. -/
theorem cellsOf_range (bl : Blank) (a : Nat) (bs : List Byte) {c : Host.Cell} (h : c ∈ cellsOf bl a bs) :
    a ≤ c.1 ∧ c.1 < a + bs.length := by
  induction bs generalizing a with
  | nil => simp [cellsOf] at h
  | cons b bs ih =>
    unfold cellsOf at h
    split at h
    · have := ih (a + 1) h; simp only [List.length_cons]; omega
    · rcases List.mem_cons.mp h with rfl | h
      · simp
      · have := ih (a + 1) h; simp only [List.length_cons]; omega

theorem cellAt_none_of_forall (l : List Host.Cell) (x : Nat) (h : ∀ c ∈ l, c.1 ≠ x) : cellAt l x = none := by
  induction l with
  | nil => rfl
  | cons c cs ih => simp [cellAt, h c (by simp), ih fun d hd => h d (by simp [hd])]

/-- A byte is either listed, or equal to what an unlisted offset holds. -/
theorem cellsOf_get (bl : Blank) (a : Nat) (bs : List Byte) (k : Nat) (h : k < bs.length) :
    (cellAt (cellsOf bl a bs) (a + k)).getD (blankByte bl (a + k)) = bs[k] := by
  induction bs generalizing a k with
  | nil => simp at h
  | cons b bs ih =>
    unfold cellsOf
    cases k with
    | zero =>
      split
      · rename_i hb
        have hn : cellAt (cellsOf bl (a + 1) bs) a = none :=
          cellAt_none_of_forall _ _ fun c hc => by have := cellsOf_range bl (a + 1) bs hc; omega
        cases bl with
        | zero => simp [isBlankByte] at hb; simp [hn, blankByte, hb]
        | powerOn r => simp [isBlankByte] at hb
      · simp [cellAt]
    | succ k =>
      have hk : k < bs.length := by simpa using h
      have := ih (a + 1) k hk
      have e : a + 1 + k = a + (k + 1) := by omega
      rw [e] at this
      split
      · simpa using this
      · simpa [cellAt] using this

/-! ### Reading after writing -/

/-- A byte inside the block written reads as the byte written there. -/
theorem Memory.get_write_inside (m : Memory) (a : Nat) (bs : List Byte) (k : Nat) (h : k < bs.length) :
    (m.write a bs).get (a + k) = bs[k] := by
  have h1 : cellAt (m.cells.filter fun c => decide (c.1 < a)) (a + k) = none :=
    cellAt_filter_drop m.cells (fun x => decide (x < a)) _ (by simp)
  have h3 : cellAt (m.cells.filter fun c => decide (a + bs.length ≤ c.1)) (a + k) = none :=
    cellAt_filter_drop m.cells (fun x => decide (a + bs.length ≤ x)) _ (by simp; omega)
  have h2 := cellsOf_get m.blank a bs k h
  simp only [Memory.get, Memory.write, cellAt_append, h1, h3]
  simpa using h2

/-- A byte outside the block written reads as before. -/
theorem Memory.get_write_outside (m : Memory) (a : Nat) (bs : List Byte) (x : Nat) (h : x < a ∨ a + bs.length ≤ x) :
    (m.write a bs).get x = m.get x := by
  have h2 : cellAt (cellsOf m.blank a bs) x = none :=
    cellAt_none_of_forall _ _ fun c hc => by have := cellsOf_range m.blank a bs hc; omega
  simp only [Memory.get, Memory.write, cellAt_append, h2]
  rcases h with h | h
  · have h1 : cellAt (m.cells.filter fun c => decide (c.1 < a)) x = cellAt m.cells x :=
      cellAt_filter_keep m.cells (fun y => decide (y < a)) x (by simpa using h)
    have h3 : cellAt (m.cells.filter fun c => decide (a + bs.length ≤ c.1)) x = none :=
      cellAt_filter_drop m.cells (fun y => decide (a + bs.length ≤ y)) x (by simp; omega)
    simp [h1, h3]
  · have h1 : cellAt (m.cells.filter fun c => decide (c.1 < a)) x = none :=
      cellAt_filter_drop m.cells (fun y => decide (y < a)) x (by simp; omega)
    have h3 : cellAt (m.cells.filter fun c => decide (a + bs.length ≤ c.1)) x = cellAt m.cells x :=
      cellAt_filter_keep m.cells (fun y => decide (a + bs.length ≤ y)) x (by simpa using h)
    simp [h1, h3]

/-- A block read is the byte reads in order. -/
theorem Memory.slice_eq (m : Memory) (a n : Nat) : m.slice a n = (List.range n).map fun k => m.get (a + k) := by
  unfold Memory.slice
  refine List.map_congr_left fun k hk => ?_
  have hk : k < n := by simpa using hk
  have := cellAt_filter_keep m.cells (fun x => decide (a ≤ x) && decide (x < a + n)) (a + k) (by simp; omega)
  simp [Memory.get, this]

@[simp] theorem Memory.slice_length (m : Memory) (a n : Nat) : (m.slice a n).length = n := by simp [Memory.slice_eq]

/-! ### The canonical form -/

/-- The offsets of a cell list rise strictly, as a statement about all pairs. -/
theorem strictlyRising_iff (l : List Host.Cell) : strictlyRising l = true ↔ l.Pairwise fun c d => c.1 < d.1 := by
  induction l with
  | nil => simp [strictlyRising]
  | cons c l ih =>
    cases l with
    | nil => simp [strictlyRising]
    | cons d cs =>
      simp only [strictlyRising, Bool.and_eq_true, decide_eq_true_eq, ih, List.pairwise_cons, List.mem_cons]
      constructor
      · rintro ⟨h, h1, h2⟩
        refine ⟨fun e he => ?_, h1, h2⟩
        rcases he with rfl | he
        · exact h
        · exact Nat.lt_trans h (h1 e he)
      · rintro ⟨h, h1, h2⟩
        exact ⟨h d (Or.inl rfl), h1, h2⟩

theorem cellsOf_pairwise (bl : Blank) (a : Nat) (bs : List Byte) :
    (cellsOf bl a bs).Pairwise fun c d => c.1 < d.1 := by
  induction bs generalizing a with
  | nil => simp [cellsOf]
  | cons b bs ih =>
    unfold cellsOf
    split
    · exact ih (a + 1)
    · refine List.pairwise_cons.mpr ⟨fun d hd => ?_, ih (a + 1)⟩
      have := cellsOf_range bl (a + 1) bs hd
      show a < d.1
      omega

theorem cellsOf_notBlank (bl : Blank) (a : Nat) (bs : List Byte) {c : Host.Cell} (h : c ∈ cellsOf bl a bs) :
    isBlankByte bl c.2 = false := by
  induction bs generalizing a with
  | nil => simp [cellsOf] at h
  | cons b bs ih =>
    unfold cellsOf at h
    split at h
    · exact ih (a + 1) h
    · rename_i hb
      rcases List.mem_cons.mp h with rfl | h
      · simpa using hb
      · exact ih (a + 1) h

/-- The canonical form in terms of members. -/
theorem Memory.wf_iff (m : Memory) :
    m.wf = true ↔ (m.cells.Pairwise fun c d => c.1 < d.1) ∧ ∀ c ∈ m.cells, isBlankByte m.blank c.2 = false := by
  simp [Memory.wf, strictlyRising_iff]

/-- A write keeps the canonical form. -/
theorem Memory.wf_write (m : Memory) (a : Nat) (bs : List Byte) (h : m.wf = true) : (m.write a bs).wf = true := by
  rw [Memory.wf_iff] at h ⊢
  obtain ⟨hp, hb⟩ := h
  constructor
  · simp only [Memory.write, List.pairwise_append, List.mem_append, List.mem_filter, decide_eq_true_eq]
    refine ⟨⟨hp.filter _, cellsOf_pairwise _ _ _, fun c hc d hd => ?_⟩, hp.filter _, fun c hc d hd => ?_⟩
    · have := cellsOf_range m.blank a bs hd; omega
    · rcases hc with hc | hc
      · omega
      · have := cellsOf_range m.blank a bs hc; omega
  · intro c hc
    simp only [Memory.write, List.mem_append, List.mem_filter, decide_eq_true_eq] at hc ⊢
    rcases hc with (hc | hc) | hc
    · exact hb c hc.1
    · exact cellsOf_notBlank m.blank a bs hc
    · exact hb c hc.1

@[simp] theorem Memory.wf_zeros : Memory.zeros.wf = true := rfl

@[simp] theorem Memory.wf_unwritten (r : Region) : (Memory.unwritten r).wf = true := rfl

/-- Every memory of the state is in canonical form. -/
theorem reset_memories_wf (r : Region) : (State.reset.mem r).wf = true := by cases r <;> rfl

/-! ### The memories of a state -/

theorem State.readBytes_eq (s : State) (r : Region) (a n : Nat) :
    s.readBytes r a n = (List.range n).map fun k => s.readByte r (a + k) := by
  simp [State.readBytes, State.readByte, Memory.slice_eq]

@[simp] theorem State.readBytes_length (s : State) (r : Region) (a n : Nat) : (s.readBytes r a n).length = n := by
  simp [State.readBytes]

/-- A byte outside the bytes written reads as before. -/
theorem State.readByte_writeBytes_outside (s : State) (r q : Region) (a : Nat) (bs : List Byte) (x : Nat)
    (h : q ≠ r ∨ x < a ∨ a + bs.length ≤ x) : (s.writeBytes r a bs).readByte q x = s.readByte q x := by
  by_cases hq : q = r
  · subst hq
    have h : x < a ∨ a + bs.length ≤ x := by simpa using h
    simp only [State.readByte, State.mem_writeBytes_same]
    rw [Memory.get_write_outside _ _ _ _ (by simpa using h)]
  · simp [State.readByte, State.mem_writeBytes_other _ _ _ hq]

/-- A byte inside the bytes written reads as the byte written, through the region's implemented bits. -/
theorem State.readByte_writeBytes_inside (s : State) (r : Region) (a : Nat) (bs : List Byte) (k : Nat)
    (h : k < bs.length) : (s.writeBytes r a bs).readByte r (a + k) = bs[k] &&& memBits r := by
  simp only [State.readByte, State.mem_writeBytes_same]
  rw [Memory.get_write_inside _ _ _ k (by simpa using h)]
  simp [BitVec.and_assoc]

/-- Writing bytes keeps the canonical form of every memory. -/
theorem State.wf_writeBytes (s : State) (r q : Region) (a : Nat) (bs : List Byte) (h : (s.mem q).wf = true) :
    ((s.writeBytes r a bs).mem q).wf = true := by
  by_cases hq : q = r
  · subst hq; simpa using Memory.wf_write _ _ _ h
  · simpa [State.mem_writeBytes_other _ _ _ hq] using h

/-- Clearing a memory keeps the canonical form of every memory. -/
theorem State.wf_clearMem (s : State) (r q : Region) (h : (s.mem q).wf = true) :
    ((s.clearMem r).mem q).wf = true := by
  by_cases hq : q = r
  · subst hq; simp
  · simpa [State.mem_clearMem_other _ hq] using h

/-- Writing a matrix keeps the canonical form of every memory. -/
theorem State.wf_writeRows (s : State) (n : Nat) (g : Matrix) (q : Region) (h : (s.mem q).wf = true) :
    ((s.writeRows n g).mem q).wf = true := by
  induction g generalizing s n with
  | nil => exact h
  | cons row rows ih => exact ih _ _ (State.wf_writeBytes s .mtx q _ _ h)

end Sys2Proof.Machine
end

