-- ==== Sys2Proof/Laws/Commands.lean ====
section
/-! SUPPORT. What the shared operations of the commands do: how a meaning ends, the tests that raise errors, and the
sequencer's step. Callers cite these lemmas and do not unfold the operations. -/

namespace Sys2Proof.Machine

/-! ### How a command ends -/

/-- Every meaning is the command's result, settled. -/
theorem exec_eq (i : Instr) (s : State) : exec i s = .next (s.settle (command i s)) := by cases i <;> rfl

/-- A meaning whose command succeeds completes. -/
theorem exec_ok {i : Instr} {s t : State} (h : command i s = .ok t) : exec i s = .next t.complete := by
  rw [exec_eq, h]; rfl

/-- A meaning whose command fails raises the error. -/
theorem exec_error {i : Instr} {s : State} {e : CmdError} (h : command i s = .error e) :
    exec i s = .next (s.raise e) := by
  rw [exec_eq, h]; rfl

/-- All a meaning can do: complete with its command's writes, or raise its command's error and write nothing. -/
theorem exec_cases {i : Instr} {s t : State} (h : exec i s = .next t) :
    (∃ u, command i s = .ok u ∧ t = u.complete) ∨ ∃ e, command i s = .error e ∧ t = s.raise e := by
  rw [exec_eq] at h
  cases hc : command i s with
  | ok u => exact .inl ⟨u, rfl, by simpa [hc, State.settle] using h.symm⟩
  | error e => exact .inr ⟨e, rfl, by simpa [hc, State.settle] using h.symm⟩

@[simp] theorem State.settle_ok (s t : State) : s.settle (.ok t) = t.complete := rfl

@[simp] theorem State.settle_error (s : State) (e : CmdError) : s.settle (.error e) = s.raise e := rfl

@[simp] theorem Status.completed_err (st : Status) : st.completed.err = false := rfl
@[simp] theorem Status.completed_errcode (st : Status) : st.completed.errcode = 0 := rfl
@[simp] theorem Status.completed_busy (st : Status) : st.completed.busy = false := rfl
@[simp] theorem Status.completed_done (st : Status) : st.completed.done = true := rfl
@[simp] theorem Status.completed_qz (st : Status) : st.completed.qz = st.qz := rfl
@[simp] theorem Status.completed_overrun (st : Status) : st.completed.overrun = st.overrun := rfl
@[simp] theorem Status.failed_err (st : Status) (e : CmdError) : (st.failed e).err = true := rfl
@[simp] theorem Status.failed_errcode (st : Status) (e : CmdError) : (st.failed e).errcode = e.code := rfl
@[simp] theorem Status.failed_busy (st : Status) (e : CmdError) : (st.failed e).busy = false := rfl
@[simp] theorem Status.failed_done (st : Status) (e : CmdError) : (st.failed e).done = true := rfl
@[simp] theorem Status.failed_qz (st : Status) (e : CmdError) : (st.failed e).qz = st.qz := rfl
@[simp] theorem Status.failed_overrun (st : Status) (e : CmdError) : (st.failed e).overrun = st.overrun := rfl
@[simp] theorem Status.started_busy (st : Status) : st.started.busy = true := rfl
@[simp] theorem Status.started_done (st : Status) : st.started.done = false := rfl
@[simp] theorem Status.started_qz (st : Status) : st.started.qz = st.qz := rfl
@[simp] theorem Status.started_err (st : Status) : st.started.err = st.err := rfl
@[simp] theorem Status.started_errcode (st : Status) : st.started.errcode = st.errcode := rfl
@[simp] theorem Status.started_overrun (st : Status) : st.started.overrun = st.overrun := rfl

/-- No error code is 0 or above 7. -/
theorem CmdError.code_range (e : CmdError) : e.code ≠ 0 ∧ e.code.toNat ≤ 7 := by cases e <;> simp [CmdError.code]

/-- An error other than `ERR_CAPACITY` leaves `ERRINFO` as it was. -/
theorem ErrInfo.after_of_code_ne (old : ErrInfo) {e : CmdError} (h : e.code ≠ 0x04) : old.after e = old := by
  cases e <;> first | rfl | exact absurd rfl h

/-- What an error completion leaves unless it is `ERR_CAPACITY`. -/
theorem failedWith_raise (s : State) {e : CmdError} (h : e.code ≠ 0x04) : FailedWith s (s.raise e) e.code := by
  refine ⟨?_, rfl, fun r x => ?_, rfl, rfl, rfl, rfl⟩
  · simp [ErrInfo.after_of_code_ne _ h]
  · simp [State.readByte]

/-- What a completion without error leaves of the flags and the host's side. -/
theorem completedWith_complete {s t : State} {qz : Bool}
    (hs : t.status = { s.status with qz := qz }) (hh : SameHostSide s t) : CompletedWith s t.complete qz := by
  refine ⟨?_, hh⟩
  simp [Status.completed, hs]

/-! ### The tests -/

@[simp] theorem raiseIf_true (e : CmdError) : raiseIf true e = .error e := rfl

@[simp] theorem raiseIf_false (e : CmdError) : raiseIf false e = .ok () := rfl

/-- A test followed by the rest of a command: the error if the test holds, else the rest. -/
theorem raiseIf_bind {α : Type} (b : Bool) (e : CmdError) (f : Unit → Except CmdError α) :
    (raiseIf b e >>= f) = if b then .error e else f () := by cases b <;> rfl

/-- The symbol check: passed, or `ERR_SEQUENCE`. -/
theorem State.checkSymbol_eq (s : State) :
    s.checkSymbol =
      if s.ver ≠ 0 ∧ s.regs.side.toNat = side s.ver ∧ s.status.qz = false then .ok () else .error .sequence := by
  unfold State.checkSymbol raiseIf
  by_cases h1 : s.ver = 0 <;> by_cases h2 : s.regs.side.toNat = side s.ver <;> cases h3 : s.status.qz <;>
    simp [h1, h2]

/-- The symbol check passes on a symbol of the current version. -/
theorem State.checkSymbol_ok {s : State} (h : s.hasSymbol) : s.checkSymbol = .ok () := by
  obtain ⟨h1, -, h3, h4⟩ := h
  rw [State.checkSymbol_eq, if_pos ⟨by omega, h3, h4⟩]

/-- The current mode: the one `MODE` names, or `ERR_SEQUENCE`. -/
theorem currentMode_eq (s : State) :
    currentMode s = match modeOf s.regs.mode with
      | some m => .ok m
      | none => .error .sequence := by
  unfold currentMode; cases modeOf s.regs.mode <;> rfl

/-- A mode value names a mode exactly if it is that mode's indicator. -/
theorem modeOf_eq_some {v : BitVec 4} {m : Mode} : modeOf v = some m ↔ v = modeValue m := by
  unfold modeOf
  cases m <;> simp only [modeValue]
  all_goals
    split
    · simp_all
    · split
      · simp_all
      · split <;> simp_all

/-! ### The step -/

/-- All a step can do: the sequencer's turn, or the oldest host access. -/
theorem step_cases (s : State) :
    (s.bus = [] ∧ step s = sequencerTurn s) ∨
      (∃ rest, s.bus = .sequencer :: rest ∧ step s = sequencerTurn { s with bus := rest }) ∨
      ∃ op rest, s.bus = .access op :: rest ∧ step s = hostAccess op { s with bus := rest } := by
  unfold step nextEvent
  split
  · exact .inl ⟨‹_›, rfl⟩
  · exact .inr (.inl ⟨_, ‹_›, rfl⟩)
  · exact .inr (.inr ⟨_, _, ‹_›, rfl⟩)

/-- All a sequencer's turn can do: nothing while idle, an error for an illegal word, or the decoded command. -/
theorem sequencerTurn_cases (s : State) :
    (s.status.busy = false ∧ sequencerTurn s = .next s) ∨
      (s.status.busy = true ∧ (∃ e, decode s.latch.word = .error e) ∧ sequencerTurn s = .next (s.raise .illegalCmd)) ∨
      ∃ i, s.status.busy = true ∧ decode s.latch.word = .ok i ∧ sequencerTurn s = exec i s := by
  unfold sequencerTurn runCommand
  cases s.status.busy with
  | false => exact .inl ⟨rfl, rfl⟩
  | true =>
    cases hd : decode s.latch.word with
    | error e => exact .inr (.inl ⟨rfl, ⟨e, rfl⟩, rfl⟩)
    | ok i => exact .inr (.inr ⟨i, rfl, rfl, rfl⟩)

end Sys2Proof.Machine
end

