-- ==== Sys2Proof/Laws/Matrix.lean ====
section
/-! SUPPORT. The module matrix: what reading it from `MTX` and writing it back do, and what an update of one module
leaves. Callers cite these lemmas and do not unfold the operations. -/

namespace Sys2Proof.Machine

/-! ### Modules and bytes -/

@[simp] theorem byteOfModule_bits (m : Module) : byteOfModule m &&& memBits .mtx = byteOfModule m := by
  rcases m with ⟨d, b⟩; cases d <;> cases b <;> decide

@[simp] theorem moduleOf_byteOfModule (m : Module) : moduleOf (byteOfModule m) = m := by
  rcases m with ⟨d, b⟩; cases d <;> cases b <;> decide

/-- A byte of `MTX` is the byte of its module. -/
theorem byteOfModule_moduleOf (b : Byte) : byteOfModule (moduleOf b) = b &&& memBits .mtx := by
  have : ∀ n : Fin 256, byteOfModule (moduleOf (BitVec.ofFin n)) = BitVec.ofFin n &&& memBits .mtx := by
    decide +kernel
  simpa using this b.toFin

/-- A byte read from `MTX` has no other bits. -/
theorem State.readByte_mtx_bits (s : State) (x : Nat) : s.readByte .mtx x &&& memBits .mtx = s.readByte .mtx x := by
  simp [State.readByte, BitVec.and_assoc]

/-- The byte of a module position is determined by its two bits. -/
theorem State.readByte_mtx_eq (s : State) (r c : Nat) :
    s.readByte .mtx (256 * r + c) = byteOfModule { dark := s.dark r c, blk := s.blk r c } := by
  have := byteOfModule_moduleOf (s.readByte .mtx (256 * r + c))
  rw [State.readByte_mtx_bits] at this
  exact this.symm

/-- Two states agree on a module's byte if they agree on its two bits. -/
theorem State.readByte_mtx_congr {s t : State} {r c : Nat} (hd : t.dark r c = s.dark r c) (hb : t.blk r c = s.blk r c) :
    t.readByte .mtx (256 * r + c) = s.readByte .mtx (256 * r + c) := by
  rw [State.readByte_mtx_eq, State.readByte_mtx_eq, hd, hb]

/-! ### Square matrices -/

/-- The matrix has `n` rows of `n` modules. -/
def Matrix.square (n : Nat) (g : Matrix) : Prop := g.length = n ∧ ∀ row ∈ g, row.length = n

theorem Matrix.square_row {n : Nat} {g : Matrix} (h : g.square n) {r : Nat} (hr : r < n) : (g.getD r []).length = n := by
  rw [List.getD_eq_getElem _ _ (by rw [h.1]; exact hr)]
  exact h.2 _ (List.getElem_mem _)

theorem Matrix.blank_square (n : Nat) : (Matrix.blank n).square n := by
  refine ⟨by simp [Matrix.blank], fun row h => ?_⟩
  rw [Matrix.blank, List.mem_replicate] at h
  simp [h.2]

theorem Matrix.update_square {n : Nat} {g : Matrix} (h : g.square n) (r c : Nat) (f : Module → Module) :
    (g.update r c f).square n := by
  refine ⟨by simp [Matrix.update, h.1], fun row hr => ?_⟩
  obtain ⟨i, hi, rfl⟩ := List.mem_iff_getElem.mp hr
  simp only [Matrix.update, List.getElem_modify]
  have := h.2 _ (List.getElem_mem (by simpa [Matrix.update] using hi))
  split <;> simp [this]

/-- The module at a position after an update: changed at the updated position, if it is in the matrix, and only there. -/
theorem Matrix.get_update {n : Nat} {g : Matrix} (h : g.square n) (r c : Nat) (f : Module → Module) (y x : Nat) :
    (g.update r c f).get y x = if y = r ∧ x = c ∧ r < n ∧ c < n then f (g.get y x) else g.get y x := by
  simp only [Matrix.get, Matrix.update, List.getD_eq_getElem?_getD, List.getElem?_modify]
  by_cases hy : r = y
  · subst hy
    by_cases hr : r < n
    · have hl : r < g.length := by rw [h.1]; exact hr
      have hrow : g[r].length = n := h.2 _ (List.getElem_mem hl)
      simp only [List.getElem?_eq_getElem hl, if_true, Option.getD_some]
      by_cases hx : c = x
      · subst hx
        by_cases hc : c < n
        · simp [hr, hc, hrow]
        · simp [hc, hrow]
      · simp [hx, Ne.symm hx]
    · have hl : g[r]? = none := List.getElem?_eq_none (by rw [h.1]; omega)
      simp [hl, hr]
  · simp [hy, Ne.symm hy]

/-- Outside a square matrix every position reads light and unblocked. -/
theorem Matrix.get_outside {n : Nat} {g : Matrix} (h : g.square n) {r c : Nat} (ho : n ≤ r ∨ n ≤ c) :
    g.get r c = Module.light := by
  simp only [Matrix.get, List.getD_eq_getElem?_getD]
  by_cases hr : r < n
  · have hl : r < g.length := by rw [h.1]; exact hr
    have hrow : g[r].length = n := h.2 _ (List.getElem_mem hl)
    rw [List.getElem?_eq_getElem hl, Option.getD_some, List.getElem?_eq_none (by omega), Option.getD_none]
  · simp [List.getElem?_eq_none (by rw [h.1]; omega : g.length ≤ r)]

/-- Two square matrices that agree on every position are equal. -/
theorem Matrix.ext_get {n : Nat} {g k : Matrix} (hg : g.square n) (hk : k.square n)
    (h : ∀ r c, r < n → c < n → g.get r c = k.get r c) : g = k := by
  refine List.ext_getElem (by rw [hg.1, hk.1]) fun r h1 h2 => ?_
  have hr : r < n := by rw [← hg.1]; exact h1
  have l1 := hg.2 _ (List.getElem_mem h1)
  have l2 := hk.2 _ (List.getElem_mem h2)
  refine List.ext_getElem (by rw [l1, l2]) fun c c1 c2 => ?_
  have := h r c hr (by rw [← l1]; exact c1)
  simpa [Matrix.get, List.getD_eq_getElem?_getD, h1, h2, c1, c2] using this

/-! ### The matrix held in `MTX` -/

theorem State.matrix_square (s : State) (n : Nat) : (s.matrix n).square n := by
  refine ⟨by simp [State.matrix], fun row h => ?_⟩
  obtain ⟨r, -, rfl⟩ := List.mem_map.mp h
  simp

/-- The module of the held matrix at a position is the one `MTX` holds there. -/
theorem State.matrix_get (s : State) {n r c : Nat} (hr : r < n) (hc : c < n) :
    (s.matrix n).get r c = { dark := s.dark r c, blk := s.blk r c } := by
  simp [Matrix.get, State.matrix, List.getD_eq_getElem?_getD, hr, hc, State.readBytes_eq, moduleOf, State.dark, State.blk,
    moduleOffset]

/-- Writing rows of at most 256 modules: a written position reads as its module, every other as before. -/
theorem State.readByte_writeRows (s : State) (n : Nat) (g : Matrix) (hw : ∀ row ∈ g, row.length ≤ 256) (r c : Nat)
    (hc : c < 256) :
    (s.writeRows n g).readByte .mtx (256 * r + c) =
      if n ≤ r ∧ c < (g.getD (r - n) []).length then byteOfModule (g.get (r - n) c)
      else s.readByte .mtx (256 * r + c) := by
  induction g generalizing s n with
  | nil => simp [State.writeRows]
  | cons row rows ih =>
    have hl : row.length ≤ 256 := hw row (by simp)
    rw [State.writeRows, ih _ _ fun x hx => hw x (by simp [hx])]
    by_cases h1 : n + 1 ≤ r
    · obtain ⟨k, hk⟩ : ∃ k, r - n = k + 1 := ⟨r - n - 1, by omega⟩
      have hk' : r - (n + 1) = k := by omega
      have hn : n ≤ r := by omega
      have hb : (s.writeBytes .mtx (moduleOffset n 0) (row.map byteOfModule)).readByte .mtx (256 * r + c) =
          s.readByte .mtx (256 * r + c) := by
        refine State.readByte_writeBytes_outside _ _ _ _ _ _ (.inr (.inr ?_))
        simp only [moduleOffset, List.length_map]; omega
      simp only [hk, hk', h1, hn, true_and, List.getD_cons_succ, Matrix.get, hb]
    · by_cases h2 : r = n
      · subst h2
        have h3 : ¬(r + 1 ≤ r) := by omega
        simp only [h3, false_and, if_false, Nat.sub_self, List.getD_cons_zero, le_refl, true_and, Matrix.get]
        by_cases h4 : c < row.length
        · rw [if_pos h4]
          have := State.readByte_writeBytes_inside s .mtx (moduleOffset r 0) (row.map byteOfModule) c (by simpa using h4)
          simp only [moduleOffset, Nat.add_zero, List.getElem_map, byteOfModule_bits] at this
          rw [show moduleOffset r 0 = 256 * r from rfl, this]
          simp [List.getD_eq_getElem?_getD, h4]
        · rw [if_neg h4]
          refine State.readByte_writeBytes_outside _ _ _ _ _ _ (.inr (.inr ?_))
          simp only [moduleOffset, List.length_map]; omega
      · have h3 : ¬(n ≤ r) := by omega
        rw [if_neg (by tauto), if_neg (by tauto)]
        refine State.readByte_writeBytes_outside _ _ _ _ _ _ (.inr (.inl ?_))
        simp only [moduleOffset]; omega

/-- Writing a square matrix: a position inside reads as its module, every other as before. -/
theorem State.readByte_writeMatrix (s : State) {n : Nat} {g : Matrix} (h : g.square n) (hn : n ≤ 256) {r c : Nat}
    (hc : c < 256) :
    (s.writeMatrix g).readByte .mtx (256 * r + c) =
      if r < n ∧ c < n then byteOfModule (g.get r c) else s.readByte .mtx (256 * r + c) := by
  rw [State.writeMatrix, State.readByte_writeRows _ _ _ (fun row hr => by rw [h.2 row hr]; exact hn) _ _ hc]
  simp only [Nat.zero_le, true_and, Nat.sub_zero]
  by_cases hr : r < n
  · rw [Matrix.square_row h hr]; simp [hr]
  · have : g.getD r [] = [] := by
      rw [List.getD_eq_getElem?_getD, List.getElem?_eq_none (by rw [h.1]; omega)]; rfl
    rw [this]; simp only [List.length_nil, Nat.not_lt_zero, if_false, hr, false_and]

theorem State.dark_writeMatrix (s : State) {n : Nat} {g : Matrix} (h : g.square n) (hn : n ≤ 256) {r c : Nat}
    (hc : c < 256) : (s.writeMatrix g).dark r c = if r < n ∧ c < n then (g.get r c).dark else s.dark r c := by
  unfold State.dark
  rw [State.readByte_writeMatrix s h hn hc]
  split
  · exact congrArg Module.dark (moduleOf_byteOfModule (g.get r c))
  · rfl

theorem State.blk_writeMatrix (s : State) {n : Nat} {g : Matrix} (h : g.square n) (hn : n ≤ 256) {r c : Nat}
    (hc : c < 256) : (s.writeMatrix g).blk r c = if r < n ∧ c < n then (g.get r c).blk else s.blk r c := by
  unfold State.blk
  rw [State.readByte_writeMatrix s h hn hc]
  split
  · exact congrArg Module.blk (moduleOf_byteOfModule (g.get r c))
  · rfl

/-- A written square matrix is the one held. -/
theorem State.matrix_writeMatrix (s : State) {n : Nat} {g : Matrix} (h : g.square n) (hn : n ≤ 256) :
    (s.writeMatrix g).matrix n = g := by
  refine Matrix.ext_get (State.matrix_square _ _) h fun r c hr hc => ?_
  rw [State.matrix_get _ hr hc, State.dark_writeMatrix s h hn (by omega), State.blk_writeMatrix s h hn (by omega)]
  simp [hr, hc]

/-- After a clear every byte of the region reads 0, and every other region reads as before. -/
theorem State.readByte_clearMem (s : State) (r q : Region) (x : Nat) :
    (s.clearMem r).readByte q x = if q = r then 0 else s.readByte q x := by
  by_cases h : q = r
  · subst h; simp [State.readByte, Memory.get, Memory.zeros, cellAt, blankByte]
  · simp [State.readByte, State.mem_clearMem_other _ h, h]

/-- Writing a matrix leaves every region but `MTX`. -/
theorem State.readByte_writeMatrix_other (s : State) (g : Matrix) {q : Region} (h : q ≠ .mtx) (x : Nat) :
    (s.writeMatrix g).readByte q x = s.readByte q x := by
  simp [State.readByte, State.mem_writeMatrix_other _ _ h]

@[simp] theorem State.readByte_setRegs (s : State) (f : Regs → Regs) (q : Region) (x : Nat) :
    (s.setRegs f).readByte q x = s.readByte q x := by simp [State.readByte]

@[simp] theorem State.readByte_setQz (s : State) (b : Bool) (q : Region) (x : Nat) :
    (s.setQz b).readByte q x = s.readByte q x := by simp [State.readByte]

@[simp] theorem State.readByte_complete (s : State) (q : Region) (x : Nat) :
    s.complete.readByte q x = s.readByte q x := by simp [State.readByte]

@[simp] theorem State.readByte_raise (s : State) (e : CmdError) (q : Region) (x : Nat) :
    (s.raise e).readByte q x = s.readByte q x := by simp [State.readByte]

@[simp] theorem State.readByte_start (s : State) (w : Word) (q : Region) (x : Nat) :
    (s.start w).readByte q x = s.readByte q x := by simp [State.readByte]

@[simp] theorem State.readByte_withRes0 (s : State) (v : Nat) (q : Region) (x : Nat) :
    (s.withRes0 v).readByte q x = s.readByte q x := by simp [State.readByte]

@[simp] theorem State.readByte_withRes (s : State) (a b c d : Nat) (q : Region) (x : Nat) :
    (s.withRes a b c d).readByte q x = s.readByte q x := by simp [State.readByte]

end Sys2Proof.Machine
end

