-- ==== Sys2Proof/Laws/PerInstr.lean ====
section
/-! SUPPORT. The statements made of every instruction as syntax, one lemma per constructor. -/

namespace Sys2Proof.Laws

/-- The word of a command agrees with the mask and match columns of its row (30_encoding R83): the opcode and every
reserved-zero bit are as the table fixes them. -/
def MatchesTable.Statement (i : Instr) : Prop := encode i &&& i.opcode.mask = i.opcode.matchValue

/-- The mask and match columns of the formats with operands, as the table writes them. -/
theorem maskOf_B8 (o : Opcode) (h : o.format = .B8) : o.mask = 0xFFFFFF00#32 := by simp [Opcode.mask, h, Format.fields]

theorem maskOf_AB (o : Opcode) (h : o.format = .AB) : o.mask = 0xFFFF0000#32 := by simp [Opcode.mask, h, Format.fields]

theorem maskOf_FM (o : Opcode) (h : o.format = .FM) : o.mask = 0xFFFFFFE0#32 := by simp [Opcode.mask, h, Format.fields]

theorem maskOf_V6 (o : Opcode) (h : o.format = .V6) : o.mask = 0xFFFFFFC0#32 := by simp [Opcode.mask, h, Format.fields]

theorem maskOf_M3 (o : Opcode) (h : o.format = .M3) : o.mask = 0xFFFFFFF8#32 := by simp [Opcode.mask, h, Format.fields]

theorem maskOf_QE (o : Opcode) (h : o.format = .QE) : o.mask = 0xFFFFC0FC#32 := by simp [Opcode.mask, h, Format.fields]

theorem maskOf_QC (o : Opcode) (h : o.format = .QC) : o.mask = 0xFFFFC00C#32 := by simp [Opcode.mask, h, Format.fields]

theorem maskOf_QV (o : Opcode) (h : o.format = .QV) : o.mask = 0xFFFFC0FF#32 := by simp [Opcode.mask, h, Format.fields]

/-- Masking with a word distributes over the fields of an encoding, and removes a field that lies outside it. -/
theorem masked_field {n : Nat} (x : BitVec n) (lo : Nat) (w : Word) (h : ∀ i, lo ≤ i → i < lo + n → w.getLsbD i = false) :
    putField x lo &&& w = 0#32 := by
  apply BitVec.eq_of_getLsbD_eq
  intro i hi
  by_cases h1 : i < lo
  · simp [putField, h1]
  · by_cases h2 : i < lo + n
    · simp [h i (by omega) h2]
    · have : x.getLsbD (i - lo) = false := BitVec.getLsbD_of_ge _ _ (by omega)
      simp [putField, h1, this]

theorem and_or_distrib (x y w : Word) : (x ||| y) &&& w = (x &&& w) ||| (y &&& w) := by
  apply BitVec.eq_of_getLsbD_eq
  intro i hi
  simp [Bool.and_or_distrib_right]

theorem MatchesTable.nop : MatchesTable.Statement .nop := by
  show encode .nop &&& Opcode.nop.mask = Opcode.nop.matchValue
  decide

theorem MatchesTable.gfExp (a : Byte) : MatchesTable.Statement (.gfExp a) := by
  show encode (.gfExp a) &&& Opcode.gfExp.mask = Opcode.gfExp.matchValue
  rw [maskOf_B8 _ rfl]
  simp only [encode, and_or_distrib]
  rw [masked_field a 0 _ (by decide)]
  decide

theorem MatchesTable.gfLog (a : Byte) : MatchesTable.Statement (.gfLog a) := by
  show encode (.gfLog a) &&& Opcode.gfLog.mask = Opcode.gfLog.matchValue
  rw [maskOf_B8 _ rfl]
  simp only [encode, and_or_distrib]
  rw [masked_field a 0 _ (by decide)]
  decide

theorem MatchesTable.gfMul (a : Byte) (b : Byte) : MatchesTable.Statement (.gfMul a b) := by
  show encode (.gfMul a b) &&& Opcode.gfMul.mask = Opcode.gfMul.matchValue
  rw [maskOf_AB _ rfl]
  simp only [encode, and_or_distrib]
  rw [masked_field a 8 _ (by decide), masked_field b 0 _ (by decide)]
  decide

theorem MatchesTable.gfDiv (a : Byte) (b : Byte) : MatchesTable.Statement (.gfDiv a b) := by
  show encode (.gfDiv a b) &&& Opcode.gfDiv.mask = Opcode.gfDiv.matchValue
  rw [maskOf_AB _ rfl]
  simp only [encode, and_or_distrib]
  rw [masked_field a 8 _ (by decide), masked_field b 0 _ (by decide)]
  decide

theorem MatchesTable.rsGenpoly (n : Byte) : MatchesTable.Statement (.rsGenpoly n) := by
  show encode (.rsGenpoly n) &&& Opcode.rsGenpoly.mask = Opcode.rsGenpoly.matchValue
  rw [maskOf_B8 _ rfl]
  simp only [encode, and_or_distrib]
  rw [masked_field n 0 _ (by decide)]
  decide

theorem MatchesTable.rsEncode (k : Byte) (n : Byte) : MatchesTable.Statement (.rsEncode k n) := by
  show encode (.rsEncode k n) &&& Opcode.rsEncode.mask = Opcode.rsEncode.matchValue
  rw [maskOf_AB _ rfl]
  simp only [encode, and_or_distrib]
  rw [masked_field k 8 _ (by decide), masked_field n 0 _ (by decide)]
  decide

theorem MatchesTable.bchFormat (e : BitVec 2) (m : BitVec 3) : MatchesTable.Statement (.bchFormat e m) := by
  show encode (.bchFormat e m) &&& Opcode.bchFormat.mask = Opcode.bchFormat.matchValue
  rw [maskOf_FM _ rfl]
  simp only [encode, and_or_distrib]
  rw [masked_field e 3 _ (by decide), masked_field m 0 _ (by decide)]
  decide

theorem MatchesTable.bchVersion (v : BitVec 6) : MatchesTable.Statement (.bchVersion v) := by
  show encode (.bchVersion v) &&& Opcode.bchVersion.mask = Opcode.bchVersion.matchValue
  rw [maskOf_V6 _ rfl]
  simp only [encode, and_or_distrib]
  rw [masked_field v 0 _ (by decide)]
  decide

theorem MatchesTable.modeSelect : MatchesTable.Statement .modeSelect := by
  show encode .modeSelect &&& Opcode.modeSelect.mask = Opcode.modeSelect.matchValue
  decide

theorem MatchesTable.versionSelect : MatchesTable.Statement .versionSelect := by
  show encode .versionSelect &&& Opcode.versionSelect.mask = Opcode.versionSelect.matchValue
  decide

theorem MatchesTable.pack : MatchesTable.Statement .pack := by
  show encode .pack &&& Opcode.pack.mask = Opcode.pack.matchValue
  decide

theorem MatchesTable.pad : MatchesTable.Statement .pad := by
  show encode .pad &&& Opcode.pad.mask = Opcode.pad.matchValue
  decide

theorem MatchesTable.queryEcc (v : BitVec 6) (e : BitVec 2) : MatchesTable.Statement (.queryEcc v e) := by
  show encode (.queryEcc v e) &&& Opcode.queryEcc.mask = Opcode.queryEcc.matchValue
  rw [maskOf_QE _ rfl]
  simp only [encode, and_or_distrib]
  rw [masked_field v 8 _ (by decide), masked_field e 0 _ (by decide)]
  decide

theorem MatchesTable.queryCap (v : BitVec 6) (md : BitVec 4) (e : BitVec 2) : MatchesTable.Statement (.queryCap v md e) := by
  show encode (.queryCap v md e) &&& Opcode.queryCap.mask = Opcode.queryCap.matchValue
  rw [maskOf_QC _ rfl]
  simp only [encode, and_or_distrib]
  rw [masked_field v 8 _ (by decide), masked_field md 4 _ (by decide), masked_field e 0 _ (by decide)]
  decide

theorem MatchesTable.queryAlign (v : BitVec 6) : MatchesTable.Statement (.queryAlign v) := by
  show encode (.queryAlign v) &&& Opcode.queryAlign.mask = Opcode.queryAlign.matchValue
  rw [maskOf_QV _ rfl]
  simp only [encode, and_or_distrib]
  rw [masked_field v 8 _ (by decide)]
  decide

theorem MatchesTable.interleave : MatchesTable.Statement .interleave := by
  show encode .interleave &&& Opcode.interleave.mask = Opcode.interleave.matchValue
  decide

theorem MatchesTable.placeFunction : MatchesTable.Statement .placeFunction := by
  show encode .placeFunction &&& Opcode.placeFunction.mask = Opcode.placeFunction.matchValue
  decide

theorem MatchesTable.placeData : MatchesTable.Statement .placeData := by
  show encode .placeData &&& Opcode.placeData.mask = Opcode.placeData.matchValue
  decide

theorem MatchesTable.maskScore (m : BitVec 3) : MatchesTable.Statement (.maskScore m) := by
  show encode (.maskScore m) &&& Opcode.maskScore.mask = Opcode.maskScore.matchValue
  rw [maskOf_M3 _ rfl]
  simp only [encode, and_or_distrib]
  rw [masked_field m 0 _ (by decide)]
  decide

theorem MatchesTable.maskEval : MatchesTable.Statement .maskEval := by
  show encode .maskEval &&& Opcode.maskEval.mask = Opcode.maskEval.matchValue
  decide

theorem MatchesTable.maskApply (m : BitVec 3) : MatchesTable.Statement (.maskApply m) := by
  show encode (.maskApply m) &&& Opcode.maskApply.mask = Opcode.maskApply.matchValue
  rw [maskOf_M3 _ rfl]
  simp only [encode, and_or_distrib]
  rw [masked_field m 0 _ (by decide)]
  decide

theorem MatchesTable.writeInfo (m : BitVec 3) : MatchesTable.Statement (.writeInfo m) := by
  show encode (.writeInfo m) &&& Opcode.writeInfo.mask = Opcode.writeInfo.matchValue
  rw [maskOf_M3 _ rfl]
  simp only [encode, and_or_distrib]
  rw [masked_field m 0 _ (by decide)]
  decide

theorem MatchesTable.quietZone : MatchesTable.Statement .quietZone := by
  show encode .quietZone &&& Opcode.quietZone.mask = Opcode.quietZone.matchValue
  decide

theorem MatchesTable.serialize : MatchesTable.Statement .serialize := by
  show encode .serialize &&& Opcode.serialize.mask = Opcode.serialize.matchValue
  decide

theorem MatchesTable.deserialize : MatchesTable.Statement .deserialize := by
  show encode .deserialize &&& Opcode.deserialize.mask = Opcode.deserialize.matchValue
  decide

theorem MatchesTable.generate : MatchesTable.Statement .generate := by
  show encode .generate &&& Opcode.generate.mask = Opcode.generate.matchValue
  decide

end Sys2Proof.Laws
end

