-- ==== Sys2Proof/Laws/Tables.lean ====
section
/-! SUPPORT. What every entry of the block table satisfies (44_blocks R201), and the lengths of the lists the block and
Reed-Solomon operations give. -/

namespace Sys2Proof.Machine

/-! ### The block table -/

/-- The invariants of one record at version `v`. -/
def eccEntryOk (v : Nat) (e : EccLevel) : Bool :=
  let i := eccTab v e
  decide (i.blocks1 * i.cw1 + i.blocks2 * i.cw2 = i.dataCw) && (decide (i.blocks2 = 0) || decide (i.cw2 = i.cw1 + 1))
    && decide (i.dataCw ≤ 2956) && decide (i.total ≤ 3706) && decide (i.eccPerBlock ≤ 30) && decide (1 ≤ i.blocks1)
    && decide (i.total = (eccTab v .L).total)
    && decide (i.blocks1 + i.blocks2 ≤ 81) && decide (i.cw1 ≤ 123 ∧ i.cw2 ≤ 123) && decide (1 ≤ i.eccPerBlock)
    && (decide (i.blocks2 ≠ 0) || decide (i.cw2 = 0)) && decide (1 ≤ i.cw1) && decide (9 ≤ i.dataCw)

theorem eccEntries_ok : ∀ v : Fin 40, eccEntryOk (v.val + 1) .L && eccEntryOk (v.val + 1) .M && eccEntryOk (v.val + 1) .Q
    && eccEntryOk (v.val + 1) .H := by decide +kernel

/-- What every record of versions 1 to 40 satisfies (44_blocks R201). -/
theorem eccTab_spec {v : Nat} (h1 : 1 ≤ v) (h2 : v ≤ 40) (e : EccLevel) :
    let i := eccTab v e
    i.blocks1 * i.cw1 + i.blocks2 * i.cw2 = i.dataCw ∧ (i.blocks2 = 0 ∨ i.cw2 = i.cw1 + 1) ∧ i.dataCw ≤ 2956 ∧
      i.total ≤ 3706 ∧ i.eccPerBlock ≤ 30 ∧ 1 ≤ i.blocks1 ∧ i.total = (eccTab v .L).total ∧
      i.blocks1 + i.blocks2 ≤ 81 ∧ (i.cw1 ≤ 123 ∧ i.cw2 ≤ 123) ∧ 1 ≤ i.eccPerBlock ∧ (i.blocks2 ≠ 0 ∨ i.cw2 = 0) ∧
      1 ≤ i.cw1 ∧ 9 ≤ i.dataCw := by
  have h := eccEntries_ok ⟨v - 1, by omega⟩
  simp only [show v - 1 + 1 = v by omega, Bool.and_eq_true] at h
  have he : eccEntryOk v e = true := by cases e <;> tauto
  simp only [eccEntryOk, Bool.and_eq_true, Bool.or_eq_true, decide_eq_true_eq] at he
  tauto

/-- A version outside the table has no data codewords. -/
theorem eccTab_none {v : Nat} (h : v = 0 ∨ 40 < v) (e : EccLevel) : eccTab v e = EccInfo.none := by
  rcases h with rfl | h
  · rfl
  · obtain ⟨k, rfl⟩ : ∃ k, v = k + 1 := ⟨v - 1, by omega⟩
    have hl : ((eccRows1 ++ eccRows2 ++ eccRows3 ++ eccRows4).map (·.at e)).length = 40 := rfl
    show List.getD _ k EccInfo.none = EccInfo.none
    rw [List.getD_eq_getElem?_getD, List.getElem?_eq_none (by rw [hl]; omega)]
    rfl

/-- No record has more than 2956 data codewords. -/
theorem eccTab_dataCw_le (v : Nat) (e : EccLevel) : (eccTab v e).dataCw ≤ 2956 := by
  by_cases h : v = 0 ∨ 40 < v
  · rw [eccTab_none h]; decide
  · exact (eccTab_spec (by omega) (by omega) e).2.2.1

/-! ### Lengths -/

@[simp] theorem genPolyStep_length (g : List Byte) (i : Nat) : (genPolyStep g i).length = g.length + 1 := by
  simp [genPolyStep]

@[simp] theorem genPoly_length (n : Nat) : (genPoly n).length = n + 1 := by
  induction n with
  | zero => rfl
  | succ n ih =>
    rw [genPoly, List.range_succ, List.foldl_append]
    simpa [genPoly] using ih

/-- One step of the generator's iteration. -/
theorem genPoly_succ (n : Nat) : genPoly (n + 1) = genPolyStep (genPoly n) n := by
  rw [genPoly, List.range_succ, List.foldl_append]; rfl

theorem rsStep_length (g r : List Byte) (d : Byte) (h : g.length = r.length) : (rsStep g r d).length = g.length := by
  simp only [rsStep, List.length_zipWith, List.length_append, List.length_tail, List.length_singleton, h]
  cases r with
  | nil => rfl
  | cons a r => simp

end Sys2Proof.Machine
end

