-- ==== Sys2Proof/Machine/HostProgram.lean ====
section
/-! DEFINITION. Host programs (30_encoding R87 to R89): the events each line puts on the bus. The number of polls of a
`WAIT` that still read `BUSY = 1`, and the turns of the sequencer between lines, are parameters, since they are the
command's latency (70_reset_and_hazards R355; logs 17, 22). -/

namespace Sys2Proof.Machine

/-- The line of one host program (30_encoding R87, R89). `turn` is no line of the host's: it marks the place, between two
lines, at which the sequencer completes the command that runs (DESIGN CHOICE, log 22). -/
inductive HostLine where
  | wr (r : Reg) (value : Word)
  | wrb (r : Region) (offset : Nat) (bytes : List Byte)
  | rd (r : Reg)
  | rdb (r : Region) (offset : Nat)
  | command (l : Asm)
  | wait (polls : Nat)
  | run (l : Asm) (polls : Nat)
  | ack
  | encode (ecc : BitVec 2) (bytes : List Byte) (polls : Nat)
  | turn
  deriving DecidableEq, Repr

/-- A 32-bit write to a register. -/
def writeRegEvent (r : Reg) (value : Word) : BusEvent := .access (.write .word (BitVec.ofNat 20 (regOffset r)) value)

/-- A 32-bit read of a register. -/
def readRegEvent (r : Reg) : BusEvent := .access (.read .word (BitVec.ofNat 20 (regOffset r)))

/-- The window offset of the byte a `WRB` or `RDB` line names: the offset after the first of the region (30_encoding R87,
20_memory R60). DESIGN CHOICE (log 23): R87 gives `<offset>` no range; one past the end of the region goes on to the
window offsets behind it, and the sum is cut to the 20 bits of a window offset. -/
def lineOffset (r : Region) (offset : Nat) : BitVec 20 := BitVec.ofNat 20 (memBase r + offset)

/-- Successive 8-bit writes (30_encoding R87); each byte goes where `lineOffset` puts it (DESIGN CHOICE past the end of the
region, log 23). -/
def writeBytesEvents (r : Region) (offset : Nat) (bytes : List Byte) : List BusEvent :=
  bytes.mapIdx fun k b => .access (.write .byte (lineOffset r (offset + k)) (b.setWidth 32))

/-- The 8-bit read of an `RDB` line (30_encoding R87; DESIGN CHOICE past the end of the region, log 23). -/
def readByteEvent (r : Region) (offset : Nat) : BusEvent := .access (.read .byte (lineOffset r offset))

/-- The write of a command word to `CMD` (30_encoding R87, R88). DESIGN CHOICE (log 24): a line that does not assemble, which
R88 calls an assembly error, puts no write on the bus. -/
def commandEvents (l : Asm) : List BusEvent :=
  match l.assemble with
  | none => []
  | some w => [writeRegEvent .cmd w]

/-- `WAIT`: reads of `STATUS` until one finds the command completed (30_encoding R87, R89). DESIGN CHOICE (log 17):
the number of reads before that is an argument. -/
def waitEvents (polls : Nat) : List BusEvent :=
  List.replicate polls (readRegEvent .status) ++ [.sequencer, readRegEvent .status]

/-- The events of a line, in order (30_encoding R87 to R89). DESIGN CHOICE (log 22): a plain command line is its write to
`CMD` alone, and when the command completes relative to the lines after it is open (70_reset_and_hazards R355); it
completes at the first turn that a later `turn`, `WAIT`, `RUN` or `ENCODE` gives the sequencer, or behind the last
line, so a program with a `turn` after the line and one without it give both outcomes of 95_test_vectors P6. -/
def HostLine.events : HostLine → List BusEvent
  | .wr r value => [writeRegEvent r value]
  | .wrb r offset bytes => writeBytesEvents r offset bytes
  | .rd r => [readRegEvent r]
  | .rdb r offset => [readByteEvent r offset]
  | .command l => commandEvents l
  | .wait polls => waitEvents polls
  | .run l polls => commandEvents l ++ waitEvents polls
  | .ack => [writeRegEvent .status 0x0000000A]
  | .encode ecc bytes polls =>
    writeRegEvent .inlen (BitVec.ofNat 32 bytes.length) :: writeBytesEvents .inp 0 bytes
      ++ [writeRegEvent .ctrl (ecc.setWidth 32)] ++ commandEvents ⟨.generate, []⟩ ++ waitEvents polls
  | .turn => [.sequencer]

/-- The events of a host program. -/
def programEvents (p : List HostLine) : List BusEvent := p.flatMap HostLine.events

/-- The state with a host program waiting on the bus. -/
def State.withProgram (s : State) (p : List HostLine) : State := { s with bus := s.bus ++ programEvents p }

end Sys2Proof.Machine
end

