-- ==== Sys2Proof/Tests/Slice0.lean ====
section
/-! SUPPORT. The model's own tests: ill-formed assembly lines, one decoded word per command, one step per command, and a
witness for the hypotheses of every obligation. Expected values are the spec's own examples, cited at each test. -/

namespace Sys2Proof.Tests

open Sys2Proof.Machine

/-! ### WellFormed: ill-formed lines are refused (30_encoding R88) -/

theorem test_wellFormed_line : (Asm.mk .gfMul [0x53, 0xCA]).wellFormed = true := by decide

/-- Too few and too many operands. -/
theorem test_arity_refused : (Asm.mk .gfMul [1]).arityOk = false ∧ (Asm.mk .gfMul [1]).wellFormed = false ∧
    (Asm.mk .nop [1]).wellFormed = false ∧ (Asm.mk .queryCap [1, 1, 1, 1]).assemble = none := by decide

/-- An operand one above its field's largest value is refused, not truncated. -/
theorem test_operand_refused : (Asm.mk .bchFormat [4, 0]).operandsFit = false ∧
    (Asm.mk .bchFormat [4, 0]).wellFormed = false ∧ (Asm.mk .gfExp [256]).wellFormed = false ∧
    (Asm.mk .maskApply [8]).assemble = none ∧ (Asm.mk .queryCap [64, 1, 1]).assemble = none := by decide

theorem test_assemble : (Asm.mk .queryCap [1, 1, 1]).assemble = some 0x35000111 := by decide

/-! ### Decoding: words written out from 30_encoding R81 and R83 -/

/-- Words of format `N`: the opcode and 24 zeros. -/
theorem test_decode_N :
    decode 0b00000000_000000000000000000000000 = .ok .nop ∧ decode 0b00110000_000000000000000000000000 = .ok .modeSelect ∧
    decode 0b00110001_000000000000000000000000 = .ok .versionSelect ∧
    decode 0b00110010_000000000000000000000000 = .ok .pack ∧ decode 0b00110011_000000000000000000000000 = .ok .pad ∧
    decode 0b00111000_000000000000000000000000 = .ok .interleave ∧
    decode 0b01000000_000000000000000000000000 = .ok .placeFunction ∧
    decode 0b01000001_000000000000000000000000 = .ok .placeData :=
  ⟨rfl, rfl, rfl, rfl, rfl, rfl, rfl, rfl⟩

theorem test_decode_N2 :
    decode 0b01010001_000000000000000000000000 = .ok .maskEval ∧
    decode 0b01100000_000000000000000000000000 = .ok .quietZone ∧
    decode 0b01100001_000000000000000000000000 = .ok .serialize ∧
    decode 0b01100010_000000000000000000000000 = .ok .deserialize ∧
    decode 0b01110000_000000000000000000000000 = .ok .generate :=
  ⟨rfl, rfl, rfl, rfl, rfl⟩

/-- Format `B8`: the operand in bits 7:0. -/
theorem test_decode_B8 :
    decode 0b00000001_0000000000000000_00001000 = .ok (.gfExp 8) ∧
    decode 0b00000010_0000000000000000_00011101 = .ok (.gfLog 0x1D) ∧
    decode 0b00010000_0000000000000000_00000111 = .ok (.rsGenpoly 7) :=
  ⟨rfl, rfl, rfl⟩

/-- Format `AB`: `a` in 15:8, `b` in 7:0. -/
theorem test_decode_AB :
    decode 0b00000011_00000000_01010011_11001010 = .ok (.gfMul 0x53 0xCA) ∧
    decode 0b00000100_00000000_00000001_00000010 = .ok (.gfDiv 1 2) ∧
    decode 0b00010001_00000000_00010000_00001010 = .ok (.rsEncode 16 10) :=
  ⟨rfl, rfl, rfl⟩

/-- Formats `FM`, `V6` and `M3`. -/
theorem test_decode_FM_V6_M3 :
    decode 0b00100000_0000000000000000000_10_011 = .ok (.bchFormat 2 3) ∧
    decode 0b00100001_000000000000000000_000111 = .ok (.bchVersion 7) ∧
    decode 0b01010000_000000000000000000000_110 = .ok (.maskScore 6) ∧
    decode 0b01010010_000000000000000000000_001 = .ok (.maskApply 1) ∧
    decode 0b01010011_000000000000000000000_101 = .ok (.writeInfo 5) :=
  ⟨rfl, rfl, rfl, rfl, rfl⟩

/-- Formats `QE`, `QC` and `QV`: `v` in 13:8, `md` in 7:4, `e` in 1:0. -/
theorem test_decode_queries :
    decode 0b00110100_0000000000_000101_000000_11 = .ok (.queryEcc 5 3) ∧
    decode 0b00110101_0000000000_000001_0001_00_01 = .ok (.queryCap 1 1 1) ∧
    decode 0b00110110_0000000000_000111_00000000 = .ok (.queryAlign 7) :=
  ⟨rfl, rfl, rfl⟩

/-- An unassigned opcode, and one reserved bit of each format with operands, are illegal (30_encoding R85). -/
theorem test_decode_illegal :
    decode 0x05000000 = .error (.unassignedOpcode 0x05) ∧ decode 0x37000000 = .error (.unassignedOpcode 0x37) ∧
    decode 0xFF000000 = .error (.unassignedOpcode 0xFF) ∧ decode 0x00000001 = .error .reservedBits ∧
    decode 0x01000100 = .error .reservedBits ∧ decode 0x03010000 = .error .reservedBits ∧
    decode 0x20000020 = .error .reservedBits ∧ decode 0x34000004 = .error .reservedBits ∧
    decode 0x35000008 = .error .reservedBits ∧ decode 0x36000001 = .error .reservedBits :=
  ⟨rfl, rfl, rfl, rfl, rfl, rfl, rfl, rfl, rfl, rfl⟩

/-- The mask and match columns of one row of each format (30_encoding R83). -/
theorem test_rows :
    Opcode.maskEval.mask = 0xFFFFFFFF ∧ Opcode.rsGenpoly.mask = 0xFFFFFF00 ∧ Opcode.gfDiv.mask = 0xFFFF0000 ∧
    Opcode.bchFormat.mask = 0xFFFFFFE0 ∧ Opcode.bchVersion.mask = 0xFFFFFFC0 ∧ Opcode.writeInfo.mask = 0xFFFFFFF8 ∧
    Opcode.queryEcc.mask = 0xFFFFC0FC ∧ Opcode.queryCap.mask = 0xFFFFC00C ∧ Opcode.queryAlign.mask = 0xFFFFC0FF ∧
    Opcode.queryAlign.matchValue = 0x36000000 := by decide

theorem test_decodeTableWord : decodeTableWord 32 0x70000000 = some .generate ∧ decodeTableWord 32 0x71000000 = none := by
  decide

/-! ### Small states -/

/-- A running command with an operand set. -/
def running (w : Word) (c : Ctrl) (arg0 arg1 inlen outlen : Nat) : State :=
  { State.reset with
    status := { State.reset.status with busy := true }
    latch :=
      { word := w
        ctrl := c
        arg0 := BitVec.ofNat 13 arg0
        arg1 := BitVec.ofNat 13 arg1
        inlen := BitVec.ofNat 14 inlen
        outlen := BitVec.ofNat 14 outlen } }

/-- `CTRL` with only a level. -/
def atLevel (e : BitVec 2) : Ctrl := { Ctrl.reset with ecc := e }

/-- A state with version 1 and a symbol's side, its `MTX` all zero. -/
def symbolState : State :=
  let s := running 0 (atLevel 1) 0 0 0 0
  { s with regs := { s.regs with version := 1, side := 21 }, mtx := Memory.zeros }

/-- A state with a finished version 1 matrix, all light. -/
def finishedState : State :=
  let s := running 0 (atLevel 1) 0 0 0 111
  { s with
    regs := { s.regs with version := 1, side := 29 }
    status := { s.status with qz := true }
    mtx := Memory.zeros }

/-- The bytes of `"HELLO WORLD"`. -/
def hello : List Byte := [0x48, 0x45, 0x4C, 0x4C, 0x4F, 0x20, 0x57, 0x4F, 0x52, 0x4C, 0x44]

/-- PACK is about to run on `"HELLO WORLD"` at version 1-M (43_bitstream R176). -/
def packState : State :=
  let s := running 0x32000000 (atLevel 0) 0 0 11 0
  { (s.writeBytes .inp 0 hello) with regs := { s.regs with mode := 2, version := 1 } }

/-- The 16 data codewords of `"HELLO WORLD"`, version 1-M (43_bitstream R178). -/
def helloData : List Byte := [32, 91, 11, 120, 209, 114, 220, 77, 67, 64, 236, 17, 236, 17, 236, 17]

/-! ### One step per command; the expected values are the examples of the command rules -/

/-- 47_output R295: `STATUS = 0x00000002`. -/
theorem test_nop : nextSatisfies (step (State.reset.withFetchWord 32 0x00000000))
    (fun t => t.readReg .status == 0x00000002) = true := by decide

/-- 40_galois R105. -/
theorem test_gfExp : nextSatisfies (exec (.gfExp 8) State.reset) (fun t => t.regs.res0 == 0x1D) = true ∧
    nextSatisfies (exec (.gfExp 255) State.reset) (fun t => t.regs.res0 == 1) = true := by decide

/-- 40_galois R106. -/
theorem test_gfLog : nextSatisfies (exec (.gfLog 0x1D) State.reset) (fun t => t.regs.res0 == 8) = true ∧
    nextSatisfies (exec (.gfLog 0x8E) State.reset) (fun t => t.regs.res0 == 254) = true := by decide

/-- 40_galois R106: the logarithm of 0 is `ERR_DOMAIN` and leaves `RES0`. -/
theorem test_gfLog_zero : nextSatisfies (exec (.gfLog 0) (State.reset.withRes0 5))
    (fun t => t.regs.res0 == 5 && t.readReg .status == 0x00000706) = true := by decide

/-- 40_galois R107. -/
theorem test_gfMul : nextSatisfies (exec (.gfMul 0x53 0xCA) State.reset) (fun t => t.regs.res0 == 0x8F) = true := by decide

/-- 40_galois R108. -/
theorem test_gfDiv : nextSatisfies (exec (.gfDiv 1 2) State.reset) (fun t => t.regs.res0 == 0x8E) = true ∧
    nextSatisfies (exec (.gfDiv 0 0) State.reset) (fun t => t.status.errcode == 0x07) = true := by decide

/-- 41_reed_solomon R126. -/
theorem test_rsGenpoly : nextSatisfies (exec (.rsGenpoly 7) (running 0 (atLevel 0) 0 0x100 0 0))
    (fun t => t.regs.res0 == 8 && t.readBytes .cwm 0x100 8 == [1, 127, 122, 154, 164, 11, 68, 117]) = true := by
  decide +kernel

/-- 41_reed_solomon R126: the last offset where the bytes fit, and the first where they do not. -/
theorem test_rsGenpoly_bounds :
    nextSatisfies (exec (.rsGenpoly 7) (running 0 (atLevel 0) 0 8184 0 0)) (fun t => t.status.errcode == 0) = true ∧
    nextSatisfies (exec (.rsGenpoly 7) (running 0 (atLevel 0) 0 8185 0 0)) (fun t => t.status.errcode == 2) = true := by
  decide +kernel

/-- 41_reed_solomon R127. -/
theorem test_rsEncode : nextSatisfies
    (exec (.rsEncode 16 10) ((running 0 (atLevel 0) 0 0x100 0 0).writeBytes .cwm 0 helloData))
    (fun t => t.regs.res0 == 10 && t.readBytes .cwm 0x100 10 == [196, 35, 39, 119, 235, 215, 231, 226, 93, 23]) = true := by
  decide +kernel

/-- 42_bch R146. -/
theorem test_bchFormat : nextSatisfies (exec (.bchFormat 0 3) State.reset) (fun t => t.regs.res0 == 0x5B4B) = true ∧
    nextSatisfies (exec (.bchFormat 1 0) State.reset) (fun t => t.regs.res0 == 0x77C4) = true := by decide +kernel

/-- 42_bch R147. -/
theorem test_bchVersion : nextSatisfies (exec (.bchVersion 7) State.reset) (fun t => t.regs.res0 == 0x07C94) = true ∧
    nextSatisfies (exec (.bchVersion 63) State.reset) (fun t => t.regs.res0 == 0x3FB85) = true := by decide +kernel

/-- 43_bitstream R163: `"12A"`. -/
theorem test_modeSelect : nextSatisfies
    (exec .modeSelect ((running 0 (atLevel 0) 0 0 3 0).writeBytes .inp 0 [0x31, 0x32, 0x41]))
    (fun t => t.regs.mode == 2) = true := by decide +kernel

/-- 43_bitstream R175: 42 digits at level L. -/
theorem test_versionSelect : nextSatisfies
    (exec .versionSelect ((running 0 (atLevel 1) 0 0 42 0).setRegs fun r => { r with mode := 1 }))
    (fun t => t.regs.version == 2 && t.regs.dcw == 34) = true := by decide +kernel

/-- 43_bitstream R175: the same with version 1 requested. -/
theorem test_versionSelect_capacity : nextSatisfies
    (exec .versionSelect
      ((running 0 { atLevel 1 with reqVersion := 1 } 0 0 42 0).setRegs fun r => { r with mode := 1 }))
    (fun t => t.status.errcode == 4 && t.readReg .errinfo0 == 0x111 && t.readReg .errinfo1 == 41) = true := by
  decide +kernel

/-- 43_bitstream R176. -/
theorem test_pack : nextSatisfies (exec .pack packState)
    (fun t => t.regs.bitlen == 74 && t.readBytes .cwm 0 10 == [32, 91, 11, 120, 209, 114, 220, 77, 67, 64]) = true := by
  decide +kernel

/-- 43_bitstream R178. -/
theorem test_pad : nextSatisfies
    (exec .pad ((packState.writeBytes .cwm 0 (helloData.take 10)).setRegs fun r => { r with bitlen := 74 }))
    (fun t => t.regs.dcw == 16 && t.readBytes .cwm 0 16 == helloData) = true := by decide +kernel

/-- 44_blocks R211. -/
theorem test_queryEcc : nextSatisfies (exec (.queryEcc 5 3) State.reset)
    (fun t => t.regs.res0 == 62 && t.regs.res1 == 18 && t.regs.res2 == 0x10020F02 && t.regs.res3 == 0x00070086) = true := by
  decide +kernel

/-- 44_blocks R212. -/
theorem test_queryCap : nextSatisfies (exec (.queryCap 1 1 1) State.reset) (fun t => t.regs.res0 == 41) = true ∧
    nextSatisfies (exec (.queryCap 1 8 1) State.reset) (fun t => t.status.errcode == 2) = true := by decide +kernel

/-- 44_blocks R213. -/
theorem test_queryAlign : nextSatisfies (exec (.queryAlign 7) State.reset)
    (fun t => t.regs.res0 == 3 && t.regs.res1 == 0x00261606 && t.regs.res2 == 0 && t.regs.res3 == 45) = true := by
  decide +kernel

/-- 44_blocks R209. -/
theorem test_interleave : nextSatisfies
    (exec .interleave (((running 0 (atLevel 1) 0 0 0 0).writeBytes .cwm 0
      [16, 60, 123, 114, 49, 80, 49, 89, 0, 236, 17, 236, 17, 236, 17, 236, 17, 236, 17]).setRegs fun r =>
        { r with version := 1 }))
    (fun t => t.regs.totcw == 26 && t.regs.rembits == 0 &&
      t.readBytes .cwm 0x1013 7 == [119, 167, 210, 203, 133, 161, 60]) = true := by decide +kernel

/-- Each row of a matrix as a number of one decimal digit a module: 2 for blocked and dark, 1 for blocked and light, 0
for unblocked. -/
def pictureOf (g : Matrix) : List Nat :=
  g.map fun row => row.foldl (fun acc m => 10 * acc + (if m.blk then (if m.dark then 2 else 1) else 0)) 0

/-- 45_placement R229, rows 0 to 10: `#` is 2, `+` is 1, `.` is 0; leading zeros are not written. -/
theorem test_functionMatrix_top : (pictureOf (functionMatrix 1)).take 11 =
    [222222211000012222222, 211111211000012111112, 212221211000012122212, 212221211000012122212,
     212221211000012122212, 211111211000012111112, 222222212121212222222, 111111111000011111111,
     111111211000011111111, 100000000000000, 200000000000000] := by decide +kernel

/-- 45_placement R229, rows 11 to 20. -/
theorem test_functionMatrix_bottom : (pictureOf (functionMatrix 1)).drop 11 =
    [100000000000000, 200000000000000, 111111112000000000000, 222222211000000000000,
     211111211000000000000, 212221211000000000000, 212221211000000000000, 212221211000000000000,
     211111211000000000000, 222222211000000000000] := by decide +kernel

/-- 45_placement R230. -/
theorem test_placeFunction : nextSatisfies (exec .placeFunction (symbolState.setQz true))
    (fun t => t.regs.side == 21 && !t.status.qz && t.dark 13 8 && t.blk 13 8 && !t.blk 12 8) = true := by decide +kernel

set_option maxRecDepth 20000 in
/-- 45_placement R233: the first codeword 16 goes to the eight first positions of the scan. -/
theorem test_placeData : nextSatisfies
    (exec .placeData ((symbolState.writeBytes .cwm 0x1000 [16]).setRegs fun r => { r with totcw := 1 }))
    (fun t => [(20, 20), (20, 19), (19, 20), (19, 19), (18, 20), (18, 19), (17, 20), (17, 19)].map
      (fun p => t.dark p.1 p.2) == [false, false, false, true, false, false, false, false] && t.regs.res0 == 8) = true := by
  decide +kernel

/-- 46_mask R251: rows 3 and 5 of masks 5 and 7. -/
theorem test_maskPred : (List.range 6).map (maskPred 5 3) = [true, false, true, false, true, false] ∧
    (List.range 6).map (maskPred 7 5) = [false, true, true, true, false, false] := by decide

/-- 46_mask R265: a 5 x 5 all-light matrix. -/
theorem test_penalties_light : penaltyOf 5 (List.replicate 5 (List.replicate 5 false)) =
    { p1 := 30, p2 := 48, p3 := 0, p4 := 100 } := by decide +kernel

/-- 46_mask R255, R265: one window, and two in `0000 1011101 0000`; the balance of 198, 199 and 220 dark of 441. -/
theorem test_penalties_lines : lineWindows [true, false, true, true, true, false, true, false, false, false, false] = 40 ∧
    lineWindows [false, false, false, false, true, false, true, true, true, false, true, false, false, false, false] = 80 ∧
    balancePenalty 198 441 = 10 ∧ balancePenalty 199 441 = 10 ∧ balancePenalty 220 441 = 0 := by decide +kernel

/-- 46_mask R260: the score goes to `PEN3` and its sum is that of `RES0` to `RES3`. -/
theorem test_maskScore : nextSatisfies (exec (.maskScore 3) symbolState)
    (fun t => t.regs.pen.get 3 == t.regs.res0 + t.regs.res1 + t.regs.res2 + t.regs.res3 && t.regs.pen.get 2 == 0 &&
      t.regs.mask == 0) = true := by decide +kernel

/-- 46_mask R259, R265: mask 0 of the worked penalties, and the lowest index of a tie. -/
theorem test_bestMask : bestMask [265, 572, 422, 387, 454, 414, 443, 315] = 0 ∧ bestMask [9, 7, 8, 7, 9, 9, 9, 7] = 1 := by
  decide

/-- 46_mask R263: mask 1 flips the unblocked modules of the even rows. -/
theorem test_maskApply : nextSatisfies (exec (.maskApply 1) (symbolState.writeBytes .mtx 512 [0x02, 0x03, 0x01]))
    (fun t => t.regs.mask == 1 && t.dark 0 20 && !t.dark 1 20 && !t.dark 2 0 && t.dark 2 1 && !t.dark 2 2 &&
      t.blk 2 0 && !t.dark 0 21) = true := by decide +kernel

/-- 46_mask R264: level L, mask 0. -/
theorem test_writeInfo : nextSatisfies (exec (.writeInfo 0) symbolState)
    (fun t => t.regs.format == 0x77C4 && t.regs.verinfo == 0 && !t.dark 0 8 && !t.dark 8 20 && t.dark 8 0 &&
      t.dark 20 8) = true := by decide +kernel

/-- 47_output R281: version 1; the symbol's corner moves to `(4, 4)`. -/
theorem test_quietZone : nextSatisfies (exec .quietZone (symbolState.writeBytes .mtx 0 [0x03]))
    (fun t => t.regs.side == 29 && t.status.qz && t.dark 4 4 && !t.blk 4 4 && !t.dark 0 0 && !t.dark 4 5) = true := by
  decide +kernel

/-- 47_output R286, R287: version 1; module `(0, 1)` is bit 6 of byte 5. -/
theorem test_serialize : nextSatisfies (exec .serialize (finishedState.writeBytes .mtx 1 [0x01]))
    (fun t => t.regs.outlen == 111 && t.readBytes .out 0 7 == [0x51, 0x52, 0x52, 0x00, 0x1D, 0x40, 0x00]) = true := by
  decide +kernel

/-- 47_output R289: four bytes are too few. -/
theorem test_deserialize_malformed : nextSatisfies (exec .deserialize (running 0 (atLevel 0) 0 0 0 4))
    (fun t => t.status.errcode == 6) = true := by decide +kernel

/-- A version 1 blob whose second row starts dark: module 29 is bit 2 of byte 8; byte 3 is ignored. -/
def blobState : State :=
  (running 0 (atLevel 0) 0 0 0 111).writeBytes .out 0
    ([0x51, 0x52, 0x52, 0x77, 0x1D, 0, 0, 0, 0x04] ++ List.replicate 102 0)

/-- 47_output R289. -/
theorem test_deserialize : nextSatisfies (exec .deserialize blobState)
    (fun t => t.regs.side == 29 && t.regs.version == 1 && t.status.qz && t.dark 1 0 && !t.dark 1 1 && !t.dark 0 28) = true := by
  decide +kernel

/-- 47_output R296: the first check, and `ERR_CAPACITY` of 42 digits in version 1-L. -/
theorem test_generate_errors :
    nextSatisfies (exec .generate (running 0 { atLevel 1 with reqVersion := 41 } 0 0 1 0))
      (fun t => t.status.errcode == 2) = true ∧
    nextSatisfies (exec .generate ((running 0 { atLevel 1 with reqVersion := 1 } 0 0 42 0).writeBytes .inp 0
      (List.replicate 42 0x31))) (fun t => t.status.errcode == 4 && t.readReg .errinfo0 == 0x111) = true := by
  decide +kernel

/-! ### The bus -/

/-- 10_state R21, R53: `ID` and `STATUS` after reset. -/
theorem test_id : nextSatisfies (hostAccess (.read .word 0) State.reset) (fun t => t.rdata == 0x51524301) = true := by
  decide

/-- 20_memory R62 to R64: forbidden accesses. -/
theorem test_busErrors : isFault (hostAccess (.read .byte 0x00004) State.reset) .busError = true ∧
    isFault (hostAccess (.write .word 0x0004C 1) State.reset) .busError = true ∧
    isFault (hostAccess (.read .word 0x10002) State.reset) .busError = true ∧
    isFault (hostAccess (.read .half 0x41FFF) State.reset) .busError = true ∧
    isFault (hostAccess (.read .byte 0x42000) State.reset) .busError = true := by decide

/-- 20_memory R65: a word write, and a byte read of its third byte. -/
theorem test_littleEndian : nextSatisfies
    (hostAccess (.read .byte 0x20006) (State.reset.hostWriteMem .word .cwm 4 0x11223344))
    (fun t => t.rdata == 0x22) = true := by decide +kernel

/-- 70_reset_and_hazards R352: a memory access while a command runs. -/
theorem test_memoryHazard : isFault (hostAccess (.read .byte 0x10000) (running 0 (atLevel 0) 0 0 0 0)) .memoryHazard = true := by
  decide

/-- 30_encoding R87, R89: `RUN GF_EXP 8` and the four steps of its events. -/
theorem test_hostProgram :
    (match Host.Core.run { State := State, Fault := Fault, Refusal := Refusal, step := step, reset := State.reset } 4
      (State.reset.withProgram [.run ⟨.gfExp, [8]⟩ 1, .rd .res0]) with
    | .next t => t.regs.res0 == 0x1D && t.rdata == 0x00000002 && t.bus.length == 1
    | .fault _ => false
    | .refused _ => false) = true := by decide

/-- 95_test_vectors P6: the two commands written at once. With no turn between them the second is dropped. -/
theorem test_overrunProgram :
    (match Host.Core.run { State := State, Fault := Fault, Refusal := Refusal, step := step, reset := State.reset } 5
      (State.reset.withProgram [.command ⟨.gfExp, [1]⟩, .command ⟨.gfExp, [2]⟩, .wait 0, .rd .status]) with
    | .next t => t.regs.res0 == 0x00000002 && t.rdata == 0x0000000A
    | .fault _ => false
    | .refused _ => false) = true := by decide

/-- 95_test_vectors P6: with the first command completed before the second write, the second runs. -/
theorem test_noOverrunProgram :
    (match Host.Core.run { State := State, Fault := Fault, Refusal := Refusal, step := step, reset := State.reset } 6
      (State.reset.withProgram [.command ⟨.gfExp, [1]⟩, .turn, .command ⟨.gfExp, [2]⟩, .wait 0, .rd .status]) with
    | .next t => t.regs.res0 == 0x00000004 && t.rdata == 0x00000002
    | .fault _ => false
    | .refused _ => false) = true := by decide

/-! ### Witnesses: states and operands that meet the hypotheses of the obligations together -/

/-- EncodeDecodeRoundTrip, IllegalWordsMatchNoRow. -/
theorem witness_words : decode 0x00000000 = .ok .nop ∧ (0x70000000 : Word) &&& Opcode.generate.mask = Opcode.generate.matchValue ∧
    decode 0x71000000 = .error (.unassignedOpcode 0x71) :=
  ⟨rfl, rfl, rfl⟩

/-- AssemblerNeverTruncates. -/
theorem witness_assembler : (Asm.mk .gfExp [255]).assemble = some 0x010000FF ∧ (Asm.mk .gfExp []).arityOk = false ∧
    (Asm.mk .gfExp [256]).operandsFit = false := by decide

/-- StepRunsDecodedCommand, each clause. -/
theorem witness_stepRuns :
    ((running 0 (atLevel 0) 0 0 0 0).status.busy = true ∧ decode (running 0 (atLevel 0) 0 0 0 0).latch.word = .ok .nop ∧
      (running 0 (atLevel 0) 0 0 0 0).bus = []) ∧
    ((State.reset.withFetchWord 32 0).status.busy = true ∧ decode (State.reset.withFetchWord 32 0).latch.word = .ok .nop ∧
      (State.reset.withFetchWord 32 0).bus = [.sequencer]) ∧
    (State.reset.withProgram [.rd .id]).bus = [.access (.read .word 0)] ∧
    (State.reset.status.busy = false ∧ State.reset.bus = []) ∧
    ({ State.reset with bus := [.sequencer] }.status.busy = false) :=
  ⟨⟨rfl, rfl, rfl⟩, ⟨rfl, rfl, rfl⟩, rfl, ⟨rfl, rfl⟩, rfl⟩

/-- IllegalWordCompletes. -/
theorem witness_illegal : (running 0x05000000 (atLevel 0) 0 0 0 0).status.busy = true ∧
    (running 0x05000000 (atLevel 0) 0 0 0 0).bus = [] ∧
    decode (running 0x05000000 (atLevel 0) 0 0 0 0).latch.word = .error (.unassignedOpcode 0x05) :=
  ⟨rfl, rfl, rfl⟩

/-- CommandStart, idle and busy. -/
theorem witness_commandStart :
    ((State.reset.withProgram [.command ⟨.nop, []⟩]).bus = [.access (.write .word 0x00008 0)] ∧
      (State.reset.withProgram [.command ⟨.nop, []⟩]).status.busy = false) ∧
    (((running 0 (atLevel 0) 0 0 0 0).withProgram [.command ⟨.nop, []⟩]).bus = [.access (.write .word 0x00008 0)] ∧
      ((running 0 (atLevel 0) 0 0 0 0).withProgram [.command ⟨.nop, []⟩]).status.busy = true) := by decide

/-- CommandsAreAllOrNothing: an end without error, one with `ERR_DOMAIN` and one with `ERR_CAPACITY`. -/
theorem witness_ends : nextSatisfies (exec .nop State.reset) (fun t => t.status.err == false) = true ∧
    nextSatisfies (exec (.gfLog 0) State.reset) (fun t => t.status.err && t.status.errcode != 4) = true ∧
    nextSatisfies (exec .versionSelect
      ((running 0 { atLevel 1 with reqVersion := 1 } 0 0 42 0).setRegs fun r => { r with mode := 1 }))
      (fun t => t.status.err && t.status.errcode == 4) = true := by decide +kernel

/-- OnlyNamedCommandsWrite: commands that change `OUTLEN`, `VERSION`, `MODE`, `BITLEN`, `DCW`, `TOTCW`, `ERRINFO`. -/
theorem witness_writes :
    nextSatisfies (exec .serialize finishedState) (fun t => t.regs.outlen != finishedState.regs.outlen) = true ∧
    nextSatisfies (exec .deserialize blobState) (fun t => t.regs.version != blobState.regs.version) = true ∧
    nextSatisfies (exec .modeSelect (running 0 (atLevel 0) 0 0 0 0)) (fun t => t.regs.mode != 0) = true ∧
    nextSatisfies (exec .pack packState) (fun t => t.regs.bitlen != 0) = true ∧
    nextSatisfies (exec .pad packState) (fun t => t.regs.dcw != 0) = true ∧
    nextSatisfies (exec .interleave packState) (fun t => t.regs.totcw != 0) = true := by decide +kernel

/-- OnlyNamedCommandsWrite: commands that change `MASK`, `FORMAT`, `SIDE`, a `PEN` register, and bytes of each memory. -/
theorem witness_writes_matrix :
    nextSatisfies (exec (.maskApply 3) symbolState) (fun t => t.regs.mask != 0 && t.readByte .mtx 0 != 0) = true ∧
    nextSatisfies (exec (.writeInfo 3) symbolState) (fun t => t.regs.format != 0) = true ∧
    nextSatisfies (exec .quietZone symbolState) (fun t => t.regs.side != 21) = true ∧
    nextSatisfies (exec (.maskScore 7) symbolState) (fun t => t.regs.pen.get 7 != 0) = true ∧
    nextSatisfies (exec .serialize (finishedState.writeBytes .out 0 [0])) (fun t => t.readByte .out 0 != 0) = true ∧
    nextSatisfies (exec .pack (packState.writeBytes .cwm 0 [0])) (fun t => t.readByte .cwm 0 != 0) = true := by
  decide +kernel

/-- OnlyLatchedOperandsAreRead: SERIALIZE without error, and another command. -/
theorem witness_latched : nextSatisfies (exec .serialize finishedState) (fun t => t.status.err == false) = true ∧
    nextSatisfies (exec .nop State.reset) (fun _ => true) = true := by decide +kernel

/-- The reset state is ranged. -/
theorem witness_reset_ranged : State.reset.ranged := by
  refine ⟨by decide, by decide, by decide, by decide, ?_⟩
  simp [State.sideOk, State.reset, Status.reset, Regs.reset]

/-- ErrArgExactly: a failed test, passed tests, and PACK's class test with its `ERR_SEQUENCE` tests passed. -/
theorem witness_errArg : argTest (.rsGenpoly 0) State.reset = true ∧ argTest .pack packState = false ∧
    (sequenceOk .pack packState = true ∧
      packClassTest (packState.writeBytes .inp 0 [0x61]) = true) ∧ packClassTest packState = false := by decide +kernel

/-- ErrSequenceExactly. -/
theorem witness_errSequence : State.reset.ranged ∧ argTest .pad State.reset = false ∧ sequenceOk .pad State.reset = false ∧
    nextSatisfies (exec .pad State.reset) (fun t => t.status.errcode == 3) = true :=
  ⟨witness_reset_ranged, by decide, by decide, by decide +kernel⟩

/-- DataErrorsExactly: PAD and PACK too long, the malformed tests of DESERIALIZE, and the field's zero. -/
theorem witness_dataErrors :
    nextSatisfies (exec .pad (packState.setRegs fun r => { r with bitlen := 129 })) (fun t => t.status.errcode == 5) = true ∧
    nextSatisfies (exec .pack { packState with latch := { packState.latch with ctrl := atLevel 2 } })
      (fun t => t.status.errcode == 5) = true ∧
    nextSatisfies (exec .deserialize { blobState with latch := { blobState.latch with outlen := 110 } })
      (fun t => t.status.errcode == 6) = true ∧
    nextSatisfies (exec .deserialize (blobState.writeBytes .out 4 [30])) (fun t => t.status.errcode == 6) = true ∧
    nextSatisfies (exec .deserialize (blobState.writeBytes .out 2 [0])) (fun t => t.status.errcode == 6) = true := by
  decide +kernel

/-- CapacityErrorReportsDiagnostics and the chosen versions: 41 digits fit version 1-L and 42 do not. -/
theorem witness_versionFits : VersionFits false .L .numeric 41 1 ∧ ¬VersionFits false .L .numeric 42 1 ∧
    VersionFits false .L .numeric 42 2 := by
  unfold VersionFits; decide +kernel

/-- CapacityErrorReportsDiagnostics: version 1 is requested for 42 digits. -/
theorem witness_capacity :
    let s := (running 0 { atLevel 1 with reqVersion := 1 } 0 0 42 0).setRegs fun r => { r with mode := 1 }
    modeOf s.regs.mode = some .numeric ∧ argTest .versionSelect s = false ∧
      ∀ v, ¬VersionChosen s.latch.ctrl.eciEn s.level .numeric s.inLen s.latch.ctrl.reqVersion.toNat v := by
  refine ⟨by decide, by decide, fun v h => ?_⟩
  have hv : v = 1 := h.2.2 (by decide)
  subst hv
  exact witness_versionFits.2.1 h.1

/-- VersionSelectResult: 42 digits at level L, no version requested. -/
theorem witness_versionSelect :
    let s := (running 0 (atLevel 1) 0 0 42 0).setRegs fun r => { r with mode := 1 }
    modeOf s.regs.mode = some .numeric ∧ argTest .versionSelect s = false ∧
      VersionChosen s.latch.ctrl.eciEn s.level .numeric s.inLen s.latch.ctrl.reqVersion.toNat 2 := by
  refine ⟨by decide, by decide, witness_versionFits.2.2, fun _ u hu h => ?_, fun h => absurd (by decide) h⟩
  have : u = 1 := by have := h.1; omega
  subst this
  exact witness_versionFits.2.1 h

/-- VersionSelectResult: version 40 requested for no characters. -/
theorem witness_versionSelect_fixed : VersionChosen false .H .byte 0 40 40 := by
  refine ⟨?_, fun h => absurd h (by decide), fun _ => rfl⟩
  unfold VersionFits; decide +kernel

/-- InterruptFollowsDone: written words with bits 1, 4 and 31. -/
theorem witness_interrupt : (0x00000002 : Word).getLsbD 1 = true ∧ (0x00000010 : Word).getLsbD 31 = false ∧
    (0x80000000 : Word).getLsbD 31 = true := by decide

/-- GfExpAndLogResults, GfMulAndDivResults: exponents at both ends. -/
theorem witness_alphaPow : alphaPow 0 = (1 : Byte).toNat ∧ alphaPow 254 = (0x8E : Byte).toNat ∧ (1 : Byte) ≠ 0 := by
  decide +kernel

/-- RsGenpolyResult and RsEncodeResult: the last offsets that fit, and the first that do not. -/
theorem witness_rsBounds :
    ((255 : Byte) ≠ 0 ∧ (running 0 (atLevel 0) 0 7936 0 0).latch.arg1.toNat + (255 : Byte).toNat + 1 ≤ 8192) ∧
    (running 0 (atLevel 0) 0 7937 0 0).latch.arg1.toNat + (255 : Byte).toNat + 1 > 8192 ∧
    ((1 : Byte) ≠ 0 ∧ (running 0 (atLevel 0) 7937 8191 0 0).latch.arg0.toNat + (255 : Byte).toNat ≤ 8192 ∧
      (running 0 (atLevel 0) 7937 8191 0 0).latch.arg1.toNat + (1 : Byte).toNat ≤ 8192) ∧
    (running 0 (atLevel 0) 7938 0 0 0).latch.arg0.toNat + (255 : Byte).toNat > 8192 ∧
    (running 0 (atLevel 0) 0 8191 0 0).latch.arg1.toNat + (2 : Byte).toNat > 8192 := by decide

/-- ModeSelectResult: the two ends of `INLEN`. -/
theorem witness_inlen : (running 0 (atLevel 0) 0 0 8192 0).latch.inlen.toNat ≤ 8192 ∧
    (running 0 (atLevel 0) 0 0 8193 0).latch.inlen.toNat > 8192 := by decide

/-- PackResult. -/
theorem witness_pack : modeOf packState.regs.mode = some .alphanumeric ∧ packState.ver ≠ 0 ∧ argTest .pack packState = false ∧
    packClassTest packState = false ∧
    need packState.latch.ctrl.eciEn packState.inLen .alphanumeric packState.ver ≤ 8 * packState.eccInfo.dataCw := by
  decide +kernel

/-- PackedStreamDeterminesInput: eleven alphanumeric characters. -/
theorem witness_packedStream : hello.length < 2 ^ cci 1 .alphanumeric ∧ hello.all (inClass .alphanumeric) = true := by decide

/-- PadResult: the longest stream that fits, one bit more, and no version. -/
theorem witness_pad :
    (packState.ver ≠ 0 ∧ (packState.setRegs fun r => { r with bitlen := 128 }).regs.bitlen.toNat ≤ 8 * packState.eccInfo.dataCw) ∧
    (packState.setRegs fun r => { r with bitlen := 129 }).regs.bitlen.toNat > 8 * packState.eccInfo.dataCw ∧
    State.reset.ver = 0 := by decide +kernel

/-- InterleaveResult, PlaceFunctionResult: the versions at both ends and none. -/
theorem witness_versions : (1 ≤ packState.ver ∧ packState.ver ≤ 40) ∧
    (1 ≤ (State.reset.setRegs fun r => { r with version := 40 }).ver ∧
      (State.reset.setRegs fun r => { r with version := 40 }).ver ≤ 40) ∧ State.reset.ver = 0 := by decide

/-- InterleavedOrder: version 5-Q, with both groups. -/
theorem witness_interleavedOrder : (List.replicate 62 (0 : Byte)).length = (eccTab 5 .Q).dataCw ∧
    0 < (eccTab 5 .Q).blocks2 ∧ 0 < (eccTab 5 .Q).cw1 ∧ 0 < (eccTab 5 .Q).eccPerBlock := by decide

/-- QueryResults: versions 1, 40, 0 and 41, and a mode value that names no mode. -/
theorem witness_query : (1 ≤ (40 : BitVec 6).toNat ∧ (40 : BitVec 6).toNat ≤ 40) ∧ modeOf 4 = some .byte ∧
    (0 : BitVec 6).toNat = 0 ∧ (41 : BitVec 6).toNat > 40 ∧ ((8 : BitVec 4) ≠ 1 ∧ (8 : BitVec 4) ≠ 2 ∧ (8 : BitVec 4) ≠ 4) := by
  decide

/-- FunctionMatrixPatterns: an alignment centre that is placed, at version 7. -/
theorem witness_alignment : 6 ∈ alignTab 7 ∧ 22 ∈ alignTab 7 ∧ (6, 22) ∉ [(6, 6), (6, 45 - 7), (45 - 7, 6)] := by decide

/-- PlaceDataResult and the mask, metadata and quiet-zone results: a version 1 symbol. -/
theorem witness_symbol : symbolState.hasSymbol ∧ symbolState.regs.totcw.toNat ≤ 4096 := by
  refine ⟨⟨by decide, by decide, by decide, by decide⟩, by decide⟩

/-- A symbol at the largest version, with version areas. -/
theorem witness_symbol_40 :
    ({ symbolState with regs := { symbolState.regs with version := 40, side := 177 } } : State).hasSymbol :=
  ⟨by decide, by decide, by decide, by decide⟩

/-- PlaceDataResult: the first free position of an empty symbol. -/
theorem witness_free : ((scanOrder 21).filter fun p => !symbolState.blk p.1 p.2)[0]? = some (20, 20) := by decide +kernel

/-- CandidateIsTheCommittedSymbol: both commands answer a next state. -/
theorem witness_candidate : ∃ t u, exec (.maskApply 2) symbolState = .next t ∧ exec (.writeInfo 2) t = .next u :=
  ⟨_, _, exec_eq _ _, exec_eq _ _⟩

/-- SerializeResult: a quiet-zoned matrix, and one that is none. -/
theorem witness_serialize : (finishedState.ver ≤ 40 ∧ finishedState.ver ≠ 0 ∧ finishedState.status.qz = true ∧
    finishedState.regs.side.toNat = 17 + 4 * finishedState.ver + 8) ∧ symbolState.status.qz = false := by decide

/-- DeserializeResult. -/
theorem witness_deserialize : blobState.readByte .out 0 = 0x51 ∧ blobState.readByte .out 1 = 0x52 ∧
    blobState.readByte .out 2 = 0x52 ∧ (blobState.readByte .out 4).toNat = 17 + 4 * 1 + 8 ∧
    5 + (29 * 29 + 7) / 8 ≤ blobState.latch.outlen.toNat ∧ blobState.latch.outlen.toNat ≤ 8192 := by decide +kernel

/-- A byte of an all-zero memory reads 0. -/
theorem readByte_zeros (s : State) (h : s.mtx = Memory.zeros) (x : Nat) : s.readByte .mtx x = 0 := by
  simp [State.readByte, State.mem, h, Memory.get, Memory.zeros, cellAt, blankByte]

/-- SerializeRoundTrip: a finished matrix, which SERIALIZE takes. -/
theorem witness_finished : finishedState.finished ∧ ∃ t, exec .serialize finishedState = .next t := by
  refine ⟨⟨by decide, by decide, by decide, by decide, fun r c _ _ => ?_, fun r c _ _ _ => readByte_zeros _ rfl _⟩,
    _, exec_eq _ _⟩
  simp only [State.blk]
  rw [readByte_zeros _ rfl]
  rfl

/-- GenerateRunsThePipeline: the empty input at level L gives version 1. -/
theorem witness_generate :
    let s := running 0x70000000 (atLevel 1) 0 0 0 0
    argTest .generate s = false ∧ Mode.numeric = selectMode s.input s.latch.ctrl.forceByte ∧
      VersionChosen s.latch.ctrl.eciEn s.level .numeric s.inLen s.latch.ctrl.reqVersion.toNat 1 := by
  refine ⟨by decide, by decide, ?_, fun _ u hu h => ?_, fun h => absurd (by decide) h⟩
  · unfold VersionFits; decide +kernel
  · have := h.1; omega

/-- GenerateDependsOnlyOnItsInputs: two states that differ in `CWM` and in a register; without error by the witness of
GenerateRunsThePipeline. -/
theorem witness_generateInputs :
    let s := running 0x70000000 (atLevel 1) 0 0 0 0
    let s' := (s.writeBytes .cwm 0 [1]).withRes0 9
    s'.latch.ctrl = s.latch.ctrl ∧ s'.latch.inlen = s.latch.inlen ∧
      (∀ x, x < s.latch.inlen.toNat → s'.readByte .inp x = s.readByte .inp x) ∧
      (∃ t, exec .generate s = .next t) ∧ ∃ t, exec .generate s' = .next t :=
  ⟨rfl, rfl, fun x hx => absurd hx (Nat.not_lt_zero x), ⟨_, exec_eq _ _⟩, ⟨_, exec_eq _ _⟩⟩

/-- GenerateDependsOnlyOnItsInputs: an end with `ERR_CAPACITY`. -/
theorem witness_generateCapacity :
    nextSatisfies (exec .generate (running 0x70000000 { atLevel 1 with reqVersion := 1, forceByte := true } 0 0 42 0))
      (fun t => t.status.errcode == 4) = true := by decide +kernel

/-- StepKeepsCanonicalMemory, StepKeepsPipelineRanges, StepKeepsMemoriesBounded: the reset state, which steps. -/
theorem witness_invariants : State.reset.canonical ∧ State.reset.ranged ∧ State.reset.bounded ∧
    ∃ t, step State.reset = .next t := by
  refine ⟨fun r => by cases r <;> rfl, witness_reset_ranged, fun r c h => ?_, _, rfl⟩
  cases r <;> simp [State.mem, State.reset, Memory.unwritten] at h

/-- HostMemoryAccessIsLittleEndian: the last word of `OUT`, idle and busy. -/
theorem witness_hostMemory : 8188 + widthBytes .word ≤ memSize .out ∧ 8188 % widthBytes .word = 0 ∧
    (0x41FFC : BitVec 20).toNat = memBase .out + 8188 ∧ State.reset.status.busy = false ∧
    (running 0 (atLevel 0) 0 0 0 0).status.busy = true := by decide

/-- ReadsHaveNoSideEffects. -/
theorem witness_read : nextSatisfies (hostAccess (.read .word 0x0000C) State.reset) (fun _ => true) = true := by decide

/-- RegisterWrites. -/
theorem witness_registers : Reg.readOnly .res0 = true ∧ Reg.ctrl ∈ [.ctrl, .arg0, .arg1, .inlen, .outlen] ∧
    (0x7FFFFFFF : Word).getLsbD 31 = false := by decide

/-- SoftResetKeepsOtherBytes: an idle and a busy state, and a running command with a footprint. -/
theorem witness_softReset : (0x80000000 : Word).getLsbD 31 = true ∧ State.reset.status.busy = false ∧
    (running 0x10000007 (atLevel 0) 0 0x100 0 0).status.busy = true ∧
    (running 0x10000007 (atLevel 0) 0 0x100 0 0).footprint = [(.cwm, 0x100, 8)] := by decide +kernel

/-- SoftResetKeepsOtherBytes: the running command decodes, answers a next state and the state is ranged. -/
theorem witness_softReset_running : (running 0x10000007 (atLevel 0) 0 0x100 0 0).ranged ∧
    decode (running 0x10000007 (atLevel 0) 0 0x100 0 0).latch.word = .ok (.rsGenpoly 7) ∧
    ∃ t, exec (.rsGenpoly 7) (running 0x10000007 (atLevel 0) 0 0x100 0 0) = .next t := by
  refine ⟨⟨by decide, by decide, by decide, by decide, ?_⟩, rfl, _, exec_eq _ _⟩
  simp [State.sideOk, running, State.reset, Status.reset, Regs.reset]

end Sys2Proof.Tests
end

section
/-! PROOFS. What a command that succeeds has done: one lemma per command, with its tests and its writes. Callers cite
these lemmas and do not run the command again. -/

namespace Sys2Proof.Machine

/-! ### Results in sequence -/

theorem bind_eq_ok {ε α β : Type} {x : Except ε α} {f : α → Except ε β} {b : β} :
    (x >>= f) = .ok b ↔ ∃ a, x = .ok a ∧ f a = .ok b := by
  cases x with
  | ok a => exact ⟨fun h => ⟨a, rfl, h⟩, by rintro ⟨_, ⟨⟩, h⟩; exact h⟩
  | error e => exact ⟨nofun, by rintro ⟨_, ⟨⟩, _⟩⟩

theorem bind_eq_error {ε α β : Type} {x : Except ε α} {f : α → Except ε β} {e : ε} :
    (x >>= f) = .error e ↔ x = .error e ∨ ∃ a, x = .ok a ∧ f a = .error e := by
  cases x with
  | ok a => exact ⟨fun h => .inr ⟨a, rfl, h⟩, by rintro (⟨⟨⟩⟩ | ⟨_, ⟨⟩, h⟩); exact h⟩
  | error e' => exact ⟨fun h => .inl (by cases h; rfl), by rintro (⟨⟨⟩⟩ | ⟨_, ⟨⟩, _⟩); rfl⟩

theorem raiseIf_eq_ok {b : Bool} {e : CmdError} {u : Unit} : raiseIf b e = .ok u ↔ b = false := by
  cases b <;> simp

theorem raiseIf_eq_error {b : Bool} {e e' : CmdError} : raiseIf b e = .error e' ↔ b = true ∧ e = e' := by
  cases b <;> simp

theorem State.checkSymbol_eq_ok {s : State} {u : Unit} :
    s.checkSymbol = .ok u ↔ s.ver ≠ 0 ∧ s.regs.side.toNat = side s.ver ∧ s.status.qz = false := by
  rw [State.checkSymbol_eq]; split <;> simp_all

theorem currentMode_eq_ok {s : State} {m : Mode} : currentMode s = .ok m ↔ s.regs.mode = modeValue m := by
  rw [currentMode_eq, ← modeOf_eq_some]; cases modeOf s.regs.mode <;> simp

/-- Only a division by zero fails (40_galois R104). -/
theorem gfDiv_eq_error {a b : Byte} {e : CmdError} (h : gfDiv a b = .error e) : e = .domain := by
  unfold gfDiv at h
  split at h
  · cases h; rfl
  · split at h <;> cases h

/-! ### The commands -/

theorem cmdRsGenpoly_eq_ok {n : Byte} {s t : State} :
    cmdRsGenpoly n s = .ok t ↔ n ≠ 0 ∧ s.latch.arg1.toNat + n.toNat + 1 ≤ 8192 ∧
      t = (s.writeBytes .cwm s.latch.arg1.toNat (genPoly n.toNat)).withRes0 (n.toNat + 1) := by
  simp [cmdRsGenpoly, bind_eq_ok, raiseIf_eq_ok, eq_comm (a := t)]

theorem cmdRsEncode_eq_ok {k n : Byte} {s t : State} :
    cmdRsEncode k n s = .ok t ↔ n ≠ 0 ∧ s.latch.arg0.toNat + k.toNat ≤ 8192 ∧ s.latch.arg1.toNat + n.toNat ≤ 8192 ∧
      t = (s.writeBytes .cwm s.latch.arg1.toNat
        (rsEcc (s.readBytes .cwm s.latch.arg0.toNat k.toNat) n.toNat)).withRes0 n.toNat := by
  simp [cmdRsEncode, bind_eq_ok, raiseIf_eq_ok, eq_comm (a := t)]

theorem cmdModeSelect_eq_ok {s t : State} :
    cmdModeSelect s = .ok t ↔ s.inLen ≤ 8192 ∧
      t = s.setRegs fun r => { r with mode := modeValue (selectMode s.input s.latch.ctrl.forceByte) } := by
  simp [cmdModeSelect, bind_eq_ok, raiseIf_eq_ok, eq_comm (a := t)]

theorem cmdVersionSelect_eq_ok {s t : State} :
    cmdVersionSelect s = .ok t ↔ s.latch.ctrl.reqVersion.toNat ≤ 40 ∧ s.inLen ≤ 8192 ∧ s.eciBad = false ∧
      ∃ m v, s.regs.mode = modeValue m ∧
        chooseVersion s.latch.ctrl.ecc m s.inLen s.latch.ctrl.reqVersion.toNat s.latch.ctrl.eciEn = .ok v ∧
        t = s.setRegs fun r =>
          { r with version := BitVec.ofNat 6 v, dcw := BitVec.ofNat 12 (eccTab v s.level).dataCw } := by
  simp [cmdVersionSelect, bind_eq_ok, raiseIf_eq_ok, currentMode_eq_ok, eq_comm (a := t)]

theorem cmdPack_eq_ok {s t : State} :
    cmdPack s = .ok t ↔ s.inLen ≤ 8192 ∧ s.eciBad = false ∧ ∃ m, s.regs.mode = modeValue m ∧ s.ver ≠ 0 ∧
      s.input.all (inClass m) = true ∧ need s.latch.ctrl.eciEn s.inLen m s.ver ≤ 8 * s.eccInfo.dataCw ∧
      t = (s.writeBytes .cwm 0 (packBits
        (packedStream s.latch.ctrl.eciEn s.latch.ctrl.eciDesignator m s.ver s.input))).setRegs fun r =>
          { r with bitlen := BitVec.ofNat 16 (need s.latch.ctrl.eciEn s.inLen m s.ver) } := by
  simp [cmdPack, bind_eq_ok, raiseIf_eq_ok, currentMode_eq_ok, eq_comm (a := t)]

theorem cmdPad_eq_ok {s t : State} :
    cmdPad s = .ok t ↔ s.ver ≠ 0 ∧ s.regs.bitlen.toNat ≤ 8 * s.eccInfo.dataCw ∧
      t = (s.writeBytes .cwm 0 (padStream (streamBits s s.regs.bitlen.toNat) s.eccInfo.dataCw)).setRegs fun r =>
        { r with dcw := BitVec.ofNat 12 s.eccInfo.dataCw } := by
  simp [cmdPad, bind_eq_ok, raiseIf_eq_ok, eq_comm (a := t)]

theorem cmdInterleave_eq_ok {s t : State} :
    cmdInterleave s = .ok t ↔ s.ver ≠ 0 ∧
      t = (s.writeBytes .cwm streamBase (codewordStream s.eccInfo (s.readBytes .cwm 0 s.eccInfo.dataCw))).setRegs fun r =>
        { r with
          totcw := BitVec.ofNat 12 (codewordStream s.eccInfo (s.readBytes .cwm 0 s.eccInfo.dataCw)).length
          rembits := BitVec.ofNat 3 (remTab s.ver) } := by
  simp [cmdInterleave, bind_eq_ok, raiseIf_eq_ok, eq_comm (a := t)]

theorem cmdPlaceFunction_eq_ok {s t : State} :
    cmdPlaceFunction s = .ok t ↔ s.ver ≠ 0 ∧
      t = (((s.clearMem .mtx).writeMatrix (functionMatrix s.ver)).setRegs fun r =>
        { r with side := BitVec.ofNat 8 (side s.ver) }).setQz false := by
  simp [cmdPlaceFunction, bind_eq_ok, raiseIf_eq_ok, eq_comm (a := t)]

theorem cmdPlaceData_eq_ok {s t : State} :
    cmdPlaceData s = .ok t ↔ (s.ver ≠ 0 ∧ s.regs.side.toNat = side s.ver ∧ s.status.qz = false) ∧
      s.regs.totcw.toNat ≤ 4096 ∧
      t = (s.writeMatrix (placeBits s.regs.side.toNat (s.matrix s.regs.side.toNat) (dataBits s)).matrix).setRegs fun r =>
        { r with
          res0 := BitVec.ofNat 32 ((dataBits s).length
            - (placeBits s.regs.side.toNat (s.matrix s.regs.side.toNat) (dataBits s)).bits.length)
          res1 := BitVec.ofNat 32 (placeBits s.regs.side.toNat (s.matrix s.regs.side.toNat) (dataBits s)).met } := by
  simp [cmdPlaceData, bind_eq_ok, raiseIf_eq_ok, State.checkSymbol_eq_ok, eq_comm (a := t)]

theorem cmdMaskScore_eq_ok {m : BitVec 3} {s t : State} :
    cmdMaskScore m s = .ok t ↔ (s.ver ≠ 0 ∧ s.regs.side.toNat = side s.ver ∧ s.status.qz = false) ∧
      t = s.setRegs fun r =>
        { r with
          pen := r.pen.set m.toNat (BitVec.ofNat 32 (maskPenalty s m).total) m.isLt
          res0 := BitVec.ofNat 32 (maskPenalty s m).p1
          res1 := BitVec.ofNat 32 (maskPenalty s m).p2
          res2 := BitVec.ofNat 32 (maskPenalty s m).p3
          res3 := BitVec.ofNat 32 (maskPenalty s m).p4 } := by
  simp [cmdMaskScore, bind_eq_ok, State.checkSymbol_eq_ok, eq_comm (a := t)]

theorem cmdMaskEval_eq_ok {s t : State} :
    cmdMaskEval s = .ok t ↔ (s.ver ≠ 0 ∧ s.regs.side.toNat = side s.ver ∧ s.status.qz = false) ∧
      t = s.setRegs fun r =>
        { r with
          pen := Vector.ofFn fun m => BitVec.ofNat 32 ((allPenalties s).getD m.val 0)
          mask := BitVec.ofNat 3 (bestMask (allPenalties s))
          res0 := BitVec.ofNat 32 (bestMask (allPenalties s))
          res1 := BitVec.ofNat 32 ((allPenalties s).getD (bestMask (allPenalties s)) 0) } := by
  simp [cmdMaskEval, bind_eq_ok, State.checkSymbol_eq_ok, eq_comm (a := t)]

theorem cmdMaskApply_eq_ok {m : BitVec 3} {s t : State} :
    cmdMaskApply m s = .ok t ↔ (s.ver ≠ 0 ∧ s.regs.side.toNat = side s.ver ∧ s.status.qz = false) ∧
      t = (s.writeMatrix (applyMask m (s.matrix s.regs.side.toNat))).setRegs fun r => { r with mask := m } := by
  simp [cmdMaskApply, bind_eq_ok, State.checkSymbol_eq_ok, eq_comm (a := t)]

theorem cmdWriteInfo_eq_ok {m : BitVec 3} {s t : State} :
    cmdWriteInfo m s = .ok t ↔ (s.ver ≠ 0 ∧ s.regs.side.toNat = side s.ver ∧ s.status.qz = false) ∧
      t = (s.writeMatrix (writeInfo s.regs.version s.regs.side.toNat s.latch.ctrl.ecc m
        (s.matrix s.regs.side.toNat))).setRegs fun r =>
          { r with
            format := formatString s.latch.ctrl.ecc m
            verinfo := if 7 ≤ r.version.toNat then versionString r.version else 0 } := by
  simp [cmdWriteInfo, bind_eq_ok, State.checkSymbol_eq_ok, eq_comm (a := t)]

theorem cmdQuietZone_eq_ok {s t : State} :
    cmdQuietZone s = .ok t ↔ (s.ver ≠ 0 ∧ s.regs.side.toNat = side s.ver ∧ s.status.qz = false) ∧
      t = (((s.clearMem .mtx).writeMatrix (Matrix.ofColours
        (quietZone s.regs.side.toNat (s.matrix s.regs.side.toNat).colours))).setRegs fun r =>
          { r with side := BitVec.ofNat 8 (s.regs.side.toNat + 8) }).setQz true := by
  simp [cmdQuietZone, bind_eq_ok, State.checkSymbol_eq_ok, eq_comm (a := t)]

theorem cmdSerialize_eq_ok {s t : State} :
    cmdSerialize s = .ok t ↔ (s.ver ≠ 0 ∧ s.status.qz = true ∧ s.regs.side.toNat = side s.ver + 8) ∧
      t = (s.writeBytes .out 0 (binaryForm s.regs.side.toNat (s.matrix s.regs.side.toNat).colours)).setRegs fun r =>
        { r with
          outlen := BitVec.ofNat 14
            (binaryForm s.regs.side.toNat (s.matrix s.regs.side.toNat).colours).length } := by
  simp [cmdSerialize, bind_eq_ok, raiseIf_eq_ok, eq_comm (a := t), and_assoc]

theorem cmdDeserialize_eq_ok {s t : State} :
    cmdDeserialize s = .ok t ↔ s.latch.outlen.toNat ≤ 8192 ∧ 5 ≤ s.latch.outlen.toNat ∧
      s.readBytes .out 0 3 = [0x51, 0x52, 0x52] ∧ isQuietSide (s.readByte .out 4).toNat = true ∧
      5 + bodyLength (s.readByte .out 4).toNat ≤ s.latch.outlen.toNat ∧
      t = (((s.clearMem .mtx).writeMatrix (Matrix.ofColours
        (rowsOf (s.readByte .out 4).toNat (s.readByte .out 4).toNat
          (unpackBits (s.readBytes .out 5 (bodyLength (s.readByte .out 4).toNat)))))).setRegs fun r =>
            { r with
              side := BitVec.ofNat 8 (s.readByte .out 4).toNat
              version := BitVec.ofNat 6 (((s.readByte .out 4).toNat - 29) / 4 + 1) }).setQz true := by
  simp [cmdDeserialize, bind_eq_ok, raiseIf_eq_ok, eq_comm (a := t)]

/-! ### Commands that write result registers only -/

/-- The commands whose only writes are to `RES0` to `RES3` (40_galois R105 to R108, 42_bch R146, R147, 44_blocks R211 to
R213; NOP writes none of them). -/
def writesResultsOnly : Instr → Bool
  | .nop | .gfExp _ | .gfLog _ | .gfMul _ _ | .gfDiv _ _ | .bchFormat _ _ | .bchVersion _ | .queryEcc _ _
  | .queryCap _ _ _ | .queryAlign _ => true
  | .rsGenpoly _ | .rsEncode _ _ | .modeSelect | .versionSelect | .pack | .pad | .interleave | .placeFunction
  | .placeData | .maskScore _ | .maskEval | .maskApply _ | .writeInfo _ | .quietZone | .serialize | .deserialize
  | .generate => false

/-- Writing `RES0` alone is writing the other three with what they hold. -/
theorem State.withRes0_eq_withRes (s : State) (v : Nat) :
    s.withRes0 v = s.withRes v s.regs.res1.toNat s.regs.res2.toNat s.regs.res3.toNat := by
  simp [State.withRes0, State.withRes, State.setRegs]

/-- Writing to the result registers what they hold changes nothing. -/
theorem State.withRes_self (s : State) :
    s.withRes s.regs.res0.toNat s.regs.res1.toNat s.regs.res2.toNat s.regs.res3.toNat = s := by
  simp [State.withRes, State.setRegs]

theorem command_of_writesResultsOnly {i : Instr} {s t : State} (hi : writesResultsOnly i = true) (h : command i s = .ok t) :
    ∃ a b c d, t = s.withRes a b c d := by
  have res0 {v : Nat} (ht : t = s.withRes0 v) : ∃ a b c d, t = s.withRes a b c d :=
    ⟨_, _, _, _, ht.trans (s.withRes0_eq_withRes v)⟩
  cases i with
  | nop => cases h; exact ⟨_, _, _, _, s.withRes_self.symm⟩
  | gfExp | gfMul | bchFormat | bchVersion => cases h; exact res0 rfl
  | gfLog a =>
    simp only [command, cmdGfLog] at h
    split at h
    · cases h
    · cases h; exact res0 rfl
  | gfDiv a b =>
    simp only [command] at h
    cases hq : gfDiv a b with
    | ok q => rw [hq] at h; cases h; exact res0 rfl
    | error e => rw [hq] at h; cases h
  | queryEcc | queryAlign =>
    obtain ⟨_, -, h⟩ := bind_eq_ok.mp h
    cases h; exact ⟨_, _, _, _, rfl⟩
  | queryCap =>
    obtain ⟨_, -, h⟩ := bind_eq_ok.mp h
    split at h
    · cases h
    · cases h; exact res0 rfl
  | _ => cases hi

/-! ### GENERATE as its commands -/

/-- A run of GENERATE is a run of each command of the pipeline on the state the one before it leaves (47_output R296). -/
theorem cmdGenerate_ok {s t : State} (h : cmdGenerate s = .ok t) :
    ∃ s₁ s₂ s₃ s₄ s₅ s₆ s₇ s₈ s₉ s₁₀ s₁₁,
      cmdModeSelect s = .ok s₁ ∧ cmdVersionSelect s₁ = .ok s₂ ∧ cmdPack s₂ = .ok s₃ ∧ cmdPad s₃ = .ok s₄ ∧
      cmdInterleave s₄ = .ok s₅ ∧ cmdPlaceFunction s₅ = .ok s₆ ∧ cmdPlaceData s₆ = .ok s₇ ∧
      cmdMaskEval s₇ = .ok s₈ ∧ cmdMaskApply s₈.regs.mask s₈ = .ok s₉ ∧ cmdWriteInfo s₈.regs.mask s₉ = .ok s₁₀ ∧
      cmdQuietZone s₁₀ = .ok s₁₁ ∧
      t = s₁₁.withRes s₁₁.ver s₈.regs.mask.toNat s₁₁.regs.side.toNat s₁₁.regs.bitlen.toNat := by
  simp only [cmdGenerate, generateSymbol, generateFinish, bind_eq_ok] at h
  obtain ⟨_, -, s₈, ⟨s₁, h₁, s₂, h₂, s₃, h₃, s₄, h₄, s₅, h₅, s₆, h₆, s₇, h₇, h₈⟩, s₉, h₉, s₁₀, h₁₀, s₁₁, h₁₁, ht⟩ := h
  cases ht
  exact ⟨s₁, s₂, s₃, s₄, s₅, s₆, s₇, s₈, s₉, s₁₀, s₁₁, h₁, h₂, h₃, h₄, h₅, h₆, h₇, h₈, h₉, h₁₀, h₁₁, rfl⟩

/-- What every command of the pipeline and the writing of the result registers keep, GENERATE keeps. -/
theorem cmdGenerate_keeps {P : State → Prop} {s t : State}
    (hcmd : ∀ i u v, i ≠ .generate → i ≠ .serialize → command i u = .ok v → P u → P v)
    (hres : ∀ u a b c d, P u → P (u.withRes a b c d)) (h : cmdGenerate s = .ok t) (hs : P s) : P t := by
  obtain ⟨s₁, s₂, s₃, s₄, s₅, s₆, s₇, s₈, s₉, s₁₀, s₁₁, h₁, h₂, h₃, h₄, h₅, h₆, h₇, h₈, h₉, h₁₀, h₁₁, rfl⟩ :=
    cmdGenerate_ok h
  have p₁ : P s₁ := hcmd .modeSelect _ _ nofun nofun h₁ hs
  have p₂ : P s₂ := hcmd .versionSelect _ _ nofun nofun h₂ p₁
  have p₃ : P s₃ := hcmd .pack _ _ nofun nofun h₃ p₂
  have p₄ : P s₄ := hcmd .pad _ _ nofun nofun h₄ p₃
  have p₅ : P s₅ := hcmd .interleave _ _ nofun nofun h₅ p₄
  have p₆ : P s₆ := hcmd .placeFunction _ _ nofun nofun h₆ p₅
  have p₇ : P s₇ := hcmd .placeData _ _ nofun nofun h₇ p₆
  have p₈ : P s₈ := hcmd .maskEval _ _ nofun nofun h₈ p₇
  have p₉ : P s₉ := hcmd (.maskApply _) _ _ nofun nofun h₉ p₈
  have p₁₀ : P s₁₀ := hcmd (.writeInfo _) _ _ nofun nofun h₁₀ p₉
  have p₁₁ : P s₁₁ := hcmd .quietZone _ _ nofun nofun h₁₁ p₁₀
  exact hres _ _ _ _ _ p₁₁

end Sys2Proof.Machine
end

section
/-! PROOFS. The writers of every register and memory (10_state R22, R30, R32 to R39, R46 to R49). -/

namespace Sys2Proof.Machine

/-! ### Memories an operation on another memory leaves -/

@[simp] theorem State.readByte_writeBytes_other (s : State) {r q : Region} (a : Nat) (bs : List Byte) (x : Nat)
    (h : q ≠ r) : (s.writeBytes r a bs).readByte q x = s.readByte q x :=
  State.readByte_writeBytes_outside _ _ _ _ _ _ (.inl h)

@[simp] theorem State.readByte_clearMem_other (s : State) {r q : Region} (x : Nat) (h : q ≠ r) :
    (s.clearMem r).readByte q x = s.readByte q x := by simp [State.readByte_clearMem, h]

/-! ### The writers -/

/-- What a command changes, it is named a writer of. -/
structure NamedWrites (i : Instr) (s t : State) : Prop where
  latch : t.latch = s.latch
  operands : t.regs.ctrl = s.regs.ctrl ∧ t.regs.arg0 = s.regs.arg0 ∧ t.regs.arg1 = s.regs.arg1 ∧
    t.regs.inlen = s.regs.inlen
  errinfo : t.regs.errinfo = s.regs.errinfo
  outlen : t.regs.outlen ≠ s.regs.outlen → i = .serialize
  version : t.regs.version ≠ s.regs.version → i ∈ [.versionSelect, .deserialize, .generate]
  mode : t.regs.mode ≠ s.regs.mode → i ∈ [.modeSelect, .generate]
  bitlen : t.regs.bitlen ≠ s.regs.bitlen → i ∈ [.pack, .generate]
  mask : t.regs.mask ≠ s.regs.mask → i ∈ [.maskEval, .generate] ∨ ∃ m, i = .maskApply m
  info : t.regs.format ≠ s.regs.format ∨ t.regs.verinfo ≠ s.regs.verinfo → i = .generate ∨ ∃ m, i = .writeInfo m
  side : t.regs.side ≠ s.regs.side ∨ t.status.qz ≠ s.status.qz →
    i ∈ [.placeFunction, .quietZone, .deserialize, .generate]
  dcw : t.regs.dcw ≠ s.regs.dcw → i ∈ [.versionSelect, .pad, .generate]
  stream : t.regs.totcw ≠ s.regs.totcw ∨ t.regs.rembits ≠ s.regs.rembits → i ∈ [.interleave, .generate]
  pen : ∀ k : Fin 8, t.regs.pen.get k ≠ s.regs.pen.get k →
    i ∈ [.maskEval, .generate] ∨ ∃ m, i = .maskScore m ∧ m.toNat = k.val
  inp : ∀ x, t.readByte .inp x = s.readByte .inp x
  out : ∀ x, t.readByte .out x ≠ s.readByte .out x → i = .serialize
  cwm : ∀ x, t.readByte .cwm x ≠ s.readByte .cwm x →
    i ∈ [.pack, .pad, .interleave, .generate] ∨ (∃ n, i = .rsGenpoly n) ∨ ∃ k n, i = .rsEncode k n
  mtx : ∀ x, t.readByte .mtx x ≠ s.readByte .mtx x →
    i ∈ [.placeFunction, .placeData, .quietZone, .deserialize, .generate] ∨ (∃ m, i = .maskApply m) ∨
      ∃ m, i = .writeInfo m

theorem NamedWrites.withRes (i : Instr) (s : State) (a b c d : Nat) : NamedWrites i s (s.withRes a b c d) := by
  constructor <;> simp

theorem NamedWrites.of_maskScore (m : BitVec 3) (s : State) (v a b c d : Word) :
    NamedWrites (.maskScore m) s (s.setRegs fun r =>
      { r with pen := r.pen.set m.toNat v m.isLt, res0 := a, res1 := b, res2 := c, res3 := d }) := by
  constructor
  case pen =>
    intro k hk
    refine .inr ⟨m, rfl, Decidable.by_contra fun hm => hk ?_⟩
    simp [Vector.get_eq_getElem, Vector.getElem_set_ne _ _ hm]
  all_goals simp

/-- What GENERATE shares with the commands it runs: it leaves the operands, `ERRINFO`, `IN` and `OUT`. -/
structure KeepsHostData (s t : State) : Prop where
  latch : t.latch = s.latch
  operands : t.regs.ctrl = s.regs.ctrl ∧ t.regs.arg0 = s.regs.arg0 ∧ t.regs.arg1 = s.regs.arg1 ∧
    t.regs.inlen = s.regs.inlen
  outlen : t.regs.outlen = s.regs.outlen
  errinfo : t.regs.errinfo = s.regs.errinfo
  inp : ∀ x, t.readByte .inp x = s.readByte .inp x
  out : ∀ x, t.readByte .out x = s.readByte .out x

theorem command_namedWrites_of_ne {i : Instr} {s t : State} (hi : i ≠ .generate) (h : command i s = .ok t) :
    NamedWrites i s t := by
  cases i with
  | nop | gfExp | gfLog | gfMul | gfDiv | bchFormat | bchVersion | queryEcc | queryCap | queryAlign =>
    obtain ⟨_, _, _, _, rfl⟩ := command_of_writesResultsOnly rfl h
    exact .withRes ..
  | rsGenpoly => obtain ⟨-, -, rfl⟩ := cmdRsGenpoly_eq_ok.mp h; constructor <;> simp
  | rsEncode => obtain ⟨-, -, -, rfl⟩ := cmdRsEncode_eq_ok.mp h; constructor <;> simp
  | modeSelect => obtain ⟨-, rfl⟩ := cmdModeSelect_eq_ok.mp h; constructor <;> simp
  | versionSelect => obtain ⟨-, -, -, _, _, -, -, rfl⟩ := cmdVersionSelect_eq_ok.mp h; constructor <;> simp
  | pack => obtain ⟨-, -, _, -, -, -, -, rfl⟩ := cmdPack_eq_ok.mp h; constructor <;> simp
  | pad => obtain ⟨-, -, rfl⟩ := cmdPad_eq_ok.mp h; constructor <;> simp
  | interleave => obtain ⟨-, rfl⟩ := cmdInterleave_eq_ok.mp h; constructor <;> simp
  | placeFunction =>
    obtain ⟨-, rfl⟩ := cmdPlaceFunction_eq_ok.mp h; constructor <;> simp [State.readByte_writeMatrix_other]
  | placeData =>
    obtain ⟨-, -, rfl⟩ := cmdPlaceData_eq_ok.mp h; constructor <;> simp [State.readByte_writeMatrix_other]
  | maskScore m => obtain ⟨-, rfl⟩ := cmdMaskScore_eq_ok.mp h; exact .of_maskScore ..
  | maskEval => obtain ⟨-, rfl⟩ := cmdMaskEval_eq_ok.mp h; constructor <;> simp
  | maskApply => obtain ⟨-, rfl⟩ := cmdMaskApply_eq_ok.mp h; constructor <;> simp [State.readByte_writeMatrix_other]
  | writeInfo => obtain ⟨-, rfl⟩ := cmdWriteInfo_eq_ok.mp h; constructor <;> simp [State.readByte_writeMatrix_other]
  | quietZone => obtain ⟨-, rfl⟩ := cmdQuietZone_eq_ok.mp h; constructor <;> simp [State.readByte_writeMatrix_other]
  | serialize => obtain ⟨-, rfl⟩ := cmdSerialize_eq_ok.mp h; constructor <;> simp
  | deserialize =>
    obtain ⟨-, -, -, -, -, rfl⟩ := cmdDeserialize_eq_ok.mp h; constructor <;> simp [State.readByte_writeMatrix_other]
  | generate => exact absurd rfl hi

theorem NamedWrites.keepsHostData {i : Instr} {s t : State} (h : NamedWrites i s t) (hi : i ≠ .serialize) :
    KeepsHostData s t where
  latch := h.latch
  operands := h.operands
  outlen := Decidable.by_contra fun hn => hi (h.outlen hn)
  errinfo := h.errinfo
  inp := h.inp
  out x := Decidable.by_contra fun hn => hi (h.out x hn)

theorem KeepsHostData.trans {s t u : State} (h : KeepsHostData s t) (k : KeepsHostData t u) : KeepsHostData s u where
  latch := k.latch.trans h.latch
  operands := by simp [k.operands, h.operands]
  outlen := k.outlen.trans h.outlen
  errinfo := k.errinfo.trans h.errinfo
  inp x := (k.inp x).trans (h.inp x)
  out x := (k.out x).trans (h.out x)

theorem cmdGenerate_keepsHostData {s t : State} (h : cmdGenerate s = .ok t) : KeepsHostData s t := by
  refine cmdGenerate_keeps (P := KeepsHostData s) (fun i u v hg hs hc hp => ?_) (fun u a b c d hp => ?_) h ?_
  · exact hp.trans ((command_namedWrites_of_ne hg hc).keepsHostData hs)
  · exact hp.trans ((NamedWrites.withRes .nop u a b c d).keepsHostData nofun)
  · constructor <;> simp

/-- A command that succeeds changes only what it is named a writer of. -/
theorem command_namedWrites {i : Instr} {s t : State} (h : command i s = .ok t) : NamedWrites i s t := by
  by_cases hi : i = .generate
  · subst hi
    obtain ⟨hl, ho, hn, he, hi, hu⟩ := cmdGenerate_keepsHostData h
    constructor <;> simp [*]
  · exact command_namedWrites_of_ne hi h

/-! ### Errors -/

theorem State.checkSymbol_eq_error {s : State} {e : CmdError} (h : s.checkSymbol = .error e) : e = .sequence := by
  rw [State.checkSymbol_eq] at h; split at h <;> cases h; rfl

theorem currentMode_eq_error {s : State} {e : CmdError} (h : currentMode s = .error e) : e = .sequence := by
  rw [currentMode_eq] at h; split at h <;> cases h; rfl

theorem State.checkSymbol_ne_capacity (s : State) (info : ErrInfo) : s.checkSymbol ≠ .error (.capacity info) :=
  fun h => nomatch State.checkSymbol_eq_error h

theorem currentMode_ne_capacity (s : State) (info : ErrInfo) : currentMode s ≠ .error (.capacity info) :=
  fun h => nomatch currentMode_eq_error h

/-- Only the two commands that choose a version raise `ERR_CAPACITY` (60_exceptions R314). -/
theorem command_error_capacity {i : Instr} {s : State} {info : ErrInfo} (h : command i s = .error (.capacity info)) :
    i ∈ [.versionSelect, .generate] := by
  cases i with
  | versionSelect | generate => simp
  | nop | gfExp | gfMul | bchFormat | bchVersion => cases h
  | gfLog a => simp only [command, cmdGfLog] at h; split at h <;> cases h
  | gfDiv a b =>
    simp only [command] at h
    cases hq : gfDiv a b with
    | ok q => rw [hq] at h; cases h
    | error e => cases gfDiv_eq_error hq; rw [hq] at h; cases h
  | rsGenpoly => simp [command, cmdRsGenpoly, bind_eq_error, raiseIf_eq_error] at h
  | rsEncode => simp [command, cmdRsEncode, bind_eq_error, raiseIf_eq_error] at h
  | modeSelect => simp [command, cmdModeSelect, bind_eq_error, raiseIf_eq_error] at h
  | pack => simp [command, cmdPack, bind_eq_error, raiseIf_eq_error, currentMode_ne_capacity] at h
  | pad => simp [command, cmdPad, bind_eq_error, raiseIf_eq_error] at h
  | queryEcc => simp [command, cmdQueryEcc, bind_eq_error, raiseIf_eq_error] at h
  | queryAlign => simp [command, cmdQueryAlign, bind_eq_error, raiseIf_eq_error] at h
  | queryCap v md e =>
    simp only [command, cmdQueryCap, bind_eq_error, raiseIf_eq_error] at h
    cases hm : modeOf md <;> simp [hm] at h
  | interleave => simp [command, cmdInterleave, bind_eq_error, raiseIf_eq_error] at h
  | placeFunction => simp [command, cmdPlaceFunction, bind_eq_error, raiseIf_eq_error] at h
  | placeData => simp [command, cmdPlaceData, bind_eq_error, raiseIf_eq_error, State.checkSymbol_ne_capacity] at h
  | maskScore => simp [command, cmdMaskScore, bind_eq_error, State.checkSymbol_ne_capacity] at h
  | maskEval => simp [command, cmdMaskEval, bind_eq_error, State.checkSymbol_ne_capacity] at h
  | maskApply => simp [command, cmdMaskApply, bind_eq_error, State.checkSymbol_ne_capacity] at h
  | writeInfo => simp [command, cmdWriteInfo, bind_eq_error, State.checkSymbol_ne_capacity] at h
  | quietZone => simp [command, cmdQuietZone, bind_eq_error, State.checkSymbol_ne_capacity] at h
  | serialize => simp [command, cmdSerialize, bind_eq_error, raiseIf_eq_error] at h
  | deserialize => simp [command, cmdDeserialize, bind_eq_error, raiseIf_eq_error] at h

/-- Settles O10: what a command that succeeds writes is `command_namedWrites`; an error writes `ERRINFO` only, and only
for `ERR_CAPACITY`, which two commands raise. -/
theorem onlyNamedCommandsWrite : Obligations.OnlyNamedCommandsWrite := by
  intro i s t h
  obtain ⟨u, hc, rfl⟩ | ⟨e, hc, rfl⟩ := exec_cases h
  · have hw := command_namedWrites hc
    exact ⟨hw.operands, hw.outlen, hw.version, hw.mode, hw.bitlen, hw.mask, hw.info, hw.side, hw.dcw, hw.stream, hw.pen,
      fun hn => absurd hw.errinfo hn, hw.inp, hw.out, hw.cwm, hw.mtx⟩
  · have hcap : s.regs.errinfo.after e ≠ s.regs.errinfo → i ∈ [.versionSelect, .generate] ∧ e.code = 0x04 := by
      cases e with
      | capacity info => exact fun _ => ⟨command_error_capacity hc, rfl⟩
      | _ => exact fun hn => absurd rfl hn
    simpa using hcap

end Sys2Proof.Machine
end

section
/-! PROOFS. The invariants every step keeps: one lemma that takes a step apart, then the canonical form of the memories
(log 2) and the values of the pipeline registers and error flags (10_state R30, R36, 60_exceptions R310 to R312). -/

namespace Sys2Proof.Machine

/-! ### The step -/

theorem State.hostReadReg_eq (s : State) (r : Reg) : ∃ w f, s.hostReadReg r = { s with rdata := w, free := f } := by
  unfold State.hostReadReg; split
  · exact ⟨_, _, rfl⟩
  · exact ⟨_, s.free, rfl⟩

/-- A predicate that the end of a command, a host access and the passing of an event keep is kept by every step. -/
theorem step_keeps {P : State → Prop} (hbus : ∀ s b, P s → P { s with bus := b })
    (hcommand : ∀ i s t, P s → command i s = .ok t → P t.complete) (hraise : ∀ s e, P s → P (s.raise e))
    (hread : ∀ s w f, P s → P { s with rdata := w, free := f }) (hreg : ∀ s r d, P s → P (s.hostWriteReg r d))
    (hmem : ∀ s w r a d, a + widthBytes w ≤ memSize r → P s → P (s.hostWriteMem w r a d))
    {s t : State} (hs : P s) (h : step s = .next t) : P t := by
  have hturn : ∀ u, P u → sequencerTurn u = .next t → P t := by
    intro u hu h
    obtain ⟨-, he⟩ | ⟨-, -, he⟩ | ⟨i, -, -, he⟩ := sequencerTurn_cases u <;> rw [he] at h
    · cases h; exact hu
    · cases h; exact hraise u _ hu
    · obtain ⟨v, hc, rfl⟩ | ⟨e, -, rfl⟩ := exec_cases h
      · exact hcommand i u v hu hc
      · exact hraise u e hu
  obtain ⟨-, he⟩ | ⟨rest, -, he⟩ | ⟨op, rest, -, he⟩ := step_cases s <;> rw [he] at h
  · exact hturn s hs h
  · exact hturn _ (hbus s rest hs) h
  · have hu := hbus s rest hs
    obtain he | ⟨-, he⟩ | ⟨w, o, r, -, he⟩ | ⟨w, o, r, a, -, he⟩ | ⟨w, o, d, r, -, he⟩ | ⟨w, o, d, r, a, -, hb, he⟩ :=
      hostAccess_cases op { s with bus := rest } <;> rw [he] at h <;> cases h
    · obtain ⟨v, f, hr⟩ := State.hostReadReg_eq { s with bus := rest } r
      rw [hr]; exact hread _ v f hu
    · exact hread _ _ s.free hu
    · exact hreg _ r d hu
    · exact hmem _ w r a d hb hu

/-- All a register write does beyond the register page: a soft reset, or nothing. -/
theorem State.hostWriteReg_cases (s : State) (r : Reg) (d : Word) :
    (r = .ctrl ∧ d.getLsbD 31 = true ∧ s.hostWriteReg r d = s.softReset) ∨
      ∃ f st l, s.hostWriteReg r d = { s with regs := f, status := st, latch := l } ∧
        (f.version = s.regs.version ∧ f.mode = s.regs.mode ∧ f.side = s.regs.side) ∧
        (st.qz = s.status.qz ∧ st.err = s.status.err ∧ st.errcode = s.status.errcode) := by
  cases r with
  | ctrl =>
    by_cases hd : d.getLsbD 31 = true
    · exact .inl ⟨rfl, hd, by simp [State.hostWriteReg, State.writeCtrl, hd]⟩
    · exact .inr ⟨_, _, _, by simp only [State.hostWriteReg, State.writeCtrl, hd]; rfl, by simp, by simp⟩
  | cmd =>
    cases hb : s.status.busy with
    | true => exact .inr ⟨s.regs, _, s.latch, by simp only [State.hostWriteReg, State.writeCmd, hb]; rfl, by simp, by simp⟩
    | false => exact .inr ⟨s.regs, _, _, by simp only [State.hostWriteReg, State.writeCmd, hb]; rfl, by simp, by simp⟩
  | status => exact .inr ⟨_, _, _, rfl, by simp, by simp [Status.cleared]⟩
  | arg0 | arg1 | inlen | outlen => exact .inr ⟨_, _, _, rfl, by simp, by simp⟩
  | _ => exact .inr ⟨_, _, _, rfl, by simp, by simp⟩

/-! ### The canonical form -/

/-- The canonical form speaks of the memories only. -/
theorem State.canonical.congr {s t : State} (hs : s.canonical) (h : ∀ r, t.mem r = s.mem r) : t.canonical :=
  fun r => (h r).symm ▸ hs r

theorem State.canonical.writeBytes {s : State} (hs : s.canonical) (r : Region) (a : Nat) (bs : List Byte) :
    (s.writeBytes r a bs).canonical := fun q => State.wf_writeBytes s r q a bs (hs q)

theorem State.canonical.clearMem {s : State} (hs : s.canonical) (r : Region) : (s.clearMem r).canonical :=
  fun q => State.wf_clearMem s r q (hs q)

theorem State.canonical.writeMatrix {s : State} (hs : s.canonical) (g : Matrix) : (s.writeMatrix g).canonical :=
  fun q => State.wf_writeRows s 0 g q (hs q)

@[simp] theorem State.canonical_setRegs {s : State} {f : Regs → Regs} : (s.setRegs f).canonical ↔ s.canonical := by
  simp [State.canonical]

@[simp] theorem State.canonical_setQz {s : State} {b : Bool} : (s.setQz b).canonical ↔ s.canonical := by
  simp [State.canonical]

@[simp] theorem State.canonical_withRes0 {s : State} {v : Nat} : (s.withRes0 v).canonical ↔ s.canonical := by
  simp [State.canonical]

@[simp] theorem State.canonical_withRes {s : State} {a b c d : Nat} : (s.withRes a b c d).canonical ↔ s.canonical := by
  simp [State.canonical]

theorem command_canonical_of_ne {i : Instr} {s t : State} (hi : i ≠ .generate) (h : command i s = .ok t)
    (hs : s.canonical) : t.canonical := by
  cases i with
  | nop | gfExp | gfLog | gfMul | gfDiv | bchFormat | bchVersion | queryEcc | queryCap | queryAlign =>
    obtain ⟨_, _, _, _, rfl⟩ := command_of_writesResultsOnly rfl h
    simpa using hs
  | rsGenpoly => obtain ⟨-, -, rfl⟩ := cmdRsGenpoly_eq_ok.mp h; simpa using hs.writeBytes _ _ _
  | rsEncode => obtain ⟨-, -, -, rfl⟩ := cmdRsEncode_eq_ok.mp h; simpa using hs.writeBytes _ _ _
  | modeSelect => obtain ⟨-, rfl⟩ := cmdModeSelect_eq_ok.mp h; simpa using hs
  | versionSelect => obtain ⟨-, -, -, _, _, -, -, rfl⟩ := cmdVersionSelect_eq_ok.mp h; simpa using hs
  | pack => obtain ⟨-, -, _, -, -, -, -, rfl⟩ := cmdPack_eq_ok.mp h; simpa using hs.writeBytes _ _ _
  | pad => obtain ⟨-, -, rfl⟩ := cmdPad_eq_ok.mp h; simpa using hs.writeBytes _ _ _
  | interleave => obtain ⟨-, rfl⟩ := cmdInterleave_eq_ok.mp h; simpa using hs.writeBytes _ _ _
  | placeFunction => obtain ⟨-, rfl⟩ := cmdPlaceFunction_eq_ok.mp h; simpa using (hs.clearMem _).writeMatrix _
  | placeData => obtain ⟨-, -, rfl⟩ := cmdPlaceData_eq_ok.mp h; simpa using hs.writeMatrix _
  | maskScore => obtain ⟨-, rfl⟩ := cmdMaskScore_eq_ok.mp h; simpa using hs
  | maskEval => obtain ⟨-, rfl⟩ := cmdMaskEval_eq_ok.mp h; simpa using hs
  | maskApply => obtain ⟨-, rfl⟩ := cmdMaskApply_eq_ok.mp h; simpa using hs.writeMatrix _
  | writeInfo => obtain ⟨-, rfl⟩ := cmdWriteInfo_eq_ok.mp h; simpa using hs.writeMatrix _
  | quietZone => obtain ⟨-, rfl⟩ := cmdQuietZone_eq_ok.mp h; simpa using (hs.clearMem _).writeMatrix _
  | serialize => obtain ⟨-, rfl⟩ := cmdSerialize_eq_ok.mp h; simpa using hs.writeBytes _ _ _
  | deserialize => obtain ⟨-, -, -, -, -, rfl⟩ := cmdDeserialize_eq_ok.mp h; simpa using (hs.clearMem _).writeMatrix _
  | generate => exact absurd rfl hi

/-- A command that succeeds keeps the canonical form. -/
theorem command_canonical {i : Instr} {s t : State} (h : command i s = .ok t) (hs : s.canonical) : t.canonical := by
  by_cases hi : i = .generate
  · subst hi
    exact cmdGenerate_keeps (P := State.canonical) (fun _ _ _ hg _ => command_canonical_of_ne hg)
      (fun _ _ _ _ _ => State.canonical_withRes.mpr) h hs
  · exact command_canonical_of_ne hi h hs

/-- A soft reset keeps the canonical form: the bytes of an aborted command are writes like any other. -/
theorem State.canonical.softReset {s : State} (hs : s.canonical) : s.softReset.canonical := by
  have hfold : ∀ (ps : List Span) (u : State), u.canonical → (ps.foldl State.forget u).canonical := by
    intro ps
    induction ps with
    | nil => exact fun _ hu => hu
    | cons p ps ih => exact fun u hu => ih _ (hu.writeBytes _ _ _)
  unfold State.softReset
  split
  · exact (hfold s.footprint s hs).congr fun r => by cases r <;> rfl
  · exact hs.congr fun r => by cases r <;> rfl

/-- Settles O52: every operation a step is made of keeps the canonical form. -/
theorem stepKeepsCanonicalMemory : Obligations.StepKeepsCanonicalMemory := by
  intro s t hs h
  refine step_keeps (P := State.canonical) (fun u b hu => hu.congr fun r => by cases r <;> rfl)
    (fun i u v hu hc => (command_canonical hc hu).congr (State.mem_complete v)) (fun u e hu => hu.congr (State.mem_raise u e))
    (fun u w f hu => hu.congr fun r => by cases r <;> rfl) (fun u r d hu => ?_)
    (fun u w r a d _ hu => hu.writeBytes _ _ _) hs h
  obtain ⟨-, -, he⟩ | ⟨f, st, l, he, -, -⟩ := State.hostWriteReg_cases u r d <;> rw [he]
  · exact hu.softReset
  · exact hu.congr fun r => by cases r <;> rfl

/-! ### The values of the pipeline registers and error flags -/

/-- The part of `State.ranged` that speaks of the pipeline registers and `QZ`. -/
def State.pipelineOk (s : State) : Prop :=
  s.regs.version.toNat ≤ 40 ∧
    (s.regs.mode = 0 ∨ s.regs.mode = 1 ∨ s.regs.mode = 2 ∨ s.regs.mode = 4) ∧ s.sideOk

theorem State.ranged_iff {s : State} :
    s.ranged ↔ s.pipelineOk ∧ s.status.errcode.toNat ≤ 7 ∧ (s.status.err = true ↔ s.status.errcode ≠ 0) := by
  unfold State.ranged State.pipelineOk; tauto

theorem State.pipelineOk.congr {s t : State} (hs : s.pipelineOk) (hv : t.regs.version = s.regs.version)
    (hm : t.regs.mode = s.regs.mode) (hn : t.regs.side = s.regs.side) (hq : t.status.qz = s.status.qz) :
    t.pipelineOk := by
  unfold State.pipelineOk State.sideOk at *
  rwa [hv, hm, hn, hq]

/-- A command that succeeds clears the error flags. -/
theorem State.pipelineOk.complete {s : State} (hs : s.pipelineOk) : s.complete.ranged :=
  State.ranged_iff.mpr ⟨hs.congr rfl rfl rfl rfl, by simp⟩

/-- An error sets the error flags and leaves the pipeline registers. -/
theorem State.pipelineOk.raise {s : State} (hs : s.pipelineOk) (e : CmdError) : (s.raise e).ranged :=
  State.ranged_iff.mpr ⟨hs.congr rfl rfl rfl rfl, e.code_range.2, by simpa using e.code_range.1⟩

/-- A chosen version is one of 1 to 40 (43_bitstream R174). -/
theorem chooseVersion_range {e : BitVec 2} {m : Mode} {n req v : Nat} {b : Bool} (hreq : req ≤ 40)
    (h : chooseVersion e m n req b = .ok v) : 1 ≤ v ∧ v ≤ 40 := by
  unfold chooseVersion at h
  by_cases h0 : req = 0
  · simp only [h0, if_true] at h
    split at h
    · cases h
    · rename_i vmin hmin
      split at h
      · cases h
      · rename_i u hu
        cases h
        have h1 := List.mem_of_find?_eq_some hmin
        have h2 := List.mem_of_find?_eq_some hu
        simp only [List.mem_range'_1] at h1 h2
        omega
  · simp only [h0, if_false] at h
    split at h
    · cases h
    · split_ifs at h
      cases h
      omega

theorem modeValue_ranged (m : Mode) : modeValue m = 0 ∨ modeValue m = 1 ∨ modeValue m = 2 ∨ modeValue m = 4 := by
  cases m <;> simp [modeValue]

theorem isQuietSide_iff {n : Nat} : isQuietSide n = true ↔ 29 ≤ n ∧ n ≤ 185 ∧ (n - 29) % 4 = 0 := by
  simp [isQuietSide, and_assoc]

/-- The side of a quiet-zoned symbol of a version (47_output R282). -/
theorem isQuietSide_side {v : Nat} (h1 : 1 ≤ v) (h2 : v ≤ 40) : isQuietSide (side v + 8) = true := by
  rw [isQuietSide_iff, side]; omega

theorem side_lt {v : Nat} (h : v ≤ 40) : side v + 8 < 256 := by unfold side; omega

theorem cmdVersionSelect_pipelineOk {s t : State} (h : cmdVersionSelect s = .ok t) (hs : s.pipelineOk) :
    t.pipelineOk := by
  obtain ⟨hreq, -, -, m, v, -, hv, rfl⟩ := cmdVersionSelect_eq_ok.mp h
  obtain ⟨h1, h2⟩ := chooseVersion_range hreq hv
  exact ⟨by simp; omega, hs.2⟩

theorem cmdPlaceFunction_pipelineOk {s t : State} (h : cmdPlaceFunction s = .ok t) (hs : s.pipelineOk) :
    t.pipelineOk := by
  obtain ⟨h0, rfl⟩ := cmdPlaceFunction_eq_ok.mp h
  obtain ⟨hv, hm, -⟩ := hs
  have hlt := side_lt hv
  refine ⟨by simpa using hv, by simpa using hm, ?_⟩
  simp only [State.sideOk, State.setQz_status, State.setQz_regs, State.setRegs_regs, Bool.false_eq_true, if_false]
  refine .inr ⟨s.ver, by omega, hv, ?_⟩
  rw [BitVec.toNat_ofNat]
  exact Nat.mod_eq_of_lt (by simp only [State.ver]; omega)

theorem cmdQuietZone_pipelineOk {s t : State} (h : cmdQuietZone s = .ok t) (hs : s.pipelineOk) : t.pipelineOk := by
  obtain ⟨⟨h0, hside, -⟩, rfl⟩ := cmdQuietZone_eq_ok.mp h
  obtain ⟨hv, hm, -⟩ := hs
  have hlt := side_lt hv
  refine ⟨by simpa using hv, by simpa using hm, ?_⟩
  simp only [State.sideOk, State.setQz_status, State.setQz_regs, State.setRegs_regs, if_true]
  rw [BitVec.toNat_ofNat, hside, Nat.mod_eq_of_lt (by simp only [State.ver]; omega)]
  exact isQuietSide_side (by omega) hv

theorem cmdDeserialize_pipelineOk {s t : State} (h : cmdDeserialize s = .ok t) (hs : s.pipelineOk) : t.pipelineOk := by
  obtain ⟨-, -, -, hq, -, rfl⟩ := cmdDeserialize_eq_ok.mp h
  have hn := isQuietSide_iff.mp hq
  refine ⟨?_, by simpa using hs.2.1, ?_⟩
  · simp; omega
  · simpa [State.sideOk] using hq

/-- A command that succeeds keeps the pipeline registers in range. -/
theorem command_pipelineOk_of_ne {i : Instr} {s t : State} (hi : i ≠ .generate) (h : command i s = .ok t)
    (hs : s.pipelineOk) : t.pipelineOk := by
  have hw := command_namedWrites h
  cases i with
  | modeSelect =>
    obtain ⟨-, rfl⟩ := cmdModeSelect_eq_ok.mp h
    exact ⟨hs.1, modeValue_ranged _, hs.2.2⟩
  | versionSelect => exact cmdVersionSelect_pipelineOk h hs
  | placeFunction => exact cmdPlaceFunction_pipelineOk h hs
  | quietZone => exact cmdQuietZone_pipelineOk h hs
  | deserialize => exact cmdDeserialize_pipelineOk h hs
  | generate => exact absurd rfl hi
  | _ =>
    have hside := hw.side
    simp only [List.mem_cons, reduceCtorEq, List.not_mem_nil, or_self, imp_false, not_or, not_not] at hside
    exact hs.congr (by simpa using hw.version) (by simpa using hw.mode) hside.1 hside.2

theorem command_pipelineOk {i : Instr} {s t : State} (h : command i s = .ok t) (hs : s.pipelineOk) : t.pipelineOk := by
  by_cases hi : i = .generate
  · subst hi
    exact cmdGenerate_keeps (P := State.pipelineOk) (fun _ _ _ hg _ => command_pipelineOk_of_ne hg)
      (fun _ _ _ _ _ hu => hu.congr rfl rfl rfl rfl) h hs
  · exact command_pipelineOk_of_ne hi h hs

theorem State.softReset_regs (s : State) : s.softReset.regs = Regs.reset := by unfold State.softReset; split <;> rfl

theorem State.softReset_status (s : State) : s.softReset.status = Status.reset := by
  unfold State.softReset; split <;> rfl

theorem State.ranged_softReset (s : State) : s.softReset.ranged := by
  simp [State.ranged, State.sideOk, State.softReset_regs, State.softReset_status, Regs.reset, Status.reset]

/-- Settles O53: a command that succeeds keeps the pipeline registers in range and clears the error flags, an error
leaves the registers and sets the flags, and a host access changes neither but for a soft reset. -/
theorem stepKeepsPipelineRanges : Obligations.StepKeepsPipelineRanges := by
  intro s t hs h
  refine step_keeps (P := State.ranged) (fun _ _ hu => hu)
    (fun i u v hu hc => (command_pipelineOk hc (State.ranged_iff.mp hu).1).complete)
    (fun u e hu => (State.ranged_iff.mp hu).1.raise e) (fun _ _ _ hu => hu) (fun u r d hu => ?_)
    (fun u w r a d _ hu => ?_) hs h
  · obtain ⟨-, -, he⟩ | ⟨f, st, l, he, ⟨hv, hm, hn⟩, hq, herr, hcode⟩ := State.hostWriteReg_cases u r d <;> rw [he]
    · exact u.ranged_softReset
    · obtain ⟨hp, hflags⟩ := State.ranged_iff.mp hu
      exact State.ranged_iff.mpr ⟨hp.congr hv hm hn hq, by simpa only [herr, hcode] using hflags⟩
  · obtain ⟨hp, hflags⟩ := State.ranged_iff.mp hu
    exact State.ranged_iff.mpr
      ⟨hp.congr (by simp [State.hostWriteMem]) (by simp [State.hostWriteMem]) (by simp [State.hostWriteMem])
        (by simp [State.hostWriteMem]), by simpa [State.hostWriteMem] using hflags⟩

end Sys2Proof.Machine
end

section
/-! PROOFS. Host writes to registers, and the register values after reset (10_state R20 to R34, R52, R53). -/

namespace Sys2Proof.Machine

/-! ### Fields of a register word -/

/-- A field of width `n` at bit 0 has no bit that the mask of its bits leaves out. -/
theorem setWidth_and_eq_zero {n : Nat} (x : BitVec n) (w : Word) (h : ∀ i, i < n → w.getLsbD i = false) :
    x.setWidth 32 &&& w = 0#32 := by
  have := Laws.masked_field x 0 w fun i _ hi => h i (by omega)
  simpa [putField] using this

theorem Ctrl.toWord_reserved (c : Ctrl) : c.toWord &&& ~~~regBits .ctrl = 0 := by
  simp only [Ctrl.toWord, Laws.and_or_distrib]
  rw [Laws.masked_field c.eciDesignator 16 _ (by decide), Laws.masked_field c.reqVersion 8 _ (by decide),
    Laws.masked_field (bit c.irqEn) 4 _ (by decide), Laws.masked_field (bit c.eciEn) 3 _ (by decide),
    Laws.masked_field (bit c.forceByte) 2 _ (by decide), Laws.masked_field c.ecc 0 _ (by decide)]
  decide

theorem Status.toWord_reserved (st : Status) : st.toWord &&& ~~~regBits .status = 0 := by
  simp only [Status.toWord, Laws.and_or_distrib]
  rw [Laws.masked_field st.errcode 8 _ (by decide), Laws.masked_field (bit st.qz) 4 _ (by decide),
    Laws.masked_field (bit st.overrun) 3 _ (by decide), Laws.masked_field (bit st.err) 2 _ (by decide),
    Laws.masked_field (bit st.done) 1 _ (by decide), Laws.masked_field (bit st.busy) 0 _ (by decide)]
  decide

theorem ErrInfo.word0_reserved (i : ErrInfo) : i.word0 &&& ~~~regBits .errinfo0 = 0 := by
  simp only [ErrInfo.word0, Laws.and_or_distrib]
  rw [Laws.masked_field i.fixed 8 _ (by decide), Laws.masked_field i.mode 4 _ (by decide),
    Laws.masked_field i.ecc 0 _ (by decide)]
  decide

/-- Reserved bits read 0 (10_state R52). -/
theorem State.readReg_reserved (s : State) (r : Reg) : s.readReg r &&& ~~~regBits r = 0 := by
  cases r with
  | ctrl => exact s.regs.ctrl.toWord_reserved
  | status => exact s.status.toWord_reserved
  | errinfo0 => exact s.regs.errinfo.word0_reserved
  | cmd => exact BitVec.zero_and
  | id | res0 | res1 | res2 | res3 => exact BitVec.and_zero
  | pen m => show s.regs.pen.get m &&& ~~~0xFFFFFFFF#32 = 0#32; exact BitVec.and_zero
  | _ => exact setWidth_and_eq_zero _ _ (by decide)

/-- `CTRL` reads the implemented bits of the word written to it (10_state R22). -/
theorem Ctrl.toWord_ofWord (d : Word) : (Ctrl.ofWord d).toWord = d &&& regBits .ctrl := by
  apply BitVec.eq_of_getLsbD_eq
  intro i hi
  simp only [Ctrl.toWord, Ctrl.ofWord, putField, fieldAt, bit, regBits]
  interval_cases i <;> simp

/-- Cutting a word to `n` bits and reading it back masks it. -/
theorem setWidth_setWidth_eq_and {n : Nat} (d : Word) :
    (d.setWidth n).setWidth 32 = d &&& (BitVec.allOnes n).setWidth 32 := by
  apply BitVec.eq_of_getLsbD_eq
  intro i hi
  by_cases h : i < n <;> simp [h, hi]

/-! ### Host writes to registers -/

theorem hostAccess_write_reg (s : State) (r : Reg) (d : Word) :
    hostAccess (.write .word (BitVec.ofNat 20 (regOffset r)) d) s = .next (s.hostWriteReg r d) := by
  simp [hostAccess, target_regOffset]

theorem step_write_reg {s : State} {r : Reg} {d : Word} {rest : List BusEvent}
    (h : s.bus = .access (.write .word (BitVec.ofNat 20 (regOffset r)) d) :: rest) :
    step s = .next ({ s with bus := rest }.hostWriteReg r d) := by
  simp only [step, nextEvent, h, hostAccess_write_reg]

theorem State.hostWriteReg_readOnly (s : State) {r : Reg} (d : Word) (h : r.readOnly = true) :
    s.hostWriteReg r d = s := by
  cases r with
  | ctrl | cmd | status | arg0 | arg1 | inlen | outlen => cases h
  | _ => rfl

theorem State.hostWriteReg_ctrl (s : State) {d : Word} (h : d.getLsbD 31 = false) :
    s.hostWriteReg .ctrl d = s.setRegs fun r => { r with ctrl := Ctrl.ofWord d } := by
  rw [State.hostWriteReg, State.writeCtrl, h]; rfl

/-- The registers whose bits a host write stores (10_state R22, R32 to R34). -/
def Reg.storing : List Reg := [.ctrl, .arg0, .arg1, .inlen, .outlen]

theorem State.hostWriteReg_eq_setRegs (s : State) {r : Reg} {d : Word} (hr : r ∈ Reg.storing)
    (hd : r = .ctrl → d.getLsbD 31 = false) : ∃ f, s.hostWriteReg r d = s.setRegs f := by
  simp only [Reg.storing, List.mem_cons, List.not_mem_nil, or_false] at hr
  rcases hr with rfl | rfl | rfl | rfl | rfl
  · exact ⟨_, s.hostWriteReg_ctrl (hd rfl)⟩
  all_goals exact ⟨_, by rw [State.hostWriteReg]⟩

theorem State.readReg_hostWriteReg_same (s : State) {r : Reg} {d : Word} (hr : r ∈ Reg.storing)
    (hd : r = .ctrl → d.getLsbD 31 = false) : (s.hostWriteReg r d).readReg r = d &&& regBits r := by
  simp only [Reg.storing, List.mem_cons, List.not_mem_nil, or_false] at hr
  rcases hr with rfl | rfl | rfl | rfl | rfl
  · rw [s.hostWriteReg_ctrl (hd rfl)]; exact Ctrl.toWord_ofWord d
  all_goals exact setWidth_setWidth_eq_and d

theorem State.readReg_hostWriteReg_other (s : State) {r q : Reg} {d : Word} (hr : r ∈ Reg.storing)
    (hd : r = .ctrl → d.getLsbD 31 = false) (hq : q ≠ r) : (s.hostWriteReg r d).readReg q = s.readReg q := by
  simp only [Reg.storing, List.mem_cons, List.not_mem_nil, or_false] at hr
  rcases hr with rfl | rfl | rfl | rfl | rfl
  · rw [s.hostWriteReg_ctrl (hd rfl)]
    cases q with
    | ctrl => exact absurd rfl hq
    | _ => rfl
  · cases q with
    | arg0 => exact absurd rfl hq
    | _ => rfl
  · cases q with
    | arg1 => exact absurd rfl hq
    | _ => rfl
  · cases q with
    | inlen => exact absurd rfl hq
    | _ => rfl
  · cases q with
    | outlen => exact absurd rfl hq
    | _ => rfl

/-- Settles O59: a host write reaches `hostWriteReg`, whose five storing registers keep the implemented bits of the word,
and no register reads a reserved bit. -/
theorem registerWrites : Obligations.RegisterWrites := by
  refine ⟨hostAccess_write_reg, State.readReg_reserved, fun s r d => s.hostWriteReg_readOnly d, fun s r d hr hd => ?_,
    fun _ _ => rfl⟩
  refine ⟨s.readReg_hostWriteReg_same hr hd, fun q => s.readReg_hostWriteReg_other hr hd, ?_⟩
  obtain ⟨f, hf⟩ := s.hostWriteReg_eq_setRegs hr hd
  rw [hf]
  exact ⟨⟨rfl, rfl, rfl, rfl⟩, State.readByte_setRegs s f⟩

/-- Settles O8: the write reaches `CMD`, which starts the command while idle and sets `OVERRUN` while busy. -/
theorem commandStart : Obligations.CommandStart := by
  intro s w rest hbus
  rw [step_write_reg (r := .cmd) hbus]
  constructor <;> intro hb <;> simp only [State.hostWriteReg, State.writeCmd, hb] <;> rfl

/-! ### After reset -/

/-- A state whose registers and flags have their reset values reads them. -/
theorem State.readReg_of_reset {s : State} (hr : s.regs = Regs.reset) (hst : s.status = Status.reset) (r : Reg) :
    s.readReg r = if r = .id then 0x51524301 else 0 := by
  cases r with
  | pen m => simp [State.readReg, hr, Regs.reset, Vector.get_eq_getElem]
  | _ => simp only [State.readReg, hr, hst]; rfl

theorem State.ranged_reset : State.reset.ranged := by
  simp [State.ranged, State.sideOk, State.reset, Regs.reset, Status.reset]

/-- Settles O55: the registers and flags hold their reset values, and no memory lists a byte. -/
theorem resetState : Obligations.ResetState := by
  refine ⟨State.readReg_of_reset rfl rfl, rfl, rfl, reset_memories_wf, State.ranged_reset, fun r c hc => ?_⟩
  have : (State.reset.mem r).cells = [] := by cases r <;> rfl
  simp [this] at hc

end Sys2Proof.Machine
end

section
/-! PROOFS. The lengths of what the commands write into `CWM` and `OUT`. -/

namespace Sys2Proof.Machine

/-! ### Reed-Solomon -/

@[simp] theorem rsEcc_length (d : List Byte) (n : Nat) : (rsEcc d n).length = n := by
  have hfold : ∀ rem : List Byte, rem.length = n → (d.foldl (rsStep (genPoly n).tail) rem).length = n := by
    induction d with
    | nil => exact fun rem h => h
    | cons b d ih => exact fun rem h => ih _ (by rw [rsStep_length _ _ _ (by simp [h])]; simp)
  exact hfold _ (by simp)

/-! ### The packed and the padded stream (43_bitstream R165 to R177) -/

theorem numericField_length (s : List Byte) : (numericField s).length = dbits .numeric s.length := by
  induction s using numericField.induct with
  | case1 a b c rest ih =>
    simp only [numericField, dbits, List.length_append, bitsOf_length, ih, List.length_cons]
    have h1 : (rest.length + 1 + 1 + 1) / 3 = rest.length / 3 + 1 := by omega
    have h2 : (rest.length + 1 + 1 + 1) % 3 = rest.length % 3 := by omega
    simp only [h1, h2]; ring
  | case2 | case3 | case4 => simp [numericField, dbits]

theorem alphanumericField_length (s : List Byte) : (alphanumericField s).length = dbits .alphanumeric s.length := by
  induction s using alphanumericField.induct with
  | case1 a b rest ih =>
    simp only [alphanumericField, dbits, List.length_append, bitsOf_length, ih, List.length_cons]; omega
  | case2 | case3 => simp [alphanumericField, dbits]

theorem dataField_length (m : Mode) (s : List Byte) : (dataField m s).length = dbits m s.length := by
  cases m with
  | numeric => exact numericField_length s
  | alphanumeric => exact alphanumericField_length s
  | byte => exact unpackBits_length s

theorem packedStream_length (b : Bool) (des : BitVec 8) (m : Mode) (v : Nat) (s : List Byte) :
    (packedStream b des m v s).length = need b s.length m v := by
  have hh : (eciHeader b des).length = eciBits b := by cases b <;> rfl
  simp [packedStream, need, hh, dataField_length, Nat.add_assoc]

@[simp] theorem padBytes_length (k : Nat) : (padBytes k).length = k := by simp [padBytes]

theorem padStream_length {stream : List Bool} {d : Nat} (h : stream.length ≤ 8 * d) : (padStream stream d).length = d := by
  simp only [padStream, List.length_append, packBits_length, padBytes_length, List.length_replicate]; omega

theorem streamBits_length (s : State) (n : Nat) : (streamBits s n).length = n := by
  simp only [streamBits, List.length_take, unpackBits_length, State.readBytes_length]; omega

@[simp] theorem State.input_length (s : State) : s.input.length = s.inLen := by simp [State.input]

/-! ### The codeword stream (44_blocks R207, R208) -/

@[simp] theorem cutBy_length (ns : List Nat) (d : List Byte) : (cutBy ns d).length = ns.length := by
  induction ns generalizing d with
  | nil => rfl
  | cons n ns ih => simp [cutBy, ih]

/-- The pieces of a long enough list have the lengths asked for. -/
theorem map_length_cutBy {ns : List Nat} {d : List Byte} (h : ns.sum ≤ d.length) : (cutBy ns d).map List.length = ns := by
  induction ns generalizing d with
  | nil => rfl
  | cons n ns ih =>
    simp only [List.sum_cons] at h
    simp only [cutBy, List.map_cons, List.length_take]
    rw [ih (by rw [List.length_drop]; omega), Nat.min_eq_left (by omega)]

/-- Each list gives as many of its entries as there are columns, or all of them. -/
theorem columnsOf_length (k : Nat) (blocks : List (List Byte)) :
    (columnsOf k blocks).length = (blocks.map fun b => min k b.length).sum := by
  have hcolumn (k : Nat) : (blocks.map fun b => min k b.length).sum + (blocks.filterMap fun b => b[k]?).length =
      (blocks.map fun b => min (k + 1) b.length).sum := by
    induction blocks with
    | nil => rfl
    | cons b bs ih =>
      simp only [List.map_cons, List.sum_cons]
      by_cases hk : k < b.length
      · rw [List.filterMap_cons_some (f := fun b => b[k]?) (List.getElem?_eq_getElem hk), List.length_cons]; omega
      · rw [List.filterMap_cons_none (f := fun b => b[k]?) (List.getElem?_eq_none (by omega))]; omega
  induction k with
  | zero => simp [columnsOf]
  | succ k ih =>
    rw [← hcolumn, ← ih]
    simp [columnsOf, List.range_succ, List.flatMap_append]

/-- As many columns as the longest list has take every entry. -/
theorem columnsOf_length_of_le {k : Nat} {blocks : List (List Byte)} (h : ∀ b ∈ blocks, b.length ≤ k) :
    (columnsOf k blocks).length = (blocks.map List.length).sum := by
  rw [columnsOf_length]
  exact congrArg List.sum (List.map_congr_left fun b hb => Nat.min_eq_right (h b hb))

theorem map_length_splitBlocks {i : EccInfo} {d : List Byte} (h : i.blocks1 * i.cw1 + i.blocks2 * i.cw2 = d.length) :
    (splitBlocks i d).map List.length = List.replicate i.blocks1 i.cw1 ++ List.replicate i.blocks2 i.cw2 :=
  map_length_cutBy (by simp [h])

@[simp] theorem splitBlocks_length (i : EccInfo) (d : List Byte) : (splitBlocks i d).length = i.blocks1 + i.blocks2 := by
  simp [splitBlocks]

/-- The stream holds every data and every ECC codeword once. -/
theorem codewordStream_length {i : EccInfo} {d : List Byte} (h : i.blocks1 * i.cw1 + i.blocks2 * i.cw2 = i.dataCw)
    (hd : d.length = i.dataCw) : (codewordStream i d).length = i.total := by
  have hlen := map_length_splitBlocks (i := i) (d := d) (by rw [h, hd])
  have hdata : ∀ b ∈ splitBlocks i d, b.length ≤ max i.cw1 i.cw2 := by
    intro b hb
    have hm := List.mem_map_of_mem (f := List.length) hb
    rw [hlen, List.mem_append, List.mem_replicate, List.mem_replicate] at hm
    omega
  have hecc : ∀ b ∈ (splitBlocks i d).map fun b => rsEcc b i.eccPerBlock, b.length ≤ i.eccPerBlock := by
    intro b hb
    obtain ⟨c, -, rfl⟩ := List.mem_map.mp hb
    simp
  rw [codewordStream, List.length_append, columnsOf_length_of_le hdata, columnsOf_length_of_le hecc, hlen]
  simp [Function.comp_def, EccInfo.total, h, Nat.mul_comm]

/-- The record of every version splits its data codewords into blocks; outside the table there are none. -/
theorem eccTab_blocks (v : Nat) (e : EccLevel) :
    (eccTab v e).blocks1 * (eccTab v e).cw1 + (eccTab v e).blocks2 * (eccTab v e).cw2 = (eccTab v e).dataCw ∧
      (eccTab v e).total ≤ 3706 := by
  by_cases h : v = 0 ∨ 40 < v
  · rw [eccTab_none h]; decide
  · obtain ⟨hblocks, -, -, htotal, -⟩ := eccTab_spec (v := v) (by omega) (by omega) e
    exact ⟨hblocks, htotal⟩

theorem State.codewordStream_length (s : State) :
    (codewordStream s.eccInfo (s.readBytes .cwm 0 s.eccInfo.dataCw)).length = s.eccInfo.total :=
  Machine.codewordStream_length (eccTab_blocks _ _).1 (State.readBytes_length ..)

/-! ### The binary form (47_output R286) -/

theorem Matrix.square.colours_flatten_length {n : Nat} {g : Matrix} (h : g.square n) : g.colours.flatten.length = n * n := by
  have hrows : g.colours.map List.length = List.replicate n n :=
    List.eq_replicate_iff.mpr ⟨by simp [Matrix.colours, h.1], by simpa [Matrix.colours] using h.2⟩
  simp [List.length_flatten, hrows]

theorem binaryForm_length {n : Nat} {g : Matrix} (h : g.square n) :
    (binaryForm n g.colours).length = 5 + bodyLength n := by
  simp only [binaryForm, List.length_append, packBits_length, h.colours_flatten_length, bodyLength]
  rfl

end Sys2Proof.Machine
end

section
/-! PROOFS. Which modules the commands on a symbol change (45_placement R231 to R233, 46_mask R252, R264). -/

namespace Sys2Proof.Machine

/-! ### Painting modules -/

theorem Matrix.paint_square {n : Nat} {g : Matrix} (h : g.square n) (r c : Nat) (d : Bool) : (g.paint r c d).square n :=
  Matrix.update_square h r c _

theorem Matrix.get_paint_blk {n : Nat} {g : Matrix} (h : g.square n) (r c : Nat) (d : Bool) (y x : Nat) :
    ((g.paint r c d).get y x).blk = (g.get y x).blk := by
  rw [Matrix.paint, Matrix.get_update h]; split <;> rfl

theorem Matrix.get_paint_of_ne {n : Nat} {g : Matrix} (h : g.square n) {r c : Nat} (d : Bool) {y x : Nat}
    (hne : (y, x) ≠ (r, c)) : (g.paint r c d).get y x = g.get y x := by
  rw [Matrix.paint, Matrix.get_update h, if_neg]
  rintro ⟨rfl, rfl, -⟩
  exact hne rfl

/-- Painting a list of modules: the matrix stays square and only listed modules change. -/
theorem Matrix.foldl_paint {n : Nat} (ps : List (Nat × Nat × Bool)) {g : Matrix} (h : g.square n) :
    (ps.foldl (fun g p => g.paint p.1 p.2.1 p.2.2) g).square n ∧
      ∀ r c, (r, c) ∉ ps.map (fun p => (p.1, p.2.1)) →
        (ps.foldl (fun g p => g.paint p.1 p.2.1 p.2.2) g).get r c = g.get r c := by
  induction ps generalizing g with
  | nil => exact ⟨h, fun _ _ _ => rfl⟩
  | cons p ps ih =>
    obtain ⟨hsq, hget⟩ := ih (Matrix.paint_square h p.1 p.2.1 p.2.2)
    refine ⟨hsq, fun r c hrc => ?_⟩
    simp only [List.map_cons, List.mem_cons, not_or] at hrc
    exact (hget r c hrc.2).trans (Matrix.get_paint_of_ne h _ hrc.1)

/-! ### The mask -/

theorem applyMask_square {n : Nat} {g : Matrix} (h : g.square n) (m : BitVec 3) : (applyMask m g).square n := by
  refine ⟨by simp [applyMask, h.1], fun row hr => ?_⟩
  obtain ⟨i, hi, rfl⟩ := List.mem_iff_getElem.mp hr
  simpa [applyMask] using h.2 _ (List.getElem_mem (by simpa [applyMask] using hi))

theorem applyMask_get {n : Nat} {g : Matrix} (h : g.square n) (m : BitVec 3) {r c : Nat} (hr : r < n) (hc : c < n) :
    (applyMask m g).get r c = maskModule m r c (g.get r c) := by
  have hl : r < g.length := by rw [h.1]; exact hr
  have hw : c < g[r].length := by rw [h.2 _ (List.getElem_mem hl)]; exact hc
  simp [applyMask, Matrix.get, List.getD_eq_getElem?_getD, hl, hw]

/-- A mask leaves a blocked module. -/
theorem maskModule_of_blk {m : BitVec 3} {r c : Nat} {x : Module} (h : x.blk = true) : maskModule m r c x = x := by
  simp [maskModule, h]

/-! ### The zig-zag scan -/

/-- The scan keeps every `blk` bit and changes at most the first unblocked positions, one for each bit. -/
theorem foldl_scanVisit {n : Nat} (ps : List (Nat × Nat)) {t : Scan} (h : t.matrix.square n) :
    (ps.foldl scanVisit t).matrix.square n ∧
      ∀ r c, (r, c) ∉ (unblockedOf t.matrix ps).take t.bits.length →
        (ps.foldl scanVisit t).matrix.get r c = t.matrix.get r c := by
  induction ps generalizing t with
  | nil => exact ⟨h, fun _ _ _ => rfl⟩
  | cons p ps ih =>
    rw [List.foldl_cons]
    cases hb : (t.matrix.get p.1 p.2).blk with
    | true =>
      have hv : scanVisit t p = t := by simp [scanVisit, hb]
      have hu : unblockedOf t.matrix (p :: ps) = unblockedOf t.matrix ps := by simp [unblockedOf, hb]
      rw [hv, hu]; exact ih h
    | false =>
      have hu : unblockedOf t.matrix (p :: ps) = p :: unblockedOf t.matrix ps := by simp [unblockedOf, hb]
      cases hbits : t.bits with
      | nil =>
        have hv : scanVisit t p = { t with met := t.met + 1 } := by simp [scanVisit, hb, hbits]
        rw [hv]
        obtain ⟨hsq, hget⟩ := ih (t := { t with met := t.met + 1 }) h
        exact ⟨hsq, fun r c _ => hget r c (by simp [hbits])⟩
      | cons b bs =>
        have hv : scanVisit t p = { matrix := t.matrix.paint p.1 p.2 b, bits := bs, met := t.met + 1 } := by
          simp [scanVisit, hb, hbits]
        have hblk : unblockedOf (t.matrix.paint p.1 p.2 b) ps = unblockedOf t.matrix ps := by
          simp [unblockedOf, Matrix.get_paint_blk h]
        obtain ⟨hsq, hget⟩ := ih (t := scanVisit t p) (by rw [hv]; exact Matrix.paint_square h _ _ _)
        refine ⟨hsq, fun r c hrc => ?_⟩
        rw [hu, List.length_cons, List.take_succ_cons, List.mem_cons, not_or] at hrc
        rw [hget r c (by rw [hv]; simpa only [hblk] using hrc.2), hv]
        exact Matrix.get_paint_of_ne h b hrc.1

/-! ### Writing a matrix back -/

/-- A byte of `MTX` that writing a matrix changes is the byte of a module in which it differs from the matrix held. -/
theorem State.module_of_writeMatrix_ne {s : State} {n : Nat} {g : Matrix} (h : g.square n) (hn : n ≤ 256) {x : Nat}
    (hx : (s.writeMatrix g).readByte .mtx x ≠ s.readByte .mtx x) :
    ∃ r c, r < n ∧ c < n ∧ x = moduleOffset r c ∧ g.get r c ≠ (s.matrix n).get r c := by
  have hdiv : 256 * (x / 256) + x % 256 = x := Nat.div_add_mod x 256
  have hmod : x % 256 < 256 := Nat.mod_lt _ (by decide)
  rw [← hdiv, State.readByte_writeMatrix s h hn hmod] at hx
  split at hx
  · rename_i hin
    refine ⟨x / 256, x % 256, hin.1, hin.2, hdiv.symm, fun hg => hx ?_⟩
    rw [hg, State.matrix_get s hin.1 hin.2, State.readByte_mtx_eq]
  · exact absurd rfl hx

end Sys2Proof.Machine
end

section
/-! PROOFS. The bytes a command writes take in every byte it changes, and the soft reset changes no other (10_state R28,
70_reset_and_hazards R341; log 8). -/

namespace Sys2Proof.Machine

/-! ### Changes within a list of spans -/

/-- Every byte that differs lies in one of the spans. -/
def ChangesWithin (ps : List Span) (s t : State) : Prop :=
  ∀ (q : Region) (x : Nat), x < memSize q → t.readByte q x ≠ s.readByte q x →
    ∃ p ∈ ps, q = p.1 ∧ p.2.1 ≤ x ∧ x < p.2.1 + p.2.2

theorem ChangesWithin.of_same {ps : List Span} {s t : State} (h : ∀ q x, t.readByte q x = s.readByte q x) :
    ChangesWithin ps s t := fun q x _ hne => absurd (h q x) hne

theorem ChangesWithin.of_writeBytes {s t : State} {r : Region} {a n : Nat} {bs : List Byte} (hn : bs.length = n)
    (h : ∀ q x, t.readByte q x = (s.writeBytes r a bs).readByte q x) : ChangesWithin [(r, a, n)] s t := by
  intro q x _ hne
  rw [h] at hne
  refine ⟨_, List.mem_singleton_self _, Decidable.by_contra fun hout => hne ?_⟩
  refine State.readByte_writeBytes_outside _ _ _ _ _ _ ?_
  simpa only [not_and_or, not_le, not_lt, hn] using hout

/-- Outside the one span nothing differs. -/
theorem ChangesWithin.eq_outside {s t : State} {r : Region} {a n : Nat} (h : ChangesWithin [(r, a, n)] s t) {x : Nat}
    (hx : x < memSize r) (hout : x < a ∨ a + n ≤ x) : t.readByte r x = s.readByte r x := by
  by_contra hne
  obtain ⟨p, hp, -, h1, h2⟩ := h r x hx hne
  rw [List.mem_singleton] at hp
  subst hp
  simp only at h1 h2
  omega

theorem ChangesWithin.of_writeMatrix {s t : State} {n : Nat} {g : Matrix} {ps : List (Nat × Nat)} (hg : g.square n)
    (hn : n ≤ 256) (h : ∀ q x, t.readByte q x = (s.writeMatrix g).readByte q x)
    (hps : ∀ r c, r < n → c < n → (r, c) ∉ ps → g.get r c = (s.matrix n).get r c) :
    ChangesWithin (moduleSpans ps) s t := by
  intro q x _ hne
  rw [h] at hne
  by_cases hq : q = .mtx
  · subst hq
    obtain ⟨r, c, hr, hc, rfl, hgne⟩ := State.module_of_writeMatrix_ne hg hn hne
    have hmem : (r, c) ∈ ps := Decidable.by_contra fun hm => hgne (hps r c hr hc hm)
    exact ⟨_, List.mem_map_of_mem hmem, rfl, le_rfl, Nat.lt_succ_self _⟩
  · exact absurd (State.readByte_writeMatrix_other s g hq x) hne

/-- A command that is no writer of the other memories changes bytes of `MTX` only. -/
theorem ChangesWithin.wholeMtx {i : Instr} {s t : State} (h : NamedWrites i s t)
    (hi : i ∈ [.placeFunction, .quietZone, .deserialize]) : ChangesWithin [wholeMtx] s t := by
  intro q x hx hne
  cases q with
  | mtx => exact ⟨_, List.mem_singleton_self _, rfl, Nat.zero_le _, by simpa [memSize, Machine.wholeMtx] using hx⟩
  | inp => exact absurd (h.inp x) hne
  | out => have := h.out x hne; simp_all
  | cwm => have := h.cwm x hne; aesop

/-! ### Each command -/

theorem State.side_le (s : State) : s.regs.side.toNat ≤ 256 := by omega

theorem mem_pairs {n r c : Nat} (hr : r < n) (hc : c < n) : (r, c) ∈ pairs (List.range n) (List.range n) := by
  simp [pairs, hr, hc]

theorem cmdPack_changesWithin {s t : State} (h : cmdPack s = .ok t) :
    ChangesWithin [(.cwm, 0, (t.regs.bitlen.toNat + 7) / 8)] s t ∧ t.regs.bitlen.toNat ≤ 8 * s.eccInfo.dataCw := by
  obtain ⟨-, -, m, -, -, -, hfit, rfl⟩ := cmdPack_eq_ok.mp h
  have hd : s.eccInfo.dataCw ≤ 2956 := eccTab_dataCw_le _ _
  have hlen : (BitVec.ofNat 16 (need s.latch.ctrl.eciEn s.inLen m s.ver)).toNat = need s.latch.ctrl.eciEn s.inLen m s.ver :=
    (BitVec.toNat_ofNat _ _).trans (Nat.mod_eq_of_lt (by omega))
  refine ⟨.of_writeBytes ?_ (State.readByte_setRegs _ _), ?_⟩
  · simp only [State.setRegs_regs, hlen, packBits_length, packedStream_length, State.input_length]
  · simpa only [State.setRegs_regs, hlen] using hfit

theorem cmdPad_changesWithin {s t : State} (h : cmdPad s = .ok t) :
    ChangesWithin [(.cwm, 0, s.eccInfo.dataCw)] s t ∧ t.regs.dcw.toNat = s.eccInfo.dataCw := by
  obtain ⟨-, hfit, rfl⟩ := cmdPad_eq_ok.mp h
  have hd : s.eccInfo.dataCw ≤ 2956 := eccTab_dataCw_le _ _
  refine ⟨.of_writeBytes (padStream_length (by rwa [streamBits_length])) (State.readByte_setRegs _ _), ?_⟩
  exact (BitVec.toNat_ofNat _ _).trans (Nat.mod_eq_of_lt (by omega))

theorem cmdInterleave_changesWithin {s t : State} (h : cmdInterleave s = .ok t) :
    ChangesWithin [(.cwm, streamBase, t.regs.totcw.toNat)] s t := by
  obtain ⟨-, rfl⟩ := cmdInterleave_eq_ok.mp h
  refine .of_writeBytes ?_ (State.readByte_setRegs _ _)
  have htot : s.eccInfo.total ≤ 3706 := (eccTab_blocks _ _).2
  have hlen := s.codewordStream_length
  rw [State.setRegs_regs, BitVec.toNat_ofNat, Nat.mod_eq_of_lt (by omega)]

theorem cmdPlaceData_changesWithin {s t : State} (h : cmdPlaceData s = .ok t) :
    ChangesWithin (writtenBy .placeData s t) s t := by
  obtain ⟨-, -, rfl⟩ := cmdPlaceData_eq_ok.mp h
  obtain ⟨hsq, hget⟩ := foldl_scanVisit (scanOrder s.regs.side.toNat)
    (t := { matrix := s.matrix s.regs.side.toNat, bits := dataBits s, met := 0 }) (s.matrix_square _)
  exact .of_writeMatrix hsq s.side_le (State.readByte_setRegs _ _) fun r c _ _ => hget r c

theorem cmdMaskApply_changesWithin {m : BitVec 3} {s t : State} (h : cmdMaskApply m s = .ok t) :
    ChangesWithin (writtenBy (.maskApply m) s t) s t := by
  obtain ⟨-, rfl⟩ := cmdMaskApply_eq_ok.mp h
  have hsq := s.matrix_square s.regs.side.toNat
  refine .of_writeMatrix (applyMask_square hsq m) s.side_le (State.readByte_setRegs _ _) fun r c hr hc hm => ?_
  rw [applyMask_get hsq m hr hc]
  refine maskModule_of_blk (Bool.eq_true_of_not_eq_false fun hb => hm ?_)
  exact List.mem_filter.mpr ⟨mem_pairs hr hc, by simp [hb]⟩

theorem cmdWriteInfo_changesWithin {m : BitVec 3} {s t : State} (h : cmdWriteInfo m s = .ok t) :
    ChangesWithin (writtenBy (.writeInfo m) s t) s t := by
  obtain ⟨-, rfl⟩ := cmdWriteInfo_eq_ok.mp h
  obtain ⟨hsq, hget⟩ := Matrix.foldl_paint (infoCells s.regs.version s.regs.side.toNat s.latch.ctrl.ecc m)
    (s.matrix_square s.regs.side.toNat)
  exact .of_writeMatrix hsq s.side_le (State.readByte_setRegs _ _) fun r c _ _ => hget r c

/-! ### GENERATE -/

/-- `DCW`, `TOTCW` and the bytes of `CWM` are as before. -/
def KeepsStream (s t : State) : Prop :=
  t.regs.dcw = s.regs.dcw ∧ t.regs.totcw = s.regs.totcw ∧ ∀ x, t.readByte .cwm x = s.readByte .cwm x

theorem KeepsStream.trans {s t u : State} (h : KeepsStream s t) (k : KeepsStream t u) : KeepsStream s u :=
  ⟨k.1.trans h.1, k.2.1.trans h.2.1, fun x => (k.2.2 x).trans (h.2.2 x)⟩

/-- A command of the symbol keeps the codewords. -/
theorem NamedWrites.keepsStream {i : Instr} {s t : State} (h : NamedWrites i s t)
    (hi : i ∈ [.placeFunction, .placeData, .maskEval, .quietZone] ∨ (∃ m, i = .maskApply m) ∨ ∃ m, i = .writeInfo m) :
    KeepsStream s t := by
  have hdcw := h.dcw
  have hstream := h.stream
  have hcwm := h.cwm
  simp only [List.mem_cons, List.not_mem_nil, or_false] at hi
  rcases hi with (rfl | rfl | rfl | rfl) | ⟨m, rfl⟩ | ⟨m, rfl⟩ <;>
    exact ⟨by simpa using hdcw, (by simpa using hstream : _ ∧ _).1, by simpa using hcwm⟩

theorem State.eccInfo_congr {s t : State} (hv : t.regs.version = s.regs.version) (hl : t.latch = s.latch) :
    t.eccInfo = s.eccInfo := by
  rw [State.eccInfo, State.eccInfo, State.ver, State.ver, State.level, State.level, hv, hl]

/-- Packing and padding change the `DCW` data codewords. -/
theorem cmdPack_cmdPad_eq_outside {s t u : State} (hpack : cmdPack s = .ok t) (hpad : cmdPad t = .ok u) {x : Nat}
    (hx : x < memSize .cwm) (hout : u.regs.dcw.toNat ≤ x) : u.readByte .cwm x = s.readByte .cwm x := by
  obtain ⟨ht, hfit⟩ := cmdPack_changesWithin hpack
  obtain ⟨hu, hdcw⟩ := cmdPad_changesWithin hpad
  have hw := command_namedWrites (i := .pack) hpack
  have hinfo : t.eccInfo = s.eccInfo := State.eccInfo_congr (by simpa using hw.version) hw.latch
  rw [hu.eq_outside hx (by omega), ht.eq_outside hx (by rw [← hinfo] at hfit; omega)]

/-- The commands of the pipeline behind INTERLEAVE keep the codewords and their counts. -/
theorem generate_symbol_keepsStream {m : BitVec 3} {s₅ s₆ s₇ s₈ s₉ s₁₀ s₁₁ : State} (h₆ : cmdPlaceFunction s₅ = .ok s₆)
    (h₇ : cmdPlaceData s₆ = .ok s₇) (h₈ : cmdMaskEval s₇ = .ok s₈) (h₉ : cmdMaskApply m s₈ = .ok s₉)
    (h₁₀ : cmdWriteInfo m s₉ = .ok s₁₀) (h₁₁ : cmdQuietZone s₁₀ = .ok s₁₁) : KeepsStream s₅ s₁₁ := by
  have k₆ := (command_namedWrites (i := .placeFunction) h₆).keepsStream (by simp)
  have k₇ := (command_namedWrites (i := .placeData) h₇).keepsStream (by simp)
  have k₈ := (command_namedWrites (i := .maskEval) h₈).keepsStream (by simp)
  have k₉ := (command_namedWrites (i := .maskApply m) h₉).keepsStream (by simp)
  have k₁₀ := (command_namedWrites (i := .writeInfo m) h₁₀).keepsStream (by simp)
  have k₁₁ := (command_namedWrites (i := .quietZone) h₁₁).keepsStream (by simp)
  exact k₆.trans (k₇.trans (k₈.trans (k₉.trans (k₁₀.trans k₁₁))))

/-- GENERATE changes no byte of `CWM` but its data codewords and its codeword stream. -/
theorem cmdGenerate_cwm_eq_outside {s t : State} (h : cmdGenerate s = .ok t) {x : Nat} (hx : x < memSize .cwm)
    (hdata : t.regs.dcw.toNat ≤ x) (hstream : x < streamBase ∨ streamBase + t.regs.totcw.toNat ≤ x) :
    t.readByte .cwm x = s.readByte .cwm x := by
  obtain ⟨s₁, s₂, s₃, s₄, s₅, s₆, s₇, s₈, s₉, s₁₀, s₁₁, h₁, h₂, h₃, h₄, h₅, h₆, h₇, h₈, h₉, h₁₀, h₁₁, rfl⟩ :=
    cmdGenerate_ok h
  obtain ⟨hdcw, htotcw, hcwm⟩ := generate_symbol_keepsStream h₆ h₇ h₈ h₉ h₁₀ h₁₁
  simp only [State.withRes_regs, hdcw, htotcw] at hdata hstream
  have hdcw₅ : s₅.regs.dcw = s₄.regs.dcw := by simpa using (command_namedWrites (i := .interleave) h₅).dcw
  have e₁ : s₁.readByte .cwm x = s.readByte .cwm x := by
    simpa using (command_namedWrites (i := .modeSelect) h₁).cwm x
  have e₂ : s₂.readByte .cwm x = s₁.readByte .cwm x := by
    simpa using (command_namedWrites (i := .versionSelect) h₂).cwm x
  calc (s₁₁.withRes _ _ _ _).readByte .cwm x
      = s₅.readByte .cwm x := by rw [State.readByte_withRes, hcwm]
    _ = s₄.readByte .cwm x := (cmdInterleave_changesWithin h₅).eq_outside hx hstream
    _ = s₂.readByte .cwm x := cmdPack_cmdPad_eq_outside h₃ h₄ hx (by rwa [hdcw₅] at hdata)
    _ = s.readByte .cwm x := e₂.trans e₁

theorem cmdGenerate_changesWithin {s t : State} (h : cmdGenerate s = .ok t) :
    ChangesWithin (writtenBy .generate s t) s t := by
  have hk := cmdGenerate_keepsHostData h
  intro q x hx hne
  cases q with
  | inp => exact absurd (hk.inp x) hne
  | out => exact absurd (hk.out x) hne
  | mtx => exact ⟨wholeMtx, by simp [writtenBy], rfl, Nat.zero_le _, by simpa [memSize, wholeMtx] using hx⟩
  | cwm =>
    by_cases hdata : x < t.regs.dcw.toNat
    · exact ⟨(.cwm, 0, t.regs.dcw.toNat), by simp [writtenBy], rfl, Nat.zero_le _, by simpa using hdata⟩
    · by_cases hstream : streamBase ≤ x ∧ x < streamBase + t.regs.totcw.toNat
      · exact ⟨(.cwm, streamBase, t.regs.totcw.toNat), by simp [writtenBy], rfl, hstream⟩
      · exact absurd (cmdGenerate_cwm_eq_outside h hx (by omega) (by omega)) hne

/-- Every byte a command changes is one its rule writes (log 8). -/
theorem command_changesWithin {i : Instr} {s t : State} (h : command i s = .ok t) :
    ChangesWithin (writtenBy i s t) s t := by
  have hw := command_namedWrites h
  cases i with
  | nop | gfExp | gfLog | gfMul | gfDiv | bchFormat | bchVersion | queryEcc | queryCap | queryAlign =>
    obtain ⟨_, _, _, _, rfl⟩ := command_of_writesResultsOnly rfl h
    exact .of_same (State.readByte_withRes _ _ _ _ _)
  | modeSelect => obtain ⟨-, rfl⟩ := cmdModeSelect_eq_ok.mp h; exact .of_same (State.readByte_setRegs _ _)
  | versionSelect =>
    obtain ⟨-, -, -, _, _, -, -, rfl⟩ := cmdVersionSelect_eq_ok.mp h; exact .of_same (State.readByte_setRegs _ _)
  | maskScore => obtain ⟨-, rfl⟩ := cmdMaskScore_eq_ok.mp h; exact .of_same (State.readByte_setRegs _ _)
  | maskEval => obtain ⟨-, rfl⟩ := cmdMaskEval_eq_ok.mp h; exact .of_same (State.readByte_setRegs _ _)
  | rsGenpoly =>
    obtain ⟨-, -, rfl⟩ := cmdRsGenpoly_eq_ok.mp h
    exact .of_writeBytes (genPoly_length _) (State.readByte_withRes0 _ _)
  | rsEncode =>
    obtain ⟨-, -, -, rfl⟩ := cmdRsEncode_eq_ok.mp h
    exact .of_writeBytes (rsEcc_length _ _) (State.readByte_withRes0 _ _)
  | pack => exact (cmdPack_changesWithin h).1
  | pad => exact (cmdPad_changesWithin h).1
  | interleave => exact cmdInterleave_changesWithin h
  | placeFunction | quietZone | deserialize => exact .wholeMtx hw (by simp)
  | placeData => exact cmdPlaceData_changesWithin h
  | maskApply => exact cmdMaskApply_changesWithin h
  | writeInfo => exact cmdWriteInfo_changesWithin h
  | serialize =>
    obtain ⟨-, rfl⟩ := cmdSerialize_eq_ok.mp h
    exact .of_writeBytes (binaryForm_length (s.matrix_square _)) (State.readByte_setRegs _ _)
  | generate => exact cmdGenerate_changesWithin h

theorem State.footprint_eq {i : Instr} {s t : State} (hd : decode s.latch.word = .ok i) (hc : command i s = .ok t) :
    s.footprint = writtenBy i s t := by
  simp only [State.footprint, hd, hc]

/-- Every byte a running command changes lies in its footprint. -/
theorem exec_changesWithin {i : Instr} {s t : State} (hd : decode s.latch.word = .ok i) (h : exec i s = .next t) :
    ChangesWithin s.footprint s t := by
  obtain ⟨u, hc, rfl⟩ | ⟨e, -, rfl⟩ := exec_cases h
  · rw [State.footprint_eq hd hc]
    intro q x hx hne
    exact command_changesWithin hc q x hx (by simpa using hne)
  · exact .of_same (State.readByte_raise s e)

/-! ### The soft reset -/

theorem State.softReset_bus (s : State) : s.softReset.bus = s.bus := by
  have hfold : ∀ (ps : List Span) (u : State), (ps.foldl State.forget u).bus = u.bus := by
    intro ps
    induction ps with
    | nil => exact fun _ => rfl
    | cons p ps ih => exact fun u => (ih _).trans (State.writeBytes_bus ..)
  unfold State.softReset
  split
  · exact hfold s.footprint s
  · rfl

theorem State.readByte_softReset_idle {s : State} (h : s.status.busy = false) (q : Region) (x : Nat) :
    s.softReset.readByte q x = s.readByte q x := by
  rw [State.softReset, h]; cases q <;> rfl

/-- Forgetting spans leaves every byte outside them. -/
theorem State.readByte_foldl_forget (ps : List Span) (s : State) {q : Region} {x : Nat}
    (h : ∀ p ∈ ps, q ≠ p.1 ∨ x < p.2.1 ∨ p.2.1 + p.2.2 ≤ x) :
    (ps.foldl State.forget s).readByte q x = s.readByte q x := by
  induction ps generalizing s with
  | nil => rfl
  | cons p ps ih =>
    rw [List.foldl_cons, ih _ fun p' hp => h p' (List.mem_cons_of_mem _ hp)]
    exact State.readByte_writeBytes_outside _ _ _ _ _ _ (by simpa using h p List.mem_cons_self)

theorem State.readByte_softReset_busy {s : State} (hb : s.status.busy = true) {q : Region} {x : Nat}
    (h : ∀ p ∈ s.footprint, q ≠ p.1 ∨ x < p.2.1 ∨ p.2.1 + p.2.2 ≤ x) :
    s.softReset.readByte q x = s.readByte q x := by
  rw [← State.readByte_foldl_forget s.footprint s h, State.softReset, hb]; cases q <;> rfl

/-- Settles O60: a soft reset forgets the footprint only, and the footprint takes in every byte the command changes. -/
theorem softResetKeepsOtherBytes : Obligations.SoftResetKeepsOtherBytes := by
  refine ⟨fun s d hd => ⟨s.softReset, ?_, ?_, s.softReset_status, s.softReset_bus, ?_, ?_⟩, ?_⟩
  · rw [show (0x00004 : BitVec 20) = BitVec.ofNat 20 (regOffset .ctrl) from rfl, hostAccess_write_reg]
    rw [State.hostWriteReg, State.writeCtrl, if_pos hd]
  · exact State.readReg_of_reset s.softReset_regs s.softReset_status
  · exact State.readByte_softReset_idle
  · exact fun hb q x => State.readByte_softReset_busy hb
  · exact fun s t i _ hdec h => exec_changesWithin hdec h

end Sys2Proof.Machine
end

section
/-! PROOFS. The matrices the commands write into `MTX` are square (45_placement R220 to R230, 47_output R280, R289). -/

namespace Sys2Proof.Machine

/-! ### The function matrix -/

theorem Matrix.place_square {n : Nat} {g : Matrix} (h : g.square n) (r c : Nat) (d : Bool) : (g.place r c d).square n :=
  Matrix.update_square h r c _

theorem reserveAll_square {n : Nat} {g : Matrix} (h : g.square n) (ps : List (Nat × Nat)) :
    (reserveAll g ps).square n :=
  List.foldlRecOn ps _ h fun _ hg _ _ => Matrix.update_square hg _ _ _

theorem placeFinder_square {n : Nat} {g : Matrix} (h : g.square n) (r c : Nat) : (placeFinder g r c).square n :=
  List.foldlRecOn _ _ h fun _ hg _ _ => Matrix.place_square hg _ _ _

theorem placeAlignment_square {n : Nat} {g : Matrix} (h : g.square n) (r c : Nat) :
    (placeAlignment g r c).square n := by
  unfold placeAlignment
  split
  · exact h
  · exact List.foldlRecOn _ _ h fun _ hg _ _ => Matrix.place_square hg _ _ _

theorem placeTiming_square {n : Nat} {g : Matrix} (h : g.square n) (r c i : Nat) : (placeTiming g r c i).square n := by
  unfold placeTiming
  split
  · exact h
  · exact Matrix.place_square h _ _ _

theorem stepAlignment_square {n : Nat} {g : Matrix} (h : g.square n) (v : Nat) : (stepAlignment v g).square n :=
  List.foldlRecOn _ _ h fun _ hg _ _ => placeAlignment_square hg _ _

theorem stepTiming_square {n : Nat} {g : Matrix} (h : g.square n) : (stepTiming n g).square n :=
  List.foldlRecOn _ _ h fun _ hg _ _ => placeTiming_square (placeTiming_square hg _ _ _) _ _ _

theorem stepVersionAreas_square {n : Nat} {g : Matrix} (h : g.square n) (v : Nat) :
    (stepVersionAreas v n g).square n := by
  unfold stepVersionAreas
  split
  · exact reserveAll_square h _
  · exact h

theorem functionMatrix_square (v : Nat) : (functionMatrix v).square (side v) := by
  have hfinders : (stepFinders (side v) (Matrix.blank (side v))).square (side v) :=
    placeFinder_square (placeFinder_square (placeFinder_square (Matrix.blank_square _) _ _) _ _) _ _
  have hseparators : (stepSeparators (side v) (stepFinders (side v) (Matrix.blank (side v)))).square (side v) :=
    reserveAll_square hfinders _
  have htiming := stepTiming_square (stepAlignment_square hseparators v)
  exact stepVersionAreas_square (reserveAll_square (Matrix.place_square htiming _ _ _) _) v

/-! ### The placed data, the quiet zone and the deserialized matrix -/

theorem placeBits_square {n : Nat} {g : Matrix} (h : g.square n) (bits : List Bool) :
    (placeBits n g bits).matrix.square n :=
  (foldl_scanVisit (scanOrder n) (t := { matrix := g, bits := bits, met := 0 }) h).1

theorem writeInfo_square {n : Nat} {g : Matrix} (h : g.square n) (v : BitVec 6) (e : BitVec 2) (m : BitVec 3) :
    (writeInfo v n e m g).square n := (Matrix.foldl_paint _ h).1

theorem Matrix.ofColours_square {n : Nat} {p : List (List Bool)} (hp : p.length = n)
    (hrow : ∀ row ∈ p, row.length = n) : (Matrix.ofColours p).square n :=
  ⟨by simp [Matrix.ofColours, hp], by simpa [Matrix.ofColours] using hrow⟩

theorem quietZone_square {n : Nat} {g : Matrix} (h : g.square n) :
    (Matrix.ofColours (quietZone n g.colours)).square (n + 8) := by
  refine Matrix.ofColours_square (by simp [quietZone, Matrix.colours, h.1]) fun row hrow => ?_
  simp only [quietZone, Matrix.colours, List.mem_append, List.mem_replicate, List.map_map, List.mem_map] at hrow
  obtain (⟨-, rfl⟩ | ⟨row, hg, rfl⟩) | ⟨-, rfl⟩ := hrow
  · simp
  · simp [h.2 row hg]
  · simp

@[simp] theorem rowsOf_length (n k : Nat) (bs : List Bool) : (rowsOf n k bs).length = k := by
  induction k generalizing bs with
  | zero => rfl
  | succ k ih => simp [rowsOf, ih]

theorem length_of_mem_rowsOf {n k : Nat} {bs row : List Bool} (h : k * n ≤ bs.length) (hrow : row ∈ rowsOf n k bs) :
    row.length = n := by
  induction k generalizing bs with
  | zero => cases hrow
  | succ k ih =>
    rw [Nat.succ_mul] at h
    obtain rfl | hrow := List.mem_cons.mp hrow
    · rw [List.length_take]; omega
    · exact ih (by rw [List.length_drop]; omega) hrow

/-- The body of the binary form holds all rows (47_output R286). -/
theorem rowsOf_square {n : Nat} {bytes : List Byte} (h : bytes.length = bodyLength n) :
    (Matrix.ofColours (rowsOf n n (unpackBits bytes))).square n :=
  Matrix.ofColours_square (rowsOf_length ..) fun _ hrow =>
    length_of_mem_rowsOf (by rw [unpackBits_length, h, bodyLength]; omega) hrow

end Sys2Proof.Machine
end

section
/-! PROOFS. Every step keeps every listed byte inside its memory and `MTX` within its implemented bits (20_memory R60,
10_state R48). -/

namespace Sys2Proof.Machine

/-! ### The operations on memories -/

theorem mem_of_mem_cellsOf {bl : Blank} {a : Nat} {bs : List Byte} {c : Host.Cell} (h : c ∈ cellsOf bl a bs) :
    c.2 ∈ bs := by
  induction bs generalizing a with
  | nil => cases h
  | cons b bs ih =>
    unfold cellsOf at h
    split at h
    · exact List.mem_cons_of_mem _ (ih h)
    · obtain rfl | h := List.mem_cons.mp h
      · exact List.mem_cons_self
      · exact List.mem_cons_of_mem _ (ih h)

theorem Memory.mem_cells_write {m : Memory} {a : Nat} {bs : List Byte} {c : Host.Cell} (h : c ∈ (m.write a bs).cells) :
    c ∈ m.cells ∨ c.1 < a + bs.length ∧ c.2 ∈ bs := by
  simp only [Memory.write, List.mem_append, List.mem_filter] at h
  obtain (⟨h, -⟩ | h) | ⟨h, -⟩ := h
  · exact .inl h
  · exact .inr ⟨(cellsOf_range _ _ _ h).2, mem_of_mem_cellsOf h⟩
  · exact .inl h

/-- Boundedness speaks of the memories only. -/
theorem State.bounded.congr {s t : State} (hs : s.bounded) (h : ∀ r, t.mem r = s.mem r) : t.bounded :=
  fun r => (h r).symm ▸ hs r

/-- Writing bytes inside a memory keeps the bounds: the bytes are cut to the implemented bits. -/
theorem State.bounded.writeBytes {s : State} (hs : s.bounded) {r : Region} {a : Nat} {bs : List Byte}
    (h : a + bs.length ≤ memSize r) : (s.writeBytes r a bs).bounded := by
  intro q c hc
  by_cases hq : q = r
  · subst hq
    rw [State.mem_writeBytes_same] at hc
    obtain hc | ⟨hlt, hmem⟩ := Memory.mem_cells_write hc
    · exact hs q c hc
    · obtain ⟨b, -, hb⟩ := List.mem_map.mp hmem
      rw [List.length_map] at hlt
      exact ⟨by omega, by simp [← hb, BitVec.and_assoc]⟩
  · rw [State.mem_writeBytes_other _ _ _ hq] at hc
    exact hs q c hc

theorem State.bounded.clearMem {s : State} (hs : s.bounded) (r : Region) : (s.clearMem r).bounded := by
  intro q c hc
  by_cases hq : q = r
  · subst hq
    rw [State.mem_clearMem_same] at hc
    cases hc
  · rw [State.mem_clearMem_other _ hq] at hc
    exact hs q c hc

theorem State.bounded.writeRows {s : State} (hs : s.bounded) {r : Nat} {g : Matrix} (hr : r + g.length ≤ 256)
    (hrow : ∀ row ∈ g, row.length ≤ 256) : (s.writeRows r g).bounded := by
  induction g generalizing s r with
  | nil => exact hs
  | cons row rows ih =>
    rw [List.length_cons] at hr
    have hlen := hrow row List.mem_cons_self
    refine ih (hs.writeBytes ?_) (by omega) fun row' h => hrow row' (List.mem_cons_of_mem _ h)
    simp only [moduleOffset, List.length_map, memSize]; omega

theorem State.bounded.writeMatrix {s : State} (hs : s.bounded) {n : Nat} {g : Matrix} (hg : g.square n) (hn : n ≤ 256) :
    (s.writeMatrix g).bounded :=
  hs.writeRows (by rw [hg.1]; omega) fun row hr => by rwa [hg.2 row hr]

@[simp] theorem State.bounded_setRegs {s : State} {f : Regs → Regs} : (s.setRegs f).bounded ↔ s.bounded := by
  simp [State.bounded]

@[simp] theorem State.bounded_setQz {s : State} {b : Bool} : (s.setQz b).bounded ↔ s.bounded := by
  simp [State.bounded]

@[simp] theorem State.bounded_withRes0 {s : State} {v : Nat} : (s.withRes0 v).bounded ↔ s.bounded := by
  simp [State.bounded]

@[simp] theorem State.bounded_withRes {s : State} {a b c d : Nat} : (s.withRes a b c d).bounded ↔ s.bounded := by
  simp [State.bounded]

/-! ### The commands -/

/-- The binary form of the greatest side `SIDE` can hold fits `OUT`. -/
theorem bodyLength_le {n : Nat} (h : n ≤ 255) : 5 + bodyLength n ≤ memSize .out := by
  have : n * n ≤ 255 * 255 := Nat.mul_le_mul h h
  simp only [bodyLength, memSize]; omega

theorem cmdPack_bounded {s t : State} (h : cmdPack s = .ok t) (hs : s.bounded) : t.bounded := by
  obtain ⟨-, -, m, -, -, -, hfit, rfl⟩ := cmdPack_eq_ok.mp h
  have hd : s.eccInfo.dataCw ≤ 2956 := eccTab_dataCw_le _ _
  refine State.bounded_setRegs.mpr (hs.writeBytes ?_)
  simp only [packBits_length, packedStream_length, State.input_length, memSize]; omega

theorem cmdPad_bounded {s t : State} (h : cmdPad s = .ok t) (hs : s.bounded) : t.bounded := by
  obtain ⟨-, hfit, rfl⟩ := cmdPad_eq_ok.mp h
  have hd : s.eccInfo.dataCw ≤ 2956 := eccTab_dataCw_le _ _
  refine State.bounded_setRegs.mpr (hs.writeBytes ?_)
  rw [padStream_length (by rwa [streamBits_length]), memSize]; omega

theorem cmdInterleave_bounded {s t : State} (h : cmdInterleave s = .ok t) (hs : s.bounded) : t.bounded := by
  obtain ⟨-, rfl⟩ := cmdInterleave_eq_ok.mp h
  have htot : s.eccInfo.total ≤ 3706 := (eccTab_blocks _ _).2
  refine State.bounded_setRegs.mpr (hs.writeBytes ?_)
  rw [State.codewordStream_length, streamBase, memSize]; omega

theorem cmdPlaceFunction_bounded {s t : State} (h : cmdPlaceFunction s = .ok t) (hp : s.pipelineOk) (hs : s.bounded) :
    t.bounded := by
  obtain ⟨-, rfl⟩ := cmdPlaceFunction_eq_ok.mp h
  have hside : side s.ver + 8 < 256 := side_lt hp.1
  simpa using (hs.clearMem .mtx).writeMatrix (functionMatrix_square s.ver) (by omega)

theorem cmdQuietZone_bounded {s t : State} (h : cmdQuietZone s = .ok t) (hp : s.pipelineOk) (hs : s.bounded) :
    t.bounded := by
  obtain ⟨⟨-, hn, -⟩, rfl⟩ := cmdQuietZone_eq_ok.mp h
  have hside : side s.ver + 8 < 256 := side_lt hp.1
  simpa using (hs.clearMem .mtx).writeMatrix (quietZone_square (s.matrix_square s.regs.side.toNat)) (by omega)

theorem cmdSerialize_bounded {s t : State} (h : cmdSerialize s = .ok t) (hs : s.bounded) : t.bounded := by
  obtain ⟨-, rfl⟩ := cmdSerialize_eq_ok.mp h
  refine State.bounded_setRegs.mpr (hs.writeBytes ?_)
  rw [binaryForm_length (s.matrix_square _), Nat.zero_add]
  exact bodyLength_le (by omega)

theorem cmdDeserialize_bounded {s t : State} (h : cmdDeserialize s = .ok t) (hs : s.bounded) : t.bounded := by
  obtain ⟨-, -, -, -, -, rfl⟩ := cmdDeserialize_eq_ok.mp h
  simpa using (hs.clearMem .mtx).writeMatrix (rowsOf_square (State.readBytes_length ..)) (by omega)

theorem command_bounded_of_ne {i : Instr} {s t : State} (hi : i ≠ .generate) (h : command i s = .ok t)
    (hp : s.pipelineOk) (hs : s.bounded) : t.bounded := by
  have hsq := s.matrix_square s.regs.side.toNat
  cases i with
  | nop | gfExp | gfLog | gfMul | gfDiv | bchFormat | bchVersion | queryEcc | queryCap | queryAlign =>
    obtain ⟨_, _, _, _, rfl⟩ := command_of_writesResultsOnly rfl h
    simpa using hs
  | rsGenpoly =>
    obtain ⟨-, hfit, rfl⟩ := cmdRsGenpoly_eq_ok.mp h
    exact State.bounded_withRes0.mpr (hs.writeBytes (by rwa [genPoly_length]))
  | rsEncode =>
    obtain ⟨-, -, hfit, rfl⟩ := cmdRsEncode_eq_ok.mp h
    exact State.bounded_withRes0.mpr (hs.writeBytes (by rwa [rsEcc_length]))
  | modeSelect => obtain ⟨-, rfl⟩ := cmdModeSelect_eq_ok.mp h; simpa using hs
  | versionSelect => obtain ⟨-, -, -, _, _, -, -, rfl⟩ := cmdVersionSelect_eq_ok.mp h; simpa using hs
  | maskScore => obtain ⟨-, rfl⟩ := cmdMaskScore_eq_ok.mp h; simpa using hs
  | maskEval => obtain ⟨-, rfl⟩ := cmdMaskEval_eq_ok.mp h; simpa using hs
  | pack => exact cmdPack_bounded h hs
  | pad => exact cmdPad_bounded h hs
  | interleave => exact cmdInterleave_bounded h hs
  | placeFunction => exact cmdPlaceFunction_bounded h hp hs
  | placeData =>
    obtain ⟨-, -, rfl⟩ := cmdPlaceData_eq_ok.mp h
    simpa using hs.writeMatrix (placeBits_square hsq _) s.side_le
  | maskApply =>
    obtain ⟨-, rfl⟩ := cmdMaskApply_eq_ok.mp h
    simpa using hs.writeMatrix (applyMask_square hsq _) s.side_le
  | writeInfo =>
    obtain ⟨-, rfl⟩ := cmdWriteInfo_eq_ok.mp h
    simpa using hs.writeMatrix (writeInfo_square hsq _ _ _) s.side_le
  | quietZone => exact cmdQuietZone_bounded h hp hs
  | serialize => exact cmdSerialize_bounded h hs
  | deserialize => exact cmdDeserialize_bounded h hs
  | generate => exact absurd rfl hi

/-- A command that succeeds keeps the bounds; GENERATE because each command it runs also keeps the pipeline registers in
range. -/
theorem command_bounded {i : Instr} {s t : State} (h : command i s = .ok t) (hp : s.pipelineOk) (hs : s.bounded) :
    t.bounded := by
  by_cases hi : i = .generate
  · subst hi
    exact (cmdGenerate_keeps (P := fun u => u.pipelineOk ∧ u.bounded)
      (fun _ _ _ hg _ hc hu => ⟨command_pipelineOk_of_ne hg hc hu.1, command_bounded_of_ne hg hc hu.1 hu.2⟩)
      (fun _ _ _ _ _ hu => ⟨hu.1.congr rfl rfl rfl rfl, State.bounded_withRes.mpr hu.2⟩) h ⟨hp, hs⟩).2
  · exact command_bounded_of_ne hi h hp hs

/-! ### The soft reset -/

/-- The bytes of a span lie in its memory (20_memory R60). -/
def insideMemory (p : Span) : Prop := p.2.1 + p.2.2 ≤ memSize p.1

theorem moduleSpans_inside {ps : List (Nat × Nat)} (h : ∀ p ∈ ps, p.1 < 256 ∧ p.2 < 256) :
    ∀ p ∈ moduleSpans ps, insideMemory p := by
  simp only [moduleSpans, List.forall_mem_map]
  intro p hp
  have := h p hp
  simp only [insideMemory, moduleOffset, memSize]; omega

theorem scanColumns_le {fuel right : Nat} {up : Bool} {p : Nat × Bool} (h : p ∈ scanColumns fuel right up) :
    p.1 ≤ right := by
  induction fuel generalizing right up with
  | zero => cases h
  | succ fuel ih =>
    by_cases h0 : right = 0
    · simp [scanColumns, h0] at h
    · have hle : (if right = 6 then 5 else right) ≤ right := by split <;> omega
      simp only [scanColumns, h0, if_false, List.mem_cons] at h
      obtain rfl | h := h
      · exact hle
      · exact (ih h).trans ((Nat.sub_le _ _).trans hle)

/-- The scan stays in the symbol (45_placement R231). -/
theorem lt_of_mem_scanOrder {n : Nat} {p : Nat × Nat} (h : p ∈ scanOrder n) : p.1 < n ∧ p.2 < n := by
  simp only [scanOrder, List.mem_flatMap, List.mem_range] at h
  obtain ⟨⟨right, up⟩, hcol, k, hk, hp⟩ := h
  have hle : right ≤ n - 1 := scanColumns_le hcol
  have hrow : (if up then n - 1 - k else k) < n := by split <;> omega
  simp only [List.mem_cons, List.not_mem_nil, or_false] at hp
  obtain rfl | rfl := hp <;> exact ⟨hrow, by dsimp only; omega⟩

theorem lt_of_mem_pairs {n : Nat} {p : Nat × Nat} (h : p ∈ pairs (List.range n) (List.range n)) :
    p.1 < n ∧ p.2 < n := by
  simp only [pairs, List.mem_flatMap, List.mem_map, List.mem_range] at h
  obtain ⟨r, hr, c, hc, rfl⟩ := h
  exact ⟨hr, hc⟩

theorem lt_of_mem_formatCells {n i : Nat} {p : Nat × Nat} (hn : n ≤ 256) (hi : i < 15) (h : p ∈ formatCells n i) :
    p.1 < 256 ∧ p.2 < 256 := by
  simp only [formatCells, List.mem_cons, List.not_mem_nil, or_false] at h
  obtain rfl | rfl := h <;> split_ifs <;> constructor <;> dsimp only <;> omega

theorem lt_of_mem_versionCells {n i : Nat} {p : Nat × Nat} (hn : n ≤ 256) (hi : i < 18) (h : p ∈ versionCells n i) :
    p.1 < 256 ∧ p.2 < 256 := by
  simp only [versionCells, List.mem_cons, List.not_mem_nil, or_false] at h
  obtain rfl | rfl := h <;> constructor <;> dsimp only <;> omega

theorem lt_of_mem_infoCells {v : BitVec 6} {n : Nat} {e : BitVec 2} {m : BitVec 3} {p : Nat × Nat × Bool} (hn : n ≤ 256)
    (h : p ∈ infoCells v n e m) : p.1 < 256 ∧ p.2.1 < 256 := by
  rw [infoCells, List.mem_append] at h
  obtain h | h := h
  · simp only [List.mem_flatMap, List.mem_map, List.mem_range] at h
    obtain ⟨i, hi, q, hq, rfl⟩ := h
    exact lt_of_mem_formatCells hn hi hq
  · split at h
    · simp only [List.mem_flatMap, List.mem_map, List.mem_range] at h
      obtain ⟨i, hi, q, hq, rfl⟩ := h
      exact lt_of_mem_versionCells hn hi hq
    · cases h

theorem writtenBy_inside {i : Instr} {s t : State} (h : command i s = .ok t) :
    ∀ p ∈ writtenBy i s t, insideMemory p := by
  have hmtx : insideMemory wholeMtx := le_rfl
  have htotcw : insideMemory (.cwm, streamBase, t.regs.totcw.toNat) := by
    simp only [insideMemory, streamBase, memSize]; omega
  cases i with
  | nop | gfExp | gfLog | gfMul | gfDiv | bchFormat | bchVersion | modeSelect | versionSelect | queryEcc | queryCap
  | queryAlign | maskScore | maskEval => exact nofun
  | rsGenpoly =>
    obtain ⟨-, hfit, -⟩ := cmdRsGenpoly_eq_ok.mp h
    exact List.forall_mem_singleton.mpr hfit
  | rsEncode =>
    obtain ⟨-, -, hfit, -⟩ := cmdRsEncode_eq_ok.mp h
    exact List.forall_mem_singleton.mpr hfit
  | pack =>
    refine List.forall_mem_singleton.mpr ?_
    simp only [insideMemory, memSize]; omega
  | pad =>
    have hd : s.eccInfo.dataCw ≤ 2956 := eccTab_dataCw_le _ _
    refine List.forall_mem_singleton.mpr ?_
    simp only [insideMemory, memSize]; omega
  | interleave => exact List.forall_mem_singleton.mpr htotcw
  | placeFunction | quietZone | deserialize => exact List.forall_mem_singleton.mpr hmtx
  | placeData =>
    refine moduleSpans_inside fun p hp => ?_
    have := lt_of_mem_scanOrder (List.mem_of_mem_filter (List.mem_of_mem_take hp))
    omega
  | maskApply =>
    refine moduleSpans_inside fun p hp => ?_
    have := lt_of_mem_pairs (List.mem_of_mem_filter hp)
    omega
  | writeInfo => exact moduleSpans_inside (List.forall_mem_map.mpr fun p hp => lt_of_mem_infoCells s.side_le hp)
  | serialize =>
    refine List.forall_mem_singleton.mpr ?_
    rw [insideMemory, Nat.zero_add]
    exact bodyLength_le (by omega)
  | generate =>
    have hdcw : insideMemory (.cwm, 0, t.regs.dcw.toNat) := by simp only [insideMemory, memSize]; omega
    simpa [writtenBy] using ⟨hdcw, htotcw, hmtx⟩

theorem State.footprint_inside (s : State) : ∀ p ∈ s.footprint, insideMemory p := by
  unfold State.footprint
  split
  · exact nofun
  · split
    · exact nofun
    · exact writtenBy_inside ‹_›

theorem State.bounded.foldl_forget {s : State} (hs : s.bounded) {ps : List Span} (h : ∀ p ∈ ps, insideMemory p) :
    (ps.foldl State.forget s).bounded := by
  refine List.foldlRecOn ps _ hs fun u hu p hp => hu.writeBytes ?_
  simpa [insideMemory] using h p hp

/-- A soft reset keeps the bounds: the bytes of an aborted command lie in their memories. -/
theorem State.bounded.softReset {s : State} (hs : s.bounded) : s.softReset.bounded := by
  unfold State.softReset
  split
  · exact (hs.foldl_forget s.footprint_inside).congr fun r => by cases r <;> rfl
  · exact hs.congr fun r => by cases r <;> rfl

/-! ### The step -/

theorem State.bounded.hostWriteReg {s : State} (hs : s.bounded) (r : Reg) (d : Word) :
    (s.hostWriteReg r d).bounded := by
  obtain ⟨-, -, he⟩ | ⟨f, st, l, he, -, -⟩ := s.hostWriteReg_cases r d <;> rw [he]
  · exact hs.softReset
  · exact hs.congr fun r => by cases r <;> rfl

theorem State.pipelineOk.hostWriteReg {s : State} (hs : s.pipelineOk) (r : Reg) (d : Word) :
    (s.hostWriteReg r d).pipelineOk := by
  obtain ⟨-, -, he⟩ | ⟨f, st, l, he, ⟨hv, hm, hn⟩, hq, -⟩ := s.hostWriteReg_cases r d <;> rw [he]
  · exact (State.ranged_iff.mp s.ranged_softReset).1
  · exact hs.congr hv hm hn hq

theorem State.pipelineOk.writeBytes {s : State} (hs : s.pipelineOk) (r : Region) (a : Nat) (bs : List Byte) :
    (s.writeBytes r a bs).pipelineOk := by
  apply hs.congr <;> simp

@[simp] theorem wordBytes_length (n : Nat) (d : Word) : (wordBytes n d).length = n := by simp [wordBytes]

/-- Settles O54: every operation a step is made of keeps the bounds, the commands that place a symbol because the
pipeline registers are in range, which every step keeps too. -/
theorem stepKeepsMemoriesBounded : Obligations.StepKeepsMemoriesBounded := by
  intro s t hr hs h
  exact (step_keeps (P := fun u => u.pipelineOk ∧ u.bounded)
    (fun u b hu => ⟨hu.1, hu.2.congr fun r => by cases r <;> rfl⟩)
    (fun i u v hu hc => ⟨(command_pipelineOk hc hu.1).congr rfl rfl rfl rfl,
      (command_bounded hc hu.1 hu.2).congr (State.mem_complete v)⟩)
    (fun u e hu => ⟨hu.1.congr rfl rfl rfl rfl, hu.2.congr (State.mem_raise u e)⟩)
    (fun u w f hu => ⟨hu.1, hu.2.congr fun r => by cases r <;> rfl⟩)
    (fun u r d hu => ⟨hu.1.hostWriteReg r d, hu.2.hostWriteReg r d⟩)
    (fun u w r a d ha hu => ⟨hu.1.writeBytes r a _, hu.2.writeBytes (by simpa using ha)⟩)
    ⟨(State.ranged_iff.mp hr).1, hs⟩ h).2

end Sys2Proof.Machine
end

section
/-! PROOFS. The host bus: which accesses the rules allow, the byte order of memory accesses, reads, and whose turn a
step is (20_memory R62 to R72, 70_reset_and_hazards R352, R353). -/

namespace Sys2Proof.Machine

/-! ### Admitted accesses -/

theorem mem_registerOffsets {p : Nat} : p ∈ registerOffsets ↔ ∃ r, regOffset r = p := by
  constructor
  · have hall : ∀ p ∈ registerOffsets, (regAt p).isSome = true := by decide
    intro h
    obtain ⟨r, hr⟩ := Option.isSome_iff_exists.mp (hall p h)
    exact ⟨r, regOffset_of_regAt hr⟩
  · rintro ⟨r, rfl⟩
    cases r with
    | pen m => revert m; decide
    | _ => decide

theorem inMemoryWindow_iff {p : Nat} : inMemoryWindow p ↔ ∃ r, memBase r ≤ p ∧ p < memBase r + memSize r := by
  constructor
  · rintro (h | h | h | h)
    · exact ⟨.inp, h.1, by simp only [memBase, memSize]; omega⟩
    · exact ⟨.cwm, h.1, by simp only [memBase, memSize]; omega⟩
    · exact ⟨.mtx, h.1, by simp only [memBase, memSize]; omega⟩
    · exact ⟨.out, h.1, by simp only [memBase, memSize]; omega⟩
  · rintro ⟨r, h1, h2⟩
    cases r <;> simp only [memBase, memSize] at h1 h2 <;> unfold inMemoryWindow <;> omega

/-- The rules allow an access exactly if it reaches a register or a memory (20_memory R62 to R64). -/
theorem accessAdmitted_iff {w : Width} {o : BitVec 20} : AccessAdmitted w o.toNat ↔ target w o ≠ none := by
  constructor
  · rintro (⟨rfl, h⟩ | ⟨h, hal⟩)
    · obtain ⟨r, hr⟩ := mem_registerOffsets.mp h
      have ho : o = BitVec.ofNat 20 (regOffset r) := by simp [hr]
      simp [ho, target_regOffset]
    · obtain ⟨r, h1, h2⟩ := inMemoryWindow_iff.mp h
      have hpage : ¬o.toNat < 0x1000 := by cases r <;> simp only [memBase] at h1 <;> omega
      simp [target, hpage, hal, regionAt_of h1 h2]
  · intro h
    obtain ⟨t, ht⟩ := Option.ne_none_iff_exists'.mp h
    obtain ⟨r, -, hw, ho⟩ | ⟨r, a, -, ho, hin, hal⟩ := target_cases ht
    · exact .inl ⟨hw, mem_registerOffsets.mpr ⟨r, ho.symm⟩⟩
    · have hpos := widthBytes_pos w
      exact .inr ⟨inMemoryWindow_iff.mpr ⟨r, by omega, by omega⟩, by
        rw [ho, Nat.add_mod, memBase_mod, hal, Nat.add_zero, Nat.zero_mod]⟩

/-- A bus error is an access that reaches nothing, while a command runs too (log 6). -/
theorem hostAccess_eq_busError_iff {s : State} {w : Width} {o : BitVec 20} {d : Word} :
    (hostAccess (.read w o) s = .fault .busError ↔ target w o = none) ∧
      (hostAccess (.write w o d) s = .fault .busError ↔ target w o = none) := by
  cases ht : target w o with
  | none => simp [hostAccess, ht]
  | some t =>
    cases t with
    | reg r => simp [hostAccess, ht]
    | mem r a => cases hb : s.status.busy <;> simp [hostAccess, ht, hb]

/-- Settles O56: an access faults with a bus error exactly if it reaches nothing, and it reaches something exactly if
the rules allow it. -/
theorem forbiddenAccessesFault : Obligations.ForbiddenAccessesFault := by
  intro s w o d
  rw [accessAdmitted_iff, not_not]
  exact hostAccess_eq_busError_iff

/-! ### Byte order (20_memory R65) -/

theorem wordBytes_getElem {n k : Nat} {d : Word} (h : k < (wordBytes n d).length) :
    (wordBytes n d)[k] = d.extractLsb' (8 * k) 8 := by simp [wordBytes]

/-- The `k`-th of at most four bytes stands at bits `8k + 7` to `8k` of their word. -/
theorem extractLsb'_wordOfBytes {bs : List Byte} {k : Nat} (h : k < bs.length) (h4 : bs.length ≤ 4) :
    (wordOfBytes bs).extractLsb' (8 * k) 8 = bs[k] := by
  induction bs generalizing k with
  | nil => simp at h
  | cons b bs ih =>
    rw [List.length_cons] at h h4
    apply BitVec.eq_of_getLsbD_eq
    intro j hj
    have hlt : 8 * k + j < 32 := by omega
    cases k with
    | zero => simp [wordOfBytes, hj, show j < 32 by omega]
    | succ k =>
      have hb : b.getLsbD (8 * (k + 1) + j) = false := BitVec.getLsbD_of_ge _ _ (by omega)
      have hshift : 8 * (k + 1) + j - 8 = 8 * k + j ∧ ¬8 * (k + 1) + j < 8 ∧ 8 * k + j < 32 := by omega
      have hrest := congrArg (·.getLsbD j) (ih (k := k) (by omega) (by omega))
      simpa [wordOfBytes, hj, hlt, hb, hshift] using hrest

theorem State.readByte_hostWriteMem_inside (s : State) {w : Width} {r : Region} {a k : Nat} (d : Word)
    (h : k < widthBytes w) :
    (s.hostWriteMem w r a d).readByte r (a + k) = d.extractLsb' (8 * k) 8 &&& memBits r := by
  rw [State.hostWriteMem, State.readByte_writeBytes_inside _ _ _ _ _ (by simpa using h), wordBytes_getElem]

theorem State.sameOutside_hostWriteMem (s : State) (w : Width) (r : Region) (a : Nat) (d : Word) :
    SameOutside s (s.hostWriteMem w r a d) r a (widthBytes w) := fun q x h =>
  State.readByte_writeBytes_outside _ _ _ _ _ _ (by simpa using h)

theorem State.rdata_hostReadMem (s : State) {w : Width} {r : Region} {a k : Nat} (h : k < widthBytes w) :
    (s.hostReadMem w r a).rdata.extractLsb' (8 * k) 8 = s.readByte r (a + k) := by
  have h4 : widthBytes w ≤ 4 := by cases w <;> decide
  rw [State.hostReadMem, extractLsb'_wordOfBytes (by simpa using h) (by simpa using h4)]
  simp [State.readBytes_eq]

/-- Settles O57: an admitted access of an idle block is `hostWriteMem` or `hostReadMem`, each one block of bytes. -/
theorem hostMemoryAccessIsLittleEndian : Obligations.HostMemoryAccessIsLittleEndian := by
  intro s w r a o d hin hal ho
  have ht := target_mem hin hal ho
  constructor
  · intro hb
    constructor
    · refine ⟨s.hostWriteMem w r a d, by simp [hostAccess, ht, hb], s.writeBytes_regs .., s.writeBytes_status .., ?_,
        fun k => s.readByte_hostWriteMem_inside d, s.sameOutside_hostWriteMem w r a d⟩
      exact ⟨s.writeBytes_latch .., s.writeBytes_bus .., s.writeBytes_rdata .., s.writeBytes_free ..⟩
    · exact ⟨s.hostReadMem w r a, by simp [hostAccess, ht, hb], rfl, fun k => s.rdata_hostReadMem⟩
  · intro hb
    simp [hostAccess, ht, hb]

/-! ### Reads (20_memory R68, 70_reset_and_hazards R353) -/

theorem hostAccess_read_reg (s : State) (r : Reg) :
    hostAccess (.read .word (BitVec.ofNat 20 (regOffset r))) s = .next (s.hostReadReg r) := by
  simp [hostAccess, target_regOffset]

theorem hostAccess_read_next {s t : State} {w : Width} {o : BitVec 20} (h : hostAccess (.read w o) s = .next t) :
    ∃ v f, t = { s with rdata := v, free := f } := by
  obtain he | ⟨-, he⟩ | ⟨_, _, r, -, he⟩ | ⟨w, _, r, a, -, he⟩ | ⟨_, _, _, _, hw, -⟩ | ⟨_, _, _, _, _, hw, -⟩ :=
    hostAccess_cases (.read w o) s
  · rw [he] at h; cases h
  · rw [he] at h; cases h
  · rw [he] at h; cases h; exact s.hostReadReg_eq r
  · rw [he] at h; cases h; exact ⟨_, s.free, rfl⟩
  · cases hw
  · cases hw

theorem State.rdata_hostReadReg {s : State} {r : Reg} (h : s.status.busy = false ∨ r = .id ∨ r = .status) :
    (s.hostReadReg r).rdata = s.readReg r := by
  have htrue : (s.status.busy && !readsTrueWhileBusy r) = false := by
    rcases h with h | rfl | rfl <;> simp [*, readsTrueWhileBusy]
  rw [State.hostReadReg, htrue]; rfl

/-- Reserved bits read 0 while a command runs too (70_reset_and_hazards R353; log 20). -/
theorem State.rdata_hostReadReg_reserved (s : State) (r : Reg) : (s.hostReadReg r).rdata &&& ~~~regBits r = 0 := by
  unfold State.hostReadReg
  split
  · simp [BitVec.and_assoc]
  · exact s.readReg_reserved r

/-- Settles O58: a read replaces `rdata` and the counter of free values only, and a register's reserved bits read 0. -/
theorem readsHaveNoSideEffects : Obligations.ReadsHaveNoSideEffects := by
  refine ⟨fun s t w o h => ?_, fun s r => ?_⟩
  · obtain ⟨v, f, rfl⟩ := hostAccess_read_next h
    rfl
  · exact ⟨_, hostAccess_read_reg s r, State.rdata_hostReadReg, s.rdata_hostReadReg_reserved r⟩

/-! ### Whose turn it is (20_memory R71, R72; log 3) -/

theorem step_of_bus_nil {s : State} (h : s.bus = []) : step s = sequencerTurn s := by simp only [step, nextEvent, h]

theorem step_of_bus_sequencer {s : State} {rest : List BusEvent} (h : s.bus = .sequencer :: rest) :
    step s = sequencerTurn { s with bus := rest } := by simp only [step, nextEvent, h]

theorem step_of_bus_access {s : State} {op : BusOp} {rest : List BusEvent} (h : s.bus = .access op :: rest) :
    step s = hostAccess op { s with bus := rest } := by simp only [step, nextEvent, h]

theorem sequencerTurn_idle {s : State} (h : s.status.busy = false) : sequencerTurn s = .next s := by
  rw [sequencerTurn, h]; rfl

theorem sequencerTurn_busy {s : State} {i : Instr} (hb : s.status.busy = true) (hd : decode s.latch.word = .ok i) :
    sequencerTurn s = exec i s := by
  simp only [sequencerTurn, hb, if_true, runCommand, hd]

/-- A whole word is latched as it is. -/
theorem State.withFetchWord_toNat (s : State) (w : Word) : s.withFetchWord 32 w.toNat = s.placeCommand w := by
  rw [State.withFetchWord, Nat.mod_eq_of_lt w.isLt, BitVec.ofNat_toNat, BitVec.setWidth_eq]

/-- Settles O6: a step is the front event of the bus, or the sequencer's turn, which runs the decoded command while
busy. -/
theorem stepRunsDecodedCommand : Obligations.StepRunsDecodedCommand := by
  refine ⟨fun s i hb hd => ⟨fun h => ?_, fun rest h => ?_⟩, fun s w i hd => ?_, fun s op rest => step_of_bus_access,
    fun s hb => ⟨fun h => ?_, fun rest h => ?_⟩⟩
  · rw [step_of_bus_nil h, sequencerTurn_busy hb hd]
  · exact (step_of_bus_sequencer h).trans (sequencerTurn_busy hb hd)
  · rw [s.withFetchWord_toNat w]
    exact (step_of_bus_sequencer rfl).trans (sequencerTurn_busy (s := s.start w) rfl hd)
  · rw [step_of_bus_nil h, sequencerTurn_idle hb]
  · exact (step_of_bus_sequencer h).trans (sequencerTurn_idle hb)

end Sys2Proof.Machine
end

section
/-! PROOFS. Command words (30_encoding): the decoder and the encoder are inverse to each other, the decoder accepts the
words that match a row of the opcode table, and the assembler gives the encoder's words. -/

namespace Sys2Proof

/-! ### Fields of a word (00_scope R11) -/

theorem getLsbD_fieldAt (w : Word) (lo len k : Nat) :
    (fieldAt w lo len).getLsbD k = (decide (k < len) && w.getLsbD (lo + k)) := BitVec.getLsbD_extractLsb' ..

theorem getElem_fieldAt {w : Word} {lo len k : Nat} (hk : k < len) : (fieldAt w lo len)[k] = w.getLsbD (lo + k) :=
  BitVec.getElem_extractLsb' hk

theorem fieldAt_or (x y : Word) (lo len : Nat) : fieldAt (x ||| y) lo len = fieldAt x lo len ||| fieldAt y lo len :=
  BitVec.extractLsb'_or

/-- A value put at a field is read from it. -/
theorem fieldAt_putField_same {n : Nat} (x : BitVec n) {lo : Nat} (h : lo + n ≤ 32) : fieldAt (putField x lo) lo n = x := by
  ext k hk
  have hlo : lo + k < 32 := by omega
  simp [putField, getElem_fieldAt, hk, hlo]

/-- A value put at a field leaves the fields apart from it 0. -/
theorem fieldAt_putField_disjoint {n : Nat} (x : BitVec n) {lo lo' len : Nat} (h : lo + n ≤ lo' ∨ lo' + len ≤ lo) :
    fieldAt (putField x lo) lo' len = 0#len := by
  ext k hk
  obtain h | h := h
  · have hx : x.getLsbD (lo' + k - lo) = false := BitVec.getLsbD_of_ge _ _ (by omega)
    simp [putField, getElem_fieldAt, hx]
  · have hlo : lo' + k < lo := by omega
    simp [putField, getElem_fieldAt, hlo]

/-- The bits of a word a field takes up. -/
def Field.bits (f : Field) : Word := BitVec.ofNat 32 (2 ^ f.width - 1) <<< f.lo

/-- The value of a field, put back at its place, is the word cut to the field's bits. -/
theorem fieldAt_inPlace (w : Word) (f : Field) :
    BitVec.ofNat 32 (fieldAt w f.lo f.width).toNat <<< f.lo = w &&& f.bits := by
  rw [BitVec.ofNat_toNat]
  ext k hk
  by_cases hlo : k < f.lo
  · simp [Field.bits, hlo]
  · have hadd : f.lo + (k - f.lo) = k := by omega
    simp [Field.bits, getLsbD_fieldAt, ← BitVec.getLsbD_eq_getElem, BitVec.getLsbD_ofNat, Nat.testBit_two_pow_sub_one,
      hlo, hadd, hk]
    ac_rfl

/-! ### The rows of the opcode table (30_encoding R81, R83) -/

/-- The field of the opcode. -/
def opField : Field := ⟨24, 8⟩

/-- The reserved-zero fields of a format (30_encoding R81). -/
def Format.reserved : Format → List Field
  | .N => [⟨0, 24⟩]
  | .B8 => [⟨8, 16⟩]
  | .AB => [⟨16, 8⟩]
  | .FM => [⟨5, 19⟩]
  | .V6 => [⟨6, 18⟩]
  | .M3 => [⟨3, 21⟩]
  | .QE => [⟨14, 10⟩, ⟨2, 6⟩]
  | .QC => [⟨14, 10⟩, ⟨2, 2⟩]
  | .QV => [⟨14, 10⟩, ⟨0, 8⟩]

/-- The reserved-zero bits of a format are 0. -/
def Format.ReservedZero (F : Format) (w : Word) : Prop := ∀ f ∈ F.reserved, fieldAt w f.lo f.width = 0

/-- A word matches the row of an opcode (30_encoding R83). -/
def Opcode.Matches (o : Opcode) (w : Word) : Prop := w &&& o.mask = o.matchValue

/-- The mask of a row takes in the opcode and the reserved-zero bits of the format. -/
theorem Opcode.mask_eq_reserved (o : Opcode) : o.mask = o.format.reserved.foldr (fun f m => f.bits ||| m) opField.bits := by
  unfold Opcode.mask
  cases o.format <;> decide

/-- Bits 0 in a list of fields do not count under the mask of those fields. -/
theorem and_foldr_bits {w m : Word} {fs : List Field} (h : ∀ f ∈ fs, fieldAt w f.lo f.width = 0) :
    w &&& fs.foldr (fun f m => f.bits ||| m) m = w &&& m := by
  induction fs with
  | nil => rfl
  | cons f fs ih =>
    obtain ⟨hf, hfs⟩ := List.forall_mem_cons.mp h
    have hw : w &&& f.bits = 0#32 := by rw [← fieldAt_inPlace, hf]; simp
    rw [List.foldr_cons, BitVec.and_or_distrib_left, hw, BitVec.zero_or, ih hfs]

/-- A word with the opcode of a row and no reserved bit set matches the row. -/
theorem Opcode.matches_of_fields {o : Opcode} {w : Word} (hop : fieldAt w 24 8 = o.code) (hres : o.format.ReservedZero w) :
    o.Matches w := by
  have h : w &&& o.mask = w &&& opField.bits := by rw [o.mask_eq_reserved, and_foldr_bits hres]
  rw [Opcode.Matches, h, ← fieldAt_inPlace, opField, hop, BitVec.ofNat_toNat]
  rfl

/-! ### Decoding -/

/-- A command decodes from its own word: the decoder reads each field where the encoder puts it. -/
theorem decode_encode (i : Instr) : decode (encode i) = .ok i := by
  cases i <;> simp (disch := decide) [decode, encode, decodeN, decodeB8, decodeAB, decodeFM, decodeV6, decodeM3, decodeQE,
    decodeQC, decodeQV, whenZero, fieldAt_or, fieldAt_putField_same, fieldAt_putField_disjoint]

theorem whenZero_eq_ok {b : Bool} {i j : Instr} : whenZero b i = .ok j ↔ b = true ∧ i = j := by cases b <;> simp [whenZero]

/-- A word that decodes has the opcode of its command, and no reserved bit of its format is set. -/
theorem fields_of_decode {w : Word} {i : Instr} (h : decode w = .ok i) :
    fieldAt w 24 8 = i.opcode.code ∧ i.opcode.format.ReservedZero w := by
  unfold decode at h
  split at h
  case h_28 => cases h
  all_goals
    rename_i hop
    simp only [decodeN, decodeB8, decodeAB, decodeFM, decodeV6, decodeM3, decodeQE, decodeQC, decodeQV, whenZero_eq_ok] at h
    obtain ⟨hres, rfl⟩ := h
    exact ⟨BitVec.eq_of_toNat_eq hop,
      by simpa [Instr.opcode, Instr.asm, Opcode.format, Format.ReservedZero, Format.reserved] using hres⟩

/-! ### The assembler (30_encoding R88) -/

/-- A line is well-formed when its operands are as many as the fields of its format and each fits its field. -/
theorem Asm.wellFormed_iff {l : Asm} :
    l.wellFormed = true ↔ List.Forall₂ (fun a f => a < 2 ^ f.width) l.args l.op.format.fields := by
  simp [Asm.wellFormed, Asm.arityOk, Asm.operandsFit, List.forall₂_iff_zip]

/-- The operands of a command fit their fields, by their widths. -/
theorem Instr.asm_wellFormed (i : Instr) : i.asm.wellFormed = true := by
  rw [Asm.wellFormed_iff]
  cases i <;> simp only [Instr.asm, Opcode.format, Format.fields, List.forall₂_cons, List.forall₂_nil_left_iff, and_true,
    BitVec.isLt]

/-- The assembler gives the encoder's word for a command's line. -/
theorem Instr.assemble_asm (i : Instr) : i.asm.assemble = some (encode i) := by
  rw [Asm.assemble, if_pos i.asm_wellFormed]
  cases i <;> simp [Instr.asm, Opcode.format, Format.fields, encode, Opcode.matchValue, Opcode.code, putField]

/-- Every well-formed line is a command's line. -/
theorem Asm.exists_instr {l : Asm} (h : l.wellFormed = true) : ∃ i : Instr, i.asm = l := by
  rw [Asm.wellFormed_iff] at h
  obtain ⟨o, args⟩ := l
  exact match o, args, h with
  | .nop, _, .nil => ⟨.nop, rfl⟩
  | .gfExp, _, .cons ha .nil => ⟨.gfExp (.ofNatLT _ ha), rfl⟩
  | .gfLog, _, .cons ha .nil => ⟨.gfLog (.ofNatLT _ ha), rfl⟩
  | .gfMul, _, .cons ha (.cons hb .nil) => ⟨.gfMul (.ofNatLT _ ha) (.ofNatLT _ hb), rfl⟩
  | .gfDiv, _, .cons ha (.cons hb .nil) => ⟨.gfDiv (.ofNatLT _ ha) (.ofNatLT _ hb), rfl⟩
  | .rsGenpoly, _, .cons hn .nil => ⟨.rsGenpoly (.ofNatLT _ hn), rfl⟩
  | .rsEncode, _, .cons hk (.cons hn .nil) => ⟨.rsEncode (.ofNatLT _ hk) (.ofNatLT _ hn), rfl⟩
  | .bchFormat, _, .cons he (.cons hm .nil) => ⟨.bchFormat (.ofNatLT _ he) (.ofNatLT _ hm), rfl⟩
  | .bchVersion, _, .cons hv .nil => ⟨.bchVersion (.ofNatLT _ hv), rfl⟩
  | .modeSelect, _, .nil => ⟨.modeSelect, rfl⟩
  | .versionSelect, _, .nil => ⟨.versionSelect, rfl⟩
  | .pack, _, .nil => ⟨.pack, rfl⟩
  | .pad, _, .nil => ⟨.pad, rfl⟩
  | .queryEcc, _, .cons hv (.cons he .nil) => ⟨.queryEcc (.ofNatLT _ hv) (.ofNatLT _ he), rfl⟩
  | .queryCap, _, .cons hv (.cons hmd (.cons he .nil)) =>
    ⟨.queryCap (.ofNatLT _ hv) (.ofNatLT _ hmd) (.ofNatLT _ he), rfl⟩
  | .queryAlign, _, .cons hv .nil => ⟨.queryAlign (.ofNatLT _ hv), rfl⟩
  | .interleave, _, .nil => ⟨.interleave, rfl⟩
  | .placeFunction, _, .nil => ⟨.placeFunction, rfl⟩
  | .placeData, _, .nil => ⟨.placeData, rfl⟩
  | .maskScore, _, .cons hm .nil => ⟨.maskScore (.ofNatLT _ hm), rfl⟩
  | .maskEval, _, .nil => ⟨.maskEval, rfl⟩
  | .maskApply, _, .cons hm .nil => ⟨.maskApply (.ofNatLT _ hm), rfl⟩
  | .writeInfo, _, .cons hm .nil => ⟨.writeInfo (.ofNatLT _ hm), rfl⟩
  | .quietZone, _, .nil => ⟨.quietZone, rfl⟩
  | .serialize, _, .nil => ⟨.serialize, rfl⟩
  | .deserialize, _, .nil => ⟨.deserialize, rfl⟩
  | .generate, _, .nil => ⟨.generate, rfl⟩

/-- What the assembler accepts is a command's line, with that command's word. -/
theorem Asm.exists_of_assemble {l : Asm} {w : Word} (h : l.assemble = some w) : ∃ i : Instr, i.asm = l ∧ encode i = w := by
  have hwf : l.wellFormed = true := by
    by_contra hn
    rw [Asm.assemble, if_neg hn] at h
    cases h
  obtain ⟨i, rfl⟩ := Asm.exists_instr hwf
  exact ⟨i, rfl, Option.some.inj (i.assemble_asm.symm.trans h)⟩

/-- A line that is not well-formed is an assembly error. -/
theorem Asm.assemble_eq_none {l : Asm} (h : l.arityOk = false ∨ l.operandsFit = false) : l.assemble = none := by
  rw [Asm.assemble, if_neg (by rcases h with h | h <;> simp [Asm.wellFormed, h])]

/-! ### A word that matches a row is a command's word (30_encoding R83, R86) -/

/-- The line of an opcode with the operands a word holds in the fields of the opcode's format. -/
def Opcode.lineAt (o : Opcode) (w : Word) : Asm := ⟨o, o.format.fields.map fun f => (fieldAt w f.lo f.width).toNat⟩

theorem Opcode.lineAt_wellFormed (o : Opcode) (w : Word) : (o.lineAt w).wellFormed = true := by
  simp only [Asm.wellFormed_iff, Opcode.lineAt, List.forall₂_map_left_iff, List.forall₂_same]
  exact fun f _ => (fieldAt w f.lo f.width).isLt

/-- The fields taken out of a mask and put beside the masked word give the whole word back, if mask and word so far
already did. -/
theorem foldl_fields_eq {w m x : Word} (fs : List Field) (h : (w &&& m) ||| x = w) :
    fs.foldl (fun y f => y ||| (w &&& f.bits)) ((w &&& fs.foldl (fun m f => m &&& ~~~f.bits) m) ||| x) = w := by
  induction fs generalizing m x with
  | nil => exact h
  | cons f fs ih =>
    have hstep : (w &&& (m &&& ~~~f.bits)) ||| (x ||| (w &&& f.bits)) = w := by
      ext k hk
      have hbit := congrArg (·[k]) h
      simp only [BitVec.getElem_or, BitVec.getElem_and, BitVec.getElem_not] at hbit ⊢
      rw [← hbit]
      cases w[k] <;> cases m[k] <;> cases x[k] <;> cases f.bits[k] <;> rfl
    rw [List.foldl_cons, List.foldl_cons, BitVec.or_assoc]
    exact ih hstep

/-- A word that matches a row is assembled again from its own fields. -/
theorem Opcode.assemble_lineAt {o : Opcode} {w : Word} (h : o.Matches w) : (o.lineAt w).assemble = some w := by
  have hzip : (o.lineAt w).args.zip o.format.fields = o.format.fields.map fun f => ((fieldAt w f.lo f.width).toNat, f) :=
    List.map_prod_right_eq_zip.symm
  have hstart : o.matchValue = (w &&& o.mask) ||| 0#32 := by rw [BitVec.or_zero, h]
  rw [Asm.assemble, if_pos (o.lineAt_wellFormed w), Option.some_inj]
  change List.foldl _ o.matchValue ((o.lineAt w).args.zip o.format.fields) = w
  rw [hzip, List.foldl_map, hstart]
  simp only [fieldAt_inPlace]
  exact foldl_fields_eq o.format.fields (by rw [BitVec.or_zero]; exact BitVec.and_allOnes)

/-- A word that matches a row is the word of a command of that row. -/
theorem Opcode.exists_encode_of_matches {o : Opcode} {w : Word} (h : o.Matches w) :
    ∃ i : Instr, i.opcode = o ∧ encode i = w := by
  obtain ⟨i, hi, hw⟩ := Asm.exists_of_assemble (Opcode.assemble_lineAt h)
  exact ⟨i, congrArg Asm.op hi, hw⟩

/-- A word that decodes matches the row of its command. -/
theorem matches_of_decode {w : Word} {i : Instr} (h : decode w = .ok i) : i.opcode.Matches w := by
  obtain ⟨hop, hres⟩ := fields_of_decode h
  exact Opcode.matches_of_fields hop hres

/-- A word that matches a row decodes to a command of that row. -/
theorem Opcode.decode_of_matches {o : Opcode} {w : Word} (h : o.Matches w) : ∃ i, decode w = .ok i ∧ i.opcode = o := by
  obtain ⟨i, hi, rfl⟩ := Opcode.exists_encode_of_matches h
  exact ⟨i, decode_encode i, hi⟩

/-- A word that decodes is its command's word: it matches the row, so it is the word of some command, and that command
is the one it decodes to. -/
theorem encode_of_decode {w : Word} {i : Instr} (h : decode w = .ok i) : encode i = w := by
  obtain ⟨j, -, rfl⟩ := Opcode.exists_encode_of_matches (matches_of_decode h)
  rw [decode_encode, Except.ok.injEq] at h
  rw [h]

/-! ### The statements -/

/-- Settles O1: every operand fits its field, and the decoder reads each field where the encoder puts it. -/
theorem decodeEncodeRoundTrip : Obligations.DecodeEncodeRoundTrip := fun i => ⟨i.asm_wellFormed, decode_encode i⟩

/-- Settles O2: a decodable word matches its command's row, and each row's words are its commands' words. -/
theorem encodeDecodeRoundTrip : Obligations.EncodeDecodeRoundTrip := fun _ _ => encode_of_decode

/-- Settles O3: decoding and matching a row say the same, so a word with no row has no command. -/
theorem illegalWordsMatchNoRow : Obligations.IllegalWordsMatchNoRow := by
  refine fun w => ⟨fun i => matches_of_decode, fun o => Opcode.decode_of_matches, fun ⟨e, he⟩ o ho => ?_, fun hno => ?_⟩
  · obtain ⟨i, hi, -⟩ := Opcode.decode_of_matches ho
    rw [he] at hi
    cases hi
  · cases hd : decode w with
    | error e => exact ⟨e, rfl⟩
    | ok i => exact absurd (matches_of_decode hd) (hno i.opcode)

/-- Settles O5: the lines the assembler accepts are the commands' lines. -/
theorem assemblerNeverTruncates : Obligations.AssemblerNeverTruncates :=
  ⟨Instr.assemble_asm, fun _ _ => Asm.exists_of_assemble, fun _ => Asm.assemble_eq_none⟩

/-- Settles O4: each example is its command's word. -/
theorem exampleWordsDecode : Obligations.ExampleWordsDecode :=
  ⟨decode_encode (.gfExp 8), decode_encode (.gfMul 0x53 0xCA), decode_encode (.rsEncode 16 10),
    decode_encode (.bchFormat 1 0), decode_encode .pack, decode_encode (.queryEcc 5 3), decode_encode (.queryCap 1 1 1),
    decode_encode .placeFunction, decode_encode (.maskApply 1), decode_encode .serialize, decode_encode .generate⟩

end Sys2Proof

namespace Sys2Proof.Machine

theorem sequencerTurn_illegal {s : State} {e : DecodeError} (hb : s.status.busy = true)
    (hd : decode s.latch.word = .error e) : sequencerTurn s = .next (s.raise .illegalCmd) := by
  simp only [sequencerTurn, hb, if_true, runCommand, hd]

/-- Settles O7: the sequencer's turn raises `ERR_ILLEGAL_CMD` for a word that does not decode. -/
theorem illegalWordCompletes : Obligations.IllegalWordCompletes := fun s e hb hn hd =>
  ⟨s.raise .illegalCmd, (step_of_bus_nil hn).trans (sequencerTurn_illegal hb hd),
    failedWith_raise s (e := .illegalCmd) (by decide)⟩

end Sys2Proof.Machine
end

section
/-! PROOFS. The field of the `EXP` and `LOG` ROMs (40_galois R100 to R109): every nonzero byte is a power of `α`, a product
adds exponents, and doubling is linear over `xor`; and what GF_EXP, GF_LOG, GF_MUL and GF_DIV leave. -/

namespace Sys2Proof.Machine

/-! ### Doubling and the powers of `α` -/

/-- Doubling a byte in the field: a shift, and the reduction if a bit goes out (40_galois R100). -/
def double (x : Byte) : Byte := x <<< 1 ^^^ if x.msb then 0x1D else 0

theorem double_toNat : ∀ x : Byte, (double x).toNat = doubled x.toNat := by decide +kernel

theorem double_xor (x y : Byte) : double (x ^^^ y) = double x ^^^ double y := by
  have hreduce : (if (x ^^^ y).msb then 0x1D else 0 : Byte) =
      (if x.msb then 0x1D else 0) ^^^ if y.msb then 0x1D else 0 := by
    rw [BitVec.msb_xor]
    cases x.msb <;> cases y.msb <;> rfl
  simp only [double, hreduce, BitVec.shiftLeft_xor_distrib]
  ac_rfl

/-- `α^i` for every exponent, read from the ROM. -/
def alpha (i : Nat) : Byte := romExp (i % 255)

theorem alpha_congr {i j : Nat} (h : i % 255 = j % 255) : alpha i = alpha j := congrArg romExp h

theorem alpha_mod (i : Nat) : alpha (i % 255) = alpha i := alpha_congr (Nat.mod_mod i 255)

theorem romExp_eq_alpha {i : Nat} (h : i ≤ 255) : romExp i = alpha i := by
  obtain rfl | hlt := h.eq_or_lt
  · rfl
  · rw [alpha, Nat.mod_eq_of_lt hlt]

theorem double_romExp : ∀ i : Fin 255, double (romExp i) = romExp ((i + 1) % 255) := by decide +kernel

theorem double_alpha (i : Nat) : double (alpha i) = alpha (i + 1) := by
  rw [alpha, alpha, ← Nat.mod_add_mod]
  exact double_romExp ⟨i % 255, Nat.mod_lt _ (by decide)⟩

theorem alphaPow_succ (i : Nat) : alphaPow (i + 1) = doubled (alphaPow i) := by
  rw [alphaPow, List.range_succ, List.foldl_append]; rfl

/-- The ROM holds the powers the recurrence gives (40_galois R100). -/
theorem alpha_toNat (i : Nat) : (alpha i).toNat = alphaPow i := by
  induction i with
  | zero => rfl
  | succ i ih => rw [← double_alpha, double_toNat, ih, alphaPow_succ]

theorem eq_alpha_of_alphaPow {a : Byte} {i : Nat} (h : alphaPow i = a.toNat) : a = alpha i :=
  BitVec.eq_of_toNat_eq (h.symm.trans (alpha_toNat i).symm)

/-! ### Logarithms -/

theorem romLog_romExp : ∀ i : Fin 255, romLog (romExp i) = some i.val := by decide +kernel

theorem alpha_logRows : ∀ a : Byte, a ≠ 0 → alpha (romEntry logRows a.toNat) = a := by decide +kernel

/-- The logarithm takes the exponent in 0 to 254 (40_galois R101). -/
@[simp] theorem romLog_alpha (i : Nat) : romLog (alpha i) = some (i % 255) :=
  romLog_romExp ⟨i % 255, Nat.mod_lt _ (by decide)⟩

theorem romLog_zero : romLog 0 = none := rfl

theorem exists_alpha {a : Byte} (h : a ≠ 0) : ∃ i, a = alpha i := ⟨_, (alpha_logRows a h).symm⟩

/-- Every field element is 0 or a power of `α`. -/
theorem eq_zero_or_alpha (a : Byte) : a = 0 ∨ ∃ i, a = alpha i := (eq_or_ne a 0).imp_right exists_alpha

/-! ### Products and quotients by exponents -/

theorem gfMul_zero_left (b : Byte) : gfMul 0 b = 0 := rfl

theorem gfMul_zero_right (a : Byte) : gfMul a 0 = 0 := by
  rw [gfMul, romLog_zero]; cases romLog a <;> rfl

theorem gfMul_alpha (i j : Nat) : gfMul (alpha i) (alpha j) = alpha (i + j) := by
  simp only [gfMul, romLog_alpha]
  rw [← Nat.add_mod, alpha]

theorem gfDiv_zero_left {b : Byte} (h : b ≠ 0) : gfDiv 0 b = .ok 0 := by
  obtain ⟨j, rfl⟩ := exists_alpha h
  simp only [gfDiv, romLog_alpha, romLog_zero]

theorem gfDiv_alpha (i j : Nat) : gfDiv (alpha i) (alpha j) = .ok (alpha (i + 255 - j % 255)) := by
  simp only [gfDiv, romLog_alpha]
  exact congrArg Except.ok (alpha_congr (i := i % 255 + 255 - j % 255) (by omega))

/-- Multiplying by `α^i` is doubling `i` times. -/
theorem gfMul_alpha_succ (i : Nat) (b : Byte) : gfMul (alpha (i + 1)) b = double (gfMul (alpha i) b) := by
  obtain rfl | ⟨j, rfl⟩ := eq_zero_or_alpha b
  · rw [gfMul_zero_right, gfMul_zero_right]; rfl
  · rw [gfMul_alpha, gfMul_alpha, double_alpha, Nat.add_right_comm]

/-! ### The laws of the field (40_galois R109) -/

theorem gfMul_comm (a b : Byte) : gfMul a b = gfMul b a := by
  obtain rfl | ⟨i, rfl⟩ := eq_zero_or_alpha a
  · rw [gfMul_zero_left, gfMul_zero_right]
  obtain rfl | ⟨j, rfl⟩ := eq_zero_or_alpha b
  · rw [gfMul_zero_left, gfMul_zero_right]
  · rw [gfMul_alpha, gfMul_alpha, Nat.add_comm]

theorem gfMul_assoc (a b c : Byte) : gfMul (gfMul a b) c = gfMul a (gfMul b c) := by
  obtain rfl | ⟨i, rfl⟩ := eq_zero_or_alpha a
  · simp only [gfMul_zero_left]
  obtain rfl | ⟨j, rfl⟩ := eq_zero_or_alpha b
  · simp only [gfMul_zero_left, gfMul_zero_right]
  obtain rfl | ⟨k, rfl⟩ := eq_zero_or_alpha c
  · simp only [gfMul_zero_right]
  · simp only [gfMul_alpha, Nat.add_assoc]

theorem gfMul_one_left (a : Byte) : gfMul 1 a = a := by
  obtain rfl | ⟨i, rfl⟩ := eq_zero_or_alpha a
  · rfl
  · exact (gfMul_alpha 0 i).trans (congrArg alpha i.zero_add)

theorem gfMul_one_right (a : Byte) : gfMul a 1 = a := by rw [gfMul_comm, gfMul_one_left]

/-- Multiplying by a power of `α` is linear since doubling is. -/
theorem gfMul_xor (a b c : Byte) : gfMul a (b ^^^ c) = gfMul a b ^^^ gfMul a c := by
  obtain rfl | ⟨i, rfl⟩ := eq_zero_or_alpha a
  · simp only [gfMul_zero_left]; rfl
  · induction i with
    | zero => exact (gfMul_one_left _).trans (congrArg₂ _ (gfMul_one_left b).symm (gfMul_one_left c).symm)
    | succ i ih => simp only [gfMul_alpha_succ, ih, double_xor]

/-- A quotient times its divisor is the dividend. -/
theorem gfDiv_mul_cancel (a : Byte) {b : Byte} (h : b ≠ 0) : ∃ q, gfDiv a b = .ok q ∧ gfMul q b = a := by
  obtain ⟨j, rfl⟩ := exists_alpha h
  obtain rfl | ⟨i, rfl⟩ := eq_zero_or_alpha a
  · exact ⟨0, gfDiv_zero_left h, gfMul_zero_left _⟩
  · refine ⟨_, gfDiv_alpha i j, ?_⟩
    rw [gfMul_alpha]
    exact alpha_congr (by omega)

/-! ### Commands that give a result in `RES0` or fail -/

/-- A command whose one write is `RES0` completes with that value and leaves the memories (60_exceptions R310). -/
theorem exec_withRes0 {i : Instr} {s : State} {v : Nat} (h : command i s = .ok (s.withRes0 v)) :
    ∃ t, exec i s = .next t ∧ t.regs = { s.regs with res0 := BitVec.ofNat 32 v } ∧ Completed s t ∧ SameMemory s t :=
  ⟨_, exec_ok h, rfl, completedWith_complete rfl ⟨rfl, rfl, rfl, rfl⟩, fun r x => by simp⟩

/-- A command that fails with `ERR_DOMAIN` leaves everything but `STATUS` (60_exceptions R311, R319). -/
theorem exec_domain {i : Instr} {s : State} (h : command i s = .error .domain) :
    ∃ t, exec i s = .next t ∧ FailedWith s t 0x07 :=
  ⟨_, exec_error h, failedWith_raise s (e := .domain) (by decide)⟩

theorem command_gfLog_alpha (s : State) (i : Nat) : command (.gfLog (alpha i)) s = .ok (s.withRes0 (i % 255)) := by
  simp only [command, cmdGfLog, romLog_alpha]

/-- GF_DIV's result is the quotient, where there is one. -/
theorem command_gfDiv {a b q : Byte} (s : State) (h : gfDiv a b = .ok q) :
    command (.gfDiv a b) s = .ok (s.withRes0 q.toNat) := by
  rw [command, h]; rfl

/-! ### The statements -/

/-- Settles O18: the ROM holds the powers of the recurrence, and its logarithms are their exponents. -/
theorem gfExpAndLogResults : Obligations.GfExpAndLogResults := by
  refine fun s => ⟨fun a => ?_, fun a e he h => ?_, fun a ha => ?_, exec_domain rfl⟩
  · rw [← alpha_toNat, ← romExp_eq_alpha (Nat.le_of_lt_succ a.isLt)]
    exact exec_withRes0 rfl
  · have hlog := command_gfLog_alpha s e
    rw [Nat.mod_eq_of_lt (Nat.lt_succ_of_le he), ← eq_alpha_of_alphaPow h] at hlog
    exact exec_withRes0 hlog
  · obtain ⟨i, rfl⟩ := exists_alpha ha
    exact ⟨i % 255, by omega, by rw [← alpha_toNat, alpha_mod]⟩

/-- Settles O19: products add and quotients subtract the exponents, and 0 is met without a logarithm. -/
theorem gfMulAndDivResults : Obligations.GfMulAndDivResults := by
  refine fun s => ⟨fun a b hab => ?_, fun a b i j _ _ ha hb => ?_, fun b hb => ?_, fun a b i j _ hj ha hb => ?_,
    fun a => exec_domain rfl⟩
  · have hmul : gfMul a b = 0 := by
      obtain rfl | rfl := hab
      · exact gfMul_zero_left b
      · exact gfMul_zero_right a
    exact exec_withRes0 (v := 0) (by rw [command, hmul]; rfl)
  · obtain rfl := eq_alpha_of_alphaPow ha
    obtain rfl := eq_alpha_of_alphaPow hb
    rw [← alpha_toNat, alpha_mod, ← gfMul_alpha]
    exact exec_withRes0 rfl
  · exact exec_withRes0 (command_gfDiv s (gfDiv_zero_left hb))
  · obtain rfl := eq_alpha_of_alphaPow ha
    obtain rfl := eq_alpha_of_alphaPow hb
    have hdiv := gfDiv_alpha i j
    rw [Nat.mod_eq_of_lt (Nat.lt_succ_of_le hj)] at hdiv
    rw [← alpha_toNat, alpha_mod]
    exact exec_withRes0 (command_gfDiv s hdiv)

/-- Settles O20: the laws of the exponents and of doubling, carried over to products and quotients. -/
theorem fieldLaws : Obligations.FieldLaws := by
  refine ⟨gfMul_comm, gfMul_assoc, gfMul_xor, fun a => ⟨gfMul_one_right a, gfMul_zero_right a⟩,
    fun a b => gfDiv_mul_cancel a, fun i j hi hj => ?_⟩
  rw [romExp_eq_alpha (hi.trans (by decide)), romExp_eq_alpha (hj.trans (by decide)), gfMul_alpha, alpha]

end Sys2Proof.Machine
end

section
/-! PROOFS. Reed-Solomon (41_reed_solomon R120 to R127): values of polynomials given by their coefficients, the generator
polynomial and its roots, the shift-register division, and what RS_GENPOLY and RS_ENCODE leave. -/

namespace Sys2Proof.Machine

/-! ### Coefficient lists under `xor` (41_reed_solomon R120) -/

/- The library states these three with `0#8`; the model writes `0`. -/
theorem byte_xor_zero (a : Byte) : a ^^^ 0 = a := BitVec.xor_zero

theorem byte_zero_xor (a : Byte) : 0 ^^^ a = a := BitVec.zero_xor

theorem byte_xor_self (a : Byte) : a ^^^ a = 0 := BitVec.xor_self

theorem zipWith_xor_self (p : List Byte) : List.zipWith (· ^^^ ·) p p = List.replicate p.length 0 := by
  simp [List.zipWith_self]

theorem zipWith_xor_zeros (p : List Byte) : List.zipWith (· ^^^ ·) p (List.replicate p.length 0) = p := by
  refine List.ext_getElem (by simp) fun i _ _ => ?_
  rw [List.getElem_zipWith, List.getElem_replicate, byte_xor_zero]

theorem zipWith_xor_zipWith_xor (p q p' q' : List Byte) :
    List.zipWith (· ^^^ ·) (List.zipWith (· ^^^ ·) p q) (List.zipWith (· ^^^ ·) p' q') =
      List.zipWith (· ^^^ ·) (List.zipWith (· ^^^ ·) p p') (List.zipWith (· ^^^ ·) q q') := by
  refine List.ext_getElem (by simp; omega) fun i _ _ => ?_
  simp only [List.getElem_zipWith]
  ac_rfl

theorem gfMul_xor_left (a b c : Byte) : gfMul (a ^^^ b) c = gfMul a c ^^^ gfMul b c := by
  rw [gfMul_comm, gfMul_xor, gfMul_comm c a, gfMul_comm c b]

theorem gfMul_right_comm (a b c : Byte) : gfMul (gfMul a b) c = gfMul (gfMul a c) b := by
  rw [gfMul_assoc, gfMul_comm b c, gfMul_assoc]

/-! ### Values of polynomials (41_reed_solomon R120) -/

theorem polyAt_nil (x : Byte) : polyAt x [] = 0 := rfl

theorem polyAt_concat (x : Byte) (p : List Byte) (c : Byte) : polyAt x (p ++ [c]) = gfMul (polyAt x p) x ^^^ c := by
  simp [polyAt]

theorem polyAt_singleton (x c : Byte) : polyAt x [c] = c := by
  rw [← List.nil_append [c], polyAt_concat, polyAt_nil, gfMul_zero_left, byte_zero_xor]

theorem polyAt_zero_cons (x : Byte) (p : List Byte) : polyAt x (0 :: p) = polyAt x p := by
  simp only [polyAt, List.foldl_cons, gfMul_zero_left, byte_xor_zero]

theorem polyAt_zeros_append (x : Byte) (k : Nat) (p : List Byte) : polyAt x (List.replicate k 0 ++ p) = polyAt x p := by
  induction k with
  | zero => rfl
  | succ k ih => rw [List.replicate_succ, List.cons_append, polyAt_zero_cons, ih]

theorem polyAt_zeros (x : Byte) (k : Nat) : polyAt x (List.replicate k 0) = 0 := by
  rw [← List.append_nil (List.replicate k 0), polyAt_zeros_append, polyAt_nil]

/-- The value of a sum is the sum of the values. -/
theorem polyAt_xor (x : Byte) {p q : List Byte} (h : p.length = q.length) :
    polyAt x (List.zipWith (· ^^^ ·) p q) = polyAt x p ^^^ polyAt x q := by
  induction p using List.reverseRecOn generalizing q with
  | nil =>
    obtain rfl := List.length_eq_zero_iff.mp h.symm
    rw [List.zipWith_nil_left, polyAt_nil, byte_xor_self]
  | append_singleton p a ih =>
    obtain rfl | ⟨q, b, rfl⟩ := q.eq_nil_or_concat'
    · simp at h
    have hlen : p.length = q.length := by simpa using h
    rw [List.zipWith_append hlen, List.zipWith_cons_cons, List.zipWith_nil_left, polyAt_concat, polyAt_concat,
      polyAt_concat, ih hlen, gfMul_xor_left]
    ac_rfl

/-- The value of a multiple is the multiple of the value. -/
theorem polyAt_map_gfMul (x f : Byte) (p : List Byte) :
    polyAt x (p.map fun c => gfMul c f) = gfMul (polyAt x p) f := by
  induction p using List.reverseRecOn with
  | nil => rfl
  | append_singleton p c ih =>
    rw [List.map_append, List.map_singleton, polyAt_concat, polyAt_concat, ih, gfMul_xor_left, gfMul_right_comm]

/-! ### The generator polynomial (41_reed_solomon R121, R122) -/

/-- One step of the iteration multiplies by `x - α^i`. -/
theorem polyAt_genPolyStep (x : Byte) (g : List Byte) (i : Nat) :
    polyAt x (genPolyStep g i) = gfMul (polyAt x g) (x ^^^ romExp i) := by
  rw [genPolyStep, polyAt_xor x (by simp), polyAt_concat, polyAt_zero_cons, polyAt_map_gfMul, gfMul_xor, byte_xor_zero]

theorem polyAt_genPoly_succ (x : Byte) (n : Nat) :
    polyAt x (genPoly (n + 1)) = gfMul (polyAt x (genPoly n)) (x ^^^ romExp n) := by
  rw [genPoly_succ, polyAt_genPolyStep]

/-- The value of the generator is the product of its factors' values. -/
theorem polyAt_genPoly (x : Byte) (n : Nat) :
    polyAt x (genPoly n) = (List.range n).foldl (fun acc i => gfMul acc (x ^^^ romExp i)) 1 := by
  induction n with
  | zero => exact polyAt_singleton x 1
  | succ n ih => rw [polyAt_genPoly_succ, ih, List.range_succ, List.foldl_append]; rfl

/-- Every `α^i` with `i < n` is a root of the generator. -/
theorem polyAt_romExp_genPoly {n i : Nat} (h : i < n) : polyAt (romExp i) (genPoly n) = 0 := by
  induction n with
  | zero => omega
  | succ n ih =>
    rw [polyAt_genPoly_succ]
    obtain rfl | hlt := Nat.eq_or_lt_of_le (Nat.le_of_lt_succ h)
    · rw [byte_xor_self, gfMul_zero_right]
    · rw [ih hlt, gfMul_zero_left]

theorem genPolyStep_cons (a : Byte) (g : List Byte) (i : Nat) : ∃ g', genPolyStep (a :: g) i = a :: g' :=
  ⟨_, by rw [genPolyStep, List.cons_append, List.zipWith_cons_cons, byte_xor_zero]⟩

/-- The generator is monic. -/
theorem genPoly_eq_one_cons (n : Nat) : genPoly n = 1 :: (genPoly n).tail := by
  induction n with
  | zero => rfl
  | succ n ih =>
    obtain ⟨g, hg⟩ := genPolyStep_cons 1 (genPoly n).tail n
    rw [genPoly_succ, ih, hg, List.tail_cons]

/-- The coefficients after one step of the iteration. -/
theorem genPolyStep_getD (g : List Byte) (i : Nat) {j : Nat} (h : j ≤ g.length) :
    (genPolyStep g i).getD j 0 = g.getD j 0 ^^^ if j = 0 then 0 else gfMul (g.getD (j - 1) 0) (romExp i) := by
  have hpad : (g ++ [0]).getD j 0 = g.getD j 0 := by
    obtain rfl | hlt := h.eq_or_lt
    · simp
    · exact List.getD_append _ _ _ _ hlt
  rw [← hpad, List.getD_eq_getElem _ _ (by simpa using Nat.lt_succ_of_le h),
    List.getD_eq_getElem (g ++ [0]) _ (by simpa using Nat.lt_succ_of_le h)]
  cases j with
  | zero => simp [genPolyStep]
  | succ j => rw [Nat.add_sub_cancel, List.getD_eq_getElem g 0 h]; simp [genPolyStep]

/-- Settles O21: each step of the iteration multiplies the value by one factor and keeps the leading 1. -/
theorem generatorPolynomialIsTheProduct : Obligations.GeneratorPolynomialIsTheProduct := by
  refine fun n _ => ⟨genPoly_length n, ?_, fun x => polyAt_genPoly x n, rfl, fun j hj => ?_, by decide +kernel⟩
  · rw [genPoly_eq_one_cons, List.getD_cons_zero]
  · rw [genPoly_succ, genPolyStep_getD _ _ (by simpa using hj)]

/-! ### The shift-register division (41_reed_solomon R123, R124) -/

theorem rsEcc_concat (d : List Byte) (b : Byte) (n : Nat) :
    rsEcc (d ++ [b]) n = rsStep (genPoly n).tail (rsEcc d n) b := by simp [rsEcc]

/-- A step shifts the remainder and adds a multiple of the generator. -/
theorem rsStep_eq (g r : List Byte) (b : Byte) :
    rsStep g r b = List.zipWith (· ^^^ ·) (r.tail ++ [0]) (g.map fun c => gfMul c (b ^^^ r.headD 0)) := by
  rw [List.zipWith_map_right]; rfl

/-- A step is linear in the remainder and the data byte. -/
theorem rsStep_xor (g : List Byte) {r r' : List Byte} (b b' : Byte) (h : r.length = r'.length) :
    rsStep g (List.zipWith (· ^^^ ·) r r') (b ^^^ b') =
      List.zipWith (· ^^^ ·) (rsStep g r b) (rsStep g r' b') := by
  have hshift : (List.zipWith (· ^^^ ·) r r').tail ++ [0] =
      List.zipWith (· ^^^ ·) (r.tail ++ [0]) (r'.tail ++ [0]) := by
    rw [List.zipWith_append (by simp [h]), List.tail_zipWith]; rfl
  have hfactor : b ^^^ b' ^^^ (List.zipWith (· ^^^ ·) r r').headD 0 = (b ^^^ r.headD 0) ^^^ (b' ^^^ r'.headD 0) := by
    cases r <;> cases r' <;> simp at h ⊢
    ac_rfl
  have hmultiple (f f' : Byte) : (g.map fun c => gfMul c (f ^^^ f')) =
      List.zipWith (· ^^^ ·) (g.map fun c => gfMul c f) (g.map fun c => gfMul c f') := by
    simp only [List.zipWith_map, List.zipWith_self, gfMul_xor]
  simp only [rsStep_eq, hshift, hfactor, hmultiple]
  exact zipWith_xor_zipWith_xor _ _ _ _

/-- The ECC codewords are linear in the data (41_reed_solomon R125). -/
theorem rsEcc_xor {d d' : List Byte} (n : Nat) (h : d.length = d'.length) :
    rsEcc (List.zipWith (· ^^^ ·) d d') n = List.zipWith (· ^^^ ·) (rsEcc d n) (rsEcc d' n) := by
  induction d using List.reverseRecOn generalizing d' with
  | nil =>
    obtain rfl := List.length_eq_zero_iff.mp h.symm
    simp [rsEcc]
  | append_singleton d b ih =>
    obtain rfl | ⟨d', b', rfl⟩ := d'.eq_nil_or_concat'
    · simp at h
    have hlen : d.length = d'.length := by simpa using h
    rw [List.zipWith_append hlen, List.zipWith_cons_cons, List.zipWith_nil_left, rsEcc_concat, rsEcc_concat,
      rsEcc_concat, ih hlen, rsStep_xor _ _ _ (by simp)]

/-- All-zero data is a sum of data with itself, so its ECC codewords are too. -/
theorem rsEcc_zeros (k n : Nat) : rsEcc (List.replicate k 0) n = List.replicate n 0 := by
  have h := rsEcc_xor (d := List.replicate k 0) n rfl
  rwa [zipWith_xor_self, zipWith_xor_self, List.length_replicate, rsEcc_length] at h

/-- The generator of degree 1 is `x + 1`, so the one ECC codeword is the sum of the data (41_reed_solomon R125). -/
theorem rsEcc_one (d : List Byte) : rsEcc d 1 = [d.foldl (fun acc x => acc ^^^ x) 0] := by
  induction d using List.reverseRecOn with
  | nil => rfl
  | append_singleton d b ih =>
    have hgen : (genPoly 1).tail = [1] := by decide +kernel
    rw [rsEcc_concat, hgen, ih, rsStep_eq, List.foldl_append]
    simp only [List.tail_cons, List.nil_append, List.headD_cons, List.map_cons, List.map_nil, List.zipWith_cons_cons,
      List.zipWith_nil_left, List.foldl_cons, List.foldl_nil, gfMul_one_left, byte_zero_xor, BitVec.xor_comm b]

/-! ### Divisibility of the codeword (41_reed_solomon R125) -/

/-- A step of the division keeps a root: the data and the remainder after it are those before it, shifted, plus a
multiple of the divisor. -/
theorem polyAt_append_rsStep {x : Byte} {g p r : List Byte} (a b : Byte) (hg : polyAt x (1 :: g) = 0)
    (hlen : g.length = r.length + 1) (hr : polyAt x (p ++ a :: r) = 0) :
    polyAt x (p ++ [b] ++ rsStep g (a :: r) b) = 0 := by
  have hsum : p ++ [b] ++ rsStep g (a :: r) b =
      List.zipWith (· ^^^ ·) ((p ++ a :: r) ++ [0])
        (List.replicate p.length 0 ++ (1 :: g).map fun c => gfMul c (b ^^^ a)) := by
    rw [List.append_assoc p (a :: r), List.zipWith_append (by simp), zipWith_xor_zeros, rsStep_eq, List.append_assoc p]
    simp only [List.cons_append, List.nil_append, List.map_cons, List.zipWith_cons_cons, List.tail_cons, List.headD_cons,
      gfMul_one_left, BitVec.xor_comm b, ← BitVec.xor_assoc, byte_xor_self, byte_zero_xor]
  rw [hsum, polyAt_xor x (by simp [hlen]), polyAt_concat, hr, polyAt_zeros_append, polyAt_map_gfMul, hg,
    gfMul_zero_left, gfMul_zero_left]
  rfl

/-- Data followed by its ECC codewords vanishes at every root of the generator. -/
theorem polyAt_append_rsEcc {x : Byte} {n : Nat} (d : List Byte) (hn : 0 < n) (hx : polyAt x (genPoly n) = 0) :
    polyAt x (d ++ rsEcc d n) = 0 := by
  induction d using List.reverseRecOn with
  | nil => exact polyAt_zeros x n
  | append_singleton d b ih =>
    rw [genPoly_eq_one_cons] at hx
    obtain ⟨a, r, hr⟩ := List.exists_cons_of_length_pos (l := rsEcc d n) (by simpa using hn)
    have hlen : r.length + 1 = n := by simpa [hr] using rsEcc_length d n
    rw [rsEcc_concat, hr]
    exact polyAt_append_rsStep a b hx (by simp [hlen]) (hr ▸ ih)

/-- Settles O24: the division is linear, and each of its steps keeps the roots of the generator. -/
theorem rsCodewordsAreDivisible : Obligations.RsCodewordsAreDivisible :=
  ⟨rsEcc_length, rsEcc_zeros, rsEcc_one, fun _ _ n => rsEcc_xor n,
    fun d _ _ _ hi => polyAt_append_rsEcc d (Nat.zero_lt_of_lt hi) (polyAt_romExp_genPoly hi)⟩

/-! ### The commands (41_reed_solomon R126, R127) -/

/-- A command whose writes are bytes of a memory of whole bytes and registers completes with them and leaves the other
bytes (60_exceptions R310). -/
theorem exec_writeBytes_setRegs {i : Instr} {s : State} {r : Region} {a : Nat} {bs : List Byte} {f : Regs → Regs}
    (hr : memBits r = 0xFF) (h : command i s = .ok ((s.writeBytes r a bs).setRegs f)) :
    ∃ t, exec i s = .next t ∧ t.regs = f s.regs ∧ Completed s t ∧
      (∀ j, j < bs.length → t.readByte r (a + j) = bs.getD j 0) ∧ SameOutside s t r a bs.length := by
  refine ⟨_, exec_ok h, by simp, completedWith_complete (by simp) ⟨by simp, by simp, by simp, by simp⟩,
    fun j hj => ?_, fun q x hx => ?_⟩
  · rw [State.readByte_complete, State.readByte_setRegs, State.readByte_writeBytes_inside s r a bs j hj, hr,
      List.getD_eq_getElem _ _ hj]
    exact BitVec.and_allOnes
  · rw [State.readByte_complete, State.readByte_setRegs, State.readByte_writeBytes_outside s r q a bs x hx]

/-- A command that fails with another error than `ERR_CAPACITY` leaves everything but `STATUS` (60_exceptions R311). -/
theorem exec_failed {i : Instr} {s : State} {e : CmdError} (h : command i s = .error e) (he : e.code ≠ 0x04) :
    ∃ t, exec i s = .next t ∧ FailedWith s t e.code :=
  ⟨_, exec_error h, failedWith_raise s he⟩

theorem cmdRsGenpoly_eq_error {n : Byte} {s : State} (h : n = 0 ∨ s.latch.arg1.toNat + n.toNat + 1 > 8192) :
    cmdRsGenpoly n s = .error .arg := by
  simp only [cmdRsGenpoly, raiseIf_bind, decide_eq_true_eq]
  split_ifs with hn hdst
  · rfl
  · rfl
  · exact absurd (h.resolve_left hn) hdst

theorem cmdRsEncode_eq_error {k n : Byte} {s : State}
    (h : n = 0 ∨ s.latch.arg0.toNat + k.toNat > 8192 ∨ s.latch.arg1.toNat + n.toNat > 8192) :
    cmdRsEncode k n s = .error .arg := by
  simp only [cmdRsEncode, raiseIf_bind, decide_eq_true_eq]
  split_ifs with hn hsrc hdst
  · rfl
  · rfl
  · rfl
  · exact absurd ((h.resolve_left hn).resolve_left hsrc) hdst

/-- Settles O22: the command writes the generator's `n + 1` coefficients. -/
theorem rsGenpolyResult : Obligations.RsGenpolyResult := by
  refine fun n s => ⟨fun hn hfit => ?_, fun h => exec_failed (i := .rsGenpoly n) (cmdRsGenpoly_eq_error h) (by decide)⟩
  obtain ⟨t, hexec, hregs, hdone, hin, hout⟩ :=
    exec_writeBytes_setRegs (i := .rsGenpoly n) rfl (cmdRsGenpoly_eq_ok.mpr ⟨hn, hfit, rfl⟩)
  rw [genPoly_length] at hin hout
  exact ⟨t, hexec, hregs, hdone, fun j hj => hin j (Nat.lt_succ_of_le hj), hout⟩

/-- Settles O23: the command writes the ECC codewords of the bytes it read. -/
theorem rsEncodeResult : Obligations.RsEncodeResult := by
  refine fun k n s => ⟨fun hn hsrc hdst => ?_,
    fun h => exec_failed (i := .rsEncode k n) (cmdRsEncode_eq_error h) (by decide)⟩
  have hexec := exec_writeBytes_setRegs (i := .rsEncode k n) rfl (cmdRsEncode_eq_ok.mpr ⟨hn, hsrc, hdst, rfl⟩)
  rwa [rsEcc_length, State.readBytes_eq] at hexec

end Sys2Proof.Machine
end

section
/-! PROOFS. BCH (42_bch R140 to R147): the remainder, the word of data and remainder as a multiple of the generator,
and what BCH_FORMAT and BCH_VERSION leave. -/

namespace Sys2Proof.Machine

/-! ### The division from the leading bit down (42_bch R140) -/

/-- One step of the division: `g` under bit `r + j`, if that bit is set. -/
def bchStep (g r j t : Nat) : Nat := if t.testBit (r + j) then t ^^^ g <<< j else t

/-- The division's last `n` steps, at the bits `r + n - 1` down to `r`. -/
def bchDivide (g r : Nat) : Nat → Nat → Nat
  | 0, t => t
  | j + 1, t => bchDivide g r j (bchStep g r j t)

theorem bchRem_eq_bchDivide (d k g r : Nat) : bchRem d k g r = bchDivide g r k (d <<< r) := by
  unfold bchRem
  generalize d <<< r = t
  induction k generalizing t with
  | zero => rfl
  | succ k ih => rw [List.range_succ, List.reverse_append]; exact ih (bchStep g r k t)

theorem bchStep_of_testBit {g r j t : Nat} (h : t.testBit (r + j) = true) : bchStep g r j t = t ^^^ g <<< j := if_pos h

theorem bchStep_of_testBit_false {g r j t : Nat} (h : t.testBit (r + j) = false) : bchStep g r j t = t :=
  if_neg (ne_true_of_eq_false h)

theorem bchStep_xor (g r j t u : Nat) : bchStep g r j (t ^^^ u) = bchStep g r j t ^^^ bchStep g r j u := by
  unfold bchStep
  rw [Nat.testBit_xor]
  cases t.testBit (r + j) <;> cases u.testBit (r + j)
  case false.false => rfl
  case false.true => exact Nat.xor_assoc t u _
  case true.false => exact Nat.xor_right_comm t u _
  case true.true =>
    show t ^^^ u = (t ^^^ g <<< j) ^^^ (u ^^^ g <<< j)
    rw [Nat.xor_comm u, Nat.xor_assoc, Nat.xor_xor_cancel_left]

theorem bchDivide_xor (g r n t u : Nat) : bchDivide g r n (t ^^^ u) = bchDivide g r n t ^^^ bchDivide g r n u := by
  induction n generalizing t u with
  | zero => rfl
  | succ n ih => rw [bchDivide, bchStep_xor, ih]; rfl

theorem bchDivide_zero_right (g r n : Nat) : bchDivide g r n 0 = 0 := by
  induction n with
  | zero => rfl
  | succ n ih => rw [bchDivide, bchStep_of_testBit_false (Nat.zero_testBit _), ih]

/-! ### Generators of degree `r` -/

/-- `g` is written as an `(r + 1)`-bit value with bit `r` set (42_bch R140). -/
def HasDegree (g r : Nat) : Prop := g.testBit r = true ∧ g < 2 ^ (r + 1)

theorem HasDegree.testBit_shiftLeft_same {g r : Nat} (hg : HasDegree g r) (j : Nat) :
    (g <<< j).testBit (r + j) = true := by
  simpa using hg.1

theorem HasDegree.testBit_shiftLeft_of_lt {g r i j : Nat} (hg : HasDegree g r) (h : j < i) :
    (g <<< j).testBit (r + i) = false := by
  have hbit : g.testBit (r + i - j) = false :=
    Nat.testBit_eq_false_of_lt (hg.2.trans_le (Nat.pow_le_pow_right (by decide) (by omega)))
  rw [Nat.testBit_shiftLeft, hbit, Bool.and_false]

/-- A step clears the bit it stands at. -/
theorem HasDegree.testBit_bchStep {g r : Nat} (hg : HasDegree g r) (j t : Nat) :
    (bchStep g r j t).testBit (r + j) = false := by
  cases h : t.testBit (r + j) with
  | false => rw [bchStep_of_testBit_false h, h]
  | true => rw [bchStep_of_testBit h, Nat.testBit_xor, h, hg.testBit_shiftLeft_same, Bool.xor_self]

theorem HasDegree.bchStep_lt {g r j t : Nat} (hg : HasDegree g r) (ht : t < 2 ^ (r + (j + 1))) :
    bchStep g r j t < 2 ^ (r + j) := by
  refine Nat.lt_pow_two_of_testBit _ fun i hi => ?_
  obtain rfl | hlt := hi.eq_or_lt
  · exact hg.testBit_bchStep j t
  · obtain ⟨n, rfl⟩ := Nat.exists_eq_add_of_le (Nat.le_of_add_right_le hi)
    have htn : t.testBit (r + n) = false :=
      Nat.testBit_eq_false_of_lt (ht.trans_le (Nat.pow_le_pow_right (by decide) hlt))
    unfold bchStep
    split
    · rw [Nat.testBit_xor, htn, hg.testBit_shiftLeft_of_lt (Nat.lt_of_add_lt_add_left hlt), Bool.xor_self]
    · exact htn

theorem HasDegree.bchDivide_lt {g r n t : Nat} (hg : HasDegree g r) (ht : t < 2 ^ (r + n)) :
    bchDivide g r n t < 2 ^ r := by
  induction n generalizing t with
  | zero => exact ht
  | succ n ih => exact ih (hg.bchStep_lt ht)

/-- A division that begins at or above the leading bit of a shifted generator leaves nothing of it. -/
theorem HasDegree.bchDivide_shiftLeft {g r n j : Nat} (hg : HasDegree g r) (hj : j < n) :
    bchDivide g r n (g <<< j) = 0 := by
  induction n with
  | zero => omega
  | succ n ih =>
    rw [bchDivide]
    obtain rfl | hlt := (Nat.le_of_lt_succ hj).eq_or_lt
    · rw [bchStep_of_testBit (hg.testBit_shiftLeft_same j), Nat.xor_self, bchDivide_zero_right]
    · rw [bchStep_of_testBit_false (hg.testBit_shiftLeft_of_lt hlt), ih hlt]

/-- What one step takes away is nothing or a shifted generator, so a long enough division leaves nothing of it. -/
theorem HasDegree.bchDivide_step {g r j n s : Nat} (hg : HasDegree g r) (t : Nat) (h : j + s < n) :
    bchDivide g r n ((t ^^^ bchStep g r j t) <<< s) = 0 := by
  unfold bchStep
  split
  · rw [Nat.xor_xor_cancel_left, ← Nat.shiftLeft_add, hg.bchDivide_shiftLeft h]
  · rw [Nat.xor_self, Nat.zero_shiftLeft, bchDivide_zero_right]

/-- The dividend minus its remainder is a multiple of the generator, step by step of the division (42_bch R143). -/
theorem HasDegree.bchDivide_xor_remainder {g r k n s : Nat} (hg : HasDegree g r) (t : Nat) (h : k + s ≤ n) :
    bchDivide g r n ((t ^^^ bchDivide g r k t) <<< s) = 0 := by
  induction k generalizing t with
  | zero => rw [bchDivide, Nat.xor_self, Nat.zero_shiftLeft, bchDivide_zero_right]
  | succ k ih =>
    have hsplit : t ^^^ bchDivide g r (k + 1) t =
        (t ^^^ bchStep g r k t) ^^^ (bchStep g r k t ^^^ bchDivide g r k (bchStep g r k t)) := by
      rw [Nat.xor_assoc, Nat.xor_xor_cancel_left]; rfl
    rw [hsplit, Nat.shiftLeft_xor_distrib, bchDivide_xor, hg.bchDivide_step t (by omega), ih _ (by omega), Nat.xor_self]

/-! ### The word of data and remainder (42_bch R142, R144) -/

theorem shiftLeft_or_eq_xor_of_lt {b i : Nat} (hb : b < 2 ^ i) (a : Nat) : a <<< i ||| b = a <<< i ^^^ b := by
  refine Nat.eq_of_testBit_eq fun n => ?_
  rw [Nat.testBit_or, Nat.testBit_xor, Nat.testBit_shiftLeft]
  by_cases hn : i ≤ n
  · rw [Nat.testBit_eq_false_of_lt (hb.trans_le (Nat.pow_le_pow_right (by decide) hn)), Bool.or_false, Bool.xor_false]
  · rw [decide_eq_false hn, Bool.false_and, Bool.false_or, Bool.false_xor]

/-- The data bits with their check bits below them. -/
def bchWord (d k g r : Nat) : Nat := d * 2 ^ r + bchRem d k g r

theorem HasDegree.bchRem_lt {d k g r : Nat} (hg : HasDegree g r) (hd : d < 2 ^ k) : bchRem d k g r < 2 ^ r := by
  rw [bchRem_eq_bchDivide]
  exact hg.bchDivide_lt (by rw [Nat.shiftLeft_eq, Nat.add_comm, Nat.pow_add]; gcongr)

theorem HasDegree.bchWord_eq_or {d k g r : Nat} (hg : HasDegree g r) (hd : d < 2 ^ k) :
    d <<< r ||| bchRem d k g r = bchWord d k g r := by
  rw [← Nat.shiftLeft_add_eq_or_of_lt (hg.bchRem_lt hd), Nat.shiftLeft_eq, bchWord]

theorem HasDegree.bchWord_lt {d k g r : Nat} (hg : HasDegree g r) (hd : d < 2 ^ k) :
    bchWord d k g r < 2 ^ (k + r) := by
  have hrem := hg.bchRem_lt hd
  calc bchWord d k g r < (d + 1) * 2 ^ r := by rw [bchWord, Nat.succ_mul]; omega
    _ ≤ 2 ^ k * 2 ^ r := Nat.mul_le_mul_right _ hd
    _ = 2 ^ (k + r) := (Nat.pow_add 2 k r).symm

/-- The word is a multiple of the generator (42_bch R143). -/
theorem HasDegree.bchRem_bchWord {d k g r : Nat} (hg : HasDegree g r) (hd : d < 2 ^ k) :
    bchRem (bchWord d k g r) (k + r) g r = 0 := by
  rw [← hg.bchWord_eq_or hd, shiftLeft_or_eq_xor_of_lt (hg.bchRem_lt hd), bchRem_eq_bchDivide d, bchRem_eq_bchDivide]
  exact hg.bchDivide_xor_remainder _ le_rfl

/-! ### The two strings (42_bch R141, R142, R144) -/

theorem hasDegree_formatGenerator : HasDegree 0x537 10 := ⟨by decide, by decide⟩

theorem hasDegree_versionGenerator : HasDegree 0x1F25 12 := ⟨by decide, by decide⟩

theorem formatData_lt (e : BitVec 2) (m : BitVec 3) : e.toNat * 8 + m.toNat < 2 ^ 5 := by omega

theorem formatString_toNat (e : BitVec 2) (m : BitVec 3) :
    (formatString e m).toNat = bchWord (e.toNat * 8 + m.toNat) 5 0x537 10 ^^^ 0x5412 := by
  have hdata : e.toNat <<< 3 ||| m.toNat = e.toNat * 8 + m.toNat := by
    rw [← Nat.shiftLeft_add_eq_or_of_lt m.isLt, Nat.shiftLeft_eq]
  have hlt := hasDegree_formatGenerator.bchWord_lt (formatData_lt e m)
  rw [formatString, hdata, hasDegree_formatGenerator.bchWord_eq_or (formatData_lt e m), BitVec.toNat_ofNat,
    Nat.mod_eq_of_lt (Nat.xor_lt_two_pow hlt (by decide))]

theorem versionString_toNat (v : BitVec 6) : (versionString v).toNat = bchWord v.toNat 6 0x1F25 12 := by
  rw [versionString, hasDegree_versionGenerator.bchWord_eq_or v.isLt, BitVec.toNat_ofNat,
    Nat.mod_eq_of_lt (hasDegree_versionGenerator.bchWord_lt v.isLt)]

/-! ### The statement -/

/-- Settles O25: each string is a word of data and remainder, the format string under its mask, and such a word is a
multiple of the generator. -/
theorem bchStringsAndIntegrity : Obligations.BchStringsAndIntegrity := by
  refine ⟨fun e m s => ?_, fun v s => ?_⟩
  · obtain ⟨t, hexec, hregs, hdone, hmem⟩ := exec_withRes0 (i := .bchFormat e m) (s := s) rfl
    have hres : t.regs.res0.toNat = bchWord (e.toNat * 8 + m.toNat) 5 0x537 10 ^^^ 0x5412 := by
      rw [hregs, BitVec.ofNat_toNat, BitVec.toNat_setWidth_of_le (by decide), formatString_toNat]
    refine ⟨t, hexec, by rw [hregs, formatString_toNat]; rfl, hdone, hmem, ?_⟩
    rw [hres, Nat.xor_xor_cancel_right]
    exact hasDegree_formatGenerator.bchRem_bchWord (formatData_lt e m)
  · obtain ⟨t, hexec, hregs, hdone, hmem⟩ := exec_withRes0 (i := .bchVersion v) (s := s) rfl
    have hres : t.regs.res0.toNat = bchWord v.toNat 6 0x1F25 12 := by
      rw [hregs, BitVec.ofNat_toNat, BitVec.toNat_setWidth_of_le (by decide), versionString_toNat]
    refine ⟨t, hexec, by rw [hregs, versionString_toNat]; rfl, hdone, hmem, ?_⟩
    rw [hres]
    exact hasDegree_versionGenerator.bchRem_bchWord v.isLt

end Sys2Proof.Machine
end

section
/-! PROOFS. Mode selection and version selection (43_bitstream R160 to R163, R174, R175, 60_exceptions R314): the
escalation scan as two class tests, the version the two searches give, and what MODE_SELECT and VERSION_SELECT leave. -/

namespace Sys2Proof.Machine

/-! ### Commands that write registers only -/

/-- A command whose writes are registers completes with them and leaves the memories (60_exceptions R310). -/
theorem exec_setRegs {i : Instr} {s : State} {f : Regs → Regs} (h : command i s = .ok (s.setRegs f)) :
    ∃ t, exec i s = .next t ∧ t.regs = f s.regs ∧ Completed s t ∧ SameMemory s t :=
  ⟨_, exec_ok h, rfl, completedWith_complete rfl ⟨rfl, rfl, rfl, rfl⟩, fun r x => by simp⟩

/-! ### The character classes (43_bitstream R160, R161) -/

theorem inClass_numeric (b : Byte) : inClass .numeric b = numericByte b := by
  simp [inClass, isNumeric, numericByte]

theorem inClass_alphanumeric : ∀ b : Byte, inClass .alphanumeric b = alphanumericByte b := by decide +kernel

theorem alphanumericByte_of_numericByte {b : Byte} (h : numericByte b = true) : alphanumericByte b = true := by
  simp only [numericByte, alphanumericByte, decide_eq_true_eq] at h ⊢
  exact .inl h

/-! ### The escalation scan (43_bitstream R162) -/

theorem escalate_byte (bs : List Byte) : escalate .byte bs = .byte := by cases bs <;> rfl

theorem escalate_alphanumeric (bs : List Byte) :
    escalate .alphanumeric bs = if bs.all alphanumericByte then .alphanumeric else .byte := by
  induction bs with
  | nil => rfl
  | cons b bs ih =>
    rw [escalate, inClass_alphanumeric, ih, List.all_cons]
    cases alphanumericByte b <;> simp

theorem escalate_numeric (bs : List Byte) :
    escalate .numeric bs =
      if bs.all numericByte then .numeric else if bs.all alphanumericByte then .alphanumeric else .byte := by
  induction bs with
  | nil => rfl
  | cons b bs ih =>
    rw [escalate, inClass_numeric, inClass_alphanumeric, ih, escalate_alphanumeric, List.all_cons, List.all_cons]
    cases hn : numericByte b with
    | true => simp [alphanumericByte_of_numericByte hn]
    | false => cases alphanumericByte b <;> simp

/-- The selected mode is the first one whose class holds every byte (43_bitstream R162). -/
theorem modeValue_selectMode (bs : List Byte) (force : Bool) :
    modeValue (selectMode bs force) =
      if force = true then 4 else if bs.all numericByte = true then 1
      else if bs.all alphanumericByte = true then 2 else 4 := by
  rw [selectMode, escalate_numeric]
  split_ifs <;> rfl

theorem State.input_all (s : State) (p : Byte → Bool) :
    s.input.all p = (List.range s.inLen).all fun j => p (s.readByte .inp j) := by
  simp [State.input, State.readBytes_eq, Function.comp_def]

/-- Settles O26: the scan gives the first class that holds every byte, and its only error is the length test. -/
theorem modeSelectResult : Obligations.ModeSelectResult := by
  refine fun s => ⟨fun hlen => ?_, fun hlen => ?_⟩
  · obtain ⟨t, hexec, hregs, hdone, hmem⟩ := exec_setRegs (i := .modeSelect) (cmdModeSelect_eq_ok.mpr ⟨hlen, rfl⟩)
    rw [modeValue_selectMode, State.input_all, State.input_all] at hregs
    exact ⟨t, hexec, hregs, hdone, hmem⟩
  · refine exec_failed (i := .modeSelect) (e := .arg) ?_ (by decide)
    rw [command, cmdModeSelect, raiseIf_bind, if_pos (by simpa [State.inLen] using hlen)]

/-! ### The capacities (44_blocks R202) -/

theorem capTab_steps : ∀ v : Fin 39, ∀ e ∈ [EccLevel.L, .M, .Q, .H], ∀ m ∈ [Mode.numeric, .alphanumeric, .byte],
    capTab (v + 1) e m ≤ capTab (v + 2) e m := by decide +kernel

/-- The capacity does not fall from a version to a later one. -/
theorem capTab_mono {u v : Nat} (e : EccLevel) (m : Mode) (hu : 1 ≤ u) (huv : u ≤ v) (hv : v ≤ 40) :
    capTab u e m ≤ capTab v e m := by
  induction v, huv using Nat.le_induction with
  | base => exact le_rfl
  | succ v huv ih =>
    have hstep := capTab_steps ⟨v - 1, by omega⟩ e (by cases e <;> simp) m (by cases m <;> simp)
    rw [show v - 1 + 1 = v by omega, show v - 1 + 2 = v + 1 by omega] at hstep
    exact (ih (by omega)).trans hstep

/-- A capacity fits its field in `ERRINFO1` (10_state R39). -/
theorem capTab_lt {v : Nat} (e : EccLevel) (m : Mode) (h1 : 1 ≤ v) (h2 : v ≤ 40) : capTab v e m < 2 ^ 16 := by
  have hmax : capTab 40 e m < 2 ^ 16 := by cases e <;> cases m <;> decide
  exact (capTab_mono e m h1 h2 le_rfl).trans_lt hmax

/-! ### The chosen version (43_bitstream R174) -/

/-- The capacity found first is met by exactly the versions from it on. -/
theorem minVersion_eq_some {e : EccLevel} {m : Mode} {n vmin : Nat} (h : minVersion e m n = some vmin) :
    1 ≤ vmin ∧ vmin ≤ 40 ∧ ∀ v, 1 ≤ v → v ≤ 40 → (n ≤ capTab v e m ↔ vmin ≤ v) := by
  simp only [minVersion, List.find?_range'_eq_some, List.mem_range'_1, decide_eq_true_eq, Bool.not_eq_true',
    decide_eq_false_iff_not] at h
  obtain ⟨hcap, ⟨h1, h2⟩, hfirst⟩ := h
  refine ⟨h1, by omega, fun v hv1 hv2 => ⟨fun hn => ?_, fun hle => hcap.trans (capTab_mono e m h1 hle hv2)⟩⟩
  by_contra hlt
  exact hfirst v hv1 (by omega) hn

theorem minVersion_eq_none {e : EccLevel} {m : Mode} {n v : Nat} (h : minVersion e m n = none) (h1 : 1 ≤ v)
    (h2 : v ≤ 40) : ¬n ≤ capTab v e m := by
  simp only [minVersion, List.find?_range'_eq_none, Bool.not_eq_true', decide_eq_false_iff_not] at h
  exact h v h1 (by omega)

/-- The fit of a version by the two tests the choice makes. -/
theorem versionFits_iff {b : Bool} {e : EccLevel} {m : Mode} {n vmin v : Nat} (h : minVersion e m n = some vmin) :
    VersionFits b e m n v ↔ vmin ≤ v ∧ v ≤ 40 ∧ streamFits b e m n v = true := by
  obtain ⟨h1, -, hcap⟩ := minVersion_eq_some h
  simp only [VersionFits, streamFits, decide_eq_true_eq]
  constructor
  · rintro ⟨hv1, hv2, hn, hs⟩
    exact ⟨(hcap v hv1 hv2).mp hn, hv2, hs⟩
  · rintro ⟨hle, hv2, hs⟩
    exact ⟨h1.trans hle, hv2, (hcap v (h1.trans hle) hv2).mpr hle, hs⟩

theorem not_versionFits_of_minVersion_eq_none {b : Bool} {e : EccLevel} {m : Mode} {n v : Nat}
    (h : minVersion e m n = none) : ¬VersionFits b e m n v :=
  fun ⟨h1, h2, hn, _⟩ => minVersion_eq_none h h1 h2 hn

/-- A requested version is the only one that can be chosen. -/
theorem versionChosen_iff_of_ne_zero {b : Bool} {e : EccLevel} {m : Mode} {n req v : Nat} (h0 : req ≠ 0) :
    VersionChosen b e m n req v ↔ v = req ∧ VersionFits b e m n req := by
  refine ⟨fun ⟨hfit, _, hv⟩ => ?_, fun ⟨hv, hfit⟩ => ⟨hv ▸ hfit, fun h => absurd h h0, fun _ => hv⟩⟩
  obtain rfl := hv h0
  exact ⟨rfl, hfit⟩

/-- The version whose capacity `ERR_CAPACITY` reports: the requested one, else the greatest (60_exceptions R314). -/
def reportedVersion (req : Nat) : Nat := if req = 0 then 40 else req

theorem reportedVersion_range {req : Nat} (h : req ≤ 40) : 1 ≤ reportedVersion req ∧ reportedVersion req ≤ 40 := by
  unfold reportedVersion; split <;> omega

/-- All a choice can do: give the chosen version, or `ERR_CAPACITY` where there is none (43_bitstream R174). -/
theorem chooseVersion_cases (e : BitVec 2) (m : Mode) (n : Nat) {req : Nat} (b : Bool) (hreq : req ≤ 40) :
    (∃ v, chooseVersion e m n req b = .ok v ∧ VersionChosen b (eccLevel e) m n req v) ∨
      chooseVersion e m n req b = .error (errCapacity e m req (capTab (reportedVersion req) (eccLevel e) m)) ∧
        ∀ v, ¬VersionChosen b (eccLevel e) m n req v := by
  unfold chooseVersion reportedVersion
  by_cases h0 : req = 0
  · subst h0
    simp only [if_true]
    split
    next hmin => exact .inr ⟨rfl, fun v hv => not_versionFits_of_minVersion_eq_none hmin hv.1⟩
    next vmin hmin =>
      split
      next hfind =>
        simp only [List.find?_range'_eq_none, Bool.not_eq_true'] at hfind
        refine .inr ⟨rfl, fun v hv => ?_⟩
        obtain ⟨hle, hv2, hs⟩ := (versionFits_iff hmin).mp hv.1
        simp [hfind v hle (by omega)] at hs
      next v hfind =>
        simp only [List.find?_range'_eq_some, List.mem_range'_1, Bool.not_eq_true'] at hfind
        obtain ⟨hs, ⟨hle, hv2⟩, hfirst⟩ := hfind
        have hfits : VersionFits b (eccLevel e) m n v := (versionFits_iff hmin).mpr ⟨hle, by omega, hs⟩
        refine .inl ⟨v, rfl, hfits, fun _ u hu hfit => ?_, fun h => absurd rfl h⟩
        obtain ⟨hle', -, hs'⟩ := (versionFits_iff hmin).mp hfit
        simp [hfirst u hle' hu] at hs'
  · simp only [h0, if_false, versionChosen_iff_of_ne_zero h0]
    split
    next hmin => exact .inr ⟨rfl, fun v hv => not_versionFits_of_minVersion_eq_none hmin hv.2⟩
    next vmin hmin =>
      simp only [versionFits_iff hmin]
      split_ifs with hlt hs
      · exact .inr ⟨rfl, fun v hv => by omega⟩
      · exact .inl ⟨req, rfl, rfl, by omega, hreq, hs⟩
      · exact .inr ⟨rfl, fun v hv => hs hv.2.2.2⟩

theorem VersionChosen.unique {b : Bool} {e : EccLevel} {m : Mode} {n req u v : Nat} (hu : VersionChosen b e m n req u)
    (hv : VersionChosen b e m n req v) : u = v := by
  obtain ⟨hfu, hminu, hrequ⟩ := hu
  obtain ⟨hfv, hminv, hreqv⟩ := hv
  by_cases h0 : req = 0
  · exact Nat.le_antisymm (Nat.le_of_not_lt fun h => hminu h0 v h hfv) (Nat.le_of_not_lt fun h => hminv h0 u h hfu)
  · exact (hrequ h0).trans (hreqv h0).symm

/-- A version that meets the rule is the one chosen. -/
theorem chooseVersion_eq_ok {e : BitVec 2} {m : Mode} {n req v : Nat} {b : Bool} (hreq : req ≤ 40)
    (h : VersionChosen b (eccLevel e) m n req v) : chooseVersion e m n req b = .ok v := by
  obtain ⟨u, hok, hu⟩ | ⟨-, hnone⟩ := chooseVersion_cases e m n b hreq
  · rw [hok, hu.unique h]
  · exact absurd h (hnone v)

/-- Without a version that meets the rule the choice fails with its diagnostics (60_exceptions R314). -/
theorem chooseVersion_eq_error {e : BitVec 2} {m : Mode} {n req : Nat} {b : Bool} (hreq : req ≤ 40)
    (h : ∀ v, ¬VersionChosen b (eccLevel e) m n req v) :
    chooseVersion e m n req b = .error (errCapacity e m req (capTab (reportedVersion req) (eccLevel e) m)) := by
  obtain ⟨u, -, hu⟩ | ⟨herr, -⟩ := chooseVersion_cases e m n b hreq
  · exact absurd hu (h u)
  · exact herr

/-! ### VERSION_SELECT (43_bitstream R175) -/

/-- What the `ERR_ARG` tests of the two commands that choose a version admit (60_exceptions R316). -/
theorem argTest_versionSelect {s : State} :
    argTest .versionSelect s = false ↔ s.latch.ctrl.reqVersion.toNat ≤ 40 ∧ s.inLen ≤ 8192 ∧ s.eciBad = false := by
  simp [argTest, State.inLen, State.eciBad, and_assoc]

/-- Settles O27: the two searches give the version that meets the rule. -/
theorem versionSelectResult : Obligations.VersionSelectResult := by
  intro s m v hmode harg hv
  obtain ⟨hreq, hlen, heci⟩ := argTest_versionSelect.mp harg
  exact exec_setRegs (i := .versionSelect) (cmdVersionSelect_eq_ok.mpr
    ⟨hreq, hlen, heci, m, v, modeOf_eq_some.mp hmode, chooseVersion_eq_ok hreq hv, rfl⟩)

/-! ### The diagnostics of `ERR_CAPACITY` (60_exceptions R314) -/

theorem cmdVersionSelect_eq_error {s : State} {m : Mode} {e : CmdError} (harg : argTest .versionSelect s = false)
    (hmode : modeOf s.regs.mode = some m)
    (h : chooseVersion s.latch.ctrl.ecc m s.inLen s.latch.ctrl.reqVersion.toNat s.latch.ctrl.eciEn = .error e) :
    cmdVersionSelect s = .error e := by
  obtain ⟨hreq, hlen, heci⟩ := argTest_versionSelect.mp harg
  simp only [cmdVersionSelect, raiseIf_bind, decide_eq_true_eq, Nat.not_lt.mpr hreq, Nat.not_lt.mpr hlen, heci,
    currentMode_eq_ok.mpr (modeOf_eq_some.mp hmode), if_false, Bool.false_eq_true]
  exact bind_eq_error.mpr (.inr ⟨m, rfl, bind_eq_error.mpr (.inl h)⟩)

theorem cmdGenerate_eq_error {s : State} {e : CmdError} (harg : argTest .generate s = false)
    (h : chooseVersion s.latch.ctrl.ecc (selectMode s.input s.latch.ctrl.forceByte) s.inLen
      s.latch.ctrl.reqVersion.toNat s.latch.ctrl.eciEn = .error e) : cmdGenerate s = .error e := by
  obtain ⟨hreq, hlen, heci⟩ := argTest_versionSelect.mp harg
  have hchecks : generateChecks s = .error e := by
    simp only [generateChecks, raiseIf_bind, Bool.or_eq_true, decide_eq_true_eq, Nat.not_lt.mpr hreq,
      Nat.not_lt.mpr hlen, heci, or_false, if_false, Bool.false_eq_true]
    exact bind_eq_error.mpr (.inl h)
  exact bind_eq_error.mpr (.inl hchecks)

theorem putField_toNat {n lo : Nat} (x : BitVec n) (h : lo + n ≤ 32) : (putField x lo).toNat = x.toNat <<< lo := by
  have hlt : x.toNat <<< lo < 2 ^ 32 := by
    rw [Nat.shiftLeft_eq]
    calc x.toNat * 2 ^ lo < 2 ^ n * 2 ^ lo := Nat.mul_lt_mul_of_pos_right x.isLt (Nat.two_pow_pos lo)
      _ = 2 ^ (lo + n) := by rw [← Nat.pow_add, Nat.add_comm]
      _ ≤ 2 ^ 32 := Nat.pow_le_pow_right (by decide) h
  rw [putField, BitVec.toNat_shiftLeft, BitVec.toNat_setWidth_of_le (by omega), Nat.mod_eq_of_lt hlt]

/-- `ERRINFO0` as a sum of its fields (10_state R39). -/
theorem ErrInfo.word0_eq (i : ErrInfo) :
    i.word0 = BitVec.ofNat 32 (i.ecc.toNat + i.mode.toNat * 2 ^ 4 + i.fixed.toNat * 2 ^ 8) := by
  have hlow : i.mode.toNat <<< 4 ||| i.ecc.toNat = i.mode.toNat * 2 ^ 4 + i.ecc.toNat := by
    rw [← Nat.shiftLeft_add_eq_or_of_lt (by omega), Nat.shiftLeft_eq]
  apply BitVec.eq_of_toNat_eq
  rw [ErrInfo.word0, BitVec.toNat_or, BitVec.toNat_or, putField_toNat _ (by decide), putField_toNat _ (by decide),
    putField_toNat _ (by decide), Nat.shiftLeft_zero, Nat.or_assoc, hlow, ← Nat.shiftLeft_add_eq_or_of_lt (by omega),
    Nat.shiftLeft_eq, BitVec.toNat_ofNat]
  omega

/-- A command that fails with `ERR_CAPACITY` leaves everything but `STATUS` and the diagnostics (60_exceptions R311,
R314). -/
theorem exec_capacity {i : Instr} {s : State} {e : BitVec 2} {m : Mode} {req : BitVec 6} {cap : Nat}
    (hcap : cap < 2 ^ 16) (h : command i s = .error (errCapacity e m req.toNat cap)) :
    ∃ t, exec i s = .next t ∧
      t.status = { s.status with err := true, errcode := 0x04, busy := false, done := true } ∧
      t.regs = { s.regs with errinfo := t.regs.errinfo } ∧ SameMemory s t ∧ SameHostSide s t ∧
      t.readReg .errinfo0 = BitVec.ofNat 32 (e.toNat + (modeValue m).toNat * 2 ^ 4 + req.toNat * 2 ^ 8) ∧
      t.readReg .errinfo1 = BitVec.ofNat 32 cap := by
  refine ⟨_, exec_error h, rfl, rfl, State.readByte_raise s _, ⟨rfl, rfl, rfl, rfl⟩, ?_, ?_⟩
  · refine (ErrInfo.word0_eq _).trans ?_
    simp [errCapacity, ErrInfo.after]
  · apply BitVec.eq_of_toNat_eq
    simp only [State.readReg, State.raise_regs, errCapacity, ErrInfo.after, ErrInfo.word1, BitVec.toNat_setWidth,
      BitVec.toNat_ofNat]
    omega

/-- Settles O15: where no version meets the rule the choice fails with its diagnostics, and it is the first test of both
commands that fails. -/
theorem capacityErrorReportsDiagnostics : Obligations.CapacityErrorReportsDiagnostics := by
  intro i s m hi harg hnone
  have hargs : argTest .versionSelect s = false := by obtain ⟨rfl, -⟩ | ⟨rfl, -⟩ := hi <;> exact harg
  have hreq := (argTest_versionSelect.mp hargs).1
  have herr := chooseVersion_eq_error hreq hnone
  have hcommand : command i s = .error (errCapacity s.latch.ctrl.ecc m s.latch.ctrl.reqVersion.toNat
      (capTab (reportedVersion s.latch.ctrl.reqVersion.toNat) s.level m)) := by
    obtain ⟨rfl, hmode⟩ | ⟨rfl, rfl⟩ := hi
    · exact cmdVersionSelect_eq_error hargs hmode herr
    · exact cmdGenerate_eq_error hargs herr
  have hrange := reportedVersion_range hreq
  have hversion : reportedVersion s.latch.ctrl.reqVersion.toNat =
      if s.latch.ctrl.reqVersion = 0 then 40 else s.latch.ctrl.reqVersion.toNat := by
    simp [reportedVersion, ← BitVec.toNat_inj]
  rw [← hversion]
  exact exec_capacity (capTab_lt _ _ hrange.1 hrange.2) hcommand

end Sys2Proof.Machine
end

section
/-! PROOFS. Packing and padding (43_bitstream R166 to R178): the fields of the packed stream and what they determine, the
padded stream bit by bit, and what PACK and PAD leave. -/

namespace Sys2Proof.Machine

/-! ### Fields (00_scope R12) -/

theorem bitsVal_bitsOf_of_lt {w x : Nat} (h : x < 2 ^ w) : bitsVal (bitsOf w x) = x := by
  rw [bitsVal_bitsOf, Nat.mod_eq_of_lt h]

/-- A field determines a number that fits it. -/
theorem bitsOf_inj {w x y : Nat} (hx : x < 2 ^ w) (hy : y < 2 ^ w) (h : bitsOf w x = bitsOf w y) : x = y := by
  rw [← bitsVal_bitsOf_of_lt hx, h, bitsVal_bitsOf_of_lt hy]

/-- Equal streams that begin with fields of one width have equal fields and equal rests. -/
theorem bitsOf_append_inj {w x y : Nat} {l k : List Bool} (hx : x < 2 ^ w) (hy : y < 2 ^ w)
    (h : bitsOf w x ++ l = bitsOf w y ++ k) : x = y ∧ l = k := by
  obtain ⟨hfield, hrest⟩ := List.append_inj h (by simp)
  exact ⟨bitsOf_inj hx hy hfield, hrest⟩

/-! ### Digits and table indices determine their bytes (43_bitstream R160, R161) -/

theorem digit_lt {b : Byte} (h : inClass .numeric b = true) : digit b < 10 := by
  simp only [inClass, isNumeric, Bool.and_eq_true, decide_eq_true_eq] at h
  simp only [digit]; omega

theorem digit_inj {a b : Byte} (ha : inClass .numeric a = true) (hb : inClass .numeric b = true)
    (h : digit a = digit b) : a = b := by
  simp only [inClass, isNumeric, Bool.and_eq_true, decide_eq_true_eq] at ha hb
  simp only [digit] at h
  exact BitVec.eq_of_toNat_eq (by omega)

theorem alnumVal_lt : ∀ b : Byte, inClass .alphanumeric b = true → alnumVal b < 45 := by decide +kernel

/-- The byte at an index of the alphanumeric table (43_bitstream R161). -/
def alnumByte (k : Nat) : Byte :=
  BitVec.ofNat 8 (if k < 10 then k + 0x30 else if k < 36 then k - 10 + 0x41 else alnumSymbols.getD (k - 36) 0)

theorem alnumByte_alnumVal : ∀ b : Byte, inClass .alphanumeric b = true → alnumByte (alnumVal b) = b := by
  decide +kernel

theorem alnumVal_inj {a b : Byte} (ha : inClass .alphanumeric a = true) (hb : inClass .alphanumeric b = true)
    (h : alnumVal a = alnumVal b) : a = b := by
  rw [← alnumByte_alnumVal a ha, h, alnumByte_alnumVal b hb]

/-! ### The data field determines its bytes (43_bitstream R166 to R168) -/

theorem numericField_inj {s t : List Byte} (hs : s.all (inClass .numeric) = true) (ht : t.all (inClass .numeric) = true)
    (hlen : s.length = t.length) (h : numericField s = numericField t) : s = t := by
  induction s using numericField.induct generalizing t with
  | case1 a b c rest ih =>
    match t, hlen with
    | a' :: b' :: c' :: rest', hlen =>
      simp only [List.all_cons, Bool.and_eq_true] at hs ht
      obtain ⟨ha, hb, hc, hr⟩ := hs
      obtain ⟨ha', hb', hc', hr'⟩ := ht
      have := digit_lt ha; have := digit_lt hb; have := digit_lt hc
      have := digit_lt ha'; have := digit_lt hb'; have := digit_lt hc'
      obtain ⟨hval, hrest⟩ := bitsOf_append_inj (by omega) (by omega) h
      rw [digit_inj ha ha' (by omega), digit_inj hb hb' (by omega), digit_inj hc hc' (by omega),
        ih hr hr' (by simpa using hlen) hrest]
  | case2 a b =>
    match t, hlen with
    | [a', b'], _ =>
      simp only [List.all_cons, List.all_nil, Bool.and_eq_true, Bool.and_true] at hs ht
      obtain ⟨ha, hb⟩ := hs
      obtain ⟨ha', hb'⟩ := ht
      have := digit_lt ha; have := digit_lt hb; have := digit_lt ha'; have := digit_lt hb'
      have hval := bitsOf_inj (by omega) (by omega) h
      rw [digit_inj ha ha' (by omega), digit_inj hb hb' (by omega)]
  | case3 a =>
    match t, hlen with
    | [a'], _ =>
      simp only [List.all_cons, List.all_nil, Bool.and_true] at hs ht
      have := digit_lt hs; have := digit_lt ht
      rw [digit_inj hs ht (bitsOf_inj (by omega) (by omega) h)]
  | case4 => exact (List.length_eq_zero_iff.mp hlen.symm).symm

theorem alphanumericField_inj {s t : List Byte} (hs : s.all (inClass .alphanumeric) = true)
    (ht : t.all (inClass .alphanumeric) = true) (hlen : s.length = t.length)
    (h : alphanumericField s = alphanumericField t) : s = t := by
  induction s using alphanumericField.induct generalizing t with
  | case1 a b rest ih =>
    match t, hlen with
    | a' :: b' :: rest', hlen =>
      simp only [List.all_cons, Bool.and_eq_true] at hs ht
      obtain ⟨ha, hb, hr⟩ := hs
      obtain ⟨ha', hb', hr'⟩ := ht
      have := alnumVal_lt a ha; have := alnumVal_lt b hb; have := alnumVal_lt a' ha'; have := alnumVal_lt b' hb'
      obtain ⟨hval, hrest⟩ := bitsOf_append_inj (by omega) (by omega) h
      rw [alnumVal_inj ha ha' (by omega), alnumVal_inj hb hb' (by omega), ih hr hr' (by simpa using hlen) hrest]
  | case2 a =>
    match t, hlen with
    | [a'], _ =>
      simp only [List.all_cons, List.all_nil, Bool.and_true] at hs ht
      have := alnumVal_lt a hs; have := alnumVal_lt a' ht
      rw [alnumVal_inj hs ht (bitsOf_inj (by omega) (by omega) h)]
  | case3 => exact (List.length_eq_zero_iff.mp hlen.symm).symm

theorem unpackBits_inj {s t : List Byte} (hlen : s.length = t.length) (h : unpackBits s = unpackBits t) : s = t := by
  induction s generalizing t with
  | nil => exact (List.length_eq_zero_iff.mp hlen.symm).symm
  | cons a s ih =>
    match t, hlen with
    | b :: t, hlen =>
      obtain ⟨hval, hrest⟩ := bitsOf_append_inj a.isLt b.isLt h
      rw [BitVec.eq_of_toNat_eq hval, ih (by simpa using hlen) hrest]

theorem dataField_inj {m : Mode} {s t : List Byte} (hs : s.all (inClass m) = true) (ht : t.all (inClass m) = true)
    (hlen : s.length = t.length) (h : dataField m s = dataField m t) : s = t := by
  cases m with
  | numeric => exact numericField_inj hs ht hlen h
  | alphanumeric => exact alphanumericField_inj hs ht hlen h
  | byte => exact unpackBits_inj hlen h

/-! ### The packed stream (43_bitstream R169 to R172) -/

theorem eciHeader_length (eciEn : Bool) (d : BitVec 8) : (eciHeader eciEn d).length = eciBits eciEn := by
  cases eciEn <;> rfl

/-- Behind the header stands the mode indicator. -/
theorem packedStream_drop_header (eciEn : Bool) (d : BitVec 8) (m : Mode) (v : Nat) (b : List Byte) :
    (packedStream eciEn d m v b).drop (eciBits eciEn) =
      bitsOf 4 (modeValue m).toNat ++ (bitsOf (cci v m) b.length ++ dataField m b) := by
  rw [packedStream, List.append_assoc, List.append_assoc, List.drop_left' (eciHeader_length eciEn d)]

/-- Settles O30: the stream is its fields in order, and each mode's data field determines its bytes. -/
theorem packedStreamDeterminesInput : Obligations.PackedStreamDeterminesInput := by
  intro eciEn d m v b
  have hdrop := packedStream_drop_header eciEn d m v b
  refine ⟨packedStream_length .., ?_, fun hb => ?_, fun b' hb hb' hlen h => ?_⟩
  · rw [hdrop, List.take_left' (bitsOf_length ..), bitsVal_bitsOf_of_lt (modeValue m).isLt]
  · rw [← List.drop_drop, hdrop, List.drop_left' (bitsOf_length ..), List.take_left' (bitsOf_length ..),
      bitsVal_bitsOf_of_lt hb]
  · have hdata : dataField m b = dataField m b' := by
      simpa only [packedStream, hlen, List.append_cancel_left_eq] using h
    exact dataField_inj hb hb' hlen hdata

/-! ### The stream in `CWM` (20_memory R67) -/

/-- The bits of a stream whose bytes `CWM` begins with, and the zeros that fill its last byte. -/
theorem State.streamBit_of_packBits {t : State} {bits : List Bool} {i : Nat}
    (h : ∀ j, j < (packBits bits).length → t.readByte .cwm (0 + j) = (packBits bits).getD j 0)
    (hi : i < 8 * ((bits.length + 7) / 8)) : t.streamBit 0 i = bits.getD i false := by
  rw [State.streamBit, h _ (by rw [packBits_length]; omega), packBits_bit _ _ hi]

theorem streamBits_getD {s : State} {n i : Nat} (h : i < n) : (streamBits s n).getD i false = s.streamBit 0 i := by
  have hbit := unpackBits_bit (s.readBytes .cwm 0 ((n + 7) / 8)) i (by rw [State.readBytes_length]; omega)
  have hbyte : (s.readBytes .cwm 0 ((n + 7) / 8)).getD (i / 8) 0 = s.readByte .cwm (0 + i / 8) := by
    rw [State.readBytes_eq, List.getD_eq_getElem _ _ (by simp; omega), List.getElem_map, List.getElem_range]
  rw [hbyte] at hbit
  rw [State.streamBit, ← hbit, streamBits, List.getD_eq_getElem?_getD, List.getElem?_take_of_lt h,
    List.getD_eq_getElem?_getD]

/-! ### PACK (43_bitstream R176) -/

theorem packClassTest_eq_false {s : State} {m : Mode} (hm : modeOf s.regs.mode = some m) :
    packClassTest s = false ↔ s.input.all (inClass m) = true := by
  simp [packClassTest, hm]

/-- Settles O29: the command writes the bytes of the stream. -/
theorem packResult : Obligations.PackResult := by
  intro s m hm hver harg hclass hfit stream
  have hlen : stream.length = need s.latch.ctrl.eciEn s.inLen m s.ver := by
    rw [packedStream_length, State.input_length]
  obtain ⟨hinlen, heci⟩ : s.inLen ≤ 8192 ∧ s.eciBad = false := by
    simpa [argTest, State.inLen, State.eciBad] using harg
  obtain ⟨t, hexec, hregs, hdone, hin, hout⟩ := exec_writeBytes_setRegs (i := .pack) rfl
    (cmdPack_eq_ok.mpr ⟨hinlen, heci, m, modeOf_eq_some.mp hm, hver, (packClassTest_eq_false hm).mp hclass, hfit, rfl⟩)
  refine ⟨hlen, t, hexec, hlen ▸ hregs, hdone, fun i hi => State.streamBit_of_packBits hin (by omega),
    fun i hle hi => ?_, packBits_length stream ▸ hout⟩
  rw [State.streamBit_of_packBits hin hi, List.getD_eq_default _ _ hle]

/-! ### PAD (43_bitstream R177, R178) -/

/-- The stream with its terminator of up to four zeros (43_bitstream R177). -/
def terminated (bits : List Bool) (d : Nat) : List Bool := bits ++ List.replicate (min 4 (8 * d - bits.length)) false

theorem padStream_eq (bits : List Bool) (d : Nat) :
    padStream bits d = packBits (terminated bits d) ++ padBytes (d - (packBits (terminated bits d)).length) := rfl

theorem terminated_length (bits : List Bool) (d : Nat) :
    (terminated bits d).length = bits.length + min 4 (8 * d - bits.length) := by
  simp [terminated]

theorem terminated_getD_of_lt {bits : List Bool} (d : Nat) {i : Nat} (h : i < bits.length) :
    (terminated bits d).getD i false = bits.getD i false := List.getD_append _ _ _ _ h

theorem terminated_getD_of_le {bits : List Bool} (d : Nat) {i : Nat} (h : bits.length ≤ i) :
    (terminated bits d).getD i false = false := by
  rw [terminated, List.getD_append_right _ _ _ _ h, List.getD_eq_getElem?_getD]
  exact List.getElem?_getD_replicate_default_eq _ _ _

theorem padBytes_getD {k j : Nat} (h : j < k) : (padBytes k).getD j 0 = if j % 2 = 0 then 0xEC else 0x11 := by
  rw [List.getD_eq_getElem _ _ (by simpa using h)]
  simp [padBytes]

theorem cmdPad_eq_sequence {s : State} (h : s.ver = 0) : cmdPad s = .error .sequence := by
  rw [cmdPad, raiseIf_bind, if_pos (by simpa using h)]

theorem cmdPad_eq_overflow {s : State} (hver : s.ver ≠ 0) (h : s.regs.bitlen.toNat > 8 * s.eccInfo.dataCw) :
    cmdPad s = .error .overflow := by
  rw [cmdPad, raiseIf_bind, raiseIf_bind, if_neg (by simpa using hver), if_pos (by simpa using h)]

/-- Settles O31: the command writes the bytes of the terminated stream and the pad bytes behind them, which together are
the `D` data codewords. -/
theorem padResult : Obligations.PadResult := by
  intro s d len whole
  refine ⟨fun hver hfit => ?_, fun hver => exec_failed (i := .pad) (cmdPad_eq_sequence hver) (by decide),
    fun hver hlong => exec_failed (i := .pad) (cmdPad_eq_overflow hver hlong) (by decide)⟩
  obtain ⟨t, hexec, hregs, hdone, hin, hout⟩ :=
    exec_writeBytes_setRegs (i := .pad) rfl (cmdPad_eq_ok.mpr ⟨hver, hfit, rfl⟩)
  have hbits : (streamBits s len).length = len := streamBits_length s len
  have hbytes : (packBits (terminated (streamBits s len) d)).length = whole := by
    rw [packBits_length, terminated_length, hbits]
  have hwhole : whole ≤ d := by omega
  rw [padStream_length (by rwa [hbits])] at hin hout
  have hstream : ∀ j, j < (packBits (terminated (streamBits s len) d)).length →
      t.readByte .cwm (0 + j) = (packBits (terminated (streamBits s len) d)).getD j 0 := fun j hj => by
    rw [hin j (by omega), padStream_eq, List.getD_append _ _ _ _ hj]
  have hbit {i : Nat} (hi : i < 8 * whole) : t.streamBit 0 i = (terminated (streamBits s len) d).getD i false :=
    State.streamBit_of_packBits hstream (by rwa [terminated_length, hbits])
  refine ⟨t, hexec, hregs, hdone, hwhole, fun i hi => ?_, fun i hle hi => ?_, fun k hk => ?_, hout⟩
  · rw [hbit (by omega), terminated_getD_of_lt _ (by rwa [hbits]), streamBits_getD hi]
  · rw [hbit hi, terminated_getD_of_le _ (by rwa [hbits])]
  · have hbyte : t.readByte .cwm (0 + (whole + k)) = (padStream (streamBits s len) d).getD (whole + k) 0 := hin _ hk
    rw [← Nat.zero_add (whole + k), hbyte, padStream_eq, List.getD_append_right _ _ _ _ (by omega), hbytes,
      Nat.add_sub_cancel_left, padBytes_getD (by omega)]

end Sys2Proof.Machine
end

section
/-! PROOFS. The tables of the block rules (44_blocks R200 to R206): each capacity as the last count that fits, and the
query commands, which give the entries in their result registers (44_blocks R211 to R213). -/

namespace Sys2Proof.Machine

/-! ### The capacities (44_blocks R203) -/

/-- Each further character makes the data field longer (43_bitstream R165). -/
theorem dbits_strictMono (m : Mode) : StrictMono (dbits m) := by
  refine strictMono_nat_of_lt_succ fun n => ?_
  cases m with
  | numeric => simp only [dbits]; split_ifs <;> omega
  | alphanumeric => simp only [dbits]; omega
  | byte => simp only [dbits]; omega

/-- What the capacity of a version, level and mode satisfies: its own stream fits the data codewords and one character
more does not, its count fits the count field, and the next version takes more (44_blocks R203). -/
def CapacityEntryOk (v : Nat) (e : EccLevel) (m : Mode) : Prop :=
  4 + cci v m + dbits m (capTab v e m) ≤ 8 * (eccTab v e).dataCw ∧
    8 * (eccTab v e).dataCw < 4 + cci v m + dbits m (capTab v e m + 1) ∧
    capTab v e m ≤ 2 ^ cci v m - 1 ∧ (v < 40 → capTab v e m < capTab (v + 1) e m)

theorem capacityEntries_ok : ∀ v : Fin 40, ∀ e ∈ [EccLevel.L, .M, .Q, .H],
    ∀ m ∈ [Mode.numeric, .alphanumeric, .byte], CapacityEntryOk (v + 1) e m := by
  unfold CapacityEntryOk; decide +kernel

theorem capTab_spec {v : Nat} (h1 : 1 ≤ v) (h2 : v ≤ 40) (e : EccLevel) (m : Mode) : CapacityEntryOk v e m := by
  obtain ⟨k, rfl⟩ : ∃ k, v = k + 1 := ⟨v - 1, by omega⟩
  exact capacityEntries_ok ⟨k, h2⟩ e (by cases e <;> simp) m (by cases m <;> simp)

/-- Settles O28: the stream of the capacity is the last to fit, since each further character makes it longer. -/
theorem capacitiesAreTheLargestThatFit : Obligations.CapacitiesAreTheLargestThatFit := by
  intro v e m h1 h2
  obtain ⟨hfit, hnext, hcount, hgrow⟩ := capTab_spec h1 h2 e m
  refine ⟨fun n => ⟨fun hn => ?_, fun hn => ?_⟩, hcount, hgrow⟩
  · have hlt : dbits m n < dbits m (capTab v e m + 1) := by omega
    exact Nat.le_of_lt_succ ((dbits_strictMono m).lt_iff_lt.mp hlt)
  · have hle : dbits m n ≤ dbits m (capTab v e m) := (dbits_strictMono m).monotone hn
    omega

/-! ### Fields packed into one word (44_blocks R211, R213) -/

/-- Fields that do not overlap are added. -/
theorem or_shiftLeft_eq_add {a i : Nat} (ha : a < 2 ^ i) (b : Nat) : a ||| b <<< i = a + b * 2 ^ i := by
  rw [Nat.or_comm, ← Nat.shiftLeft_add_eq_or_of_lt ha, Nat.shiftLeft_eq, Nat.add_comm]

theorem packBytes_eq_add {a b c : Nat} (ha : a < 2 ^ 8) (hb : b < 2 ^ 8) (hc : c < 2 ^ 8) (d : Nat) :
    packBytes a b c d = a + b * 2 ^ 8 + c * 2 ^ 16 + d * 2 ^ 24 := by
  rw [packBytes, or_shiftLeft_eq_add ha, or_shiftLeft_eq_add (i := 16) (by omega), or_shiftLeft_eq_add (by omega)]

/-- Each part of a record fits its field of the result registers. -/
theorem eccTab_fields_lt {v : Nat} (h1 : 1 ≤ v) (h2 : v ≤ 40) (e : EccLevel) :
    (eccTab v e).blocks1 < 2 ^ 8 ∧ (eccTab v e).cw1 < 2 ^ 8 ∧ (eccTab v e).blocks2 < 2 ^ 8 ∧
      (eccTab v e).total < 2 ^ 16 := by
  obtain ⟨-, -, -, htotal, -, -, -, hblocks, ⟨hcw, -⟩, -⟩ := eccTab_spec h1 h2 e
  omega

theorem alignTab_lt : ∀ v : Fin 64, ∀ x ∈ alignTab v, x < 2 ^ 8 := by decide +kernel

/-- An alignment centre is a byte, and so is the 0 of a missing entry. -/
theorem alignTab_getD_lt (v : BitVec 6) (k : Nat) : (alignTab v.toNat).getD k 0 < 2 ^ 8 := by
  by_cases hk : k < (alignTab v.toNat).length
  · rw [List.getD_eq_getElem _ _ hk]
    exact alignTab_lt v.toFin _ (List.getElem_mem hk)
  · rw [List.getD_eq_default _ _ (by omega)]
    decide

/-! ### The query commands (44_blocks R211 to R213) -/

theorem versionOk_eq_true {v : BitVec 6} : versionOk v = true ↔ 1 ≤ v.toNat ∧ v.toNat ≤ 40 := by simp [versionOk]

theorem versionOk_eq_false {v : BitVec 6} : versionOk v = false ↔ v.toNat = 0 ∨ v.toNat > 40 := by
  rw [← Bool.not_eq_true, versionOk_eq_true]; omega

theorem modeOf_eq_none {md : BitVec 4} : modeOf md = none ↔ md ≠ 1 ∧ md ≠ 2 ∧ md ≠ 4 := by
  unfold modeOf; split_ifs <;> simp_all

theorem cmdQueryEcc_eq_ok {v : BitVec 6} (h1 : 1 ≤ v.toNat) (h2 : v.toNat ≤ 40) (e : BitVec 2) (s : State) :
    let r := eccTab v.toNat (eccLevel e)
    cmdQueryEcc v e s = .ok (s.withRes r.dataCw r.eccPerBlock
      (r.blocks1 + r.cw1 * 2 ^ 8 + r.blocks2 * 2 ^ 16 + r.cw2 * 2 ^ 24) (r.total + remTab v.toNat * 2 ^ 16)) := by
  obtain ⟨hblocks1, hcw1, hblocks2, htotal⟩ := eccTab_fields_lt h1 h2 (eccLevel e)
  simp only [cmdQueryEcc, raiseIf_bind, versionOk_eq_true.mpr ⟨h1, h2⟩, packBytes_eq_add hblocks1 hcw1 hblocks2,
    or_shiftLeft_eq_add htotal, Bool.not_true, Bool.false_eq_true, if_false]

theorem cmdQueryAlign_eq_ok {v : BitVec 6} (h1 : 1 ≤ v.toNat) (h2 : v.toNat ≤ 40) (s : State) :
    let p := alignTab v.toNat
    cmdQueryAlign v s = .ok (s.withRes p.length
      (p.getD 0 0 + p.getD 1 0 * 2 ^ 8 + p.getD 2 0 * 2 ^ 16 + p.getD 3 0 * 2 ^ 24)
      (p.getD 4 0 + p.getD 5 0 * 2 ^ 8 + p.getD 6 0 * 2 ^ 16) (side v.toNat)) := by
  have hbyte := alignTab_getD_lt v
  simp only [cmdQueryAlign, raiseIf_bind, versionOk_eq_true.mpr ⟨h1, h2⟩,
    packBytes_eq_add (hbyte 0) (hbyte 1) (hbyte 2), packBytes_eq_add (hbyte 4) (hbyte 5) (hbyte 6), Nat.zero_mul,
    Nat.add_zero, Bool.not_true, Bool.false_eq_true, if_false]

theorem cmdQueryCap_eq_ok {v : BitVec 6} {md : BitVec 4} {m : Mode} (h1 : 1 ≤ v.toNat) (h2 : v.toNat ≤ 40)
    (hm : modeOf md = some m) (e : BitVec 2) (s : State) :
    cmdQueryCap v md e s = .ok (s.withRes0 (capTab v.toNat (eccLevel e) m)) := by
  rw [cmdQueryCap, raiseIf_bind, versionOk_eq_true.mpr ⟨h1, h2⟩, hm]
  rfl

theorem cmdQueryEcc_eq_error {v : BitVec 6} (h : versionOk v = false) (e : BitVec 2) (s : State) :
    cmdQueryEcc v e s = .error .arg := by
  rw [cmdQueryEcc, raiseIf_bind, h]
  rfl

theorem cmdQueryAlign_eq_error {v : BitVec 6} (h : versionOk v = false) (s : State) :
    cmdQueryAlign v s = .error .arg := by
  rw [cmdQueryAlign, raiseIf_bind, h]
  rfl

theorem cmdQueryCap_eq_error {v : BitVec 6} {md : BitVec 4} (h : versionOk v = false ∨ modeOf md = none)
    (e : BitVec 2) (s : State) : cmdQueryCap v md e s = .error .arg := by
  rw [cmdQueryCap, raiseIf_bind]
  obtain hv | hm := h
  · rw [hv]; rfl
  · rw [hm]; exact ite_self _

/-- Settles O34: a version of the table passes the test, and the fields of a packed word do not overlap. -/
theorem queryResults : Obligations.QueryResults := by
  intro s v e md r p
  refine ⟨fun h1 h2 => ⟨exec_setRegs (i := .queryEcc v e) (cmdQueryEcc_eq_ok h1 h2 e s),
    fun m hm => exec_withRes0 (i := .queryCap v md e) (cmdQueryCap_eq_ok h1 h2 hm e s),
    exec_setRegs (i := .queryAlign v) (cmdQueryAlign_eq_ok h1 h2 s)⟩, fun hv => ?_, fun h => ?_⟩
  · have hok := versionOk_eq_false.mpr hv
    exact ⟨exec_failed (i := .queryEcc v e) (cmdQueryEcc_eq_error hok e s) (by decide),
      exec_failed (i := .queryAlign v) (cmdQueryAlign_eq_error hok s) (by decide)⟩
  · have htest : versionOk v = false ∨ modeOf md = none := by
      rwa [versionOk_eq_false, modeOf_eq_none, or_assoc]
    exact exec_failed (i := .queryCap v md e) (cmdQueryCap_eq_error htest e s) (by decide)

end Sys2Proof.Machine
end

section
/-! PROOFS. The codeword stream (44_blocks R207 to R209): the blocks as parts of the data codewords, the columns of
blocks of equal length, and what INTERLEAVE leaves. -/

namespace Sys2Proof.Machine

/-! ### The blocks (44_blocks R207) -/

/-- The first data codeword of a block. -/
def EccInfo.blockStart (r : EccInfo) (b : Nat) : Nat :=
  if b < r.blocks1 then b * r.cw1 else r.blocks1 * r.cw1 + (b - r.blocks1) * r.cw2

/-- The number of data codewords of a block. -/
def EccInfo.blockSize (r : EccInfo) (b : Nat) : Nat := if b < r.blocks1 then r.cw1 else r.cw2

/-- A piece begins where the lengths before it end. -/
theorem cutBy_getElem {ns : List Nat} {b : Nat} (d : List Byte) (hb : b < ns.length) :
    (cutBy ns d)[b]'(by simpa using hb) = (d.drop (ns.take b).sum).take ns[b] := by
  induction ns generalizing b d with
  | nil => simp at hb
  | cons n ns ih =>
    cases b with
    | zero => rfl
    | succ b =>
      have hrest := ih (d.drop n) (Nat.lt_of_succ_lt_succ hb)
      rwa [List.drop_drop] at hrest

/-- A block is its part of the data codewords. -/
theorem splitBlocks_getElem {r : EccInfo} {b : Nat} (d : List Byte) (hb : b < (splitBlocks r d).length) :
    (splitBlocks r d)[b] = (d.drop (r.blockStart b)).take (r.blockSize b) := by
  rw [splitBlocks_length] at hb
  have hcut := cutBy_getElem (ns := List.replicate r.blocks1 r.cw1 ++ List.replicate r.blocks2 r.cw2) (b := b) d
    (by simpa using hb)
  have hstart : ((List.replicate r.blocks1 r.cw1 ++ List.replicate r.blocks2 r.cw2).take b).sum = r.blockStart b := by
    simp only [List.take_append, List.take_replicate, List.length_replicate, List.sum_append, List.sum_replicate,
      smul_eq_mul, EccInfo.blockStart]
    split_ifs with h
    · rw [Nat.min_eq_left (by omega), Nat.sub_eq_zero_of_le (by omega), Nat.zero_min, Nat.zero_mul, Nat.add_zero]
    · rw [Nat.min_eq_right (by omega), Nat.min_eq_left (by omega)]
  rw [hstart] at hcut
  refine hcut.trans ?_
  simp [List.getElem_append, EccInfo.blockSize]

/-- A codeword of a block is one of the data codewords. -/
theorem splitBlocks_getElem_getD {r : EccInfo} {b i : Nat} (d : List Byte) (hb : b < (splitBlocks r d).length)
    (hi : i < r.blockSize b) : (splitBlocks r d)[b].getD i 0 = d.getD (r.blockStart b + i) 0 := by
  rw [splitBlocks_getElem, List.getD_eq_getElem?_getD, List.getElem?_take_of_lt hi, List.getElem?_drop,
    List.getD_eq_getElem?_getD]

/-! ### Columns (44_blocks R208) -/

/-- Entry `i` of every list that has one. -/
def columnOf (i : Nat) (blocks : List (List Byte)) : List Byte := blocks.filterMap fun b => b[i]?

/-- Every column stands behind the columns before it. -/
theorem columnsOf_eq_append {i k : Nat} (blocks : List (List Byte)) (h : i < k) :
    ∃ rest, columnsOf k blocks = columnsOf i blocks ++ columnOf i blocks ++ rest := by
  obtain ⟨n, rfl⟩ := Nat.exists_eq_add_of_le (Nat.succ_le_of_lt h)
  rw [columnsOf, List.range_add, List.range_succ, List.flatMap_append, List.flatMap_append, List.flatMap_singleton]
  exact ⟨_, rfl⟩

theorem columnOf_of_lt {i : Nat} {blocks : List (List Byte)} (h : ∀ b ∈ blocks, i < b.length) :
    columnOf i blocks = blocks.map fun b => b.getD i 0 :=
  List.filterMap_eq_map_iff_forall_eq_some.mpr fun b hb => by
    rw [List.getElem?_eq_getElem (h b hb), List.getD_eq_getElem _ _ (h b hb)]

theorem columnOf_of_le {i : Nat} {blocks : List (List Byte)} (h : ∀ b ∈ blocks, b.length ≤ i) :
    columnOf i blocks = [] :=
  List.filterMap_eq_nil_iff.mpr fun b hb => List.getElem?_eq_none (h b hb)

theorem columnOf_append (i : Nat) (l k : List (List Byte)) : columnOf i (l ++ k) = columnOf i l ++ columnOf i k :=
  List.filterMap_append

/-- Behind `i` full columns stands column `i`. -/
theorem columnsOf_getD_column {i j k n : Nat} {blocks : List (List Byte)} (hk : i < k) (hn : blocks.length = n)
    (hfull : ∀ b ∈ blocks, i ≤ b.length) (hj : j < (columnOf i blocks).length) :
    (columnsOf k blocks).getD (i * n + j) 0 = (columnOf i blocks).getD j 0 := by
  have hlen : (columnsOf i blocks).length = i * n := by
    rw [columnsOf_length, List.map_congr_left fun b hb => Nat.min_eq_left (hfull b hb), List.map_const', List.sum_replicate,
      smul_eq_mul, hn, Nat.mul_comm]
  obtain ⟨rest, hcolumns⟩ := columnsOf_eq_append blocks hk
  rw [hcolumns, List.append_assoc, ← hlen, List.getD_append_right _ _ _ _ (Nat.le_add_right ..), Nat.add_sub_cancel_left,
    List.getD_append _ _ _ _ hj]

/-- A full column holds the entries of the lists in order. -/
theorem columnsOf_getD {i j k n : Nat} {blocks : List (List Byte)} (hk : i < k) (hn : blocks.length = n)
    (hfull : ∀ b ∈ blocks, i < b.length) (hj : j < blocks.length) :
    (columnsOf k blocks).getD (i * n + j) 0 = blocks[j].getD i 0 := by
  have hcolumn := columnOf_of_lt hfull
  have hlen : j < (columnOf i blocks).length := by simpa [hcolumn] using hj
  rw [columnsOf_getD_column hk hn (fun b hb => (hfull b hb).le) hlen, List.getD_eq_getElem _ _ hlen]
  simp only [hcolumn, List.getElem_map]

/-- Behind the full columns stand the last entries of the lists that are longer by one. -/
theorem columnsOf_getD_last {i j k n : Nat} {short long : List (List Byte)} (hk : i < k)
    (hn : (short ++ long).length = n) (hshort : ∀ b ∈ short, b.length = i) (hlong : ∀ b ∈ long, i < b.length)
    (hj : j < long.length) :
    (columnsOf k (short ++ long)).getD (i * n + j) 0 = long[j].getD i 0 := by
  have hcolumn : columnOf i (short ++ long) = long.map fun b => b.getD i 0 := by
    rw [columnOf_append, columnOf_of_le fun b hb => (hshort b hb).le, columnOf_of_lt hlong, List.nil_append]
  have hlen : j < (columnOf i (short ++ long)).length := by simpa [hcolumn] using hj
  have hfull : ∀ b ∈ short ++ long, i ≤ b.length := fun b hb =>
    (List.mem_append.mp hb).elim (fun h => (hshort b h).ge) fun h => (hlong b h).le
  rw [columnsOf_getD_column hk hn hfull hlen, List.getD_eq_getElem _ _ hlen]
  simp only [hcolumn, List.getElem_map]

/-! ### The order of the stream (44_blocks R208) -/

/-- The data codewords of a record, in its blocks: those of group 2, if there are any, are longer by one (44_blocks
R201). -/
structure BlocksOk (r : EccInfo) (d : List Byte) : Prop where
  data : d.length = r.dataCw
  blocks : r.blocks1 * r.cw1 + r.blocks2 * r.cw2 = r.dataCw
  group2 : r.blocks2 = 0 ∨ r.cw2 = r.cw1 + 1

theorem BlocksOk.of_eccTab {v : Nat} {d : List Byte} (h1 : 1 ≤ v) (h2 : v ≤ 40) (e : EccLevel)
    (hd : d.length = (eccTab v e).dataCw) : BlocksOk (eccTab v e) d := by
  obtain ⟨hblocks, hgroup2, -⟩ := eccTab_spec h1 h2 e
  exact ⟨hd, hblocks, hgroup2⟩

/-- The data columns and the ECC columns. -/
theorem codewordStream_eq (r : EccInfo) (d : List Byte) :
    codewordStream r d = columnsOf (max r.cw1 r.cw2) (splitBlocks r d) ++
      columnsOf r.eccPerBlock ((splitBlocks r d).map fun b => rsEcc b r.eccPerBlock) := rfl

section
variable {r : EccInfo} {d : List Byte} (h : BlocksOk r d)
include h

/-- The data codewords are `cw1` full columns and one more of group 2. -/
theorem BlocksOk.dataCw_eq : r.dataCw = r.cw1 * (r.blocks1 + r.blocks2) + r.blocks2 := by
  rw [← h.blocks]
  obtain hnone | hcw := h.group2
  · simp [hnone, Nat.mul_comm]
  · rw [hcw]; ring

theorem BlocksOk.cw1_le_blockSize {b : Nat} (hb : b < r.blocks1 + r.blocks2) : r.cw1 ≤ r.blockSize b := by
  have := h.group2
  rw [EccInfo.blockSize]
  split_ifs <;> omega

theorem BlocksOk.map_length :
    (splitBlocks r d).map List.length = List.replicate r.blocks1 r.cw1 ++ List.replicate r.blocks2 r.cw2 :=
  map_length_splitBlocks (h.blocks.trans h.data.symm)

theorem BlocksOk.length_group1 : ∀ b ∈ (splitBlocks r d).take r.blocks1, b.length = r.cw1 := by
  have hmap : ((splitBlocks r d).take r.blocks1).map List.length = List.replicate r.blocks1 r.cw1 := by
    rw [List.map_take, h.map_length, List.take_left' List.length_replicate]
  exact fun b hb => (List.eq_replicate_iff.mp hmap).2 _ (List.mem_map_of_mem hb)

theorem BlocksOk.length_group2 : ∀ b ∈ (splitBlocks r d).drop r.blocks1, b.length = r.cw1 + 1 := by
  have hmap : ((splitBlocks r d).drop r.blocks1).map List.length = List.replicate r.blocks2 r.cw2 := by
    rw [List.map_drop, h.map_length, List.drop_left' List.length_replicate]
  intro b hb
  have hmem := List.mem_map_of_mem (f := List.length) hb
  rw [hmap, List.mem_replicate] at hmem
  have := h.group2
  omega

theorem BlocksOk.le_length : ∀ b ∈ splitBlocks r d, r.cw1 ≤ b.length := by
  intro b hb
  rw [← List.take_append_drop r.blocks1 (splitBlocks r d), List.mem_append] at hb
  exact hb.elim (fun hb => (h.length_group1 b hb).ge) fun hb => (h.length_group2 b hb).ge.trans' (Nat.le_succ _)

theorem BlocksOk.length_data : (columnsOf (max r.cw1 r.cw2) (splitBlocks r d)).length = r.dataCw := by
  have hstream := codewordStream_length h.blocks h.data
  have hecc : (columnsOf r.eccPerBlock ((splitBlocks r d).map fun b => rsEcc b r.eccPerBlock)).length =
      r.eccPerBlock * (r.blocks1 + r.blocks2) := by
    rw [columnsOf_length]
    simp [Function.comp_def, Nat.mul_comm]
  rw [codewordStream_eq, List.length_append, hecc, EccInfo.total] at hstream
  exact Nat.add_right_cancel hstream

/-- A place before the data's end is one of the data columns. -/
theorem BlocksOk.stream_getD_data {x : Nat} (hx : x < r.dataCw) :
    (codewordStream r d).getD x 0 = (columnsOf (max r.cw1 r.cw2) (splitBlocks r d)).getD x 0 := by
  rw [codewordStream_eq, List.getD_append _ _ _ _ (by rwa [h.length_data])]

/-- Codeword `i` of block `b`, where every block has one. -/
theorem BlocksOk.stream_getD_full {i b : Nat} (hi : i < r.cw1) (hb : b < r.blocks1 + r.blocks2) :
    (codewordStream r d).getD (i * (r.blocks1 + r.blocks2) + b) 0 = d.getD (r.blockStart b + i) 0 := by
  have hx : i * (r.blocks1 + r.blocks2) + b < r.dataCw :=
    calc i * (r.blocks1 + r.blocks2) + b < (i + 1) * (r.blocks1 + r.blocks2) := by rw [Nat.succ_mul]; omega
      _ ≤ r.cw1 * (r.blocks1 + r.blocks2) := Nat.mul_le_mul_right _ hi
      _ ≤ r.dataCw := h.dataCw_eq ▸ Nat.le_add_right ..
  rw [h.stream_getD_data hx, columnsOf_getD (hi.trans_le (le_max_left ..)) (splitBlocks_length r d)
      (fun c hc => hi.trans_le (h.le_length c hc)) (splitBlocks_length r d ▸ hb),
    splitBlocks_getElem_getD _ _ (hi.trans_le (h.cw1_le_blockSize hb))]

/-- The last codeword of a block of group 2. -/
theorem BlocksOk.stream_getD_last {b : Nat} (hb1 : r.blocks1 ≤ b) (hb : b < r.blocks1 + r.blocks2) :
    (codewordStream r d).getD (r.cw1 * (r.blocks1 + r.blocks2) + (b - r.blocks1)) 0 =
      d.getD (r.blockStart b + r.cw1) 0 := by
  have hlen := splitBlocks_length r d
  have hcw : r.cw2 = r.cw1 + 1 := h.group2.resolve_left (by omega)
  have hx : r.cw1 * (r.blocks1 + r.blocks2) + (b - r.blocks1) < r.dataCw := by rw [h.dataCw_eq]; omega
  have hsize : r.cw1 < r.blockSize b := by rw [EccInfo.blockSize, if_neg (by omega)]; omega
  have hlast := columnsOf_getD_last (i := r.cw1) (j := b - r.blocks1) (k := max r.cw1 r.cw2) (by omega)
    (by rw [List.take_append_drop, hlen]) h.length_group1 (fun c hc => (h.length_group2 c hc).symm ▸ Nat.lt_succ_self _)
    (by rw [List.length_drop]; omega)
  rw [List.take_append_drop, List.getElem_drop] at hlast
  simp only [Nat.add_sub_cancel' hb1] at hlast
  rw [h.stream_getD_data hx, hlast, splitBlocks_getElem_getD _ _ hsize]

/-- ECC codeword `i` of block `b`. -/
theorem BlocksOk.stream_getD_ecc {i b : Nat} (hi : i < r.eccPerBlock) (hb : b < r.blocks1 + r.blocks2) :
    (codewordStream r d).getD (r.dataCw + i * (r.blocks1 + r.blocks2) + b) 0 =
      (rsEcc ((d.drop (r.blockStart b)).take (r.blockSize b)) r.eccPerBlock).getD i 0 := by
  have hlen : ((splitBlocks r d).map fun b => rsEcc b r.eccPerBlock).length = r.blocks1 + r.blocks2 := by simp
  have hfull : ∀ c ∈ (splitBlocks r d).map fun b => rsEcc b r.eccPerBlock, i < c.length := by
    simpa using fun _ _ => hi
  have hecc := columnsOf_getD hi hlen hfull (hlen ▸ hb)
  rw [List.getElem_map, splitBlocks_getElem] at hecc
  rw [codewordStream_eq, Nat.add_assoc, ← h.length_data, List.getD_append_right _ _ _ _ (Nat.le_add_right ..),
    Nat.add_sub_cancel_left, hecc]

end

/-- Settles O33: the full data columns, the column of the blocks that are longer by one, and the ECC columns. -/
theorem interleavedOrder : Obligations.InterleavedOrder := by
  intro v e d h1 h2 hd r blocks first size stream
  have hok : BlocksOk r d := BlocksOk.of_eccTab h1 h2 e hd
  exact ⟨codewordStream_length hok.blocks hok.data, fun i b hi hb => hok.stream_getD_full hi hb,
    fun b hb1 hb => hok.stream_getD_last hb1 hb, fun i b hi hb => hok.stream_getD_ecc hi hb⟩

/-! ### INTERLEAVE (44_blocks R209) -/

theorem cmdInterleave_eq_sequence {s : State} (h : s.ver = 0) : cmdInterleave s = .error .sequence := by
  rw [cmdInterleave, raiseIf_bind, if_pos (by simpa using h)]

/-- Settles O32: the command writes the bytes of the stream, which are at most 3706. -/
theorem interleaveResult : Obligations.InterleaveResult := by
  intro s stream
  have hstream : codewordStream s.eccInfo (s.readBytes .cwm 0 s.eccInfo.dataCw) = stream := by
    simp only [stream, State.readBytes_eq, Nat.zero_add]
  have hlen : stream.length ≤ 4096 := by
    have htotal : s.eccInfo.total ≤ 3706 := (eccTab_blocks ..).2
    rw [← hstream, State.codewordStream_length]
    omega
  refine ⟨fun h1 _ => ?_, fun h0 => exec_failed (i := .interleave) (cmdInterleave_eq_sequence h0) (by decide)⟩
  obtain ⟨t, hexec, hregs, hdone, hin, hout⟩ := exec_writeBytes_setRegs (i := .interleave) rfl
    (cmdInterleave_eq_ok.mpr ⟨Nat.one_le_iff_ne_zero.mp h1, rfl⟩)
  rw [hstream] at hregs hin hout
  exact ⟨t, hexec, hregs, hdone, hlen, hin, hout⟩

end Sys2Proof.Machine
end

section
/-! PROOFS. The zig-zag scan (45_placement R231): its double columns go from the right edge to the left, skip column 6 and
leave no other column out, so that it visits every module outside column 6 once. -/

namespace Sys2Proof.Machine

/-! ### The double columns -/

/-- A column the scan goes on from: the right one of a double column, or 6, which it skips, or 0, where it ends
(45_placement R231). -/
def isScanColumn (right : Nat) : Prop := right = 0 ∨ (right % 2 = 0 ∧ 6 ≤ right) ∨ (right % 2 = 1 ∧ right ≤ 5)

/-- One double column of the scan. -/
theorem scanColumns_succ {right : Nat} (fuel : Nat) (up : Bool) (h : right ≠ 0) :
    scanColumns (fuel + 1) right up =
      ((if right = 6 then 5 else right), up) :: scanColumns fuel ((if right = 6 then 5 else right) - 2) (!up) :=
  if_neg h

theorem one_le_of_mem_scanColumns {fuel right : Nat} {up : Bool} {p : Nat × Bool} (h : p ∈ scanColumns fuel right up) :
    1 ≤ p.1 := by
  induction fuel generalizing right up with
  | zero => cases h
  | succ fuel ih =>
    by_cases h0 : right = 0
    · simp [scanColumns, h0] at h
    · rw [scanColumns_succ fuel up h0] at h
      obtain rfl | h := List.mem_cons.mp h
      · dsimp only; split <;> omega
      · exact ih h

/-- Each double column lies left of the ones before it. -/
theorem scanColumns_pairwise (fuel right : Nat) (up : Bool) :
    (scanColumns fuel right up).Pairwise fun p q => q.1 + 2 ≤ p.1 := by
  induction fuel generalizing right up with
  | zero => exact List.Pairwise.nil
  | succ fuel ih =>
    by_cases h0 : right = 0
    · simp [scanColumns, h0]
    · rw [scanColumns_succ fuel up h0, List.pairwise_cons]
      refine ⟨fun q hq => ?_, ih ..⟩
      have hle := scanColumns_le hq
      have hpos := one_le_of_mem_scanColumns hq
      dsimp only
      omega

/-- The columns the double columns cover, from a column the scan goes on from. -/
theorem exists_scanColumns_iff {fuel right : Nat} (up : Bool) (hfuel : right ≤ fuel) (h : isScanColumn right) (c : Nat) :
    (∃ p ∈ scanColumns fuel right up, c = p.1 ∨ c = p.1 - 1) ↔ right ≠ 0 ∧ c ≤ right ∧ c ≠ 6 := by
  induction fuel generalizing right up with
  | zero => simp [scanColumns, Nat.le_zero.mp hfuel]
  | succ fuel ih =>
    by_cases h0 : right = 0
    · simp [scanColumns, h0]
    · obtain ⟨col, hcol⟩ : ∃ col, col = if right = 6 then 5 else right := ⟨_, rfl⟩
      have hnext : isScanColumn (col - 2) := by unfold isScanColumn at h ⊢; split at hcol <;> omega
      rw [scanColumns_succ fuel up h0, ← hcol, List.exists_mem_cons_iff, ih _ (by split at hcol <;> omega) hnext]
      unfold isScanColumn at h
      dsimp only
      split at hcol <;> omega

/-! ### The positions -/

/-- The row the scan is on at step `k` of a double column (45_placement R231). -/
def scanRow (n : Nat) (up : Bool) (k : Nat) : Nat := if up then n - 1 - k else k

theorem scanRow_inj {n k l : Nat} {up : Bool} (hk : k < n) (hl : l < n) (h : scanRow n up k = scanRow n up l) : k = l := by
  unfold scanRow at h; split at h <;> omega

theorem exists_scanRow_iff {n : Nat} (up : Bool) (r : Nat) : (∃ k < n, scanRow n up k = r) ↔ r < n := by
  unfold scanRow
  cases up with
  | true => exact ⟨by rintro ⟨k, hk, rfl⟩; simp only [if_true]; omega, fun hr => ⟨n - 1 - r, by omega, by simp; omega⟩⟩
  | false => exact ⟨by rintro ⟨k, hk, rfl⟩; simpa, fun hr => ⟨r, hr, rfl⟩⟩

/-- The positions of one double column, in the scan's order. -/
def scanColumnCells (n : Nat) (p : Nat × Bool) : List (Nat × Nat) :=
  (List.range n).flatMap fun k => [(scanRow n p.2 k, p.1), (scanRow n p.2 k, p.1 - 1)]

theorem scanOrder_eq (n : Nat) : scanOrder n = (scanColumns n (n - 1) true).flatMap (scanColumnCells n) := rfl

theorem mem_scanColumnCells {n r c : Nat} {p : Nat × Bool} :
    (r, c) ∈ scanColumnCells n p ↔ r < n ∧ (c = p.1 ∨ c = p.1 - 1) := by
  simp only [scanColumnCells, List.mem_flatMap, List.mem_range, List.mem_cons, List.not_mem_nil, or_false, Prod.mk.injEq]
  rw [← exists_scanRow_iff p.2 r]
  constructor
  · rintro ⟨k, hk, ⟨rfl, rfl⟩ | ⟨rfl, rfl⟩⟩ <;> exact ⟨⟨k, hk, rfl⟩, by simp⟩
  · rintro ⟨⟨k, hk, rfl⟩, rfl | rfl⟩ <;> exact ⟨k, hk, by simp⟩

theorem scanColumnCells_nodup (n : Nat) {p : Nat × Bool} (h : 1 ≤ p.1) : (scanColumnCells n p).Nodup := by
  refine List.nodup_flatMap.mpr ⟨fun k _ => ?_, List.pairwise_lt_range.imp_of_mem fun {k l} hk hl hlt => ?_⟩
  · simp; omega
  · have hne : scanRow n p.2 k ≠ scanRow n p.2 l := fun heq =>
      hlt.ne (scanRow_inj (List.mem_range.mp hk) (List.mem_range.mp hl) heq)
    simp [Function.onFun, hne.symm]

theorem scanOrder_nodup (n : Nat) : (scanOrder n).Nodup := by
  rw [scanOrder_eq]
  refine List.nodup_flatMap.mpr ⟨fun p hp => scanColumnCells_nodup n (one_le_of_mem_scanColumns hp), ?_⟩
  refine (scanColumns_pairwise n (n - 1) true).imp_of_mem fun {p q} _ hq hpq => ?_
  have hpos := one_le_of_mem_scanColumns hq
  rintro ⟨r, c⟩ hp hq
  rw [mem_scanColumnCells] at hp hq
  omega

/-- A symbol's rightmost column is a right column of the scan. -/
theorem mem_scanOrder {n r c : Nat} (h : isScanColumn (n - 1)) (hn : 2 ≤ n) :
    (r, c) ∈ scanOrder n ↔ r < n ∧ c < n ∧ c ≠ 6 := by
  have hcol := exists_scanColumns_iff (fuel := n) true (Nat.sub_le n 1) h c
  simp only [scanOrder_eq, List.mem_flatMap, mem_scanColumnCells]
  constructor
  · rintro ⟨p, hp, hr, hc⟩
    have := hcol.mp ⟨p, hp, hc⟩
    omega
  · rintro ⟨hr, hc, h6⟩
    obtain ⟨p, hp, hc⟩ := hcol.mpr (by omega)
    exact ⟨p, hp, hr, hc⟩

/-- Settles O38: the double columns cover every column but 6, and no column twice. -/
theorem scanVisitsEveryModuleOnce : Obligations.ScanVisitsEveryModuleOnce := fun v h1 _ =>
  ⟨scanOrder_nodup _, fun _ _ => mem_scanOrder (by unfold isScanColumn; omega) (by omega)⟩

end Sys2Proof.Machine
end

section
/-! PROOFS. What the commands that write the symbol leave in `MTX`, module by module (45_placement R227 to R233, 46_mask
R264): each module takes the colour painted there, and every other module stays. -/

namespace Sys2Proof.Machine

/-! ### Commands that write a matrix -/

/-- A command whose writes are a square matrix and registers completes with them and leaves everything outside the matrix
(60_exceptions R310). -/
theorem exec_writeMatrix_setRegs {i : Instr} {s : State} {n : Nat} {g : Matrix} {f : Regs → Regs} (hg : g.square n)
    (hn : n ≤ 256) (h : command i s = .ok ((s.writeMatrix g).setRegs f)) :
    ∃ t, exec i s = .next t ∧ t.regs = f s.regs ∧ Completed s t ∧ SameButMtx s t ∧
      ∀ r c, c < 256 → t.readByte .mtx (256 * r + c) =
        if r < n ∧ c < n then byteOfModule (g.get r c) else s.readByte .mtx (256 * r + c) := by
  refine ⟨_, exec_ok h, by simp, completedWith_complete (by simp) ⟨by simp, by simp, by simp, by simp⟩,
    fun q x hq => ?_, fun r c hc => ?_⟩
  · rw [State.readByte_complete, State.readByte_setRegs, State.readByte_writeMatrix_other s g hq]
  · rw [State.readByte_complete, State.readByte_setRegs, State.readByte_writeMatrix s hg hn hc]

theorem State.dark_of_readByte {t : State} {r c : Nat} {x : Module}
    (h : t.readByte .mtx (256 * r + c) = byteOfModule x) : t.dark r c = x.dark :=
  (congrArg (·.getLsbD 0) h).trans (congrArg Module.dark (moduleOf_byteOfModule x))

theorem State.blk_of_readByte {t : State} {r c : Nat} {x : Module}
    (h : t.readByte .mtx (256 * r + c) = byteOfModule x) : t.blk r c = x.blk :=
  (congrArg (·.getLsbD 1) h).trans (congrArg Module.blk (moduleOf_byteOfModule x))

/-! ### PLACE_FUNCTION (45_placement R230) -/

theorem cmdPlaceFunction_eq_sequence {s : State} (h : s.ver = 0) : cmdPlaceFunction s = .error .sequence := by
  rw [cmdPlaceFunction, raiseIf_bind, if_pos (by simpa using h)]

/-- Settles O35: the command clears `MTX` and writes the function matrix. -/
theorem placeFunctionResult : Obligations.PlaceFunctionResult := by
  refine fun s => ⟨fun h1 h2 => ?_,
    fun h0 => exec_failed (i := .placeFunction) (cmdPlaceFunction_eq_sequence h0) (by decide)⟩
  have hside : side s.ver = 21 + 4 * (s.ver - 1) := by unfold side; omega
  have hsq := hside ▸ functionMatrix_square s.ver
  have hn : 21 + 4 * (s.ver - 1) ≤ 256 := by omega
  have hok := cmdPlaceFunction_eq_ok.mpr ⟨Nat.one_le_iff_ne_zero.mp h1, rfl⟩
  rw [hside] at hok
  obtain ⟨t, ht⟩ : ∃ t, t = ((((s.clearMem .mtx).writeMatrix (functionMatrix s.ver)).setRegs fun r =>
    { r with side := BitVec.ofNat 8 (21 + 4 * (s.ver - 1)) }).setQz false).complete := ⟨_, rfl⟩
  have hbyte {r c : Nat} (hc : c < 256) : t.readByte .mtx (256 * r + c) =
      if r < 21 + 4 * (s.ver - 1) ∧ c < 21 + 4 * (s.ver - 1) then byteOfModule ((functionMatrix s.ver).get r c)
      else 0 := by
    simp only [ht, State.readByte_complete, State.readByte_setQz, State.readByte_setRegs,
      State.readByte_writeMatrix _ hsq hn hc, State.readByte_clearMem, if_true]
  refine ⟨t, ht ▸ exec_ok (i := .placeFunction) hok, by simp [ht], ht ▸ completedWith_complete (by simp) ?_,
    fun r c hr hc => ?_, fun r c hr hc hout => ?_, fun q x hq => ?_⟩
  · exact ⟨by simp, by simp, by simp, by simp⟩
  · have := (hbyte (by omega)).trans (if_pos ⟨hr, hc⟩)
    exact ⟨State.dark_of_readByte this, State.blk_of_readByte this⟩
  · rw [hbyte hc, if_neg (by omega)]
  · simp [ht, State.readByte_writeMatrix_other _ _ hq, hq]

/-! ### Painting a list of modules -/

/-- Painting a list of modules keeps every `blk` bit. -/
theorem Matrix.foldl_paint_blk {n : Nat} (ps : List (Nat × Nat × Bool)) {g : Matrix} (h : g.square n) (r c : Nat) :
    ((ps.foldl (fun g p => g.paint p.1 p.2.1 p.2.2) g).get r c).blk = (g.get r c).blk := by
  induction ps generalizing g with
  | nil => rfl
  | cons p ps ih => exact (ih (Matrix.paint_square h ..)).trans (Matrix.get_paint_blk h ..)

/-- A module painted with one colour only has that colour. -/
theorem Matrix.foldl_paint_dark {n : Nat} {ps : List (Nat × Nat × Bool)} {g : Matrix} (h : g.square n) {r c : Nat}
    {d : Bool} (hr : r < n) (hc : c < n) (hmem : (r, c, d) ∈ ps) (hone : ∀ b, (r, c, b) ∈ ps → b = d) :
    ((ps.foldl (fun g p => g.paint p.1 p.2.1 p.2.2) g).get r c).dark = d := by
  induction ps generalizing g with
  | nil => cases hmem
  | cons p ps ih =>
    have hsq := Matrix.paint_square h p.1 p.2.1 p.2.2
    by_cases hlater : (r, c, d) ∈ ps
    · exact ih hsq hlater fun b hb => hone b (List.mem_cons_of_mem _ hb)
    · obtain rfl : (r, c, d) = p := (List.mem_cons.mp hmem).resolve_right hlater
      rw [List.foldl_cons, (Matrix.foldl_paint ps hsq).2 r c, Matrix.paint, Matrix.get_update h,
        if_pos ⟨rfl, rfl, hr, hc⟩]
      rintro hpos
      obtain ⟨⟨r', c', b⟩, hb, heq⟩ := List.mem_map.mp hpos
      cases heq
      exact hlater (hone b (List.mem_cons_of_mem _ hb) ▸ hb)

/-- A command whose writes to `MTX` are a list of modules painted in the symbol: they take their colours, and every `blk`
bit and every other module stays. -/
theorem exec_paint_setRegs {i : Instr} {s : State} {ps : List (Nat × Nat × Bool)} {f : Regs → Regs}
    (hps : ∀ p ∈ ps, p.1 < s.regs.side.toNat ∧ p.2.1 < s.regs.side.toNat)
    (h : command i s = .ok ((s.writeMatrix
      (ps.foldl (fun g p => g.paint p.1 p.2.1 p.2.2) (s.matrix s.regs.side.toNat))).setRegs f)) :
    ∃ t, exec i s = .next t ∧ t.regs = f s.regs ∧ Completed s t ∧ SameButMtx s t ∧
      (∀ r c d, (r, c, d) ∈ ps → (∀ b, (r, c, b) ∈ ps → b = d) → t.dark r c = d) ∧
      (∀ r c, c < 256 → t.blk r c = s.blk r c) ∧
      ∀ r c, c < 256 → (∀ d, (r, c, d) ∉ ps) → t.readByte .mtx (256 * r + c) = s.readByte .mtx (256 * r + c) := by
  have hm := s.matrix_square s.regs.side.toNat
  obtain ⟨hsq, hkeep⟩ := Matrix.foldl_paint ps hm
  obtain ⟨t, hexec, hregs, hdone, hother, hbyte⟩ := exec_writeMatrix_setRegs hsq s.side_le h
  refine ⟨t, hexec, hregs, hdone, hother, fun r c d hmem hone => ?_, fun r c hc => ?_, fun r c hc hout => ?_⟩
  · obtain ⟨hr, hc⟩ := hps _ hmem
    have hin := (hbyte r c (hc.trans_le s.side_le)).trans (if_pos ⟨hr, hc⟩)
    rw [State.dark_of_readByte hin, Matrix.foldl_paint_dark hm hr hc hmem hone]
  · by_cases hin : r < s.regs.side.toNat ∧ c < s.regs.side.toNat
    · rw [State.blk_of_readByte ((hbyte r c hc).trans (if_pos hin)), Matrix.foldl_paint_blk ps hm,
        State.matrix_get s hin.1 hin.2]
    · rw [State.blk, hbyte r c hc, if_neg hin, State.blk]
  · rw [hbyte r c hc]
    split
    · next hin =>
      rw [hkeep r c (by simpa using hout), State.matrix_get s hin.1 hin.2, State.readByte_mtx_eq]
    · rfl

/-! ### PLACE_DATA (45_placement R232, R233) -/

/-- The positions that take a bit, with their bits. -/
def bitCells (free : List (Nat × Nat)) (bits : List Bool) : List (Nat × Nat × Bool) :=
  List.zipWith (fun p b => (p.1, p.2, b)) free bits

/-- The scan paints the unblocked positions with the bits in order, and counts both. -/
theorem foldl_scanVisit_eq {n : Nat} (ps : List (Nat × Nat)) {g : Matrix} (h : g.square n) (bits : List Bool) (met : Nat) :
    ps.foldl scanVisit { matrix := g, bits := bits, met := met } =
      { matrix := (bitCells (unblockedOf g ps) bits).foldl (fun g p => g.paint p.1 p.2.1 p.2.2) g
        bits := bits.drop (unblockedOf g ps).length
        met := met + (unblockedOf g ps).length } := by
  induction ps generalizing g bits met with
  | nil => rfl
  | cons p ps ih =>
    rw [List.foldl_cons]
    cases hb : (g.get p.1 p.2).blk with
    | true =>
      have hu : unblockedOf g (p :: ps) = unblockedOf g ps := by simp [unblockedOf, hb]
      rw [hu, ← ih h, scanVisit, if_pos hb]
    | false =>
      have hu : unblockedOf g (p :: ps) = p :: unblockedOf g ps := by simp [unblockedOf, hb]
      rw [hu, List.length_cons, Nat.add_comm _ 1, ← Nat.add_assoc, scanVisit, if_neg (by simp [hb])]
      cases bits with
      | nil => rw [ih h]; simp [bitCells]
      | cons b bs =>
        have hsq : (g.paint p.1 p.2 b).square n := Matrix.paint_square h ..
        have hblk : unblockedOf (g.paint p.1 p.2 b) ps = unblockedOf g ps := by
          simp [unblockedOf, Matrix.get_paint_blk h]
        rw [ih hsq, hblk, Nat.add_comm 1, List.drop_succ_cons]
        rfl

theorem mem_bitCells {free : List (Nat × Nat)} {bits : List Bool} {r c : Nat} {b : Bool} :
    (r, c, b) ∈ bitCells free bits ↔ ∃ j : Nat, free[j]? = some (r, c) ∧ bits[j]? = some b := by
  simp only [bitCells, List.mem_iff_getElem?, List.getElem?_zipWith_eq_some, Prod.mk.injEq]
  constructor
  · rintro ⟨j, p, _, hp, hb, rfl, rfl, rfl⟩
    exact ⟨j, hp, hb⟩
  · rintro ⟨j, hp, hb⟩
    exact ⟨j, _, _, hp, hb, rfl, rfl, rfl⟩

@[simp] theorem dataBits_length (s : State) :
    (dataBits s).length = 8 * s.regs.totcw.toNat + s.regs.rembits.toNat := by
  simp [dataBits]

/-- The bits of the stream in `CWM`, then zeros (45_placement R232). -/
theorem dataBits_getElem (s : State) {j : Nat} (h : j < (dataBits s).length) :
    (dataBits s)[j] = if j < 8 * s.regs.totcw.toNat then s.streamBit 0x1000 j else false := by
  obtain ⟨bytes, hbytes⟩ : ∃ bytes, bytes = s.readBytes .cwm streamBase s.regs.totcw.toNat := ⟨_, rfl⟩
  have hlen : (unpackBits bytes).length = 8 * s.regs.totcw.toNat := by simp [hbytes]
  simp only [dataBits, ← hbytes, List.getElem_append, hlen, List.getElem_replicate]
  split
  · next hj =>
    have hbyte : bytes.getD (j / 8) 0 = s.readByte .cwm (0x1000 + j / 8) := by
      rw [hbytes, State.readBytes_eq, List.getD_eq_getElem _ _ (by simp; omega), List.getElem_map, List.getElem_range]
      rfl
    have hbit := unpackBits_bit bytes j (by rwa [← unpackBits_length, hlen])
    rw [hbyte, List.getD_eq_getElem _ _ (by rwa [hlen])] at hbit
    exact hbit
  · rfl

/-- The unblocked positions of the held matrix are those `MTX` holds unblocked. -/
theorem State.unblockedOf_matrix (s : State) {n : Nat} {ps : List (Nat × Nat)} (h : ∀ p ∈ ps, p.1 < n ∧ p.2 < n) :
    unblockedOf (s.matrix n) ps = ps.filter fun p => !s.blk p.1 p.2 :=
  List.filter_congr fun p hp => by rw [State.matrix_get s (h p hp).1 (h p hp).2]

theorem placeBits_eq (s : State) (n : Nat) (bits : List Bool) :
    placeBits n (s.matrix n) bits =
      let free := (scanOrder n).filter fun p => !s.blk p.1 p.2
      { matrix := (bitCells free bits).foldl (fun g p => g.paint p.1 p.2.1 p.2.2) (s.matrix n)
        bits := bits.drop free.length
        met := free.length } := by
  rw [placeBits, foldl_scanVisit_eq _ (s.matrix_square n), s.unblockedOf_matrix fun p => lt_of_mem_scanOrder, Nat.zero_add]

/-- Settles O39: the scan meets no position twice, so the `j`-th unblocked one keeps the `j`-th bit. -/
theorem placeDataResult : Obligations.PlaceDataResult := by
  intro s ⟨h1, _, hside, hqz⟩ htotcw free count
  have hok := cmdPlaceData_eq_ok.mpr ⟨⟨Nat.one_le_iff_ne_zero.mp h1, hside, hqz⟩, htotcw, rfl⟩
  have hcount : (dataBits s).length = count := dataBits_length s
  have hfree : free.Nodup := (scanOrder_nodup _).filter _
  have hlt : ∀ p ∈ free, p.1 < s.regs.side.toNat ∧ p.2 < s.regs.side.toNat := fun p hp =>
    lt_of_mem_scanOrder (List.mem_of_mem_filter hp)
  have hone {r c : Nat} {j k : Nat} (hj : free[j]? = some (r, c)) (hk : free[k]? = some (r, c)) : k = j :=
    (List.getElem?_inj (List.getElem?_eq_some_iff.mp hk).1 hfree).mp (hk.trans hj.symm)
  have hres0 : (dataBits s).length - ((dataBits s).drop free.length).length = min count free.length := by
    rw [List.length_drop, hcount]; omega
  rw [placeBits_eq, hres0] at hok
  obtain ⟨t, hexec, hregs, hdone, hother, hdark, hblk, hkeep⟩ := exec_paint_setRegs (i := .placeData)
    (fun ⟨r, c, b⟩ hp => by
      obtain ⟨j, hj, -⟩ := mem_bitCells.mp hp
      exact hlt _ (List.mem_of_getElem? hj)) hok
  refine ⟨t, hexec, hregs, hdone, fun j r c hj => ?_, fun r c _ hc => hblk r c hc, fun r c _ hc hout => ?_, hother⟩
  · by_cases hjc : j < (dataBits s).length
    · have hmem : (r, c, (dataBits s)[j]) ∈ bitCells free (dataBits s) :=
        mem_bitCells.mpr ⟨j, hj, List.getElem?_eq_getElem hjc⟩
      have hpainted := hdark r c _ hmem fun b hb => by
        obtain ⟨k, hk, hbk⟩ := mem_bitCells.mp hb
        rw [hone hj hk, List.getElem?_eq_getElem hjc] at hbk
        exact (Option.some.inj hbk).symm
      have hjc : j < count := hcount ▸ hjc
      rw [hpainted, dataBits_getElem, if_pos hjc]
    · have hlate : count ≤ j := hcount ▸ Nat.le_of_not_lt hjc
      have hc : c < 256 := (hlt _ (List.mem_of_getElem? hj)).2.trans_le s.side_le
      have hbyte := hkeep r c hc fun b hb => by
        obtain ⟨k, hk, hbk⟩ := mem_bitCells.mp hb
        exact hjc (hone hj hk ▸ (List.getElem?_eq_some_iff.mp hbk).1)
      rw [if_neg (by omega), if_neg (by omega), State.dark, hbyte, State.dark]
  · refine hkeep r c hc fun b hb => ?_
    obtain ⟨j, hj, -⟩ := mem_bitCells.mp hb
    exact hout (List.mem_of_getElem? hj)

/-! ### WRITE_INFO (45_placement R227, R228, 46_mask R264) -/

theorem mem_formatCells {n i r c : Nat} (hi : i < 15) :
    (r, c) ∈ formatCells n i ↔
      (c = 8 ∧ (r = i ∧ i ≤ 5 ∨ r = 7 ∧ i = 6 ∨ r = 8 ∧ i = 7) ∨ r = 8 ∧ (c = 7 ∧ i = 8 ∨ c = 14 - i ∧ 9 ≤ i)) ∨
      (r = 8 ∧ c = n - 1 - i ∧ i ≤ 7 ∨ c = 8 ∧ r = n - 15 + i ∧ 8 ≤ i) := by
  simp only [formatCells, List.mem_cons, List.not_mem_nil, or_false]
  refine or_congr ?_ ?_ <;> split_ifs <;> rw [Prod.mk.injEq] <;> omega

theorem mem_versionCells {n i r c : Nat} :
    (r, c) ∈ versionCells n i ↔ (r = n - 11 + i % 3 ∧ c = i / 3) ∨ (r = i / 3 ∧ c = n - 11 + i % 3) := by
  simp [versionCells]

/-- No module belongs to two bits of the format string. -/
theorem formatCells_index {n i j r c : Nat} (hn : 21 ≤ n) (hi : i < 15) (hj : j < 15) (h : (r, c) ∈ formatCells n i)
    (k : (r, c) ∈ formatCells n j) : i = j := by
  rw [mem_formatCells hi] at h
  rw [mem_formatCells hj] at k
  omega

/-- No module belongs to two bits of the version string. -/
theorem versionCells_index {n i j r c : Nat} (hn : 21 ≤ n) (hj : j < 18) (h : (r, c) ∈ versionCells n i)
    (k : (r, c) ∈ versionCells n j) : i = j := by
  rw [mem_versionCells] at h k
  omega

theorem formatCells_disjoint_versionCells {n i j r c : Nat} (hn : 45 ≤ n) (hi : i < 15) (hj : j < 18)
    (h : (r, c) ∈ formatCells n i) : (r, c) ∉ versionCells n j := by
  rw [mem_formatCells hi] at h
  rw [mem_versionCells]
  omega

theorem mem_infoCells {v : BitVec 6} {n : Nat} {e : BitVec 2} {m : BitVec 3} {r c : Nat} {d : Bool} :
    (r, c, d) ∈ infoCells v n e m ↔
      (∃ i < 15, (r, c) ∈ formatCells n i ∧ d = (formatString e m).getLsbD i) ∨
      (7 ≤ v.toNat ∧ ∃ i < 18, (r, c) ∈ versionCells n i ∧ d = (versionString v).getLsbD i) := by
  rw [infoCells, List.mem_append, List.mem_ite_nil_right]
  simp only [List.mem_flatMap, List.mem_map, List.mem_range, Prod.mk.injEq, Prod.exists]
  constructor
  · rintro (⟨i, hi, _, _, hp, rfl, rfl, rfl⟩ | ⟨h7, i, hi, _, _, hp, rfl, rfl, rfl⟩)
    · exact .inl ⟨i, hi, hp, rfl⟩
    · exact .inr ⟨h7, i, hi, hp, rfl⟩
  · rintro (⟨i, hi, hp, rfl⟩ | ⟨h7, i, hi, hp, rfl⟩)
    · exact .inl ⟨i, hi, r, c, hp, rfl, rfl, rfl⟩
    · exact .inr ⟨h7, i, hi, r, c, hp, rfl, rfl, rfl⟩

theorem lt_of_mem_infoCells_symbol {v : BitVec 6} {n : Nat} {e : BitVec 2} {m : BitVec 3} {p : Nat × Nat × Bool}
    (hn : n = side v.toNat) (h1 : 1 ≤ v.toNat) (h : p ∈ infoCells v n e m) : p.1 < n ∧ p.2.1 < n := by
  obtain ⟨r, c, d⟩ := p
  unfold side at hn
  obtain ⟨i, hi, hp, -⟩ | ⟨-, i, hi, hp, -⟩ := mem_infoCells.mp h
  · rw [mem_formatCells hi] at hp; dsimp only; omega
  · rw [mem_versionCells] at hp; dsimp only; omega

/-- Settles O45: no module belongs to two bits, so each keeps the colour of its own. -/
theorem writeInfoResult : Obligations.WriteInfoResult := by
  intro s m ⟨h1, h2, hside, hqz⟩ n
  have h1 : 1 ≤ s.regs.version.toNat := h1
  have hn : n = 17 + 4 * s.regs.version.toNat := hside
  have hok := (cmdWriteInfo_eq_ok (m := m)).mpr ⟨⟨Nat.one_le_iff_ne_zero.mp h1, hside, hqz⟩, rfl⟩
  obtain ⟨t, hexec, hregs, hdone, hother, hdark, hblk, hkeep⟩ := exec_paint_setRegs (i := .writeInfo m)
    (fun p => lt_of_mem_infoCells_symbol hside h1) hok
  refine ⟨t, hexec, hregs, hdone, fun i hi p hp => ?_, fun h7 i hi p hp => ?_, fun r c _ hc => hblk r c hc,
    fun r c _ hc hformat hversion => hkeep r c hc fun d hd => ?_, hother⟩
  · refine hdark _ _ _ (mem_infoCells.mpr (.inl ⟨i, hi, hp, rfl⟩)) fun b hb => ?_
    obtain ⟨j, hj, hpj, rfl⟩ | ⟨h7, j, hj, hpj, -⟩ := mem_infoCells.mp hb
    · rw [formatCells_index (by omega) hi hj hp hpj]
    · exact absurd hpj (formatCells_disjoint_versionCells (by omega) hi hj hp)
  · refine hdark _ _ _ (mem_infoCells.mpr (.inr ⟨h7, i, hi, hp, rfl⟩)) fun b hb => ?_
    obtain ⟨j, hj, hpj, -⟩ | ⟨-, j, hj, hpj, rfl⟩ := mem_infoCells.mp hb
    · have h7 : 7 ≤ s.regs.version.toNat := h7
      exact absurd hp (formatCells_disjoint_versionCells (by omega) hj hi hpj)
    · rw [versionCells_index (by omega) hj hp hpj]
  · obtain ⟨i, hi, hp, -⟩ | ⟨h7, i, hi, hp, -⟩ := mem_infoCells.mp hd
    · exact hformat i hi hp
    · exact hversion h7 i hi hp

end Sys2Proof.Machine
end

section
/-! PROOFS. The function matrix (45_placement R221 to R230). Each of its steps blocks more modules, leaves the blocked ones
as they are, and leaves the unblocked ones light; so a module has the colour of the step that blocked it. -/

namespace Sys2Proof.Machine

/-! ### Steps that block modules -/

/-- `k` is `g` with the modules of an area blocked: no blocked module of `g` changes, and only modules that are blocked in
`k` change. -/
structure BlocksArea (n : Nat) (g k : Matrix) (area : Nat → Nat → Prop) : Prop where
  square : k.square n
  keeps : ∀ y x, (g.get y x).blk = true → k.get y x = g.get y x
  blk : ∀ y x, (k.get y x).blk = true ↔ (g.get y x).blk = true ∨ y < n ∧ x < n ∧ area y x
  light : ∀ y x, (k.get y x).blk = false → k.get y x = g.get y x

theorem BlocksArea.congr {n : Nat} {g k : Matrix} {P Q : Nat → Nat → Prop} (h : BlocksArea n g k P)
    (hPQ : ∀ y x, y < n → x < n → (P y x ↔ Q y x)) : BlocksArea n g k Q where
  square := h.square
  keeps := h.keeps
  blk y x := (h.blk y x).trans (or_congr_right (and_congr_right fun hy => and_congr_right fun hx => hPQ y x hy hx))
  light := h.light

theorem BlocksArea.refl {n : Nat} {g : Matrix} (h : g.square n) : BlocksArea n g g fun _ _ => False := by
  constructor <;> simp [h]

theorem BlocksArea.trans {n : Nat} {g k l : Matrix} {P Q : Nat → Nat → Prop} (h : BlocksArea n g k P)
    (h' : BlocksArea n k l Q) : BlocksArea n g l fun y x => P y x ∨ Q y x where
  square := h'.square
  keeps y x hb := by
    have hk := h.keeps y x hb
    rw [h'.keeps y x (by rw [hk, hb]), hk]
  blk y x := by rw [h'.blk, h.blk, or_assoc, and_or_left, and_or_left]
  light y x hb := by
    have hl := h'.light y x hb
    rw [hl, h.light y x (by rw [← hl, hb])]

/-- A blocked module keeps its colour. -/
theorem BlocksArea.get_eq {n : Nat} {g k : Matrix} {P : Nat → Nat → Prop} (h : BlocksArea n g k P) {y x : Nat} {d : Bool}
    (hg : g.get y x = { dark := d, blk := true }) : k.get y x = { dark := d, blk := true } := by
  rw [h.keeps y x (by rw [hg]), hg]

/-- Steps that block an area each block all their areas in turn. -/
theorem BlocksArea.foldl {n : Nat} {α : Type} {f : Matrix → α → Matrix} {P : α → Nat → Nat → Prop} (ps : List α)
    (hf : ∀ p ∈ ps, ∀ g : Matrix, g.square n → BlocksArea n g (f g p) (P p)) {g : Matrix} (hg : g.square n) :
    BlocksArea n g (ps.foldl f g) fun y x => ∃ p ∈ ps, P p y x := by
  induction ps generalizing g with
  | nil => exact (BlocksArea.refl hg).congr (by simp)
  | cons p ps ih =>
    have hp := hf p List.mem_cons_self g hg
    exact (hp.trans (ih (fun q hq => hf q (List.mem_cons_of_mem _ hq)) hp.square)).congr fun y x _ _ => by simp

/-- A step blocks an area if it blocks the modules in it, leaves the blocked ones there, and leaves all others. -/
theorem BlocksArea.of_get {n : Nat} {g k : Matrix} {P : Nat → Nat → Prop} (hsq : k.square n)
    (hin : ∀ y x, y < n → x < n → P y x →
      (k.get y x).blk = true ∧ ((g.get y x).blk = true → k.get y x = g.get y x))
    (hout : ∀ y x, ¬(y < n ∧ x < n ∧ P y x) → k.get y x = g.get y x) : BlocksArea n g k P where
  square := hsq
  keeps y x hb := by
    by_cases h : y < n ∧ x < n ∧ P y x
    · exact (hin y x h.1 h.2.1 h.2.2).2 hb
    · exact hout y x h
  blk y x := by
    by_cases h : y < n ∧ x < n ∧ P y x
    · simp [(hin y x h.1 h.2.1 h.2.2).1, h]
    · rw [hout y x h, or_iff_left h]
  light y x hb := hout y x fun ⟨hy, hx, h⟩ => by rw [(hin y x hy hx h).1] at hb; cases hb

/-- Changing one module blocks it, if the change blocks it and leaves it when it is blocked already. -/
theorem BlocksArea.update {n : Nat} {g : Matrix} (hg : g.square n) {r c : Nat} {f : Module → Module}
    (hblk : ∀ m, (f m).blk = true) (hkeep : (g.get r c).blk = true → f (g.get r c) = g.get r c) :
    BlocksArea n g (g.update r c f) fun y x => y = r ∧ x = c := by
  refine .of_get (Matrix.update_square hg r c f) (fun y x hy hx h => ?_) fun y x h => ?_
  · obtain ⟨rfl, rfl⟩ := h
    rw [Matrix.get_update hg, if_pos ⟨rfl, rfl, hy, hx⟩]
    exact ⟨hblk _, hkeep⟩
  · rw [Matrix.get_update hg, if_neg]
    rintro ⟨rfl, rfl, hr, hc⟩
    exact h ⟨hr, hc, rfl, rfl⟩

theorem BlocksArea.reserve {n : Nat} {g : Matrix} (hg : g.square n) (r c : Nat) :
    BlocksArea n g (g.reserve r c) fun y x => y = r ∧ x = c :=
  .update hg (fun _ => rfl) fun hb => by rw [← hb]

theorem BlocksArea.place {n : Nat} {g : Matrix} (hg : g.square n) {r c : Nat} (d : Bool)
    (hfree : (g.get r c).blk = false) : BlocksArea n g (g.place r c d) fun y x => y = r ∧ x = c :=
  .update hg (fun _ => rfl) fun hb => absurd hb (by simp [hfree])

theorem BlocksArea.reserveAll {n : Nat} {g : Matrix} (hg : g.square n) (ps : List (Nat × Nat)) :
    BlocksArea n g (reserveAll g ps) fun y x => (y, x) ∈ ps :=
  (BlocksArea.foldl ps (fun p _ _ h => BlocksArea.reserve h p.1 p.2) hg).congr fun _ _ _ _ =>
    ⟨fun ⟨_, hp, hy, hx⟩ => hy ▸ hx ▸ hp, fun h => ⟨_, h, rfl, rfl⟩⟩

/-- Placing modules: each takes the colour placed there, if no other is placed at its position. -/
theorem Matrix.get_foldl_place {n : Nat} {α : Type} {row col : α → Nat} {dark : α → Bool} {val : Nat → Nat → Bool}
    (ps : List α) {g : Matrix} (hg : g.square n) (hval : ∀ p ∈ ps, dark p = val (row p) (col p)) (y x : Nat) :
    (ps.foldl (fun g p => g.place (row p) (col p) (dark p)) g).get y x =
      if y < n ∧ x < n ∧ ∃ p ∈ ps, row p = y ∧ col p = x then { dark := val y x, blk := true } else g.get y x := by
  induction ps generalizing g with
  | nil => simp
  | cons p ps ih =>
    rw [List.foldl_cons, ih (Matrix.place_square hg ..) fun q hq => hval q (List.mem_cons_of_mem _ hq), Matrix.place,
      Matrix.get_update hg, hval p List.mem_cons_self]
    simp only [List.exists_mem_cons_iff]
    by_cases hlater : y < n ∧ x < n ∧ ∃ q ∈ ps, row q = y ∧ col q = x
    · obtain ⟨hy, hx, hq⟩ := hlater
      rw [if_pos ⟨hy, hx, hq⟩, if_pos ⟨hy, hx, .inr hq⟩]
    · rw [if_neg hlater]
      by_cases hp : y = row p ∧ x = col p ∧ row p < n ∧ col p < n
      · obtain ⟨rfl, rfl, hr, hc⟩ := hp
        rw [if_pos ⟨rfl, rfl, hr, hc⟩, if_pos ⟨hr, hc, .inl ⟨rfl, rfl⟩⟩]
      · rw [if_neg hp, if_neg]
        rintro ⟨hy, hx, ⟨rfl, rfl⟩ | hq⟩
        · exact hp ⟨rfl, rfl, hy, hx⟩
        · exact hlater ⟨hy, hx, hq⟩

/-! ### Squares of modules -/

/-- The square of side `k` with top-left corner `(r, c)`. -/
abbrev inBox (k r c y x : Nat) : Prop := r ≤ y ∧ y < r + k ∧ c ≤ x ∧ x < c + k

theorem exists_mem_pairs_range {k : Nat} {P : Nat × Nat → Prop} :
    (∃ p ∈ pairs (List.range k) (List.range k), P p) ↔ ∃ i < k, ∃ j < k, P (i, j) := by
  simp [pairs]

theorem inBox_iff_exists {k r c y x : Nat} :
    (∃ p ∈ pairs (List.range k) (List.range k), r + p.1 = y ∧ c + p.2 = x) ↔ inBox k r c y x := by
  rw [exists_mem_pairs_range]
  constructor
  · rintro ⟨i, hi, j, hj, rfl, rfl⟩
    unfold inBox; omega
  · rintro ⟨hr, hr', hc, hc'⟩
    exact ⟨y - r, by omega, x - c, by omega, by dsimp only; omega⟩

/-- Placing a square on unblocked modules blocks it. -/
theorem BlocksArea.of_box {n k r c : Nat} {g g' : Matrix} {dark : Nat → Nat → Bool} (hsq : g'.square n)
    (hget : ∀ y x, g'.get y x =
      if y < n ∧ x < n ∧ inBox k r c y x then { dark := dark y x, blk := true } else g.get y x)
    (hfree : ∀ y x, inBox k r c y x → (g.get y x).blk = false) : BlocksArea n g g' (inBox k r c) := by
  refine .of_get hsq (fun y x hy hx h => ?_) fun y x h => by rw [hget, if_neg h]
  rw [hget, if_pos ⟨hy, hx, h⟩]
  exact ⟨rfl, fun hb => by rw [hfree y x h] at hb; cases hb⟩

theorem get_blank (n y x : Nat) : (Matrix.blank n).get y x = Module.light := by
  by_cases h : y < n ∧ x < n
  · simp [Matrix.get, Matrix.blank, List.getD_eq_getElem?_getD, h.1, h.2]
  · exact Matrix.get_outside (Matrix.blank_square n) (by omega)

/-- A module that no step has blocked is light. -/
theorem BlocksArea.get_light {n : Nat} {g : Matrix} {P : Nat → Nat → Prop} (h : BlocksArea n (Matrix.blank n) g P)
    {y x : Nat} (hP : ¬P y x) : g.get y x = Module.light := by
  have hblk : (g.get y x).blk = false := by simp [← Bool.not_eq_true, h.blk, get_blank, Module.light, hP]
  rw [h.light y x hblk, get_blank]

theorem Module.eq_mk {m : Module} {d b : Bool} (hd : m.dark = d) (hb : m.blk = b) : m = { dark := d, blk := b } := by
  rw [← hd, ← hb]

/-- Reserving modules keeps their colours. -/
theorem reserveAll_dark {n : Nat} {g : Matrix} (hg : g.square n) (ps : List (Nat × Nat)) (y x : Nat) :
    ((reserveAll g ps).get y x).dark = (g.get y x).dark := by
  unfold reserveAll
  induction ps generalizing g with
  | nil => rfl
  | cons p ps ih =>
    refine (ih (g := g.reserve p.1 p.2) (Matrix.update_square hg ..)).trans ?_
    rw [Matrix.reserve, Matrix.get_update hg]
    split <;> rfl

/-! ### The corners (45_placement R221, R222) -/

theorem get_placeFinder {n : Nat} {g : Matrix} (hg : g.square n) (r c y x : Nat) :
    (placeFinder g r c).get y x =
      if y < n ∧ x < n ∧ inBox 7 r c y x then { dark := ringOf 3 (y - r) (x - c) != 2, blk := true }
      else g.get y x := by
  simp only [← inBox_iff_exists]
  exact Matrix.get_foldl_place (val := fun y x => ringOf 3 (y - r) (x - c) != 2) _ hg
    (fun p _ => by simp only [Nat.add_sub_cancel_left]) y x

theorem get_placeFinder_inside {n : Nat} {g : Matrix} (hg : g.square n) {r c i j : Nat} (hr : r + 7 ≤ n) (hc : c + 7 ≤ n)
    (hi : i < 7) (hj : j < 7) : (placeFinder g r c).get (r + i) (c + j) = { dark := ringOf 3 i j != 2, blk := true } := by
  rw [get_placeFinder hg, if_pos (by unfold inBox; omega), Nat.add_sub_cancel_left, Nat.add_sub_cancel_left]

/-- The modules of the three finder patterns. -/
def inFinders (n y x : Nat) : Prop := (inBox 7 0 0 y x ∨ inBox 7 0 (n - 7) y x) ∨ inBox 7 (n - 7) 0 y x

/-- The three finder patterns, on a blank matrix. -/
theorem stepFinders_spec {n : Nat} (hn : 21 ≤ n) :
    BlocksArea n (Matrix.blank n) (stepFinders n (Matrix.blank n)) (inFinders n) ∧
      ∀ i j, i < 7 → j < 7 → ∀ p ∈ [(0, 0), (0, n - 7), (n - 7, 0)],
        (stepFinders n (Matrix.blank n)).get (p.1 + i) (p.2 + j) = { dark := ringOf 3 i j != 2, blk := true } := by
  have step {g : Matrix} {P : Nat → Nat → Prop} (h : BlocksArea n (Matrix.blank n) g P) (r c : Nat)
      (hP : ∀ y x, inBox 7 r c y x → ¬P y x) : BlocksArea n g (placeFinder g r c) (inBox 7 r c) :=
    .of_box (dark := fun y x => ringOf 3 (y - r) (x - c) != 2) (placeFinder_square h.square ..)
      (get_placeFinder h.square r c) fun y x hin => by
      rw [h.get_light (hP y x hin)]; rfl
  have h₀ := BlocksArea.refl (Matrix.blank_square n)
  have h₁ := step h₀ 0 0 fun _ _ _ => id
  have h₂ := step (h₀.trans h₁) 0 (n - 7) fun y x hin h => by simp only [inBox, false_or] at hin h; omega
  have h₃ := step ((h₀.trans h₁).trans h₂) (n - 7) 0 fun y x hin h => by simp only [inBox, false_or] at hin h; omega
  refine ⟨((h₁.trans h₂).trans h₃), fun i j hi hj p hp => ?_⟩
  simp only [List.mem_cons, List.not_mem_nil, or_false] at hp
  obtain rfl | rfl | rfl := hp
  · have h := get_placeFinder_inside h₀.square (r := 0) (c := 0) (by omega) (by omega) hi hj
    exact (h₂.trans h₃).get_eq h
  · have h := get_placeFinder_inside h₁.square (r := 0) (c := n - 7) (by omega) (by omega) hi hj
    exact h₃.get_eq h
  · exact get_placeFinder_inside h₂.square (by omega) (by omega) hi hj

/-- The matrix after steps 1 and 2: the finder patterns and separators (45_placement R221, R222). -/
def cornerMatrix (v : Nat) : Matrix := stepSeparators (side v) (stepFinders (side v) (Matrix.blank (side v)))

/-- The modules of the three corner squares. -/
def inCorners (n y x : Nat) : Prop := (y < 8 ∧ x < 8) ∨ (y < 8 ∧ n ≤ x + 8) ∨ (n ≤ y + 8 ∧ x < 8)

theorem mem_separators {n y x : Nat} (hy : y < n) (hx : x < n) :
    ((y, x) ∈ (List.range 8).flatMap fun i =>
      [(i, 7), (7, i), (i, n - 8), (7, n - 8 + i), (n - 8, i), (n - 8 + i, 7)]) ↔
      y < 8 ∧ x = 7 ∨ y = 7 ∧ x < 8 ∨ y < 8 ∧ x = n - 8 ∨ y = 7 ∧ n ≤ x + 8 ∨ y = n - 8 ∧ x < 8 ∨ n ≤ y + 8 ∧ x = 7 := by
  simp only [List.mem_flatMap, List.mem_range, List.mem_cons, List.not_mem_nil, or_false, Prod.mk.injEq]
  constructor
  · rintro ⟨i, hi, ⟨rfl, rfl⟩ | ⟨rfl, rfl⟩ | ⟨rfl, rfl⟩ | ⟨rfl, rfl⟩ | ⟨rfl, rfl⟩ | ⟨rfl, rfl⟩⟩ <;> omega
  · rintro (h | h | h | h | h | h)
    · exact ⟨y, by omega⟩
    · exact ⟨x, by omega⟩
    · exact ⟨y, by omega⟩
    · exact ⟨x - (n - 8), by omega⟩
    · exact ⟨x, by omega⟩
    · exact ⟨y - (n - 8), by omega⟩

theorem cornerMatrix_blocksArea {v : Nat} (h : 1 ≤ v) :
    BlocksArea (side v) (Matrix.blank (side v)) (cornerMatrix v) (inCorners (side v)) := by
  have hn : 21 ≤ side v := by unfold side; omega
  have hfinders := (stepFinders_spec hn).1
  refine (hfinders.trans (.reserveAll hfinders.square _)).congr fun y x hy hx => ?_
  rw [mem_separators hy hx]
  unfold inFinders inBox inCorners
  omega

theorem cornerMatrix_get_finder {v i j : Nat} (h : 1 ≤ v) (hi : i < 7) (hj : j < 7) {p : Nat × Nat}
    (hp : p ∈ [(0, 0), (0, side v - 7), (side v - 7, 0)]) :
    (cornerMatrix v).get (p.1 + i) (p.2 + j) = { dark := ringOf 3 i j != 2, blk := true } := by
  obtain ⟨hfinders, hget⟩ := stepFinders_spec (n := side v) (by unfold side; omega)
  exact (BlocksArea.reserveAll hfinders.square _).get_eq (hget i j hi hj p hp)

/-- A module of a corner square outside the finder patterns is light. -/
theorem cornerMatrix_get_separator {v y x : Nat} (h : 1 ≤ v) (hy : y < side v) (hx : x < side v)
    (hin : inCorners (side v) y x) (hout : ¬inFinders (side v) y x) :
    (cornerMatrix v).get y x = { dark := false, blk := true } := by
  have hfinders := (stepFinders_spec (n := side v) (by unfold side; omega)).1
  refine Module.eq_mk ?_ (((cornerMatrix_blocksArea h).blk y x).mpr (.inr ⟨hy, hx, hin⟩))
  rw [cornerMatrix, stepSeparators, reserveAll_dark hfinders.square, hfinders.get_light hout]
  rfl

/-! ### The alignment patterns (45_placement R223, 44_blocks R204, R205) -/

/-- The centre coordinates of a version: even, at least five apart, and 6, or the last, or away from the corner squares. -/
theorem alignTab_facts : ∀ v : Fin 40, (alignTab (v + 1)).Pairwise (fun a b => a + 5 ≤ b) ∧
    ∀ a ∈ alignTab (v + 1), a % 2 = 0 ∧ (a = 6 ∨ 14 ≤ a ∧ a + 14 ≤ side (v + 1) ∨ 14 ≤ a ∧ a + 7 = side (v + 1)) := by
  decide +kernel

theorem alignTab_spec {v : Nat} (h1 : 1 ≤ v) (h2 : v ≤ 40) : (alignTab v).Pairwise (fun a b => a + 5 ≤ b) ∧
    ∀ a ∈ alignTab v, a % 2 = 0 ∧ (a = 6 ∨ 14 ≤ a ∧ a + 14 ≤ side v ∨ 14 ≤ a ∧ a + 7 = side v) := by
  obtain ⟨k, rfl⟩ : ∃ k, v = k + 1 := ⟨v - 1, by omega⟩
  exact alignTab_facts ⟨k, by omega⟩

/-- The square of the alignment pattern centred at `p` (45_placement R223). -/
abbrev inAlignmentBox (p : Nat × Nat) (y x : Nat) : Prop := inBox 5 (p.1 - 2) (p.2 - 2) y x

/-- The centre of an alignment pattern that is placed (45_placement R223). -/
def isAlignmentCentre (v : Nat) (p : Nat × Nat) : Prop :=
  p.1 ∈ alignTab v ∧ p.2 ∈ alignTab v ∧ p ∉ [(6, 6), (6, side v - 7), (side v - 7, 6)]

/-- A placed pattern stands on one of the timing lines away from the corners, or off both. -/
theorem isAlignmentCentre.cases {v : Nat} {p : Nat × Nat} (h1 : 1 ≤ v) (h2 : v ≤ 40) (h : isAlignmentCentre v p) :
    p.1 = 6 ∧ 14 ≤ p.2 ∧ p.2 + 14 ≤ side v ∨ p.2 = 6 ∧ 14 ≤ p.1 ∧ p.1 + 14 ≤ side v ∨
      (14 ≤ p.1 ∧ p.1 + 7 ≤ side v) ∧ 14 ≤ p.2 ∧ p.2 + 7 ≤ side v := by
  obtain ⟨hr, hc, hp⟩ := h
  have hn : 21 ≤ side v := by unfold side; omega
  simp only [List.mem_cons, List.not_mem_nil, or_false, not_or, Prod.ext_iff, not_and] at hp
  obtain ⟨hp₀, hp₁, hp₂⟩ := hp
  obtain hr | hr | hr := ((alignTab_spec h1 h2).2 _ hr).2 <;> obtain hc | hc | hc := ((alignTab_spec h1 h2).2 _ hc).2 <;>
    omega

/-- The modules of the alignment patterns. -/
def inAlignment (v y x : Nat) : Prop := ∃ p, isAlignmentCentre v p ∧ inAlignmentBox p y x

/-- The alignment patterns stay clear of the corners and of the matrix's edges. -/
theorem inAlignment.cases {v y x : Nat} (h1 : 1 ≤ v) (h2 : v ≤ 40) (h : inAlignment v y x) :
    (4 ≤ y ∧ y ≤ 8) ∧ 12 ≤ x ∧ x + 12 ≤ side v ∨ (4 ≤ x ∧ x ≤ 8) ∧ 12 ≤ y ∧ y + 12 ≤ side v ∨
      (12 ≤ y ∧ y + 5 ≤ side v) ∧ 12 ≤ x ∧ x + 5 ≤ side v := by
  obtain ⟨p, hp, hy, hy', hx, hx'⟩ := h
  obtain hp | hp | hp := hp.cases h1 h2
  · exact .inl (by omega)
  · exact .inr (.inl (by omega))
  · exact .inr (.inr (by omega))

theorem inAlignment.not_inCorners {v y x : Nat} (h1 : 1 ≤ v) (h2 : v ≤ 40) (h : inAlignment v y x) :
    ¬inCorners (side v) y x := by
  unfold inCorners
  obtain h | h | h := h.cases h1 h2 <;> omega

theorem exists_alignmentCells_iff {r c y x : Nat} (hr : 2 ≤ r) (hc : 2 ≤ c) :
    (∃ q ∈ alignmentCells r c, q.1 = y ∧ q.2.1 = x) ↔ inAlignmentBox (r, c) y x := by
  refine Iff.trans ?_ inBox_iff_exists
  simp only [alignmentCells, List.mem_map, exists_exists_and_eq_and]
  refine exists_congr fun p => and_congr_right fun _ => ?_
  omega

theorem get_foldl_alignmentCells {n : Nat} {g : Matrix} (hg : g.square n) {r c : Nat} (hr : 2 ≤ r) (hc : 2 ≤ c)
    (y x : Nat) : ((alignmentCells r c).foldl (fun g (y, x, i, j) => g.place y x (ringOf 2 i j != 1)) g).get y x =
      if y < n ∧ x < n ∧ inAlignmentBox (r, c) y x then
        { dark := ringOf 2 (y - (r - 2)) (x - (c - 2)) != 1, blk := true }
      else g.get y x := by
  simp only [← exists_alignmentCells_iff hr hc]
  refine Matrix.get_foldl_place (val := fun y x => ringOf 2 (y - (r - 2)) (x - (c - 2)) != 1) _ hg (fun q hq => ?_) y x
  obtain ⟨p, -, rfl⟩ := List.mem_map.mp hq
  dsimp only
  rw [show r + p.1 - 2 - (r - 2) = p.1 by omega, show c + p.2 - 2 - (c - 2) = p.2 by omega]

theorem placeAlignment_of_blk {g : Matrix} {r c y x : Nat} (hr : 2 ≤ r) (hc : 2 ≤ c) (hin : inAlignmentBox (r, c) y x)
    (hblk : (g.get y x).blk = true) : placeAlignment g r c = g := by
  obtain ⟨q, hq, rfl, rfl⟩ := (exists_alignmentCells_iff hr hc).mpr hin
  exact if_pos (List.any_eq_true.mpr ⟨q, hq, hblk⟩)

/-- A pattern whose square meets no blocked module is placed. -/
theorem placeAlignment_spec {n : Nat} {g : Matrix} (hg : g.square n) {r c : Nat} (hr : 2 ≤ r) (hc : 2 ≤ c)
    (hfree : ∀ y x, inAlignmentBox (r, c) y x → (g.get y x).blk = false) :
    BlocksArea n g (placeAlignment g r c) (inAlignmentBox (r, c)) ∧
      ∀ i j, i < 5 → j < 5 → r + 2 < n → c + 2 < n →
        (placeAlignment g r c).get (r + i - 2) (c + j - 2) = { dark := ringOf 2 i j != 1, blk := true } := by
  have hplace : placeAlignment g r c =
      (alignmentCells r c).foldl (fun g (y, x, i, j) => g.place y x (ringOf 2 i j != 1)) g := by
    refine if_neg fun hany => ?_
    obtain ⟨q, hq, hblk⟩ := List.any_eq_true.mp hany
    have hfree := hfree q.1 q.2.1 ((exists_alignmentCells_iff hr hc).mp ⟨q, hq, rfl, rfl⟩)
    exact Bool.false_ne_true (hfree.symm.trans hblk)
  have hget := get_foldl_alignmentCells hg hr hc
  rw [← hplace] at hget
  refine ⟨.of_box (dark := fun y x => ringOf 2 (y - (r - 2)) (x - (c - 2)) != 1) (placeAlignment_square hg r c) hget
    hfree, fun i j hi hj hrn hcn => ?_⟩
  rw [hget, if_pos (by simp only [inAlignmentBox, inBox]; omega), show r + i - 2 - (r - 2) = i by omega,
    show c + j - 2 - (c - 2) = j by omega]

/-- The patterns of a list of centres whose squares are apart: each is placed if its square meets no blocked module, and
skipped if it meets one. -/
theorem foldl_placeAlignment_spec {n : Nat} {skipped : Nat × Nat → Prop} (ps : List (Nat × Nat)) {g : Matrix}
    (hg : g.square n) (hps : ∀ p ∈ ps, 2 ≤ p.1 ∧ 2 ≤ p.2 ∧ p.1 + 2 < n ∧ p.2 + 2 < n)
    (hskip : ∀ p ∈ ps, skipped p → ∃ y x, inAlignmentBox p y x ∧ (g.get y x).blk = true)
    (hfree : ∀ p ∈ ps, ¬skipped p → ∀ y x, inAlignmentBox p y x → (g.get y x).blk = false)
    (hapart : ps.Pairwise fun p q => ∀ y x, inAlignmentBox p y x → ¬inAlignmentBox q y x) :
    BlocksArea n g (ps.foldl (fun g p => placeAlignment g p.1 p.2) g)
        (fun y x => ∃ p ∈ ps, ¬skipped p ∧ inAlignmentBox p y x) ∧
      ∀ p ∈ ps, ¬skipped p → ∀ i j, i < 5 → j < 5 →
        (ps.foldl (fun g p => placeAlignment g p.1 p.2) g).get (p.1 + i - 2) (p.2 + j - 2) =
          { dark := ringOf 2 i j != 1, blk := true } := by
  induction ps generalizing g with
  | nil => exact ⟨(BlocksArea.refl hg).congr (by simp), nofun⟩
  | cons p ps ih =>
    obtain ⟨hp, hps⟩ := List.forall_mem_cons.mp hps
    obtain ⟨hpskip, hskip⟩ := List.forall_mem_cons.mp hskip
    obtain ⟨hpfree, hfree⟩ := List.forall_mem_cons.mp hfree
    obtain ⟨hpapart, hapart⟩ := List.pairwise_cons.mp hapart
    rw [List.foldl_cons]
    by_cases hs : skipped p
    · obtain ⟨y, x, hin, hblk⟩ := hpskip hs
      rw [placeAlignment_of_blk hp.1 hp.2.1 hin hblk]
      obtain ⟨hblocks, hget⟩ := ih hg hps hskip hfree hapart
      exact ⟨hblocks.congr fun y x _ _ => by simp [hs], List.forall_mem_cons.mpr ⟨fun h => absurd hs h, hget⟩⟩
    · obtain ⟨hblock, hpget⟩ := placeAlignment_spec hg hp.1 hp.2.1 (hpfree hs)
      obtain ⟨hblocks, hget⟩ := ih hblock.square hps
        (fun q hq hqs => by
          obtain ⟨y, x, hin, hblk⟩ := hskip q hq hqs
          exact ⟨y, x, hin, (hblock.blk y x).mpr (.inl hblk)⟩)
        (fun q hq hqs y x hin => by
          rw [Bool.eq_false_iff, ne_eq, hblock.blk, hfree q hq hqs y x hin]
          rintro (h | ⟨-, -, h⟩)
          · cases h
          · exact hpapart q hq y x h hin)
        hapart
      refine ⟨(hblock.trans hblocks).congr fun y x _ _ => by simp [hs],
        List.forall_mem_cons.mpr ⟨fun _ i j hi hj => ?_, hget⟩⟩
      exact hblocks.get_eq (hpget i j hi hj hp.2.2.1 hp.2.2.2)

/-- The matrix after step 3 (45_placement R223). -/
def alignedMatrix (v : Nat) : Matrix := stepAlignment v (cornerMatrix v)

theorem pairs_pairwise {R : Nat → Nat → Prop} {l : List Nat} (h : l.Pairwise R) :
    (pairs l l).Pairwise fun p q => R p.1 q.1 ∨ p.1 = q.1 ∧ R p.2 q.2 := by
  refine List.pairwise_flatMap.mpr ⟨fun a _ => List.pairwise_map.mpr (h.imp fun hbc => .inr ⟨rfl, hbc⟩),
    h.imp fun hab p hp q hq => .inl ?_⟩
  obtain ⟨_, -, rfl⟩ := List.mem_map.mp hp
  obtain ⟨_, -, rfl⟩ := List.mem_map.mp hq
  exact hab

theorem alignedMatrix_spec {v : Nat} (h1 : 1 ≤ v) (h2 : v ≤ 40) :
    BlocksArea (side v) (cornerMatrix v) (alignedMatrix v) (inAlignment v) ∧
      ∀ p, isAlignmentCentre v p → ∀ i j, i < 5 → j < 5 →
        (alignedMatrix v).get (p.1 + i - 2) (p.2 + j - 2) = { dark := ringOf 2 i j != 1, blk := true } := by
  obtain ⟨hapart, htab⟩ := alignTab_spec h1 h2
  have hn : 21 ≤ side v := by unfold side; omega
  have hcorner := cornerMatrix_blocksArea h1
  have hmem {p : Nat × Nat} : p ∈ pairs (alignTab v) (alignTab v) ↔ p.1 ∈ alignTab v ∧ p.2 ∈ alignTab v := by
    simp [pairs, Prod.ext_iff]
  have hrange : ∀ p ∈ pairs (alignTab v) (alignTab v),
      2 ≤ p.1 ∧ 2 ≤ p.2 ∧ p.1 + 2 < side v ∧ p.2 + 2 < side v := fun p hp => by
    have hrow := htab p.1 (hmem.mp hp).1
    have hcol := htab p.2 (hmem.mp hp).2
    omega
  have hskip : ∀ p ∈ pairs (alignTab v) (alignTab v), p ∈ [(6, 6), (6, side v - 7), (side v - 7, 6)] →
      ∃ y x, inAlignmentBox p y x ∧ ((cornerMatrix v).get y x).blk = true := fun p _ hs => by
    refine ⟨p.1, p.2, ?_, (hcorner.blk _ _).mpr (.inr ?_)⟩
    · unfold inAlignmentBox inBox; omega
    · simp only [List.mem_cons, List.not_mem_nil, or_false] at hs
      unfold inCorners
      obtain rfl | rfl | rfl := hs <;> dsimp only <;> omega
  have hfree : ∀ p ∈ pairs (alignTab v) (alignTab v), p ∉ [(6, 6), (6, side v - 7), (side v - 7, 6)] →
      ∀ y x, inAlignmentBox p y x → ((cornerMatrix v).get y x).blk = false := fun p hp hs y x hin => by
    rw [hcorner.get_light (inAlignment.not_inCorners h1 h2 ⟨p, ⟨(hmem.mp hp).1, (hmem.mp hp).2, hs⟩, hin⟩)]
    rfl
  have hboxes : (pairs (alignTab v) (alignTab v)).Pairwise fun p q =>
      ∀ y x, inAlignmentBox p y x → ¬inAlignmentBox q y x :=
    (pairs_pairwise hapart).imp_of_mem fun {p q} hp hq hpq y x hinp hinq => by
      obtain ⟨hp1, hp2, -⟩ := hrange p hp
      unfold inAlignmentBox inBox at hinp hinq
      omega
  obtain ⟨hblocks, hget⟩ := foldl_placeAlignment_spec _ hcorner.square hrange hskip hfree hboxes
  exact ⟨hblocks.congr fun y x _ _ => by simp [inAlignment, isAlignmentCentre, hmem, and_assoc],
    fun p ⟨hr, hc, hp⟩ => hget p (hmem.mpr ⟨hr, hc⟩) hp⟩

/-! ### The timing patterns (45_placement R224) -/

theorem BlocksArea.placeTiming {n : Nat} {g : Matrix} (hg : g.square n) (r c i : Nat) :
    BlocksArea n g (placeTiming g r c i) fun y x => y = r ∧ x = c := by
  unfold Machine.placeTiming
  split
  · next hb => exact .of_get hg (fun _ _ _ _ ⟨hy, hx⟩ => ⟨hy ▸ hx ▸ hb, fun _ => rfl⟩) fun _ _ _ => rfl
  · next hb => exact .place hg _ (Bool.eq_false_iff.mpr hb)

/-- The timing modules in the order of step 4, with their offsets (45_placement R224). -/
def timingCells (n : Nat) : List (Nat × Nat × Nat) := (List.range n).flatMap fun i => [(6, i, i), (i, 6, i)]

theorem stepTiming_eq (n : Nat) (g : Matrix) :
    stepTiming n g = (timingCells n).foldl (fun g p => placeTiming g p.1 p.2.1 p.2.2) g := by
  simp [stepTiming, timingCells, List.foldl_flatMap]

theorem mem_timingCells {n y x i : Nat} : (y, x, i) ∈ timingCells n ↔ i < n ∧ (y = 6 ∧ x = i ∨ y = i ∧ x = 6) := by
  simp only [timingCells, List.mem_flatMap, List.mem_range, List.mem_cons, List.not_mem_nil, or_false, Prod.mk.injEq]
  constructor
  · rintro ⟨j, hj, h⟩; omega
  · rintro ⟨hi, h⟩; exact ⟨i, hi, by omega⟩

theorem BlocksArea.foldl_placeTiming {n : Nat} (ps : List (Nat × Nat × Nat)) {g : Matrix} (hg : g.square n) :
    BlocksArea n g (ps.foldl (fun g p => Machine.placeTiming g p.1 p.2.1 p.2.2) g)
      fun y x => ∃ p ∈ ps, y = p.1 ∧ x = p.2.1 :=
  .foldl (P := fun p y x => y = p.1 ∧ x = p.2.1) ps (fun p _ _ hg => .placeTiming hg p.1 p.2.1 p.2.2) hg

/-- An unblocked module takes the colour of its timing offset. -/
theorem get_foldl_placeTiming {n : Nat} {ps : List (Nat × Nat × Nat)} {g : Matrix} (hg : g.square n) {y x i : Nat}
    (hy : y < n) (hx : x < n) (hfree : (g.get y x).blk = false) (hmem : (y, x, i) ∈ ps)
    (hone : ∀ j, (y, x, j) ∈ ps → j = i) :
    (ps.foldl (fun g p => placeTiming g p.1 p.2.1 p.2.2) g).get y x = { dark := i % 2 == 0, blk := true } := by
  induction ps generalizing g with
  | nil => cases hmem
  | cons p ps ih =>
    rw [List.foldl_cons]
    have hsq := placeTiming_square hg p.1 p.2.1 p.2.2
    by_cases hp : y = p.1 ∧ x = p.2.1
    · obtain ⟨rfl, rfl⟩ := hp
      have hplaced : (placeTiming g p.1 p.2.1 p.2.2).get p.1 p.2.1 = { dark := i % 2 == 0, blk := true } := by
        rw [placeTiming, if_neg (by simp [hfree]), Matrix.place, Matrix.get_update hg, if_pos ⟨rfl, rfl, hy, hx⟩,
          hone p.2.2 List.mem_cons_self]
      exact (BlocksArea.foldl_placeTiming ps hsq).get_eq hplaced
    · have hlater : (y, x, i) ∈ ps := (List.mem_cons.mp hmem).resolve_left fun h => hp (by rw [← h]; exact ⟨rfl, rfl⟩)
      have hkeep : ((placeTiming g p.1 p.2.1 p.2.2).get y x).blk = false := by
        rw [Bool.eq_false_iff, ne_eq, (BlocksArea.placeTiming hg _ _ _).blk, hfree]
        simp [hp]
      exact ih hsq hkeep hlater fun j hj => hone j (List.mem_cons_of_mem _ hj)

/-- The matrix after step 4 (45_placement R224). -/
def timedMatrix (v : Nat) : Matrix := stepTiming (side v) (alignedMatrix v)

theorem timedMatrix_blocksArea {v : Nat} (h1 : 1 ≤ v) (h2 : v ≤ 40) :
    BlocksArea (side v) (alignedMatrix v) (timedMatrix v) fun y x => y = 6 ∨ x = 6 := by
  rw [timedMatrix, stepTiming_eq]
  refine (BlocksArea.foldl_placeTiming _ (alignedMatrix_spec h1 h2).1.square).congr fun y x hy hx => ?_
  constructor
  · rintro ⟨⟨r, c, i⟩, hp, rfl, rfl⟩
    exact (mem_timingCells.mp hp).2.imp And.left And.right
  · rintro (h | h)
    · exact ⟨(y, x, x), mem_timingCells.mpr (by omega), rfl, rfl⟩
    · exact ⟨(y, x, y), mem_timingCells.mpr (by omega), rfl, rfl⟩

/-! ### The dark module and the reserved areas (45_placement R225 to R228) -/

/-- The matrix after step 5 (45_placement R225). -/
def darkenedMatrix (v : Nat) : Matrix := stepDarkModule v (timedMatrix v)

/-- The modules that steps 1 to 4 block. -/
def inPatterns (v y x : Nat) : Prop := inCorners (side v) y x ∨ inAlignment v y x ∨ y = 6 ∨ x = 6

theorem timedMatrix_blocksArea_blank {v : Nat} (h1 : 1 ≤ v) (h2 : v ≤ 40) :
    BlocksArea (side v) (Matrix.blank (side v)) (timedMatrix v) (inPatterns v) :=
  (((cornerMatrix_blocksArea h1).trans (alignedMatrix_spec h1 h2).1).trans (timedMatrix_blocksArea h1 h2)).congr
    fun _ _ _ _ => or_assoc

theorem darkenedMatrix_blocksArea {v : Nat} (h1 : 1 ≤ v) (h2 : v ≤ 40) :
    BlocksArea (side v) (timedMatrix v) (darkenedMatrix v) fun y x => y = 4 * v + 9 ∧ x = 8 := by
  have htimed := timedMatrix_blocksArea_blank h1 h2
  refine .place htimed.square _ ?_
  rw [htimed.get_light]
  · rfl
  · rintro (h | h | h)
    · unfold inCorners side at h; omega
    · have hcases := h.cases h1 h2
      unfold side at hcases; omega
    · omega

/-- The matrix after the format areas of step 6 (45_placement R226). -/
def formatMatrix (v : Nat) : Matrix := stepFormatAreas (side v) (darkenedMatrix v)

/-- The modules of the format areas and of the dark module, which stands at an end of one. -/
def inFormat (n y x : Nat) : Prop := y = 8 ∧ (x ≤ 8 ∨ n ≤ x + 8) ∨ x = 8 ∧ (y ≤ 8 ∨ n ≤ y + 8)

theorem mem_formatAreas {n y x : Nat} (hy : y < n) (hx : x < n) (hn : 8 ≤ n) :
    (y, x) ∈ (List.range 9).flatMap (fun i => [(8, i), (i, 8)])
      ++ (List.range 8).flatMap (fun i => [(8, n - 8 + i), (n - 8 + i, 8)]) ↔ inFormat n y x := by
  simp only [List.mem_append, List.mem_flatMap, List.mem_range, List.mem_cons, List.not_mem_nil, or_false, Prod.mk.injEq]
  unfold inFormat
  constructor
  · rintro (⟨i, hi, h⟩ | ⟨i, hi, h⟩) <;> omega
  · rintro (⟨h8, h | h⟩ | ⟨h8, h | h⟩)
    · exact .inl ⟨x, by omega⟩
    · exact .inr ⟨x - (n - 8), by omega⟩
    · exact .inl ⟨y, by omega⟩
    · exact .inr ⟨y - (n - 8), by omega⟩

theorem formatMatrix_blocksArea {v : Nat} (h1 : 1 ≤ v) (h2 : v ≤ 40) :
    BlocksArea (side v) (darkenedMatrix v) (formatMatrix v) (inFormat (side v)) :=
  (BlocksArea.reserveAll (darkenedMatrix_blocksArea h1 h2).square _).congr fun y x hy hx =>
    mem_formatAreas hy hx (by unfold side; omega)

theorem formatMatrix_blocksArea_blank {v : Nat} (h1 : 1 ≤ v) (h2 : v ≤ 40) :
    BlocksArea (side v) (Matrix.blank (side v)) (formatMatrix v) fun y x => inPatterns v y x ∨ inFormat (side v) y x :=
  (((timedMatrix_blocksArea_blank h1 h2).trans (darkenedMatrix_blocksArea h1 h2)).trans
    (formatMatrix_blocksArea h1 h2)).congr fun y x _ _ => by
      have hdark : y = 4 * v + 9 ∧ x = 8 → inFormat (side v) y x := by unfold inFormat side; omega
      rw [or_assoc, or_iff_right_of_imp hdark]

/-- The modules of the version areas (45_placement R228). -/
def inVersion (v y x : Nat) : Prop :=
  7 ≤ v ∧ (y < 6 ∧ side v ≤ x + 11 ∧ x + 8 < side v ∨ x < 6 ∧ side v ≤ y + 11 ∧ y + 8 < side v)

theorem mem_versionAreas {n y x : Nat} (hn : 11 ≤ n) :
    ((y, x) ∈ (pairs (List.range 6) (List.range 3)).flatMap fun (x, y) => [(x, n - 11 + y), (n - 11 + y, x)]) ↔
      y < 6 ∧ n ≤ x + 11 ∧ x + 8 < n ∨ x < 6 ∧ n ≤ y + 11 ∧ y + 8 < n := by
  simp only [pairs, List.mem_flatMap, List.mem_map, List.mem_range, List.mem_cons, List.not_mem_nil, or_false]
  constructor
  · rintro ⟨_, ⟨a, ha, b, hb, rfl⟩, h⟩
    simp only [Prod.mk.injEq] at h
    omega
  · rintro (h | h)
    · exact ⟨_, ⟨y, by omega, x - (n - 11), by omega, rfl⟩, .inl (Prod.ext rfl (by dsimp only; omega))⟩
    · exact ⟨_, ⟨x, by omega, y - (n - 11), by omega, rfl⟩, .inr (Prod.ext (by dsimp only; omega) rfl)⟩

theorem functionMatrix_eq (v : Nat) : functionMatrix v = stepVersionAreas v (side v) (formatMatrix v) := rfl

theorem functionMatrix_blocksArea {v : Nat} (h1 : 1 ≤ v) (h2 : v ≤ 40) :
    BlocksArea (side v) (formatMatrix v) (functionMatrix v) (inVersion v) := by
  have hsq := (formatMatrix_blocksArea h1 h2).square
  rw [functionMatrix_eq, stepVersionAreas]
  unfold inVersion
  split
  · next h7 =>
    refine (BlocksArea.reserveAll hsq _).congr fun y x _ _ => ?_
    rw [mem_versionAreas (by unfold side; omega), and_iff_right h7]
  · next h7 => exact (BlocksArea.refl hsq).congr fun y x _ _ => by simp [h7]

theorem functionMatrix_dark {v : Nat} (h1 : 1 ≤ v) (h2 : v ≤ 40) (y x : Nat) :
    ((functionMatrix v).get y x).dark = ((formatMatrix v).get y x).dark := by
  rw [functionMatrix_eq, stepVersionAreas]
  split
  · exact reserveAll_dark (formatMatrix_blocksArea h1 h2).square _ y x
  · rfl

/-! ### The function matrix (45_placement R221 to R228) -/

/-- The modules that the function matrix of a version blocks. -/
def isReserved (v y x : Nat) : Prop := (inPatterns v y x ∨ inFormat (side v) y x) ∨ inVersion v y x

/-- The steps together: the function matrix blocks the reserved modules of a blank matrix. -/
theorem functionMatrix_blocksArea_blank {v : Nat} (h1 : 1 ≤ v) (h2 : v ≤ 40) :
    BlocksArea (side v) (Matrix.blank (side v)) (functionMatrix v) (isReserved v) :=
  (formatMatrix_blocksArea_blank h1 h2).trans (functionMatrix_blocksArea h1 h2)

theorem functionMatrix_blk {v : Nat} (h1 : 1 ≤ v) (h2 : v ≤ 40) {y x : Nat} (hy : y < side v) (hx : x < side v)
    (h : isReserved v y x) : ((functionMatrix v).get y x).blk = true :=
  ((functionMatrix_blocksArea_blank h1 h2).blk y x).mpr (.inr ⟨hy, hx, h⟩)

section
variable {v : Nat} (h1 : 1 ≤ v) (h2 : v ≤ 40) {y x : Nat} {d : Bool}
include h1 h2

theorem functionMatrix_get_of_darkened (h : (darkenedMatrix v).get y x = { dark := d, blk := true }) :
    (functionMatrix v).get y x = { dark := d, blk := true } :=
  ((formatMatrix_blocksArea h1 h2).trans (functionMatrix_blocksArea h1 h2)).get_eq h

theorem functionMatrix_get_of_timed (h : (timedMatrix v).get y x = { dark := d, blk := true }) :
    (functionMatrix v).get y x = { dark := d, blk := true } :=
  functionMatrix_get_of_darkened h1 h2 ((darkenedMatrix_blocksArea h1 h2).get_eq h)

theorem functionMatrix_get_of_aligned (h : (alignedMatrix v).get y x = { dark := d, blk := true }) :
    (functionMatrix v).get y x = { dark := d, blk := true } :=
  functionMatrix_get_of_timed h1 h2 ((timedMatrix_blocksArea h1 h2).get_eq h)

theorem functionMatrix_get_of_corner (h : (cornerMatrix v).get y x = { dark := d, blk := true }) :
    (functionMatrix v).get y x = { dark := d, blk := true } :=
  functionMatrix_get_of_aligned h1 h2 ((alignedMatrix_spec h1 h2).1.get_eq h)

end

theorem functionMatrix_get_separator {v : Nat} (h1 : 1 ≤ v) (h2 : v ≤ 40) {i : Nat} (hi : i < 8) {p : Nat × Nat}
    (hp : p ∈ [(i, 7), (7, i), (i, side v - 8), (7, side v - 8 + i), (side v - 8, i), (side v - 8 + i, 7)]) :
    (functionMatrix v).get p.1 p.2 = { dark := false, blk := true } := by
  simp only [List.mem_cons, List.not_mem_nil, or_false, Prod.ext_iff] at hp
  have hn : 21 ≤ side v := by unfold side; omega
  refine functionMatrix_get_of_corner h1 h2 (cornerMatrix_get_separator h1 ?_ ?_ ?_ ?_)
  · omega
  · omega
  · unfold inCorners; omega
  · unfold inFinders inBox; omega

/-- The middle row and the middle column of an alignment pattern alternate like a timing pattern (45_placement R223). -/
theorem ringOf_middle : ∀ j < 5, (ringOf 2 2 j != 1) = (j % 2 == 0) ∧ (ringOf 2 j 2 != 1) = (j % 2 == 0) := by decide

/-- On the timing lines an alignment pattern has the timing colours (45_placement R223, R224; 90_conflicts C3). -/
theorem alignedMatrix_get_timing {v : Nat} (h1 : 1 ≤ v) (h2 : v ≤ 40) {y x i : Nat}
    (h : y = 6 ∧ x = i ∨ y = i ∧ x = 6) (hin : inAlignment v y x) :
    (alignedMatrix v).get y x = { dark := i % 2 == 0, blk := true } := by
  obtain ⟨p, hp, hin⟩ := hin
  have hrow := (alignTab_spec h1 h2).2 _ hp.1
  have hcol := (alignTab_spec h1 h2).2 _ hp.2.1
  unfold inAlignmentBox inBox at hin
  have hget := (alignedMatrix_spec h1 h2).2 p hp (y + 2 - p.1) (x + 2 - p.2) (by omega) (by omega)
  rw [show p.1 + (y + 2 - p.1) - 2 = y by omega, show p.2 + (x + 2 - p.2) - 2 = x by omega] at hget
  rw [hget]
  obtain ⟨hy, rfl⟩ | ⟨rfl, hx⟩ := h
  · rw [show y + 2 - p.1 = 2 by omega, (ringOf_middle _ (by omega)).1, show (x + 2 - p.2) % 2 = x % 2 by omega]
  · rw [show x + 2 - p.2 = 2 by omega, (ringOf_middle _ (by omega)).2, show (y + 2 - p.1) % 2 = y % 2 by omega]

theorem functionMatrix_get_timing {v : Nat} (h1 : 1 ≤ v) (h2 : v ≤ 40) {y x i : Nat} (hi : 8 ≤ i) (hi' : i + 9 ≤ side v)
    (h : y = 6 ∧ x = i ∨ y = i ∧ x = 6) : (functionMatrix v).get y x = { dark := i % 2 == 0, blk := true } := by
  have haligned := (alignedMatrix_spec h1 h2).1
  have hcorner : ¬inCorners (side v) y x := by unfold inCorners; omega
  by_cases hin : inAlignment v y x
  · exact functionMatrix_get_of_aligned h1 h2 (alignedMatrix_get_timing h1 h2 h hin)
  · have hfree := ((cornerMatrix_blocksArea h1).trans haligned).get_light (y := y) (x := x) (by tauto)
    refine functionMatrix_get_of_timed h1 h2 ?_
    rw [timedMatrix, stepTiming_eq]
    refine get_foldl_placeTiming haligned.square (by omega) (by omega) (by rw [hfree]; rfl)
      (mem_timingCells.mpr ⟨by omega, h⟩) fun j hj => ?_
    have := mem_timingCells.mp hj
    omega

theorem functionMatrix_get_darkModule {v : Nat} (h1 : 1 ≤ v) (h2 : v ≤ 40) :
    (functionMatrix v).get (4 * v + 9) 8 = { dark := true, blk := true } := by
  refine functionMatrix_get_of_darkened h1 h2 ?_
  rw [darkenedMatrix, stepDarkModule, Matrix.place, Matrix.get_update (timedMatrix_blocksArea h1 h2).square,
    if_pos ⟨rfl, rfl, by unfold side; omega⟩]

theorem functionMatrix_get_version {v : Nat} (h1 : 1 ≤ v) (h2 : v ≤ 40) {y x : Nat} (hy : y < side v) (hx : x < side v)
    (h : inVersion v y x) : (functionMatrix v).get y x = { dark := false, blk := true } := by
  refine Module.eq_mk ?_ (functionMatrix_blk h1 h2 hy hx (.inr h))
  rw [functionMatrix_dark h1 h2, (formatMatrix_blocksArea_blank h1 h2).get_light]
  · rfl
  · unfold inVersion at h
    have hn : 45 ≤ side v := by unfold side; omega
    rintro ((h | h | h) | h)
    · unfold inCorners at h; omega
    · have hcases := h.cases h1 h2; omega
    · omega
    · unfold inFormat at h; omega

/-- Settles O36: each module has the colour of the step that blocked it, and an unblocked one is light. -/
theorem functionMatrixPatterns : Obligations.FunctionMatrixPatterns := by
  intro v h1 h2 n g
  have hn : 21 ≤ side v := by unfold side; omega
  refine ⟨fun i j hi hj p hp => functionMatrix_get_of_corner h1 h2 (cornerMatrix_get_finder h1 hi hj hp),
    fun i hi p hp => functionMatrix_get_separator h1 h2 hi hp, fun r hr c hc hrc i j hi hj =>
      functionMatrix_get_of_aligned h1 h2 ((alignedMatrix_spec h1 h2).2 (r, c) ⟨hr, hc, hrc⟩ i j hi hj),
    fun i hi hi' => ?_, functionMatrix_get_darkModule h1 h2, fun i hi => ?_, fun i hi hi' => ?_,
    fun h7 x y hx hy => ?_, fun r c hb => ?_⟩
  · have hi' : i + 9 ≤ side v := by unfold side; omega
    exact ⟨functionMatrix_get_timing h1 h2 hi hi' (.inl ⟨rfl, rfl⟩),
      functionMatrix_get_timing h1 h2 hi hi' (.inr ⟨rfl, rfl⟩)⟩
  · exact ⟨functionMatrix_blk h1 h2 (by omega) (by omega) (.inl (.inr (.inl ⟨rfl, .inl hi⟩))),
      functionMatrix_blk h1 h2 (by omega) (by omega) (.inl (.inr (.inr ⟨rfl, .inl hi⟩)))⟩
  · have hi' : i < side v := hi'
    have hi : side v ≤ i + 8 := by unfold side; omega
    exact ⟨functionMatrix_blk h1 h2 (by omega) (by omega) (.inl (.inr (.inl ⟨rfl, .inr hi⟩))),
      functionMatrix_blk h1 h2 (by omega) (by omega) (.inl (.inr (.inr ⟨rfl, .inr hi⟩)))⟩
  · have hn : n = side v := rfl
    exact ⟨functionMatrix_get_version h1 h2 (by omega) (by omega) ⟨h7, by omega⟩,
      functionMatrix_get_version h1 h2 (by omega) (by omega) ⟨h7, by omega⟩⟩
  · rw [(functionMatrix_blocksArea_blank h1 h2).light r c hb, get_blank]
    rfl

end Sys2Proof.Machine
end

section
/-! PROOFS. The number of free modules (45_placement R229): the reserved modules are disjoint rectangles and the parts of
the alignment patterns off the timing lines, so that their number is a sum over the version's tables. -/

namespace Sys2Proof.Machine

/-! ### Counting modules by position -/

theorem sum_map_eq_sum_range {α : Type} (l : List α) (d : α) (f : α → Nat) :
    (l.map f).sum = ∑ i ∈ Finset.range l.length, f (l.getD i d) := by
  induction l with
  | nil => rfl
  | cons a l ih => simp [Finset.sum_range_succ', ih, Nat.add_comm]

theorem countP_eq_sum_map {α : Type} (l : List α) (p : α → Bool) :
    l.countP p = (l.map fun a => if p a = true then 1 else 0).sum := by
  induction l with
  | nil => rfl
  | cons a l ih => rw [List.countP_cons, List.map_cons, List.sum_cons, ih, Nat.add_comm]

/-- The unblocked modules of a square matrix, counted row by row and as positions. -/
theorem Matrix.square.sum_countP_unblocked {n : Nat} {g : Matrix} (h : g.square n) :
    (g.map fun row => row.countP fun m => !m.blk).sum =
      ((Finset.range n ×ˢ Finset.range n).filter fun p => ¬(g.get p.1 p.2).blk = true).card := by
  rw [sum_map_eq_sum_range g [], h.1, Finset.card_filter, Finset.sum_product]
  refine Finset.sum_congr rfl fun r hr => ?_
  rw [countP_eq_sum_map, sum_map_eq_sum_range _ Module.light, Matrix.square_row h (Finset.mem_range.mp hr)]
  refine Finset.sum_congr rfl fun c _ => ?_
  simp [Matrix.get]

/-! ### The reserved modules as disjoint rectangles -/

/-- A rectangle beside an area adds its rows times its columns. -/
theorem card_union_product {area : Finset (Nat × Nat)} {rows cols : Finset Nat}
    (h : ∀ y x, (y, x) ∈ area → y ∈ rows → x ∉ cols) :
    (area ∪ rows ×ˢ cols).card = area.card + rows.card * cols.card := by
  rw [Finset.card_union_of_disjoint, Finset.card_product]
  refine Finset.disjoint_left.mpr fun ⟨y, x⟩ harea hrect => ?_
  obtain ⟨hy, hx⟩ := Finset.mem_product.mp hrect
  exact h y x harea hy hx

/-- The centres of the alignment patterns that are placed. -/
def alignmentCentres (v : Nat) : Finset (Nat × Nat) :=
  ((alignTab v).toFinset ×ˢ (alignTab v).toFinset) \ {(6, 6), (6, side v - 7), (side v - 7, 6)}

/-- The rows or columns of an alignment pattern off the timing line. -/
def offTiming (a : Nat) : Finset Nat := (Finset.Ico (a - 2) (a + 3)).erase 6

/-- The modules of the alignment patterns off the timing lines. -/
def alignmentArea (v : Nat) : Finset (Nat × Nat) :=
  (alignmentCentres v).biUnion fun p => offTiming p.1 ×ˢ offTiming p.2

theorem mem_alignmentCentres {v : Nat} {p : Nat × Nat} : p ∈ alignmentCentres v ↔ isAlignmentCentre v p := by
  simp [alignmentCentres, isAlignmentCentre, and_assoc]

theorem mem_offTiming {a y : Nat} (h : 2 ≤ a) : y ∈ offTiming a ↔ y ≠ 6 ∧ a - 2 ≤ y ∧ y < a - 2 + 5 := by
  rw [offTiming, Finset.mem_erase, Finset.mem_Ico]
  omega

theorem two_le_of_mem_alignTab {v a : Nat} (h1 : 1 ≤ v) (h2 : v ≤ 40) (h : a ∈ alignTab v) : 2 ≤ a := by
  have := (alignTab_spec h1 h2).2 a h
  omega

theorem mem_offTiming_product {v y x : Nat} (h1 : 1 ≤ v) (h2 : v ≤ 40) {p : Nat × Nat} (hp : isAlignmentCentre v p) :
    (y, x) ∈ offTiming p.1 ×ˢ offTiming p.2 ↔ inAlignmentBox p y x ∧ y ≠ 6 ∧ x ≠ 6 := by
  rw [Finset.mem_product, mem_offTiming (two_le_of_mem_alignTab h1 h2 hp.1),
    mem_offTiming (two_le_of_mem_alignTab h1 h2 hp.2.1)]
  unfold inAlignmentBox inBox
  tauto

theorem mem_alignmentArea {v y x : Nat} (h1 : 1 ≤ v) (h2 : v ≤ 40) :
    (y, x) ∈ alignmentArea v ↔ inAlignment v y x ∧ y ≠ 6 ∧ x ≠ 6 := by
  simp only [alignmentArea, Finset.mem_biUnion, mem_alignmentCentres, inAlignment]
  constructor
  · rintro ⟨p, hp, h⟩
    obtain ⟨hbox, hoff⟩ := (mem_offTiming_product h1 h2 hp).mp h
    exact ⟨⟨p, hp, hbox⟩, hoff⟩
  · rintro ⟨⟨p, hp, hbox⟩, hoff⟩
    exact ⟨p, hp, (mem_offTiming_product h1 h2 hp).mpr ⟨hbox, hoff⟩⟩

/-- Different centre coordinates of a version are at least five apart. -/
theorem alignTab_apart {v a b : Nat} (h1 : 1 ≤ v) (h2 : v ≤ 40) (ha : a ∈ alignTab v) (hb : b ∈ alignTab v) :
    a = b ∨ a + 5 ≤ b ∨ b + 5 ≤ a := by
  have hapart := (alignTab_spec h1 h2).1
  exact List.Pairwise.forall_of_forall_of_flip (R := fun a b => a = b ∨ a + 5 ≤ b ∨ b + 5 ≤ a) (fun _ _ => .inl rfl)
    (hapart.imp fun h => .inr (.inl h)) (hapart.imp fun h => .inr (.inr h)) ha hb

/-- Alignment patterns with different centres share no module. -/
theorem eq_of_inAlignmentBox {v y x : Nat} (h1 : 1 ≤ v) (h2 : v ≤ 40) {p q : Nat × Nat} (hp : isAlignmentCentre v p)
    (hq : isAlignmentCentre v q) (hinp : inAlignmentBox p y x) (hinq : inAlignmentBox q y x) : p = q := by
  obtain ⟨hp1, hp2, -⟩ := hp
  obtain ⟨hq1, hq2, -⟩ := hq
  have hrow := alignTab_apart h1 h2 hp1 hq1
  have hcol := alignTab_apart h1 h2 hp2 hq2
  have htab {a : Nat} (ha : a ∈ alignTab v) : 2 ≤ a := two_le_of_mem_alignTab h1 h2 ha
  have hge := And.intro (And.intro (htab hp1) (htab hp2)) (And.intro (htab hq1) (htab hq2))
  unfold inAlignmentBox inBox at hinp hinq
  exact Prod.ext (by omega) (by omega)

theorem card_alignmentArea {v : Nat} (h1 : 1 ≤ v) (h2 : v ≤ 40) :
    (alignmentArea v).card = ∑ p ∈ alignmentCentres v, (offTiming p.1).card * (offTiming p.2).card := by
  rw [alignmentArea, Finset.card_biUnion]
  · simp only [Finset.card_product]
  · intro p hp q hq hne
    have hp := mem_alignmentCentres.mp hp
    have hq := mem_alignmentCentres.mp hq
    refine Finset.disjoint_left.mpr fun ⟨y, x⟩ hinp hinq => hne ?_
    exact eq_of_inAlignmentBox h1 h2 hp hq ((mem_offTiming_product h1 h2 hp).mp hinp).1
      ((mem_offTiming_product h1 h2 hq).mp hinq).1

/-- The number of rows, and of columns, a version area has beside the finder patterns: none below version 7. -/
def versionWidth (v : Nat) : Nat := if 7 ≤ v then 6 else 0

/-- The reserved modules: the alignment patterns, the three corners with their format areas, the timing patterns between
the corners, and the version areas. -/
def reservedArea (v : Nat) : Finset (Nat × Nat) :=
  alignmentArea v ∪ Finset.range 9 ×ˢ Finset.range 9 ∪ Finset.range 9 ×ˢ Finset.Ico (side v - 8) (side v)
    ∪ Finset.Ico (side v - 8) (side v) ×ˢ Finset.range 9 ∪ {6} ×ˢ Finset.Ico 9 (side v - 8)
    ∪ Finset.Ico 9 (side v - 8) ×ˢ {6} ∪ Finset.range (versionWidth v) ×ˢ Finset.Ico (side v - 11) (side v - 8)
    ∪ Finset.Ico (side v - 11) (side v - 8) ×ˢ Finset.range (versionWidth v)

/-- The corners, the format areas and the timing lines as disjoint rectangles. -/
theorem inCorners_or_lines_iff {n y x : Nat} (hn : 21 ≤ n) (hy : y < n) (hx : x < n) :
    inCorners n y x ∨ y = 6 ∨ x = 6 ∨ inFormat n y x ↔
      y < 9 ∧ x < 9 ∨ y < 9 ∧ (n - 8 ≤ x ∧ x < n) ∨ (n - 8 ≤ y ∧ y < n) ∧ x < 9 ∨ y = 6 ∧ (9 ≤ x ∧ x < n - 8) ∨
        (9 ≤ y ∧ y < n - 8) ∧ x = 6 := by
  unfold inCorners inFormat
  constructor
  · rintro ((h | h | h) | h | h | ⟨h, h' | h'⟩ | ⟨h, h' | h'⟩) <;> omega
  · rintro (h | h | h | h | h) <;> omega

theorem inVersion_iff {v y x : Nat} : inVersion v y x ↔
    y < versionWidth v ∧ (side v - 11 ≤ x ∧ x < side v - 8) ∨ (side v - 11 ≤ y ∧ y < side v - 8) ∧ x < versionWidth v := by
  unfold inVersion versionWidth side
  split
  · next h7 => rw [and_iff_right h7]; omega
  · next h7 => simp [h7]

theorem mem_reservedArea {v y x : Nat} (h1 : 1 ≤ v) (h2 : v ≤ 40) :
    (y, x) ∈ reservedArea v ↔ y < side v ∧ x < side v ∧ isReserved v y x := by
  have hn : 21 ≤ side v := by unfold side; omega
  have hw : versionWidth v ≤ 6 := by unfold versionWidth; split <;> omega
  simp only [reservedArea, Finset.mem_union, Finset.mem_product, Finset.mem_range, Finset.mem_Ico, Finset.mem_singleton,
    mem_alignmentArea h1 h2, or_assoc]
  have hin : isReserved v y x ↔ (inAlignment v y x ∧ y ≠ 6 ∧ x ≠ 6) ∨
      (inCorners (side v) y x ∨ y = 6 ∨ x = 6 ∨ inFormat (side v) y x) ∨ inVersion v y x := by
    unfold isReserved inPatterns
    tauto
  rw [hin, inVersion_iff]
  constructor
  · intro h
    obtain ⟨hy, hx⟩ : y < side v ∧ x < side v := by
      rcases h with ⟨h, -⟩ | h | h | h | h | h | h | h
      · obtain h | h | h := h.cases h1 h2 <;> omega
      all_goals omega
    rw [inCorners_or_lines_iff hn hy hx]
    simpa only [or_assoc] using ⟨hy, hx, h⟩
  · rintro ⟨hy, hx, h⟩
    rw [inCorners_or_lines_iff hn hy hx] at h
    simpa only [or_assoc] using h

/-- The number of reserved modules of a version (45_placement R229). -/
def reservedCount (v : Nat) : Nat :=
  (∑ p ∈ alignmentCentres v, (offTiming p.1).card * (offTiming p.2).card) + 9 * 9 + 9 * 8 + 8 * 9 + (side v - 17)
    + (side v - 17) + versionWidth v * 3 + 3 * versionWidth v

theorem card_reservedArea {v : Nat} (h1 : 1 ≤ v) (h2 : v ≤ 40) : (reservedArea v).card = reservedCount v := by
  have hn : side v = 17 + 4 * v := rfl
  have hw : versionWidth v = 0 ∨ versionWidth v = 6 ∧ 7 ≤ v := by unfold versionWidth; split <;> simp [*]
  unfold reservedArea
  rw [card_union_product, card_union_product, card_union_product, card_union_product, card_union_product,
    card_union_product, card_union_product, card_alignmentArea h1 h2]
  · simp only [Finset.card_range, Nat.card_Ico, Finset.card_singleton, reservedCount]
    rw [show side v - (side v - 8) = 8 by omega, show side v - 8 - (side v - 11) = 3 by omega,
      show side v - 8 - 9 = side v - 17 by omega, Nat.one_mul, Nat.mul_one]
  all_goals
    intro y x h hy hx
    simp only [Finset.mem_union, Finset.mem_product, Finset.mem_range, Finset.mem_Ico, Finset.mem_singleton] at h hy hx
    by_cases hal : (y, x) ∈ alignmentArea v
    · obtain ⟨hin, hoff⟩ := (mem_alignmentArea h1 h2).mp hal
      obtain h | h | h := hin.cases h1 h2 <;> omega
    · simp only [hal, false_or] at h <;> omega

/-- The codewords and remainder bits of a version fill what the reserved modules leave. -/
theorem reservedCount_facts : ∀ v : Fin 40,
    8 * (eccTab (v + 1) .L).total + remTab (v + 1) + reservedCount (v + 1) = side (v + 1) * side (v + 1) := by
  decide +kernel

theorem reservedCount_spec {v : Nat} (h1 : 1 ≤ v) (h2 : v ≤ 40) (e : EccLevel) :
    8 * (eccTab v e).total + remTab v + reservedCount v = side v * side v := by
  obtain ⟨-, -, -, -, -, -, htotal, -⟩ := eccTab_spec h1 h2 e
  obtain ⟨k, rfl⟩ : ∃ k, v = k + 1 := ⟨v - 1, by omega⟩
  rw [htotal]
  exact reservedCount_facts ⟨k, by omega⟩

/-- Settles O37: the modules that are not reserved are what the stream needs. -/
theorem freeModulesHoldTheStream : Obligations.FreeModulesHoldTheStream := by
  intro v e h1 h2
  have hblocks := functionMatrix_blocksArea_blank h1 h2
  have hreserved : (Finset.range (side v) ×ˢ Finset.range (side v)).filter
      (fun p => ((functionMatrix v).get p.1 p.2).blk = true) = reservedArea v := by
    ext ⟨y, x⟩
    rw [Finset.mem_filter, hblocks.blk, get_blank, mem_reservedArea h1 h2]
    simp only [Finset.mem_product, Finset.mem_range, Module.light, Bool.false_eq_true, false_or]
    tauto
  have hsplit := Finset.card_filter_add_card_filter_not (s := Finset.range (side v) ×ˢ Finset.range (side v))
    fun p => ((functionMatrix v).get p.1 p.2).blk = true
  rw [hreserved, card_reservedArea h1 h2, Finset.card_product, Finset.card_range, ← reservedCount_spec h1 h2 e] at hsplit
  rw [hblocks.square.sum_countP_unblocked]
  omega

end Sys2Proof.Machine
end


section
/-! PROOFS. The penalty rules by counting (46_mask R253 to R256): the lines of a matrix given by positions, a line cut
where its colour changes, and the windows of rules 2 and 3. -/

namespace Sys2Proof.Machine

/-! ### The lines of a matrix (46_mask, section 2) -/

/-- The columns of a matrix given by positions. -/
theorem transpose_map_range (n : Nat) (f : Nat → Nat → Bool) (rows : List Nat) :
    transpose n (rows.map fun r => (List.range n).map fun c => f r c) =
      (List.range n).map fun c => rows.map fun r => f r c := by
  induction rows with
  | nil => simp [transpose]
  | cons r rows ih =>
    rw [transpose] at ih
    rw [transpose, List.map_cons, List.foldr_cons, ih]
    simp only [List.map_cons, List.zipWith_map, List.zipWith_self]

/-- A line rule summed over rows and columns is its sum over the lines. -/
theorem sumLines_gridRows (n : Nat) (rule : List Bool → Nat) (f : Nat → Nat → Bool) :
    sumLines n rule (gridRows n f) = ((gridLines n f).map rule).sum := by
  rw [sumLines, gridRows, transpose_map_range, gridLines, List.map_append, List.sum_append]
  rfl

/-! ### Rule 1 (46_mask R253) -/

theorem runsFrom_replicate (b : Bool) (len k : Nat) : runsFrom b len (List.replicate k b) = runScore (len + k) := by
  induction k generalizing len with
  | zero => rfl
  | succ k ih => rw [List.replicate_succ, runsFrom, if_pos rfl, ih, Nat.add_right_comm, Nat.add_assoc]

/-- A change of colour ends a run: what follows is scored on its own. -/
theorem runsFrom_append_of_change (x : Bool) (len : Nat) (l : List Bool) (b : Bool) (k : List Bool) :
    runsFrom x len (l ++ [b] ++ (!b) :: k) = runsFrom x len (l ++ [b]) + runsFrom (!b) 1 k := by
  induction l generalizing x len with
  | nil =>
    by_cases h : b = x
    · subst h; simp [runsFrom]
    · simp [runsFrom, h]; omega
  | cons y l ih =>
    by_cases h : y = x
    · simpa [runsFrom, h] using ih x (len + 1)
    · simpa [runsFrom, h, Nat.add_assoc] using ih y 1

theorem lineRuns_replicate (b : Bool) (len : Nat) :
    lineRuns (List.replicate len b) = if 5 ≤ len then 3 + (len - 5) else 0 := by
  cases len with
  | zero => rfl
  | succ k => rw [List.replicate_succ, lineRuns, runsFrom_replicate, Nat.add_comm]; rfl

theorem lineRuns_append_of_change (b : Bool) (l k : List Bool) :
    lineRuns (l ++ [b] ++ (!b) :: k) = lineRuns (l ++ [b]) + lineRuns ((!b) :: k) := by
  cases l with
  | nil => simp [lineRuns, runsFrom]
  | cons x l => exact runsFrom_append_of_change x 1 l b k

/-! ### Rule 2 (46_mask R254) -/

/-- Two adjacent rows score 3 for each of their windows of one colour. -/
theorem rowPairBlocks_map_range' (a b : Nat → Bool) (c n : Nat) :
    rowPairBlocks ((List.range' c (n + 1)).map a) ((List.range' c (n + 1)).map b) =
      3 * (List.range' c n).countP fun c => a c == a (c + 1) && a c == b c && a c == b (c + 1) := by
  induction n generalizing c with
  | zero => rfl
  | succ n ih =>
    have hrest := ih (c + 1)
    simp only [List.range'_succ, List.map_cons] at hrest ⊢
    rw [rowPairBlocks, hrest, List.countP_cons, Nat.mul_add, Nat.add_comm]
    simp [and_assoc]

/-- Rule 2 is a sum over the pairs of adjacent rows. -/
theorem blockPenalty_map_range' (row : Nat → List Bool) (r n : Nat) :
    blockPenalty ((List.range' r (n + 1)).map row) =
      ((List.range' r n).map fun r => rowPairBlocks (row r) (row (r + 1))).sum := by
  induction n generalizing r with
  | zero => rfl
  | succ n ih =>
    have hrest := ih (r + 1)
    simp only [List.range'_succ, List.map_cons] at hrest ⊢
    rw [blockPenalty, hrest, List.sum_cons]

theorem countP_pairs (xs ys : List Nat) (p : Nat → Nat → Bool) :
    (pairs xs ys).countP (fun q => p q.1 q.2) = (xs.map fun x => ys.countP (p x)).sum := by
  rw [pairs, List.countP_flatMap]
  congr 2
  funext x
  simp only [Function.comp_apply, List.countP_map]
  rfl

theorem blockPenalty_gridRows (n : Nat) (f : Nat → Nat → Bool) :
    blockPenalty (gridRows (n + 1) f) = 3 * (pairs (List.range n) (List.range n)).countP fun p =>
      f p.1 p.2 == f p.1 (p.2 + 1) && f p.1 p.2 == f (p.1 + 1) p.2 && f p.1 p.2 == f (p.1 + 1) (p.2 + 1) := by
  rw [countP_pairs (List.range n) (List.range n) fun r c =>
      f r c == f r (c + 1) && f r c == f (r + 1) c && f r c == f (r + 1) (c + 1), ← List.sum_map_mul_left]
  simp only [gridRows, List.range_eq_range', blockPenalty_map_range', rowPairBlocks_map_range']

/-! ### Rule 3 (46_mask R255) -/

theorem countP_range_succ (p : Nat → Bool) (n : Nat) :
    (List.range (n + 1)).countP p = (if p 0 then 1 else 0) + (List.range n).countP fun i => p (i + 1) := by
  rw [List.range_succ_eq_map, List.countP_cons, List.countP_map, Nat.add_comm]
  rfl

theorem windowAt_zero (l : List Bool) : windowAt l 0 = isFinderWindow l := rfl

theorem windowAt_cons_succ (x : Bool) (l : List Bool) (i : Nat) : windowAt (x :: l) (i + 1) = windowAt l i := rfl

/-- A window lies wholly in its line. -/
theorem isFinderWindow_eq_false_of_length_lt {l : List Bool} (h : l.length < 11) : isFinderWindow l = false := by
  have hne (p : List Bool) (hp : p.length = 11) : (l.take 11 == p) = false := by
    rw [beq_eq_false_iff_ne]
    rintro rfl
    rw [List.length_take] at hp
    omega
  rw [isFinderWindow, hne _ rfl, hne _ rfl, Bool.or_self]

theorem lineWindows_eq (l : List Bool) :
    lineWindows l = 40 * (List.range (l.length - 10)).countP fun i => windowAt l i := by
  induction l with
  | nil => rfl
  | cons x l ih =>
    rw [lineWindows, ih, List.length_cons]
    by_cases h : l.length < 10
    · rw [isFinderWindow_eq_false_of_length_lt (by simpa using Nat.succ_lt_succ h)]
      rw [show l.length - 10 = 0 by omega, show l.length + 1 - 10 = 0 by omega]
      rfl
    · rw [show l.length + 1 - 10 = l.length - 10 + 1 by omega, countP_range_succ, windowAt_zero]
      simp only [windowAt_cons_succ]
      split <;> omega

theorem length_of_mem_gridLines {n : Nat} {f : Nat → Nat → Bool} {l : List Bool} (h : l ∈ gridLines n f) :
    l.length = n := by
  simp only [gridLines, gridRows, List.mem_append, List.mem_map] at h
  obtain ⟨r, -, rfl⟩ | ⟨r, -, rfl⟩ := h <;> simp

/-- Rule 3 over the lines of a matrix. -/
theorem sum_lineWindows_gridLines (n : Nat) (f : Nat → Nat → Bool) :
    ((gridLines n f).map lineWindows).sum =
      40 * ((gridLines n f).map fun l => (List.range (n - 10)).countP fun i => windowAt l i).sum := by
  rw [← List.sum_map_mul_left]
  refine congrArg List.sum (List.map_congr_left fun l hl => ?_)
  rw [lineWindows_eq, length_of_mem_gridLines hl]

/-! ### Rule 4 (46_mask R256) -/

theorem balancePenalty_eq (d t : Nat) :
    (balancePenalty d t : Int) = 10 * (((200 * d - 100 * t : Int).natAbs + 5 * t) / (10 * t)) := by
  have habs : (200 * d - 100 * t) + (100 * t - 200 * d) = (200 * d - 100 * t : Int).natAbs := by omega
  rw [balancePenalty, habs]
  push_cast
  rfl

theorem sum_count_gridRows (n : Nat) (f : Nat → Nat → Bool) :
    ((gridRows n f).map fun row => row.count true).sum =
      (pairs (List.range n) (List.range n)).countP fun p => f p.1 p.2 := by
  rw [countP_pairs, gridRows, List.map_map]
  congr 2
  funext r
  simp [List.count_eq_countP, List.countP_map, Function.comp_def]

/-! ### The statement -/

/-- Settles O40, rule by rule; rule 3 and rule 1 go line by line, rule 2 pair by pair of adjacent rows. -/
theorem penaltiesCountTheRules : Obligations.PenaltiesCountTheRules := by
  refine ⟨fun n f hn => ⟨sumLines_gridRows n _ f, ?_, ?_, ?_⟩, lineRuns_replicate, lineRuns_append_of_change⟩
  · obtain ⟨k, rfl⟩ := Nat.exists_eq_add_of_le' hn
    exact blockPenalty_gridRows k f
  · exact (sumLines_gridRows n _ f).trans (sum_lineWindows_gridLines n f)
  · rw [penaltyOf, sum_count_gridRows, balancePenalty_eq]
    push_cast
    rfl

end Sys2Proof.Machine
end


section
/-! PROOFS. The mask commands (46_mask R252, R257 to R263): the scores and the selection write registers only, and
MASK_APPLY and WRITE_INFO leave in `MTX` the symbol under the mask and with its metadata. -/

namespace Sys2Proof.Machine

/-! ### Commands on a symbol -/

/-- A symbol passes the tests of `check_symbol()` (60_exceptions R317). -/
theorem State.hasSymbol.check {s : State} (h : s.hasSymbol) :
    s.ver ≠ 0 ∧ s.regs.side.toNat = side s.ver ∧ s.status.qz = false := by
  obtain ⟨h1, -, hside, hqz⟩ := h
  exact ⟨Nat.one_le_iff_ne_zero.mp h1, hside, hqz⟩

/-- A command that writes a matrix of the symbol's size and registers leaves that matrix, and every other byte of `MTX`
(60_exceptions R310). -/
theorem exec_writeSymbol {i : Instr} {s : State} {g : Matrix} {f : Regs → Regs} (hg : g.square s.regs.side.toNat)
    (h : command i s = .ok ((s.writeMatrix g).setRegs f)) :
    ∃ t, exec i s = .next t ∧ t.regs = f s.regs ∧ Completed s t ∧ SameButMtx s t ∧ t.matrix s.regs.side.toNat = g ∧
      ∀ r c, c < 256 → ¬(r < s.regs.side.toNat ∧ c < s.regs.side.toNat) →
        t.readByte .mtx (256 * r + c) = s.readByte .mtx (256 * r + c) := by
  obtain ⟨t, hexec, hregs, hdone, hother, hbyte⟩ := exec_writeMatrix_setRegs hg s.side_le h
  refine ⟨t, hexec, hregs, hdone, hother, ?_, fun r c hc hout => (hbyte r c hc).trans (if_neg hout)⟩
  refine Matrix.ext_get (t.matrix_square _) hg fun r c hr hc => ?_
  have hin := (hbyte r c (hc.trans_le s.side_le)).trans (if_pos ⟨hr, hc⟩)
  rw [t.matrix_get hr hc, State.dark_of_readByte hin, State.blk_of_readByte hin]

/-- A command that keeps `VERSION` and `SIDE` keeps the symbol a symbol. -/
theorem Completed.hasSymbol {s t : State} (h : Completed s t) (hv : t.regs.version = s.regs.version)
    (hside : t.regs.side = s.regs.side) (hs : s.hasSymbol) : t.hasSymbol := by
  obtain ⟨hstatus, -⟩ := h
  unfold State.hasSymbol State.ver
  rw [hv, hside, hstatus]
  exact hs

/-- States that hold the same matrix agree on its bytes. -/
theorem State.readByte_mtx_of_matrix_eq {s t : State} {n : Nat} (h : t.matrix n = s.matrix n) {r c : Nat} (hr : r < n)
    (hc : c < n) : t.readByte .mtx (256 * r + c) = s.readByte .mtx (256 * r + c) := by
  rw [t.readByte_mtx_eq, s.readByte_mtx_eq, ← t.matrix_get hr hc, h, s.matrix_get hr hc]

/-! ### MASK_SCORE (46_mask R260) -/

/-- Settles O42: the command writes registers only, and one entry of `PEN`. -/
theorem maskScoreResult : Obligations.MaskScoreResult := by
  intro s m hs p
  obtain ⟨t, hexec, hregs, hdone, hmem⟩ :=
    exec_setRegs (i := .maskScore m) (cmdMaskScore_eq_ok.mpr ⟨hs.check, rfl⟩)
  refine ⟨t, hexec, by rw [hregs]; rfl, fun k => ?_, hdone, hmem⟩
  simp only [hregs, Vector.get_eq_getElem, Vector.getElem_set, eq_comm (a := m.toNat)]
  rfl

/-! ### MASK_EVAL (46_mask R259, R262) -/

/-- The scan for the first least entry: no entry is below it and every earlier one is above it. -/
theorem foldl_least_spec (p : Nat → Nat) (k : Nat) :
    let best := (List.range' 1 k).foldl (fun best m => if p m < p best then m else best) 0
    best ≤ k ∧ (∀ i ≤ k, p best ≤ p i) ∧ ∀ i < best, p best < p i := by
  induction k with
  | zero => simp
  | succ k ih =>
    obtain ⟨hle, hleast, hfirst⟩ := ih
    simp only [List.range'_1_concat, List.foldl_concat, Nat.add_comm 1 k]
    split
    · next hlt =>
      refine ⟨le_rfl, fun i hi => ?_, fun i hi => hlt.trans_le (hleast i (Nat.le_of_lt_succ hi))⟩
      obtain hi | rfl := Nat.le_or_eq_of_le_succ hi
      · exact hlt.le.trans (hleast i hi)
      · exact le_rfl
    · next hge =>
      refine ⟨hle.trans k.le_succ, fun i hi => ?_, hfirst⟩
      obtain hi | rfl := Nat.le_or_eq_of_le_succ hi
      · exact hleast i hi
      · exact not_lt.mp hge

theorem bestMask_spec (ps : List Nat) : bestMask ps ≤ 7 ∧ (∀ i ≤ 7, ps.getD (bestMask ps) 0 ≤ ps.getD i 0) ∧
    ∀ i < bestMask ps, ps.getD (bestMask ps) 0 < ps.getD i 0 :=
  foldl_least_spec (ps.getD · 0) 7

theorem allPenalties_getD (s : State) {k : Nat} (hk : k < 8) :
    (allPenalties s).getD k 0 = (maskPenalty s (BitVec.ofNat 3 k)).total := by
  simp [allPenalties, List.getD_eq_getElem?_getD, hk]

/-- Settles O43, by the scan for the first least entry. -/
theorem maskEvalSelectsTheLeastPenalty : Obligations.MaskEvalSelectsTheLeastPenalty := by
  intro s hs pen
  obtain ⟨t, hexec, hregs, hdone, hmem⟩ := exec_setRegs (i := .maskEval) (cmdMaskEval_eq_ok.mpr ⟨hs.check, rfl⟩)
  obtain ⟨hle, hleast, hfirst⟩ := bestMask_spec (allPenalties s)
  obtain ⟨best, hbest⟩ : ∃ best : BitVec 3, best.toNat = bestMask (allPenalties s) :=
    ⟨BitVec.ofNat 3 (bestMask (allPenalties s)), by rw [BitVec.toNat_ofNat]; omega⟩
  have hpen (m : BitVec 3) : (allPenalties s).getD m.toNat 0 = pen m := by
    rw [allPenalties_getD s m.isLt, BitVec.ofNat_toNat, BitVec.setWidth_eq]
  simp only [← hbest, hpen, BitVec.ofNat_toNat, BitVec.setWidth_eq] at hregs hleast hfirst
  refine ⟨t, best, hexec, fun m => (hleast _ (Nat.le_of_lt_succ m.isLt)).trans_eq (hpen m),
    fun m hm => (hfirst _ hm).trans_eq (hpen m), by rw [hregs], fun k => ?_, hdone, hmem⟩
  rw [hregs, Vector.get_eq_getElem, Vector.getElem_ofFn, allPenalties_getD s k.isLt]

/-! ### MASK_APPLY (46_mask R252, R263) -/

theorem maskModule_blk (m : BitVec 3) (r c : Nat) (x : Module) : (maskModule m r c x).blk = x.blk := by
  cases hb : x.blk <;> simp [maskModule, hb]

theorem maskModule_dark (m : BitVec 3) (r c : Nat) (x : Module) :
    (maskModule m r c x).dark = if x.blk = false then x.dark ^^ maskPred m r c else x.dark := by
  cases hb : x.blk <;> simp [maskModule, hb]

theorem maskModule_maskModule (m : BitVec 3) (r c : Nat) (x : Module) :
    maskModule m r c (maskModule m r c x) = x := by
  obtain ⟨d, b⟩ := x
  cases b <;> simp [maskModule]

/-- Applying the same mask twice restores the matrix (46_mask R252). -/
theorem applyMask_applyMask {n : Nat} {g : Matrix} (h : g.square n) (m : BitVec 3) :
    applyMask m (applyMask m g) = g := by
  have hm := applyMask_square h m
  refine Matrix.ext_get (applyMask_square hm m) h fun r c hr hc => ?_
  rw [applyMask_get hm m hr hc, applyMask_get h m hr hc, maskModule_maskModule]

/-- MASK_APPLY puts the symbol under the mask and keeps every other byte of `MTX` (46_mask R263). -/
theorem exec_maskApply {s : State} (m : BitVec 3) (h : s.hasSymbol) :
    ∃ t, exec (.maskApply m) s = .next t ∧ t.regs = { s.regs with mask := m } ∧ Completed s t ∧ SameButMtx s t ∧
      t.matrix s.regs.side.toNat = applyMask m (s.matrix s.regs.side.toNat) ∧
      ∀ r c, c < 256 → ¬(r < s.regs.side.toNat ∧ c < s.regs.side.toNat) →
        t.readByte .mtx (256 * r + c) = s.readByte .mtx (256 * r + c) :=
  exec_writeSymbol (i := .maskApply m) (applyMask_square (s.matrix_square _) m) (cmdMaskApply_eq_ok.mpr ⟨h.check, rfl⟩)

/-- Settles O44: the symbol is left under the mask, and the same mask undoes it. -/
theorem maskApplyFlipsUnblockedModules : Obligations.MaskApplyFlipsUnblockedModules := by
  intro s m hs
  obtain ⟨t, hexec, hregs, hdone, hother, hmatrix, hout⟩ := exec_maskApply m hs
  have hside : t.regs.side = s.regs.side := by rw [hregs]
  obtain ⟨u, hexec', -, -, -, hmatrix', hout'⟩ :=
    exec_maskApply m (hdone.hasSymbol (by rw [hregs]) hside hs)
  rw [hside] at hmatrix' hout'
  have hback : u.matrix s.regs.side.toNat = s.matrix s.regs.side.toNat := by
    rw [hmatrix', hmatrix, applyMask_applyMask (s.matrix_square _)]
  refine ⟨t, hexec, hregs, hdone, fun r c _ hc => ?_, hother, u, hexec', fun r c _ hc => ?_⟩
  · by_cases hin : r < s.regs.side.toNat ∧ c < s.regs.side.toNat
    · have hmodule := congrArg (·.get r c) hmatrix
      simp only [applyMask_get (s.matrix_square _) m hin.1 hin.2, State.matrix_get _ hin.1 hin.2] at hmodule
      constructor
      · exact (congrArg Module.blk hmodule).trans (maskModule_blk ..)
      · simpa [hin, maskModule_dark] using congrArg Module.dark hmodule
    · rw [State.blk, State.dark, hout r c hc hin, if_neg fun h => hin ⟨h.1, h.2.1⟩]
      exact ⟨rfl, rfl⟩
  · by_cases hin : r < s.regs.side.toNat ∧ c < s.regs.side.toNat
    · exact State.readByte_mtx_of_matrix_eq hback hin.1 hin.2
    · exact (hout' r c hc hin).trans (hout r c hc hin)

/-! ### The candidate (46_mask R257, R264) -/

/-- WRITE_INFO writes the metadata into the symbol (46_mask R264). -/
theorem exec_writeInfo {s : State} (m : BitVec 3) (h : s.hasSymbol) :
    ∃ t, exec (.writeInfo m) s = .next t ∧ Completed s t ∧ t.matrix s.regs.side.toNat =
      writeInfo s.regs.version s.regs.side.toNat s.latch.ctrl.ecc m (s.matrix s.regs.side.toNat) := by
  obtain ⟨t, hexec, -, hdone, -, hmatrix, -⟩ := exec_writeSymbol (i := .writeInfo m)
    (writeInfo_square (s.matrix_square _) _ _ _) (cmdWriteInfo_eq_ok.mpr ⟨h.check, rfl⟩)
  exact ⟨t, hexec, hdone, hmatrix⟩

/-- Settles O41: the two commands write the two steps of the candidate one after the other. -/
theorem candidateIsTheCommittedSymbol : Obligations.CandidateIsTheCommittedSymbol := by
  intro s t u m hs ht hu
  obtain ⟨t', hexec, hregs, hdone, -, hmatrix, -⟩ := exec_maskApply m hs
  obtain rfl := Host.Outcome.next.inj (ht.symm.trans hexec)
  have hversion : t.regs.version = s.regs.version := by rw [hregs]
  have hside : t.regs.side = s.regs.side := by rw [hregs]
  obtain ⟨u', hexec', hdone', hmatrix'⟩ := exec_writeInfo m (hdone.hasSymbol hversion hside hs)
  obtain rfl := Host.Outcome.next.inj (hu.symm.trans hexec')
  obtain ⟨-, hlatch, -⟩ := hdone
  rw [hside, hversion, hlatch, hmatrix] at hmatrix'
  obtain ⟨hstatus, -⟩ := hdone'
  exact ⟨by rw [hstatus], hmatrix'⟩

end Sys2Proof.Machine
end

section
/-! PROOFS. The quiet zone and the compact binary form (47_output R280 to R289, R295): which bit of which byte holds which
module, and that DESERIALIZE reads back what SERIALIZE writes. -/

namespace Sys2Proof.Machine

/-- Settles O17: the command answers the state it found. -/
theorem nopCompletes : Obligations.NopCompletes := fun s =>
  ⟨_, exec_ok (i := .nop) rfl, rfl, completedWith_complete rfl ⟨rfl, rfl, rfl, rfl⟩, s.readByte_complete⟩

theorem toNat_ofNat_of_lt {w x : Nat} (h : x < 2 ^ w) : (BitVec.ofNat w x).toNat = x :=
  (BitVec.toNat_ofNat x w).trans (Nat.mod_eq_of_lt h)

theorem State.readBytes_getD (s : State) (r : Region) (a : Nat) {n i : Nat} (h : i < n) :
    (s.readBytes r a n).getD i 0 = s.readByte r (a + i) := by
  rw [State.readBytes_eq, List.getD_eq_getElem _ _ (by simpa using h), List.getElem_map, List.getElem_range]

/-! ### Rows and bit strings -/

/-- The module at a position of a matrix given by its colours: that colour, unblocked. -/
theorem Matrix.get_ofColours (p : List (List Bool)) (r c : Nat) :
    (Matrix.ofColours p).get r c = { dark := (p.getD r []).getD c false, blk := false } := by
  rw [Matrix.get, Matrix.ofColours, ← List.map_nil, List.getD_map,
    show Module.light = (fun d => { dark := d, blk := false }) false from rfl, List.getD_map]

/-- The colour at a position of the colours of a matrix. -/
theorem Matrix.colours_getD (g : Matrix) (r c : Nat) : (g.colours.getD r []).getD c false = (g.get r c).dark := by
  rw [Matrix.colours, ← List.map_nil, List.getD_map, show false = Module.light.dark from rfl, List.getD_map, Matrix.get]

/-- Row by row, the element of row `r` and column `c` has index `n * r + c`. -/
theorem flatten_getD {n r c : Nat} {p : List (List Bool)} (hp : ∀ row ∈ p, row.length = n) (hc : c < n) :
    p.flatten.getD (n * r + c) false = (p.getD r []).getD c false := by
  induction p generalizing r with
  | nil => simp
  | cons row p ih =>
    have hrow : row.length = n := hp row (by simp)
    cases r with
    | zero => simpa using List.getD_append row p.flatten false c (hrow ▸ hc)
    | succ r =>
      have hi : n * (r + 1) + c = row.length + (n * r + c) := by rw [hrow]; ring
      rw [List.flatten_cons, hi, List.getD_append_right _ _ _ _ (Nat.le_add_right ..), Nat.add_sub_cancel_left,
        List.getD_cons_succ, ih fun row h => hp row (by simp [h])]

/-- The rows cut from a bit string hold its bits in order. -/
theorem rowsOf_getD {n k r c : Nat} (bs : List Bool) (hr : r < k) (hc : c < n) :
    ((rowsOf n k bs).getD r []).getD c false = bs.getD (n * r + c) false := by
  induction k generalizing r bs with
  | zero => omega
  | succ k ih =>
    cases r with
    | zero => simp [rowsOf, List.getD_eq_getElem?_getD, hc]
    | succ r =>
      have hi : n * (r + 1) + c = n + (n * r + c) := by ring
      rw [rowsOf, List.getD_cons_succ, ih _ (by omega), hi]
      simp [List.getD_eq_getElem?_getD]

theorem replicate_false_getD (k i : Nat) : (List.replicate k false).getD i false = false := by
  rw [List.getD_eq_getElem?_getD, List.getElem?_getD_replicate_default_eq]

/-- A list with `k` light places put before and behind it. -/
theorem getD_surrounded (k : Nat) (l : List Bool) (i : Nat) :
    (List.replicate k false ++ l ++ List.replicate k false).getD i false =
      if k ≤ i ∧ i < l.length + k then l.getD (i - k) false else false := by
  rw [List.append_assoc]
  by_cases hlow : i < k
  · rw [List.getD_append _ _ _ _ (by simpa using hlow), replicate_false_getD, if_neg (by omega)]
  · rw [List.getD_append_right _ _ _ _ (by simpa using hlow), List.length_replicate]
    by_cases hin : i < l.length + k
    · rw [List.getD_append _ _ _ _ (by omega), if_pos (by omega)]
    · rw [List.getD_append_right _ _ _ _ (by omega), replicate_false_getD, if_neg (by omega)]

/-- The quiet zone moves a colour four places down and right, and everything else is light (47_output R280). -/
theorem quietZone_getD {n : Nat} {p : List (List Bool)} (hp : p.length = n) (hrow : ∀ row ∈ p, row.length = n) (r c : Nat) :
    ((quietZone n p).getD r []).getD c false =
      if 4 ≤ r ∧ r < n + 4 ∧ 4 ≤ c ∧ c < n + 4 then (p.getD (r - 4) []).getD (c - 4) false else false := by
  have hcolumn : (quietZone n p).map (fun row => row.getD c false) =
      List.replicate 4 false ++ (p.map fun row => if 4 ≤ c ∧ c < n + 4 then row.getD (c - 4) false else false)
        ++ List.replicate 4 false := by
    simp only [quietZone, List.map_append, List.map_replicate, List.map_map, replicate_false_getD]
    refine congrArg (List.replicate 4 false ++ · ++ List.replicate 4 false) (List.map_congr_left fun row h => ?_)
    simp only [Function.comp_apply, getD_surrounded, hrow row h]
  have hdefault (q : List (List Bool)) (f : List Bool → Bool) (hf : f [] = false) (i : Nat) :
      (q.map f).getD i false = f (q.getD i []) := hf ▸ List.getD_map ..
  rw [← hdefault _ (fun row => row.getD c false) rfl, hcolumn, getD_surrounded, List.length_map, hp,
    hdefault _ _ (by simp)]
  rw [← ite_and]
  simp only [and_assoc]

/-! ### Finished matrices (47_output R281, R283) -/

/-- `MTX` holds the given colours from position `(0, 0)` on and light modules elsewhere, none blocked. -/
def State.holdsColours (s : State) (p : List (List Bool)) : Prop :=
  ∀ r c, c < 256 → s.readByte .mtx (256 * r + c) = byteOfModule { dark := (p.getD r []).getD c false, blk := false }

/-- Only the bytes of `MTX` count. -/
theorem State.holdsColours.congr {s t : State} {p : List (List Bool)} (h : s.holdsColours p)
    (ht : ∀ x, t.readByte .mtx x = s.readByte .mtx x) : t.holdsColours p := fun r c hc => (ht _).trans (h r c hc)

theorem State.holdsColours_writeMatrix (s : State) {n : Nat} {p : List (List Bool)} (hp : (Matrix.ofColours p).square n)
    (hn : n ≤ 256) : ((s.clearMem .mtx).writeMatrix (Matrix.ofColours p)).holdsColours p := by
  intro r c hc
  rw [State.readByte_writeMatrix _ hp hn hc, ← Matrix.get_ofColours]
  split
  · rfl
  · rw [State.readByte_clearMem, if_pos rfl, Matrix.get_outside hp (by omega)]
    rfl

theorem State.holdsColours.dark {s : State} {p : List (List Bool)} (h : s.holdsColours p) (r : Nat) {c : Nat}
    (hc : c < 256) : s.dark r c = (p.getD r []).getD c false := State.dark_of_readByte (h r c hc)

theorem State.holdsColours.finished {s : State} {n v : Nat} {p : List (List Bool)} (h : s.holdsColours p)
    (hp : (Matrix.ofColours p).square n) (h1 : 1 ≤ v) (h2 : v ≤ 40) (hver : s.ver = v) (hn : n = side v + 8)
    (hside : s.regs.side.toNat = n) (hqz : s.status.qz = true) : s.finished := by
  subst hver
  refine ⟨h1, h2, hside.trans hn, hqz, fun r c _ hc => State.blk_of_readByte (h r c hc), fun r c _ hc hout => ?_⟩
  rw [hside] at hout
  rw [h r c hc, ← Matrix.get_ofColours, Matrix.get_outside hp hout]
  rfl

/-- A command that clears `MTX` and writes a quiet-zoned matrix completes with it (60_exceptions R310). -/
theorem exec_writeColours {i : Instr} {s : State} {n v : Nat} {p : List (List Bool)} {f : Regs → Regs}
    (hp : (Matrix.ofColours p).square n) (h1 : 1 ≤ v) (h2 : v ≤ 40) (hn : n = side v + 8)
    (hver : (f s.regs).version.toNat = v) (hside : (f s.regs).side.toNat = n)
    (h : command i s = .ok ((((s.clearMem .mtx).writeMatrix (Matrix.ofColours p)).setRegs f).setQz true)) :
    ∃ t, exec i s = .next t ∧ t.regs = f s.regs ∧ CompletedWith s t true ∧
      (∀ r c, c < 256 → t.dark r c = (p.getD r []).getD c false) ∧ SameButMtx s t ∧ t.finished := by
  obtain ⟨t, ht⟩ : ∃ t, t = ((((s.clearMem .mtx).writeMatrix (Matrix.ofColours p)).setRegs f).setQz true).complete :=
    ⟨_, rfl⟩
  have hregs : t.regs = f s.regs := by simp [ht]
  have hcolours : t.holdsColours p :=
    (State.holdsColours_writeMatrix s hp (hn ▸ (side_lt h2).le)).congr fun x => by simp [ht]
  refine ⟨t, ht ▸ exec_ok h, hregs, ht ▸ completedWith_complete (by simp) ⟨by simp, by simp, by simp, by simp⟩,
    fun r c hc => hcolours.dark r hc, fun q x hq => ?_, hcolours.finished hp h1 h2 ?_ hn ?_ (by simp [ht])⟩
  · simp [ht, State.readByte_writeMatrix_other _ _ hq, hq]
  · rw [State.ver, hregs, hver]
  · rw [hregs, hside]

/-! ### QUIET_ZONE (47_output R281) -/

theorem quietZone_colours_getD {n : Nat} {g : Matrix} (h : g.square n) (r c : Nat) :
    ((quietZone n g.colours).getD r []).getD c false =
      if 4 ≤ r ∧ r < n + 4 ∧ 4 ≤ c ∧ c < n + 4 then (g.get (r - 4) (c - 4)).dark else false := by
  have hrow : ∀ row ∈ g.colours, row.length = n := by simpa [Matrix.colours] using h.2
  rw [quietZone_getD (by simpa [Matrix.colours] using h.1) hrow, Matrix.colours_getD]

/-- Settles O46: the command clears `MTX` and writes the symbol surrounded by light modules. -/
theorem quietZoneResult : Obligations.QuietZoneResult := by
  intro s hs n
  have hcheck := hs.check
  obtain ⟨h1, h2, hside, -⟩ := hs
  have hn : n + 8 = side s.ver + 8 := congrArg (· + 8) hside
  have hsq := s.matrix_square n
  obtain ⟨t, hexec, hregs, hdone, hdark, hother, hfinished⟩ := exec_writeColours (i := .quietZone)
    (quietZone_square hsq) h1 h2 hn rfl (toNat_ofNat_of_lt (hn ▸ side_lt h2)) (cmdQuietZone_eq_ok.mpr ⟨hcheck, rfl⟩)
  refine ⟨t, hexec, hregs, hdone, fun r c _ hc => ?_, hother, hfinished⟩
  rw [hdark r c hc, quietZone_colours_getD hsq]
  split
  · next hin => rw [s.matrix_get (by omega) (by omega)]
  · rfl

/-! ### SERIALIZE (47_output R286, R287) -/

/-- The side of the greatest quiet-zoned matrix bounds the binary form. -/
theorem bodyLength_side_le {v : Nat} (h : v ≤ 40) : 5 + bodyLength (side v + 8) ≤ memSize .out :=
  bodyLength_le (Nat.le_of_lt_succ (side_lt h))

/-- Bit `k` of the body of the binary form is module `k`, row by row, and the fill bits are 0 (47_output R286). -/
theorem binaryForm_bit {n k : Nat} {g : Matrix} (h : g.square n) (hk : k < 8 * bodyLength n) :
    ((binaryForm n g.colours).getD (5 + k / 8) 0).getLsbD (7 - k % 8) = g.colours.flatten.getD k false := by
  have hbody : (binaryForm n g.colours).getD (5 + k / 8) 0 = (packBits g.colours.flatten).getD (k / 8) 0 := by
    rw [binaryForm, List.getD_append_right _ _ _ _ (Nat.le_add_right 5 _)]
    exact congrArg (List.getD _ · 0) (Nat.add_sub_cancel_left 5 _)
  rw [hbody, packBits_bit _ k (by rwa [h.colours_flatten_length])]

theorem colours_flatten_getD {n r c : Nat} {g : Matrix} (h : g.square n) (hc : c < n) :
    g.colours.flatten.getD (n * r + c) false = (g.get r c).dark := by
  rw [flatten_getD (by simpa [Matrix.colours] using h.2) hc, Matrix.colours_getD]

/-- Module `(r, c)` of a matrix of side `n` lies in the body. -/
theorem module_lt_body {n r c : Nat} (hr : r < n) (hc : c < n) : n * r + c < n * n :=
  calc n * r + c < n * (r + 1) := by rw [Nat.mul_succ]; omega
    _ ≤ n * n := Nat.mul_le_mul_left n hr

theorem cmdSerialize_eq_sequence {s : State}
    (h : s.ver = 0 ∨ s.status.qz = false ∨ s.regs.side.toNat ≠ side s.ver + 8) : cmdSerialize s = .error .sequence := by
  rw [cmdSerialize, raiseIf_bind, if_pos (by simpa [or_assoc] using h)]

/-- Settles O47: the command writes the bytes of the binary form. -/
theorem serializeResult : Obligations.SerializeResult := by
  intro s hver n len
  refine ⟨fun h0 hqz hn => ?_, fun h => exec_failed (i := .serialize) (cmdSerialize_eq_sequence h) (by decide)⟩
  have hsq := s.matrix_square n
  obtain ⟨t, hexec, hregs, hdone, hin, hout⟩ :=
    exec_writeBytes_setRegs (i := .serialize) rfl (cmdSerialize_eq_ok.mpr ⟨⟨h0, hqz, hn⟩, rfl⟩)
  have hlen : (binaryForm s.regs.side.toNat (s.matrix s.regs.side.toNat).colours).length = len := binaryForm_length hsq
  simp only [hlen, Nat.zero_add] at hregs hin hout
  have hheader {k : Nat} (hk : k < 5) := hin k (Nat.lt_add_right _ hk)
  have hbit {k : Nat} (hk : k < 8 * ((n * n + 7) / 8)) : (t.readByte .out (5 + k / 8)).getLsbD (7 - k % 8) =
      (s.matrix n).colours.flatten.getD k false := by
    rw [hin _ (Nat.add_lt_add_left (by omega) 5), binaryForm_bit hsq hk]
  refine ⟨t, hexec, hregs, hdone, ⟨hheader (by decide), hheader (by decide), hheader (by decide),
    hheader (by decide), ?_⟩, fun r c hr hc => ?_, fun k hk hk8 => ?_, hout⟩
  · exact (hheader (by decide)).trans (BitVec.ofNat_toNat 8 _)
  · have hk := module_lt_body hr hc
    rw [hbit (by omega), colours_flatten_getD hsq hc, s.matrix_get hr hc]
  · rw [hbit hk8, List.getD_eq_default _ _ (by rwa [hsq.colours_flatten_length])]

/-! ### DESERIALIZE (47_output R289) -/

/-- Settles O48: the command clears `MTX` and writes the rows of the body. -/
theorem deserializeResult : Obligations.DeserializeResult := by
  intro s v h1 h2 n hsig0 hsig1 hsig2 hside hfit hmax
  have hbody : (s.readBytes .out 5 (bodyLength n)).length = bodyLength n := State.readBytes_length ..
  have hsig : s.readBytes .out 0 3 = [0x51, 0x52, 0x52] := by
    simp [State.readBytes_eq, List.range_succ, hsig0, hsig1, hsig2]
  have hquiet : isQuietSide (s.readByte .out 4).toNat = true := hside ▸ isQuietSide_side h1 h2
  have hok := cmdDeserialize_eq_ok.mpr ⟨hmax, by omega, hsig, hquiet, hside ▸ hfit, rfl⟩
  have hversion : (n - 29) / 4 + 1 = v := by omega
  rw [hside, hversion] at hok
  obtain ⟨t, hexec, hregs, hdone, hdark, hother, hfinished⟩ := exec_writeColours (i := .deserialize) (rowsOf_square hbody)
    h1 h2 rfl (toNat_ofNat_of_lt (by omega)) (toNat_ofNat_of_lt (side_lt h2)) hok
  refine ⟨t, hexec, hregs, hdone, fun r c hr hc => ?_, hother, hfinished⟩
  have hk : n * r + c < n * n := module_lt_body hr hc
  have hk8 : (n * r + c) / 8 < bodyLength n := by unfold bodyLength; omega
  rw [hdark r c (by omega), rowsOf_getD _ hr hc, unpackBits_bit _ _ (by omega), State.readBytes_getD _ _ _ hk8]

/-! ### The round trip (47_output R288) -/

/-- Settles O49: DESERIALIZE finds the bytes SERIALIZE wrote, and both matrices are light outside their side. -/
theorem serializeRoundTrip : Obligations.SerializeRoundTrip := by
  intro s t w hs ht
  obtain ⟨h1, h2, hside, hqz, hblk, hbeyond⟩ := hs
  obtain ⟨t', hexec, hregs, -, ⟨hsig0, hsig1, hsig2, -, hsig4⟩, hbits, -, -⟩ :=
    (serializeResult s h2).1 (Nat.one_le_iff_ne_zero.mp h1) hqz hside
  obtain rfl := Host.Outcome.next.inj (ht.symm.trans hexec)
  have hfit : 5 + bodyLength s.regs.side.toNat ≤ 8192 := hside ▸ bodyLength_side_le h2
  have hlen : (t.start w).latch.outlen.toNat = 5 + bodyLength s.regs.side.toNat := by
    rw [State.start_latch, hregs]
    exact toNat_ofNat_of_lt (Nat.lt_of_le_of_lt hfit (by decide))
  simp only [← State.readByte_start t w] at hsig0 hsig1 hsig2 hsig4 hbits
  obtain ⟨u, hexec', hregs', ⟨hstatus, -⟩, hdark, -, -, -, -, -, hblk', hbeyond'⟩ := deserializeResult (t.start w) s.ver
    h1 h2 hsig0 hsig1 hsig2 (by rw [hsig4, hside]) (by rw [hlen, hside]; rfl) (by rw [hlen]; exact hfit)
  rw [← hside] at hdark
  have hside' : u.regs.side = s.regs.side := by rw [hregs', ← hside]; exact BitVec.ofNat_toNat 8 _
  refine ⟨u, hexec', by rw [hstatus], fun r c hr hc => ?_, hside', ?_, by rw [hstatus, hqz]⟩
  · by_cases hin : r < s.regs.side.toNat ∧ c < s.regs.side.toNat
    · exact State.readByte_mtx_congr ((hdark r c hin.1 hin.2).trans (hbits r c hin.1 hin.2))
        ((hblk' r c hr hc).trans (hblk r c hr hc).symm)
    · rw [hbeyond r c hr hc (by omega), hbeyond' r c hr hc (by rw [hside']; omega)]
  · rw [hregs']; exact BitVec.ofNat_toNat 6 _

end Sys2Proof.Machine
end

section
/-! PROOFS. The commands GENERATE runs up to INTERLEAVE (47_output R296): each succeeds on what the one before it
leaves, and together they encode the input bytes. -/

namespace Sys2Proof.Machine

/-! ### What one command of the pipeline writes -/

theorem SameHostSide.trans {s t u : State} (h : SameHostSide s t) (k : SameHostSide t u) : SameHostSide s u := by
  obtain ⟨hlatch, hbus, hrdata, hfree⟩ := h
  obtain ⟨klatch, kbus, krdata, kfree⟩ := k
  exact ⟨klatch.trans hlatch, kbus.trans hbus, krdata.trans hrdata, kfree.trans hfree⟩

/-- `t` is `s` with the registers changed by `f`, `QZ` as given and bytes of one memory written. -/
structure WritesOnly (r : Region) (f : Regs → Regs) (qz : Bool) (s t : State) : Prop where
  regs : t.regs = f s.regs
  status : t.status = { s.status with qz := qz }
  host : SameHostSide s t
  other : ∀ q x, q ≠ r → t.readByte q x = s.readByte q x

section
variable {s t u : State} {r : Region} {f g : Regs → Regs} {p q : Bool}

theorem WritesOnly.trans (h : WritesOnly r f p s t) (k : WritesOnly r g q t u) : WritesOnly r (g ∘ f) q s u where
  regs := by rw [k.regs, h.regs, Function.comp_apply]
  status := by rw [k.status, h.status]
  host := h.host.trans k.host
  other y x hy := (k.other y x hy).trans (h.other y x hy)

/-- Only what the registers hold in the end counts. -/
theorem WritesOnly.congr (h : WritesOnly r f p s t) (hregs : f s.regs = g s.regs) (hqz : p = q) :
    WritesOnly r g q s t where
  regs := h.regs.trans hregs
  status := hqz ▸ h.status
  host := h.host
  other := h.other

theorem WritesOnly.setRegs (s : State) (r : Region) (f : Regs → Regs) : WritesOnly r f s.status.qz s (s.setRegs f) where
  regs := rfl
  status := rfl
  host := ⟨rfl, rfl, rfl, rfl⟩
  other q x _ := s.readByte_setRegs f q x

theorem WritesOnly.writeBytes (s : State) (r : Region) (a : Nat) (bs : List Byte) (f : Regs → Regs) :
    WritesOnly r f s.status.qz s ((s.writeBytes r a bs).setRegs f) := by
  constructor <;> simp +contextual [SameHostSide]

theorem WritesOnly.writeMatrix (s : State) (g : Matrix) (f : Regs → Regs) :
    WritesOnly .mtx f s.status.qz s ((s.writeMatrix g).setRegs f) := by
  constructor <;> simp +contextual [SameHostSide, State.readByte_writeMatrix_other]

theorem WritesOnly.replaceMatrix (s : State) (g : Matrix) (f : Regs → Regs) (b : Bool) :
    WritesOnly .mtx f b s ((((s.clearMem .mtx).writeMatrix g).setRegs f).setQz b) := by
  constructor <;> simp +contextual [SameHostSide, State.readByte_writeMatrix_other]

theorem WritesOnly.qz (h : WritesOnly r f p s t) : t.status.qz = p := by rw [h.status]

theorem WritesOnly.latch (h : WritesOnly r f p s t) : t.latch = s.latch := h.host.1

theorem WritesOnly.inLen (h : WritesOnly r f p s t) : t.inLen = s.inLen := by rw [State.inLen, h.latch, State.inLen]

theorem WritesOnly.level (h : WritesOnly r f p s t) : t.level = s.level := by rw [State.level, h.latch, State.level]

theorem WritesOnly.eciBad (h : WritesOnly r f p s t) : t.eciBad = s.eciBad := by
  rw [State.eciBad, h.latch, State.eciBad]

theorem State.readBytes_congr {a n : Nat} (h : ∀ k < n, t.readByte r (a + k) = s.readByte r (a + k)) :
    t.readBytes r a n = s.readBytes r a n := by
  rw [State.readBytes_eq, State.readBytes_eq]
  exact List.map_congr_left fun k hk => h k (List.mem_range.mp hk)

theorem WritesOnly.input (h : WritesOnly r f p s t) (hr : Region.inp ≠ r) : t.input = s.input := by
  rw [State.input, h.inLen, State.input]
  exact State.readBytes_congr fun k _ => h.other _ _ hr

/-- A command that keeps `VERSION`, `SIDE` and `QZ` keeps the symbol a symbol. -/
theorem WritesOnly.hasSymbol (h : WritesOnly r f s.status.qz s t) (hver : (f s.regs).version = s.regs.version)
    (hside : (f s.regs).side = s.regs.side) (hs : s.hasSymbol) : t.hasSymbol := by
  unfold State.hasSymbol State.ver
  rw [h.regs, h.status, hver, hside]
  exact hs

end

theorem State.ver_of_version {s : State} {v : Nat} (hv : v ≤ 40) (h : s.regs.version = BitVec.ofNat 6 v) :
    s.ver = v := by
  rw [State.ver, h]; exact toNat_ofNat_of_lt (by omega)

/-! ### The codewords (43_bitstream R163 to R178, 44_blocks R209) -/

/-- The data codewords of the input bytes (43_bitstream R172, R177). -/
def dataCodewords (c : Ctrl) (m : Mode) (v : Nat) (input : List Byte) : List Byte :=
  padStream (packedStream c.eciEn c.eciDesignator m v input) (eccTab v (eccLevel c.ecc)).dataCw

/-- The codeword stream of the input bytes (44_blocks R208). -/
def finalCodewords (c : Ctrl) (m : Mode) (v : Nat) (input : List Byte) : List Byte :=
  codewordStream (eccTab v (eccLevel c.ecc)) (dataCodewords c m v input)

/-- Every byte belongs to the class of the mode the scan selects (43_bitstream R162). -/
theorem all_inClass_selectMode (input : List Byte) (force : Bool) :
    input.all (inClass (selectMode input force)) = true := by
  have hbyte : input.all (inClass .byte) = true := List.all_eq_true.mpr fun _ _ => rfl
  unfold selectMode
  split
  · exact hbyte
  · rw [escalate_numeric]
    split_ifs with hnumeric halphanumeric
    · simpa only [funext inClass_numeric] using hnumeric
    · simpa only [funext inClass_alphanumeric] using halphanumeric
    · exact hbyte

theorem State.readBytes_writeBytes (s : State) {r : Region} (hr : memBits r = 0xFF) (a : Nat) (bs : List Byte) :
    (s.writeBytes r a bs).readBytes r a bs.length = bs := by
  rw [State.readBytes_eq]
  refine List.ext_getElem (by simp) fun k _ hk => ?_
  rw [List.getElem_map, List.getElem_range, State.readByte_writeBytes_inside s r a bs k hk, hr]
  exact BitVec.and_allOnes

/-- The bytes of a bit string begin with its bits. -/
theorem take_unpackBits_packBits (bits : List Bool) : (unpackBits (packBits bits)).take bits.length = bits := by
  have hlen : bits.length ≤ (unpackBits (packBits bits)).length := by rw [unpackBits_length, packBits_length]; omega
  refine List.ext_getElem (by simpa using hlen) fun i _ hi => ?_
  rw [List.getElem_take, ← List.getD_eq_getElem _ false, unpackBits_bit _ _ (by rw [packBits_length]; omega),
    packBits_bit _ _ (by omega), List.getD_eq_getElem]

theorem streamBits_writeBytes (s : State) (bits : List Bool) (f : Regs → Regs) :
    streamBits ((s.writeBytes .cwm 0 (packBits bits)).setRegs f) bits.length = bits := by
  have hbytes : ((s.writeBytes .cwm 0 (packBits bits)).setRegs f).readBytes .cwm 0 ((bits.length + 7) / 8) =
      packBits bits := by
    rw [← packBits_length]; exact s.readBytes_writeBytes rfl 0 (packBits bits)
  rw [streamBits, hbytes, take_unpackBits_packBits]

section
variable {s : State} {m : Mode}

theorem modeSelect_runs (hlen : s.inLen ≤ 8192) : ∃ t, command .modeSelect s = .ok t ∧
    WritesOnly .cwm (fun r => { r with mode := modeValue (selectMode s.input s.latch.ctrl.forceByte) })
      s.status.qz s t :=
  ⟨_, cmdModeSelect_eq_ok.mpr ⟨hlen, rfl⟩, .setRegs ..⟩

theorem versionSelect_runs {v : Nat} (harg : argTest .versionSelect s = false) (hmode : s.regs.mode = modeValue m)
    (hv : VersionChosen s.latch.ctrl.eciEn s.level m s.inLen s.latch.ctrl.reqVersion.toNat v) :
    ∃ t, command .versionSelect s = .ok t ∧
      WritesOnly .cwm (fun r => { r with version := BitVec.ofNat 6 v, dcw := BitVec.ofNat 12 (eccTab v s.level).dataCw })
        s.status.qz s t := by
  obtain ⟨hreq, hlen, heci⟩ := argTest_versionSelect.mp harg
  exact ⟨_, cmdVersionSelect_eq_ok.mpr ⟨hreq, hlen, heci, m, v, hmode, chooseVersion_eq_ok hreq hv, rfl⟩, .setRegs ..⟩

theorem pack_runs (hlen : s.inLen ≤ 8192) (heci : s.eciBad = false) (hmode : s.regs.mode = modeValue m)
    (hver : s.ver ≠ 0) (hclass : s.input.all (inClass m) = true)
    (hfit : need s.latch.ctrl.eciEn s.inLen m s.ver ≤ 8 * s.eccInfo.dataCw) :
    ∃ t, command .pack s = .ok t ∧
      WritesOnly .cwm (fun r => { r with bitlen := BitVec.ofNat 16 (need s.latch.ctrl.eciEn s.inLen m s.ver) })
        s.status.qz s t ∧
      streamBits t (need s.latch.ctrl.eciEn s.inLen m s.ver) =
        packedStream s.latch.ctrl.eciEn s.latch.ctrl.eciDesignator m s.ver s.input := by
  refine ⟨_, cmdPack_eq_ok.mpr ⟨hlen, heci, m, hmode, hver, hclass, hfit, rfl⟩, .writeBytes .., ?_⟩
  rw [← s.input_length, ← packedStream_length _ s.latch.ctrl.eciDesignator, streamBits_writeBytes]

theorem pad_runs (hver : s.ver ≠ 0) (hfit : s.regs.bitlen.toNat ≤ 8 * s.eccInfo.dataCw) :
    ∃ t, command .pad s = .ok t ∧
      WritesOnly .cwm (fun r => { r with dcw := BitVec.ofNat 12 s.eccInfo.dataCw }) s.status.qz s t ∧
      t.readBytes .cwm 0 s.eccInfo.dataCw = padStream (streamBits s s.regs.bitlen.toNat) s.eccInfo.dataCw := by
  refine ⟨_, cmdPad_eq_ok.mpr ⟨hver, hfit, rfl⟩, .writeBytes .., ?_⟩
  have hlen := padStream_length (stream := streamBits s s.regs.bitlen.toNat) (by rwa [streamBits_length])
  exact (congrArg _ hlen.symm).trans (s.readBytes_writeBytes rfl 0 _)

/-- PACK and PAD succeed and leave the data codewords of the input (43_bitstream R176, R178). -/
theorem pack_pad_runs (hlen : s.inLen ≤ 8192) (heci : s.eciBad = false) (hmode : s.regs.mode = modeValue m)
    (hver : s.ver ≠ 0) (hclass : s.input.all (inClass m) = true)
    (hfit : need s.latch.ctrl.eciEn s.inLen m s.ver ≤ 8 * s.eccInfo.dataCw) :
    ∃ c d, command .pack s = .ok c ∧ command .pad c = .ok d ∧
      WritesOnly .cwm
        (fun r => { r with
          bitlen := BitVec.ofNat 16 (need s.latch.ctrl.eciEn s.inLen m s.ver)
          dcw := BitVec.ofNat 12 s.eccInfo.dataCw })
        s.status.qz s d ∧
      d.readBytes .cwm 0 s.eccInfo.dataCw = dataCodewords s.latch.ctrl m s.ver s.input := by
  have hdata : s.eccInfo.dataCw ≤ 2956 := eccTab_dataCw_le _ _
  obtain ⟨c, hc, wc, hbits⟩ := pack_runs hlen heci hmode hver hclass hfit
  have hverc : c.ver = s.ver := by rw [State.ver, wc.regs, State.ver]
  have hinfo : c.eccInfo = s.eccInfo := State.eccInfo_congr (by rw [wc.regs]) wc.latch
  have hbitlen : c.regs.bitlen.toNat = need s.latch.ctrl.eciEn s.inLen m s.ver := by
    rw [wc.regs]; exact toNat_ofNat_of_lt (by omega)
  obtain ⟨d, hd, wd, hpadded⟩ := pad_runs (s := c) (by rwa [hverc]) (by rwa [hbitlen, hinfo])
  rw [hinfo] at wd hpadded
  rw [hbitlen, hbits] at hpadded
  exact ⟨c, d, hc, hd, (wc.trans wd).congr rfl wc.qz, hpadded⟩

theorem interleave_runs (hver : s.ver ≠ 0) : ∃ t, command .interleave s = .ok t ∧
    WritesOnly .cwm
      (fun r => { r with totcw := BitVec.ofNat 12 s.eccInfo.total, rembits := BitVec.ofNat 3 (remTab s.ver) })
      s.status.qz s t ∧
    t.readBytes .cwm 0 s.eccInfo.dataCw = s.readBytes .cwm 0 s.eccInfo.dataCw ∧
    t.readBytes .cwm streamBase s.eccInfo.total =
      codewordStream s.eccInfo (s.readBytes .cwm 0 s.eccInfo.dataCw) := by
  have hlen := s.codewordStream_length
  have hdata : s.eccInfo.dataCw ≤ 2956 := eccTab_dataCw_le _ _
  refine ⟨_, cmdInterleave_eq_ok.mpr ⟨hver, by rw [hlen]⟩, .writeBytes .., State.readBytes_congr fun k hk => ?_, ?_⟩
  · rw [State.readByte_setRegs, State.readByte_writeBytes_outside _ _ _ _ _ _ (.inr (.inl _))]
    rw [streamBase]; omega
  · exact (congrArg _ hlen.symm).trans (s.readBytes_writeBytes rfl streamBase _)

end

/-- The registers once `n` bytes are encoded (43_bitstream R163, R175, R176, 44_blocks R209). -/
def encodedRegs (c : Ctrl) (n : Nat) (m : Mode) (v : Nat) (r : Regs) : Regs :=
  { r with
    mode := modeValue m
    version := BitVec.ofNat 6 v
    bitlen := BitVec.ofNat 16 (need c.eciEn n m v)
    dcw := BitVec.ofNat 12 (eccTab v (eccLevel c.ecc)).dataCw
    totcw := BitVec.ofNat 12 (eccTab v (eccLevel c.ecc)).total
    rembits := BitVec.ofNat 3 (remTab v) }

/-- What the commands up to INTERLEAVE leave of the input of `s`, in mode `m` and version `v` (47_output R296). -/
structure Encoded (s : State) (m : Mode) (v : Nat) (e : State) : Prop where
  writes : WritesOnly .cwm (encodedRegs s.latch.ctrl s.inLen m v) s.status.qz s e
  data : e.readBytes .cwm 0 (eccTab v s.level).dataCw = dataCodewords s.latch.ctrl m v s.input
  stream : e.readBytes .cwm streamBase (eccTab v s.level).total = finalCodewords s.latch.ctrl m v s.input

/-- The commands up to INTERLEAVE succeed and encode the input (47_output R296). -/
theorem encode_runs {s : State} {m : Mode} {v : Nat} (harg : argTest .versionSelect s = false)
    (hm : m = selectMode s.input s.latch.ctrl.forceByte)
    (hv : VersionChosen s.latch.ctrl.eciEn s.level m s.inLen s.latch.ctrl.reqVersion.toNat v) :
    ∃ a b c d e, command .modeSelect s = .ok a ∧ command .versionSelect a = .ok b ∧ command .pack b = .ok c ∧
      command .pad c = .ok d ∧ command .interleave d = .ok e ∧ Encoded s m v e := by
  obtain ⟨-, hlen, heci⟩ := argTest_versionSelect.mp harg
  have ⟨⟨h1, h2, _, hfit⟩, _⟩ := hv
  obtain ⟨a, ha, wa⟩ := modeSelect_runs hlen
  rw [← hm] at wa
  obtain ⟨b, hb, wb⟩ := versionSelect_runs (s := a) (m := m) (v := v)
    (by rwa [argTest_versionSelect, wa.latch, wa.inLen, wa.eciBad, ← argTest_versionSelect]) (by rw [wa.regs])
    (by rwa [wa.latch, wa.level, wa.inLen])
  rw [wa.level] at wb
  have wab := wa.trans wb
  have hverb : b.ver = v := State.ver_of_version h2 (by rw [wb.regs])
  have hinfob : b.eccInfo = eccTab v s.level := by rw [State.eccInfo, hverb, wab.level]
  have hmodeb : b.regs.mode = modeValue m := by rw [wb.regs, wa.regs]
  obtain ⟨c, d, hc, hd, wd, hdata⟩ := pack_pad_runs (s := b) (m := m) (by rwa [wab.inLen]) (by rwa [wab.eciBad]) hmodeb
    (by omega) (by rw [wab.input nofun, hm]; exact all_inClass_selectMode _ _)
    (by rwa [wab.latch, wab.inLen, hverb, hinfob])
  rw [wab.latch, wab.inLen, hverb, hinfob] at wd
  rw [wab.latch, wab.input nofun, hverb, hinfob] at hdata
  have wad := wab.trans wd
  have hverd : d.ver = v := State.ver_of_version h2 (by rw [wd.regs, wb.regs])
  have hinfod : d.eccInfo = eccTab v s.level := by rw [State.eccInfo, hverd, wad.level]
  obtain ⟨e, he, we, hkept, hstream⟩ := interleave_runs (s := d) (by omega)
  rw [hinfod, hdata] at hkept hstream
  rw [hinfod, hverd] at we
  exact ⟨a, b, c, d, e, ha, hb, hc, hd, he,
    (wad.trans we).congr rfl (by rw [wd.qz, wb.qz, wa.qz]), hkept, hstream⟩

end Sys2Proof.Machine
end

section
/-! PROOFS. The commands GENERATE runs behind INTERLEAVE (47_output R296): they place the symbol, score and commit a
mask, and surround the result with the quiet zone. -/

namespace Sys2Proof.Machine

/-! ### The symbol (45_placement R230, R233, 46_mask R262) -/

/-- The symbol of version `v` with a bit string placed (45_placement R232). -/
def placedSymbol (v : Nat) (bits : List Bool) : Matrix := (placeBits (side v) (functionMatrix v) bits).matrix

/-- A symbol of version `v` under a mask, with its metadata (46_mask R257). -/
def maskedSymbol (v : Nat) (e : BitVec 2) (g : Matrix) (m : BitVec 3) : Matrix :=
  candidate (BitVec.ofNat 6 v) (side v) e g m

/-- The total penalties of masks 0 to 7 on a symbol of version `v` (46_mask R258). -/
def symbolPenalties (v : Nat) (e : BitVec 2) (g : Matrix) : List Nat :=
  (List.range 8).map fun m => (penaltyOf (side v) (maskedSymbol v e g (BitVec.ofNat 3 m)).colours).total

/-- The mask selected for a symbol of version `v` (46_mask R259). -/
def selectedMask (v : Nat) (e : BitVec 2) (g : Matrix) : BitVec 3 := BitVec.ofNat 3 (bestMask (symbolPenalties v e g))

/-- The registers once the masks of a symbol of version `v` are scored (46_mask R262). -/
def scoredRegs (v : Nat) (e : BitVec 2) (g : Matrix) (r : Regs) : Regs :=
  { r with
    pen := Vector.ofFn fun m => BitVec.ofNat 32 ((symbolPenalties v e g).getD m.val 0)
    mask := selectedMask v e g
    res0 := BitVec.ofNat 32 (bestMask (symbolPenalties v e g))
    res1 := BitVec.ofNat 32 ((symbolPenalties v e g).getD (bestMask (symbolPenalties v e g)) 0) }

@[simp] theorem scoredRegs_version (v : Nat) (e : BitVec 2) (g : Matrix) (r : Regs) :
    (scoredRegs v e g r).version = r.version := by simp only [scoredRegs]

@[simp] theorem scoredRegs_side (v : Nat) (e : BitVec 2) (g : Matrix) (r : Regs) :
    (scoredRegs v e g r).side = r.side := by simp only [scoredRegs]

theorem State.version_eq (s : State) : s.regs.version = BitVec.ofNat 6 s.ver := by
  rw [State.ver, BitVec.ofNat_toNat, BitVec.setWidth_eq]

@[simp] theorem State.matrix_setRegs (s : State) (f : Regs → Regs) (n : Nat) :
    (s.setRegs f).matrix n = s.matrix n := rfl

@[simp] theorem State.matrix_setQz (s : State) (b : Bool) (n : Nat) : (s.setQz b).matrix n = s.matrix n := rfl

theorem State.hasSymbol.candidate_eq {s : State} (h : s.hasSymbol) (g : Matrix) (m : BitVec 3) :
    candidate s.regs.version s.regs.side.toNat s.latch.ctrl.ecc g m = maskedSymbol s.ver s.latch.ctrl.ecc g m := by
  rw [maskedSymbol, h.check.2.1, ← State.version_eq]

theorem State.hasSymbol.allPenalties_eq {s : State} (h : s.hasSymbol) :
    allPenalties s = symbolPenalties s.ver s.latch.ctrl.ecc (s.matrix (side s.ver)) :=
  List.map_congr_left fun m _ => by rw [maskPenalty, h.candidate_eq, h.check.2.1]

section
variable {s : State}

theorem placeFunction_runs (h1 : 1 ≤ s.ver) (h2 : s.ver ≤ 40) : ∃ t, command .placeFunction s = .ok t ∧
    WritesOnly .mtx (fun r => { r with side := BitVec.ofNat 8 (side s.ver) }) false s t ∧ t.hasSymbol ∧
    t.matrix (side s.ver) = functionMatrix s.ver := by
  have hside := side_lt h2
  have w := WritesOnly.replaceMatrix s (functionMatrix s.ver)
    (fun r => { r with side := BitVec.ofNat 8 (side s.ver) }) false
  refine ⟨_, cmdPlaceFunction_eq_ok.mpr ⟨by omega, rfl⟩, w, ?_, ?_⟩
  · unfold State.hasSymbol
    rw [w.status, State.ver, w.regs]
    exact ⟨h1, h2, toNat_ofNat_of_lt (by omega), rfl⟩
  · rw [State.matrix_setQz, State.matrix_setRegs, State.matrix_writeMatrix _ (functionMatrix_square _) (by omega)]

theorem placeData_runs (h : s.hasSymbol) (htotcw : s.regs.totcw.toNat ≤ 4096) : ∃ t a b, command .placeData s = .ok t ∧
    WritesOnly .mtx (fun r => { r with res0 := a, res1 := b }) s.status.qz s t ∧
    t.matrix (side s.ver) = (placeBits (side s.ver) (s.matrix (side s.ver)) (dataBits s)).matrix := by
  refine ⟨_, _, _, cmdPlaceData_eq_ok.mpr ⟨h.check, htotcw, rfl⟩, .writeMatrix .., ?_⟩
  rw [← h.check.2.1, State.matrix_setRegs,
    State.matrix_writeMatrix s (placeBits_square (s.matrix_square _) _) s.side_le]

theorem maskEval_runs (h : s.hasSymbol) : ∃ t, command .maskEval s = .ok t ∧
    WritesOnly .mtx (scoredRegs s.ver s.latch.ctrl.ecc (s.matrix (side s.ver))) s.status.qz s t ∧
    t.matrix (side s.ver) = s.matrix (side s.ver) := by
  have hok : cmdMaskEval s = .ok (s.setRegs (scoredRegs s.ver s.latch.ctrl.ecc (s.matrix (side s.ver)))) := by
    refine cmdMaskEval_eq_ok.mpr ⟨h.check, ?_⟩
    rw [h.allPenalties_eq]
    rfl
  exact ⟨_, hok, .setRegs .., State.matrix_setRegs ..⟩

end

/-- PLACE_FUNCTION, PLACE_DATA and MASK_EVAL succeed and leave the placed symbol (47_output R296). -/
theorem score_runs {s : State} {v : Nat} (hver : s.ver = v) (h1 : 1 ≤ v) (h2 : v ≤ 40)
    (htotcw : s.regs.totcw.toNat ≤ 4096) :
    ∃ f g h, command .placeFunction s = .ok f ∧ command .placeData f = .ok g ∧ command .maskEval g = .ok h ∧
      WritesOnly .mtx
        (fun r => { scoredRegs v s.latch.ctrl.ecc (placedSymbol v (dataBits s)) r with side := BitVec.ofNat 8 (side v) })
        false s h ∧ h.hasSymbol ∧
      h.matrix (side v) = placedSymbol v (dataBits s) := by
  subst hver
  obtain ⟨f, hf, wf, hsymf, hmatf⟩ := placeFunction_runs h1 h2
  have hverf : f.ver = s.ver := by rw [State.ver, wf.regs, State.ver]
  have hbits : dataBits f = dataBits s := by
    unfold dataBits
    rw [State.readBytes_congr fun k _ => wf.other .cwm (streamBase + k) nofun, wf.regs]
  obtain ⟨g, _, _, hg, wg, hmatg⟩ := placeData_runs hsymf (by rwa [wf.regs])
  have hsymg := wg.hasSymbol rfl rfl hsymf
  have wfg := wf.trans wg
  have hverg : g.ver = s.ver := by rw [State.ver, wg.regs]; exact hverf
  obtain ⟨h, hh, wh, hmath⟩ := maskEval_runs hsymg
  have hsymh := wh.hasSymbol (scoredRegs_version ..) (scoredRegs_side ..) hsymg
  rw [hverf, hmatf, hbits, ← placedSymbol] at hmatg
  rw [hverg, hmatg] at hmath wh
  rw [wfg.latch] at wh
  refine ⟨f, g, h, hf, hg, hh, (wfg.trans wh).congr ?_ ?_, hsymh, hmath⟩
  · simp only [Function.comp_apply, scoredRegs]
  · rw [wg.status, wf.status]

/-! ### The finished matrix (46_mask R263, R264, 47_output R281) -/

/-- The registers once the symbol is masked and quiet-zoned (46_mask R263, R264, 47_output R281). -/
def committedRegs (v : Nat) (e : BitVec 2) (m : BitVec 3) (r : Regs) : Regs :=
  { r with
    mask := m
    format := formatString e m
    verinfo := if 7 ≤ v then versionString (BitVec.ofNat 6 v) else 0
    side := BitVec.ofNat 8 (side v + 8) }

section
variable {s : State}

theorem maskApply_runs (h : s.hasSymbol) (m : BitVec 3) : ∃ t, command (.maskApply m) s = .ok t ∧
    WritesOnly .mtx (fun r => { r with mask := m }) s.status.qz s t ∧
    t.matrix (side s.ver) = applyMask m (s.matrix (side s.ver)) := by
  refine ⟨_, cmdMaskApply_eq_ok.mpr ⟨h.check, rfl⟩, .writeMatrix .., ?_⟩
  rw [← h.check.2.1, State.matrix_setRegs,
    State.matrix_writeMatrix s (applyMask_square (s.matrix_square _) m) s.side_le]

theorem writeInfo_runs (h : s.hasSymbol) (m : BitVec 3) : ∃ t, command (.writeInfo m) s = .ok t ∧
    WritesOnly .mtx (fun r => { r with
      format := formatString s.latch.ctrl.ecc m
      verinfo := if 7 ≤ r.version.toNat then versionString r.version else 0 }) s.status.qz s t ∧
    t.matrix (side s.ver) =
      writeInfo s.regs.version (side s.ver) s.latch.ctrl.ecc m (s.matrix (side s.ver)) := by
  refine ⟨_, cmdWriteInfo_eq_ok.mpr ⟨h.check, rfl⟩, .writeMatrix .., ?_⟩
  rw [← h.check.2.1, State.matrix_setRegs,
    State.matrix_writeMatrix s (writeInfo_square (s.matrix_square _) _ _ _) s.side_le]

theorem quietZone_runs (h : s.hasSymbol) : ∃ t, command .quietZone s = .ok t ∧
    WritesOnly .mtx (fun r => { r with side := BitVec.ofNat 8 (side s.ver + 8) }) true s t ∧
    t.holdsColours (quietZone (side s.ver) (s.matrix (side s.ver)).colours) := by
  have hok := cmdQuietZone_eq_ok.mpr ⟨h.check, rfl⟩
  rw [h.check.2.1] at hok
  refine ⟨_, hok, .replaceMatrix .., ?_⟩
  exact (State.holdsColours_writeMatrix s (quietZone_square (s.matrix_square _)) (side_lt h.2.1).le).congr fun x => by
    rw [State.readByte_setQz, State.readByte_setRegs]

end

/-- MASK_APPLY, WRITE_INFO and QUIET_ZONE succeed and leave the masked symbol in its quiet zone (47_output R296). -/
theorem commit_runs {s : State} {v : Nat} (hver : s.ver = v) (hs : s.hasSymbol) (m : BitVec 3) :
    ∃ i j k, command (.maskApply m) s = .ok i ∧ command (.writeInfo m) i = .ok j ∧ command .quietZone j = .ok k ∧
      WritesOnly .mtx (committedRegs v s.latch.ctrl.ecc m) true s k ∧
      k.holdsColours (quietZone (side v) (maskedSymbol v s.latch.ctrl.ecc (s.matrix (side v)) m).colours) := by
  subst hver
  obtain ⟨i, hi, wi, hmati⟩ := maskApply_runs hs m
  have hsymi := wi.hasSymbol rfl rfl hs
  have hveri : i.ver = s.ver := by rw [State.ver, wi.regs, State.ver]
  obtain ⟨j, hj, wj, hmatj⟩ := writeInfo_runs hsymi m
  have hsymj := wj.hasSymbol rfl rfl hsymi
  have hverj : j.ver = i.ver := by rw [State.ver, wj.regs, State.ver]
  obtain ⟨k, hk, wk, hcolours⟩ := quietZone_runs hsymj
  rw [wi.latch] at wj hmatj
  rw [State.version_eq, hveri, hmati] at hmatj
  rw [hverj, hveri] at wk hcolours
  rw [hmatj] at hcolours
  refine ⟨i, j, k, hi, hj, hk, ((wi.trans wj).trans wk).congr ?_ rfl, hcolours⟩
  simp only [Function.comp_apply, committedRegs, ← State.version_eq]
  rfl

end Sys2Proof.Machine
end

section
/-! PROOFS. GENERATE (47_output R296 to R299): what it leaves is a function of the latched `CTRL` and the input. -/

namespace Sys2Proof.Machine

/-! ### GENERATE (47_output R296, R298) -/

/-- GENERATE is its validation and its commands in order (47_output R296). -/
theorem cmdGenerate_eq_ok {s a b c d e f g h i j k : State} (hchecks : generateChecks s = .ok ())
    (ha : command .modeSelect s = .ok a) (hb : command .versionSelect a = .ok b) (hc : command .pack b = .ok c)
    (hd : command .pad c = .ok d) (he : command .interleave d = .ok e) (hf : command .placeFunction e = .ok f)
    (hg : command .placeData f = .ok g) (hh : command .maskEval g = .ok h)
    (hi : command (.maskApply h.regs.mask) h = .ok i) (hj : command (.writeInfo h.regs.mask) i = .ok j)
    (hk : command .quietZone j = .ok k) :
    cmdGenerate s = .ok (k.withRes k.ver h.regs.mask.toNat k.regs.side.toNat k.regs.bitlen.toNat) := by
  simp only [cmdGenerate, generateSymbol, generateFinish, bind_eq_ok]
  exact ⟨(), hchecks, h, ⟨a, ha, b, hb, c, hc, d, hd, e, he, f, hf, g, hg, hh⟩, i, hi, j, hj, k, hk, rfl⟩

theorem generateChecks_eq_ok {s : State} : generateChecks s = .ok () ↔ argTest .versionSelect s = false ∧
    ∃ v, VersionChosen s.latch.ctrl.eciEn s.level (selectMode s.input s.latch.ctrl.forceByte) s.inLen
      s.latch.ctrl.reqVersion.toNat v := by
  rw [argTest_versionSelect]
  simp only [generateChecks, bind_eq_ok, raiseIf_eq_ok, Bool.or_eq_false_iff, decide_eq_false_iff_not, not_lt]
  constructor
  · rintro ⟨_, ⟨hreq, hlen⟩, _, heci, v, hok, -⟩
    obtain ⟨u, -, hu⟩ | ⟨herr, -⟩ := chooseVersion_cases s.latch.ctrl.ecc
      (selectMode s.input s.latch.ctrl.forceByte) s.inLen s.latch.ctrl.eciEn hreq
    · exact ⟨⟨hreq, hlen, heci⟩, u, hu⟩
    · rw [herr] at hok; cases hok
  · rintro ⟨⟨hreq, hlen, heci⟩, v, hv⟩
    exact ⟨(), ⟨hreq, hlen⟩, (), heci, v, chooseVersion_eq_ok hreq hv, trivial⟩

/-- The symbol GENERATE places: the codeword stream and the remainder bits (45_placement R232). -/
def generatedSymbol (c : Ctrl) (m : Mode) (v : Nat) (input : List Byte) : Matrix :=
  placedSymbol v (unpackBits (finalCodewords c m v input) ++ List.replicate (remTab v) false)

/-- The registers GENERATE leaves for `n` bytes and their symbol `g` (47_output R296, R298). -/
def generatedRegs (c : Ctrl) (n : Nat) (m : Mode) (v : Nat) (g : Matrix) (r : Regs) : Regs :=
  { committedRegs v c.ecc (selectedMask v c.ecc g) (scoredRegs v c.ecc g (encodedRegs c n m v r)) with
    res0 := BitVec.ofNat 32 v
    res1 := (selectedMask v c.ecc g).setWidth 32
    res2 := BitVec.ofNat 32 (side v + 8)
    res3 := BitVec.ofNat 32 (need c.eciEn n m v) }

/-- What GENERATE leaves of the input of `s`, in mode `m` and version `v`: each part a function of `CTRL` and the
input. -/
structure Generated (s : State) (m : Mode) (v : Nat) (t : State) : Prop where
  regs : t.regs = generatedRegs s.latch.ctrl s.inLen m v (generatedSymbol s.latch.ctrl m v s.input) s.regs
  status : t.status = { s.status with qz := true }
  host : SameHostSide s t
  data : t.readBytes .cwm 0 (eccTab v s.level).dataCw = dataCodewords s.latch.ctrl m v s.input
  stream : t.readBytes .cwm streamBase (eccTab v s.level).total = finalCodewords s.latch.ctrl m v s.input
  colours : t.holdsColours (quietZone (side v) (maskedSymbol v s.latch.ctrl.ecc
    (generatedSymbol s.latch.ctrl m v s.input)
    (selectedMask v s.latch.ctrl.ecc (generatedSymbol s.latch.ctrl m v s.input))).colours)

theorem remTab_lt : ∀ v : Fin 41, remTab v < 8 := by decide

section
variable {s e : State} {m : Mode} {v : Nat}

theorem Encoded.ver (h : Encoded s m v e) (hv : v ≤ 40) : e.ver = v :=
  State.ver_of_version hv (by rw [h.writes.regs, encodedRegs])

theorem Encoded.totcw (h : Encoded s m v e) : e.regs.totcw.toNat = (eccTab v s.level).total := by
  have htotal : (eccTab v s.level).total ≤ 3706 := (eccTab_blocks ..).2
  rw [h.writes.regs]; exact toNat_ofNat_of_lt (Nat.lt_of_le_of_lt htotal (by decide))

/-- The bits PLACE_DATA takes from the encoded input (45_placement R232). -/
theorem Encoded.dataBits_eq (h : Encoded s m v e) (hv : v ≤ 40) :
    dataBits e = unpackBits (finalCodewords s.latch.ctrl m v s.input) ++ List.replicate (remTab v) false := by
  have hrembits : e.regs.rembits.toNat = remTab v := by
    rw [h.writes.regs]; exact toNat_ofNat_of_lt (remTab_lt ⟨v, by omega⟩)
  rw [dataBits, h.totcw, hrembits, h.stream]

end

/-- The commands of the pipeline succeed one after the other, and GENERATE leaves what they leave (47_output R296). -/
theorem generate_runs {s : State} {m : Mode} {v : Nat} (harg : argTest .versionSelect s = false)
    (hm : m = selectMode s.input s.latch.ctrl.forceByte)
    (hv : VersionChosen s.latch.ctrl.eciEn s.level m s.inLen s.latch.ctrl.reqVersion.toNat v) :
    ∃ t, command .generate s = .ok t ∧ Generated s m v t ∧ ∃ a b c d e f g h i j k,
      command .modeSelect s = .ok a ∧ command .versionSelect a = .ok b ∧ command .pack b = .ok c ∧
      command .pad c = .ok d ∧ command .interleave d = .ok e ∧ command .placeFunction e = .ok f ∧
      command .placeData f = .ok g ∧ command .maskEval g = .ok h ∧ command (.maskApply h.regs.mask) h = .ok i ∧
      command (.writeInfo h.regs.mask) i = .ok j ∧ command .quietZone j = .ok k ∧
      t = k.withRes v h.regs.mask.toNat (side v + 8) (need s.latch.ctrl.eciEn s.inLen m v) := by
  have ⟨⟨h1, h2, _, hfit⟩, _⟩ := hv
  obtain ⟨a, b, c, d, e, ha, hb, hc, hd, he, hencoded⟩ := encode_runs harg hm hv
  have htotal : (eccTab v s.level).total ≤ 3706 := (eccTab_blocks ..).2
  obtain ⟨f, g, h, hf, hg, hh, wh, hsym, hmatrix⟩ := score_runs (hencoded.ver h2) h1 h2 (by rw [hencoded.totcw]; omega)
  rw [hencoded.dataBits_eq h2, hencoded.writes.latch, ← generatedSymbol] at wh
  rw [hencoded.dataBits_eq h2, ← generatedSymbol] at hmatrix
  have hmask : h.regs.mask = selectedMask v s.latch.ctrl.ecc (generatedSymbol s.latch.ctrl m v s.input) := by
    rw [wh.regs]; simp only [scoredRegs]
  have hver : h.ver = v := by
    rw [State.ver, wh.regs]; simp only [scoredRegs]; exact hencoded.ver h2
  obtain ⟨i, j, k, hi, hj, hk, wk, hcolours⟩ := commit_runs hver hsym h.regs.mask
  rw [wh.latch, hencoded.writes.latch] at wk hcolours
  have w := wh.trans wk
  refine ⟨_, ?_, ?_, a, b, c, d, e, f, g, h, i, j, k, ha, hb, hc, hd, he, hf, hg, hh, hi, hj, hk, rfl⟩
  · have hverk : k.ver = v := by
      rw [State.ver, wk.regs]; exact hver
    have hside : k.regs.side.toNat = side v + 8 := by
      rw [wk.regs]; exact toNat_ofNat_of_lt (side_lt h2)
    have hbitlen : k.regs.bitlen.toNat = need s.latch.ctrl.eciEn s.inLen m v := by
      have hdata : (eccTab v s.level).dataCw ≤ 2956 := eccTab_dataCw_le _ _
      rw [w.regs]
      simp only [Function.comp_apply, committedRegs, scoredRegs, hencoded.writes.regs, encodedRegs]
      exact toNat_ofNat_of_lt (by omega)
    subst hm
    have hgenerate := cmdGenerate_eq_ok (generateChecks_eq_ok.mpr ⟨harg, v, hv⟩) ha hb hc hd he hf hg hh hi hj hk
    rwa [hverk, hside, hbitlen] at hgenerate
  · have hcwm (a n : Nat) : (k.withRes v h.regs.mask.toNat (side v + 8) (need s.latch.ctrl.eciEn s.inLen m v)).readBytes
        .cwm a n = e.readBytes .cwm a n :=
      State.readBytes_congr fun x _ => (k.readByte_withRes ..).trans (w.other .cwm (a + x) nofun)
    constructor
    case regs =>
      rw [State.withRes_regs, w.regs, hencoded.writes.regs, hmask, BitVec.ofNat_toNat]
      simp only [Function.comp_apply, generatedRegs, committedRegs, scoredRegs]
    case status => rw [State.withRes_status, w.status, hencoded.writes.status]
    case host => exact hencoded.writes.host.trans w.host
    case data => rw [hcwm, hencoded.data]
    case stream => rw [hcwm, hencoded.stream]
    case colours =>
      rw [hmatrix, hmask] at hcolours
      exact hcolours.congr fun x => k.readByte_withRes ..

section
variable {s t : State} {m : Mode} {v : Nat}

theorem placedSymbol_square (v : Nat) (bits : List Bool) : (placedSymbol v bits).square (side v) :=
  placeBits_square (functionMatrix_square v) bits

theorem maskedSymbol_square {g : Matrix} (h : g.square (side v)) (e : BitVec 2) (m : BitVec 3) :
    (maskedSymbol v e g m).square (side v) := by
  rw [maskedSymbol, candidate]; exact writeInfo_square (applyMask_square h m) _ e m

theorem Generated.ver (h : Generated s m v t) (h2 : v ≤ 40) : t.ver = v :=
  State.ver_of_version h2 (by simp only [h.regs, generatedRegs, committedRegs, scoredRegs, encodedRegs])

theorem Generated.side_toNat (h : Generated s m v t) (h2 : v ≤ 40) : t.regs.side.toNat = side v + 8 := by
  rw [h.regs]
  simp only [generatedRegs, committedRegs]
  exact toNat_ofNat_of_lt (side_lt h2)

theorem Generated.counts (h : Generated s m v t) (h2 : v ≤ 40)
    (hfit : need s.latch.ctrl.eciEn s.inLen m v ≤ 8 * (eccTab v s.level).dataCw) :
    t.regs.bitlen.toNat = need s.latch.ctrl.eciEn s.inLen m v ∧ t.regs.dcw.toNat = (eccTab v s.level).dataCw ∧
      t.regs.totcw.toNat = (eccTab v s.level).total ∧ t.regs.rembits.toNat = remTab v := by
  have hdata : (eccTab v s.level).dataCw ≤ 2956 := eccTab_dataCw_le _ _
  have htotal : (eccTab v s.level).total ≤ 3706 := (eccTab_blocks ..).2
  rw [h.regs]
  simp only [generatedRegs, committedRegs, scoredRegs, encodedRegs]
  exact ⟨toNat_ofNat_of_lt (by omega), toNat_ofNat_of_lt (Nat.lt_of_le_of_lt hdata (by decide)),
    toNat_ofNat_of_lt (Nat.lt_of_le_of_lt htotal (by decide)), toNat_ofNat_of_lt (remTab_lt ⟨v, by omega⟩)⟩

theorem Generated.finished (h : Generated s m v t) (h1 : 1 ≤ v) (h2 : v ≤ 40) : t.complete.finished :=
  (h.colours.congr (t.readByte_complete .mtx)).finished
    (quietZone_square (maskedSymbol_square (placedSymbol_square v _) _ _)) h1 h2 (h.ver h2) rfl (h.side_toNat h2)
    (by rw [State.complete_status, h.status]; rfl)

end

/-- Settles O50: the pipeline runs, and each register keeps what its last writer gave it. -/
theorem generateRunsThePipeline : Obligations.GenerateRunsThePipeline := by
  intro s m v harg hm hv
  have ⟨⟨h1, h2, _, hfit⟩, _⟩ := hv
  obtain ⟨t, hok, hgen, a, b, c, d, e, f, g, h, i, j, k, ha, hb, hc, hd, he, hf, hg, hh, hi, hj, hk, ht⟩ :=
    generate_runs harg hm hv
  obtain ⟨hbitlen, hdcw, htotcw, hrembits⟩ := hgen.counts h2 hfit
  have hkeep := cmdGenerate_keepsHostData hok
  have hregs := hgen.regs
  simp only [generatedRegs, committedRegs, scoredRegs, encodedRegs] at hregs
  refine ⟨t.complete, a, b, c, d, e, f, g, h, i, j, k, exec_ok hok, completedWith_complete hgen.status hgen.host,
    ha, hb, hc, hd, he, hf, hg, hh, hi, hj, hk, ?_, fun q x => ?_, hgen.ver h2, ?_, hbitlen, hdcw, htotcw, hrembits,
    ?_, ?_, fun q x hq => ?_, hgen.finished h1 h2⟩
  · rw [ht, State.complete_regs, State.withRes_regs, BitVec.ofNat_toNat]
    rfl
  · rw [ht, State.readByte_complete, State.readByte_withRes]
  · rw [State.complete_regs, hregs]
  · rw [State.complete_regs, hregs]
  · rw [State.complete_regs, hregs]
  · rw [State.readByte_complete]
    obtain rfl | rfl := hq
    · exact hkeep.inp x
    · exact hkeep.out x

/-! ### GENERATE depends only on its inputs (47_output R299) -/

/-- The validation reads the latched `CTRL` and the input only. -/
theorem generateChecks_congr {s s' : State} (hctrl : s'.latch.ctrl = s.latch.ctrl) (hlen : s'.inLen = s.inLen)
    (hinput : s'.input = s.input) : generateChecks s' = generateChecks s := by
  simp only [generateChecks, State.eciBad, hctrl, hlen, hinput]

/-- Only `ERR_CAPACITY` writes the diagnostics, and all of them (60_exceptions R314). -/
theorem ErrInfo.after_of_code_eq (old old' : ErrInfo) {e : CmdError} (h : e.code = 0x04) :
    old'.after e = old.after e := by
  cases e with
  | capacity info => rfl
  | _ => cases h

theorem State.readByte_of_readBytes_eq {s t : State} {r : Region} {a n k : Nat}
    (h : t.readBytes r a n = s.readBytes r a n) (hk : k < n) : t.readByte r (a + k) = s.readByte r (a + k) := by
  rw [← t.readBytes_getD r a hk, h, s.readBytes_getD r a hk]

theorem exec_generate_error {s t : State} {e : CmdError} (hchecks : generateChecks s = .error e)
    (ht : exec .generate s = .next t) : t = s.raise e :=
  Host.Outcome.next.inj (ht.symm.trans (exec_error (i := .generate) (bind_eq_error.mpr (.inl hchecks))))

theorem exec_generate_ok {s t : State} {m : Mode} {v : Nat} (harg : argTest .versionSelect s = false)
    (hm : m = selectMode s.input s.latch.ctrl.forceByte)
    (hv : VersionChosen s.latch.ctrl.eciEn s.level m s.inLen s.latch.ctrl.reqVersion.toNat v)
    (ht : exec .generate s = .next t) : ∃ u, t = u.complete ∧ Generated s m v u := by
  obtain ⟨u, hok, hgen, -⟩ := generate_runs harg hm hv
  exact ⟨u, Host.Outcome.next.inj (ht.symm.trans (exec_ok hok)), hgen⟩

/-- Settles O51: the validation reads the inputs only, and so does every part of what GENERATE leaves. -/
theorem generateDependsOnlyOnItsInputs : Obligations.GenerateDependsOnlyOnItsInputs := by
  intro s s' t t' hctrl hinlen hbytes ht ht'
  have hlen : s'.inLen = s.inLen := congrArg BitVec.toNat hinlen
  have hinput : s'.input = s.input := by
    rw [State.input, hlen]
    exact State.readBytes_congr fun k hk => by rw [Nat.zero_add]; exact hbytes k hk
  have hchecks' := generateChecks_congr hctrl hlen hinput
  cases hchecks : generateChecks s with
  | error e =>
    obtain rfl := exec_generate_error hchecks ht
    obtain rfl := exec_generate_error (hchecks'.trans hchecks) ht'
    exact ⟨rfl, fun h => ErrInfo.after_of_code_eq _ _ h, nofun⟩
  | ok _ =>
    obtain ⟨harg, v, hv⟩ := generateChecks_eq_ok.mp hchecks
    obtain ⟨harg', -⟩ := generateChecks_eq_ok.mp (hchecks'.trans hchecks)
    have hlevel : s'.level = s.level := congrArg (fun c : Ctrl => eccLevel c.ecc) hctrl
    obtain ⟨u, rfl, hgen⟩ := exec_generate_ok harg rfl hv ht
    obtain ⟨u', rfl, hgen'⟩ := exec_generate_ok harg' (by rw [hctrl, hinput]) (by rwa [hctrl, hlevel, hlen]) ht'
    have ⟨⟨_, h2, _, hfit⟩, _⟩ := hv
    obtain ⟨-, hdcw, htotcw, -⟩ := hgen.counts h2 hfit
    obtain ⟨hregs', -, -, hdata', hstream', hcolours'⟩ := hgen'
    rw [hctrl, hinput] at hregs' hdata' hstream' hcolours'
    rw [hlevel, ← hgen.data] at hdata'
    rw [hlevel, ← hgen.stream] at hstream'
    rw [hlen] at hregs'
    refine ⟨rfl, nofun, fun _ => ⟨?_, ?_, fun r c _ hc => ?_, fun x hx => ?_, fun x hx => ?_⟩⟩
    · rw [State.complete_regs, State.complete_regs, hregs', hgen.regs]
      simp only [generatedRegs, committedRegs, scoredRegs, encodedRegs, and_self]
    · rw [State.complete_regs, State.complete_regs, hregs', hgen.regs]
      simp only [generatedRegs, and_self]
    · rw [State.readByte_complete, State.readByte_complete, hcolours' r c hc, hgen.colours r c hc]
    · rw [State.complete_regs, hdcw] at hx
      have hbyte := State.readByte_of_readBytes_eq hdata' hx
      rwa [Nat.zero_add] at hbyte
    · rw [State.complete_regs, htotcw] at hx
      exact State.readByte_of_readBytes_eq hstream' hx

end Sys2Proof.Machine
end

section
/-! PROOFS. Which error a command raises (60_exceptions R311 to R321): the tests of `ERR_ARG` first, then those of
`ERR_SEQUENCE`, then the command's own tests on its data. -/

namespace Sys2Proof.Machine

/-! ### The tests in order (60_exceptions R321) -/

/-- The commands that work in the mode `MODE` names (43_bitstream R175, R176). -/
def usesMode : Instr → Bool
  | .versionSelect | .pack => true
  | .nop | .gfExp _ | .gfLog _ | .gfMul _ _ | .gfDiv _ _ | .rsGenpoly _ | .rsEncode _ _ | .bchFormat _ _ | .bchVersion _
  | .modeSelect | .pad | .queryEcc _ _ | .queryCap _ _ _ | .queryAlign _ | .interleave | .placeFunction | .placeData
  | .maskScore _ | .maskEval | .maskApply _ | .writeInfo _ | .quietZone | .serialize | .deserialize | .generate => false

/-- The `ERR_SEQUENCE` test of a command: its precondition fails (60_exceptions R317), or it works in a mode and `MODE`
names none (log 15). -/
def sequenceTest (i : Instr) (s : State) : Bool :=
  !sequenceOk i s || (usesMode i && (modeOf s.regs.mode).isNone)

/-- No version takes the input in mode `m`, and `e` reports it (43_bitstream R174). -/
def capacityError (s : State) (m : Mode) (e : CmdError) : Prop :=
  (∃ info, e = .capacity info) ∧
    chooseVersion s.latch.ctrl.ecc m s.inLen s.latch.ctrl.reqVersion.toNat s.latch.ctrl.eciEn = .error e

/-- The stream of `n` bits exceeds the data codewords (60_exceptions R315). -/
def State.overflows (s : State) (n : Nat) : Prop := n > 8 * s.eccInfo.dataCw

/-- The blob in `OUT` fails a test of DESERIALIZE (47_output R289). -/
def State.blobMalformed (s : State) : Prop :=
  s.latch.outlen.toNat < 5 ∨ s.readBytes .out 0 3 ≠ [0x51, 0x52, 0x52] ∨
    isQuietSide (s.readByte .out 4).toNat = false ∨
    s.latch.outlen.toNat < 5 + bodyLength (s.readByte .out 4).toNat

/-- `e` is the error a command that has passed its `ERR_ARG` and `ERR_SEQUENCE` tests raises (60_exceptions R314 to
R316, R318, R319). -/
def dataError (i : Instr) (s : State) (e : CmdError) : Prop :=
  match i with
  | .gfLog a => a = 0 ∧ e = .domain
  | .gfDiv _ b => b = 0 ∧ e = .domain
  | .versionSelect => ∃ m, modeOf s.regs.mode = some m ∧ capacityError s m e
  | .generate => capacityError s (selectMode s.input s.latch.ctrl.forceByte) e
  | .pack =>
    (packClassTest s = true ∧ e = .arg) ∨
      (packClassTest s = false ∧ e = .overflow ∧ ∃ m, modeOf s.regs.mode = some m ∧
        s.overflows (need s.latch.ctrl.eciEn s.inLen m s.ver))
  | .pad => e = .overflow ∧ s.overflows s.regs.bitlen.toNat
  | .deserialize => e = .malformed ∧ s.blobMalformed
  | .nop | .gfExp _ | .gfMul _ _ | .rsGenpoly _ | .rsEncode _ _ | .bchFormat _ _ | .bchVersion _
  | .modeSelect | .queryEcc _ _ | .queryCap _ _ _ | .queryAlign _ | .interleave | .placeFunction | .placeData
  | .maskScore _ | .maskEval | .maskApply _ | .writeInfo _ | .quietZone | .serialize => False

theorem State.ver_eq_zero {s : State} : s.ver = 0 ↔ s.regs.version = 0 := by simp [State.ver, ← BitVec.toNat_inj]

theorem sequenceTest_versionSelect (s : State) : sequenceTest .versionSelect s = (modeOf s.regs.mode).isNone := by
  simp only [sequenceTest, usesMode, sequenceOk]
  by_cases h : s.regs.mode = 0
  · rw [h]; rfl
  · simp only [h, ne_eq, not_false_eq_true, decide_true, Bool.not_true, Bool.false_or, Bool.true_and]

theorem sequenceTest_pack (s : State) :
    sequenceTest .pack s = (decide (s.regs.version = 0) || (modeOf s.regs.mode).isNone) := by
  simp only [sequenceTest, usesMode, sequenceOk]
  by_cases h : s.regs.mode = 0
  · rw [h, Bool.or_comm (decide _)]; rfl
  · simp only [h, ne_eq, not_false_eq_true, decide_true, decide_not, Bool.not_not, Bool.true_and]

/-- `e` is the error of the first test that fails: for `ERR_ARG`, for `ERR_SEQUENCE`, then on the data (60_exceptions
R321). -/
def failsWith (i : Instr) (s : State) (e : CmdError) : Prop :=
  (argTest i s = true ∧ e = .arg) ∨ (argTest i s = false ∧ sequenceTest i s = true ∧ e = .sequence) ∨
    (argTest i s = false ∧ sequenceTest i s = false ∧ dataError i s e)

/-! ### The error of each command -/

theorem raiseIf_bind_eq_error {α : Type} {b : Bool} {e e' : CmdError} {f : Unit → Except CmdError α} :
    (raiseIf b e >>= f) = .error e' ↔ (b = true ∧ e' = e) ∨ (b = false ∧ f () = .error e') := by
  rw [raiseIf_bind]; cases b <;> simp [eq_comm]

theorem currentMode_bind_eq_error {α : Type} {s : State} {e : CmdError} {f : Mode → Except CmdError α} :
    (currentMode s >>= f) = .error e ↔
      (modeOf s.regs.mode = none ∧ e = .sequence) ∨ ∃ m, modeOf s.regs.mode = some m ∧ f m = .error e := by
  rw [bind_eq_error, currentMode_eq]
  cases modeOf s.regs.mode <;> simp [eq_comm]

/-- The symbol check as one test. -/
theorem State.checkSymbol_eq_raiseIf (s : State) :
    s.checkSymbol = raiseIf (!(decide (s.regs.version ≠ 0) && decide (s.regs.side.toNat = side s.regs.version.toNat)
      && !s.status.qz)) .sequence := by
  unfold State.checkSymbol State.ver
  simp [← BitVec.toNat_inj]

theorem map_eq_error {ε α β : Type} {x : Except ε α} {f : α → β} {e : ε} : x.map f = .error e ↔ x = .error e := by
  cases x <;> simp [Except.map]

theorem bind_ok_eq_error {ε α β : Type} {x : Except ε α} {f : α → β} {e : ε} :
    (x >>= fun a => .ok (f a)) = .error e ↔ x = .error e := map_eq_error

theorem romLog_eq_none {a : Byte} : romLog a = none ↔ a = 0 := by
  rw [romLog]; exact ite_eq_left_iff.trans (by simp)

theorem cmdGfLog_eq_error_iff {a : Byte} {s : State} {e : CmdError} :
    cmdGfLog a s = .error e ↔ a = 0 ∧ e = .domain := by
  rw [cmdGfLog, ← romLog_eq_none]
  cases romLog a <;> simp [eq_comm]

theorem gfDiv_eq_error_iff {a b : Byte} {e : CmdError} : gfDiv a b = .error e ↔ b = 0 ∧ e = .domain := by
  rw [gfDiv, ← romLog_eq_none]
  cases romLog b with
  | none => simp [eq_comm]
  | some j => cases romLog a <;> simp

theorem cmdQueryCap_eq_error_iff {v : BitVec 6} {md : BitVec 4} {l : BitVec 2} {s : State} {e : CmdError} :
    cmdQueryCap v md l s = .error e ↔ (versionOk v = false ∨ modeOf md = none) ∧ e = .arg := by
  rw [cmdQueryCap, raiseIf_bind]
  cases versionOk v <;> cases modeOf md <;> simp [eq_comm]

theorem cmdPack_eq_error_iff {s : State} {e : CmdError} : cmdPack s = .error e ↔ failsWith .pack s e := by
  have harg : argTest .pack s = (decide (s.inLen > 8192) || s.eciBad) := rfl
  simp only [failsWith, harg, sequenceTest_pack, dataError, cmdPack, raiseIf_bind_eq_error, currentMode_bind_eq_error,
    State.ver_eq_zero]
  cases hm : modeOf s.regs.mode with
  | none => grind
  | some m =>
    have hclass := packClassTest_eq_false hm
    grind [State.overflows]

/-- A choice of a version fails with `ERR_CAPACITY` only (43_bitstream R174). -/
theorem chooseVersion_eq_error_iff {s : State} {m : Mode} {e : CmdError} (hreq : s.latch.ctrl.reqVersion.toNat ≤ 40) :
    chooseVersion s.latch.ctrl.ecc m s.inLen s.latch.ctrl.reqVersion.toNat s.latch.ctrl.eciEn = .error e ↔
      capacityError s m e := by
  refine ⟨fun h => ⟨?_, h⟩, And.right⟩
  obtain ⟨v, hok, -⟩ | ⟨herr, -⟩ := chooseVersion_cases s.latch.ctrl.ecc m s.inLen s.latch.ctrl.eciEn hreq
  · cases hok.symm.trans h
  · cases herr.symm.trans h; exact ⟨_, rfl⟩

theorem cmdVersionSelect_eq_error_iff {s : State} {e : CmdError} :
    cmdVersionSelect s = .error e ↔ failsWith .versionSelect s e := by
  have harg : argTest .versionSelect s =
    (decide (s.latch.ctrl.reqVersion.toNat > 40) || decide (s.inLen > 8192) || s.eciBad) := rfl
  simp only [failsWith, harg, sequenceTest_versionSelect, dataError, cmdVersionSelect, raiseIf_bind_eq_error,
    currentMode_bind_eq_error, bind_ok_eq_error]
  cases hm : modeOf s.regs.mode with
  | none => grind
  | some m => have hcap := chooseVersion_eq_error_iff (s := s) (m := m) (e := e); grind

/-- GENERATE fails in its validation only: the commands it runs then succeed (47_output R296, R297). -/
theorem cmdGenerate_eq_error_iff_checks {s : State} {e : CmdError} :
    cmdGenerate s = .error e ↔ generateChecks s = .error e := by
  refine ⟨fun h => ?_, fun h => bind_eq_error.mpr (.inl h)⟩
  obtain hchecks | ⟨_, hchecks, -⟩ := bind_eq_error.mp h
  · exact hchecks
  · obtain ⟨hpass, v, hv⟩ := generateChecks_eq_ok.mp hchecks
    obtain ⟨t, hok, -⟩ := generate_runs hpass rfl hv
    cases hok.symm.trans h

theorem cmdGenerate_eq_error_iff {s : State} {e : CmdError} : cmdGenerate s = .error e ↔ failsWith .generate s e := by
  have harg : argTest .generate s =
    (decide (s.latch.ctrl.reqVersion.toNat > 40) || decide (s.inLen > 8192) || s.eciBad) := rfl
  have hcap := chooseVersion_eq_error_iff (s := s) (m := selectMode s.input s.latch.ctrl.forceByte) (e := e)
  simp only [cmdGenerate_eq_error_iff_checks, generateChecks, raiseIf_bind_eq_error, bind_ok_eq_error, failsWith, harg,
    sequenceTest, usesMode, sequenceOk, dataError]
  grind

/-- The error of a command is that of its first failed test (60_exceptions R321). -/
theorem command_eq_error_iff {i : Instr} {s : State} {e : CmdError} : command i s = .error e ↔ failsWith i s e := by
  cases i
  case pack => exact cmdPack_eq_error_iff
  case versionSelect => exact cmdVersionSelect_eq_error_iff
  case generate => exact cmdGenerate_eq_error_iff
  all_goals simp only [failsWith, argTest, sequenceTest, usesMode, sequenceOk, dataError, command]
  case nop | gfExp | gfMul | bchFormat | bchVersion => simp
  case gfLog => simp [cmdGfLog_eq_error_iff]
  case gfDiv => simp [map_eq_error, gfDiv_eq_error_iff]
  case rsGenpoly | rsEncode => simp only [cmdRsGenpoly, cmdRsEncode, raiseIf_bind_eq_error]; grind
  case modeSelect => simp [cmdModeSelect, raiseIf_bind_eq_error, State.inLen]
  case queryEcc | queryAlign => simp [cmdQueryEcc, cmdQueryAlign, raiseIf_bind_eq_error, versionOk_eq_false]
  case queryCap => simp [cmdQueryCap_eq_error_iff, versionOk_eq_false, modeOf_eq_none, and_assoc]
  case interleave | placeFunction =>
    simp [cmdInterleave, cmdPlaceFunction, raiseIf_bind_eq_error, State.ver_eq_zero]
  case pad => simp [cmdPad, raiseIf_bind_eq_error, State.ver_eq_zero, State.overflows, and_comm]
  case maskScore | maskEval | maskApply | writeInfo | quietZone =>
    simp [cmdMaskScore, cmdMaskEval, cmdMaskApply, cmdWriteInfo, cmdQuietZone, State.checkSymbol_eq_raiseIf,
      raiseIf_bind_eq_error]
  case placeData => simp only [cmdPlaceData, State.checkSymbol_eq_raiseIf, raiseIf_bind_eq_error]; grind
  case serialize => simp only [cmdSerialize, raiseIf_bind_eq_error, State.ver_eq_zero]; grind [State.ver]
  case deserialize => simp only [cmdDeserialize, raiseIf_bind_eq_error, State.blobMalformed]; grind

/-! ### Error codes (60_exceptions R312) -/

/-- The code tells which error it was; only `ERR_CAPACITY` carries more. -/
theorem CmdError.eq_of_code_eq {e e' : CmdError} (he : e.code ≠ 0x04) (h : e'.code = e.code) : e' = e := by
  cases e <;> cases e' <;> simp_all [CmdError.code]

/-- The code in `STATUS` after a command tells its error. -/
theorem exec_errcode_iff {i : Instr} {s t : State} {e : CmdError} (he : e.code ≠ 0x04) (h : exec i s = .next t) :
    t.status.errcode = e.code ↔ failsWith i s e := by
  rw [← command_eq_error_iff]
  obtain ⟨u, hc, rfl⟩ | ⟨e', hc, rfl⟩ := exec_cases h
  · simpa [hc] using e.code_range.1.symm
  · rw [hc, State.raise_status, Status.failed_errcode, Except.error.injEq]
    exact ⟨CmdError.eq_of_code_eq he, congrArg _⟩

/-! ### ERR_ARG (60_exceptions R316) -/

/-- The only `ERR_ARG` raised on data is PACK's class test (60_exceptions R321). -/
theorem dataError_arg {i : Instr} {s : State} : dataError i s .arg ↔ i = .pack ∧ packClassTest s = true := by
  cases i <;> simp [dataError, capacityError]

/-- Where `MODE` names a mode, the `ERR_SEQUENCE` test is the precondition. -/
theorem sequenceTest_of_mode {s : State} (i : Instr) (h : (modeOf s.regs.mode).isSome = true) :
    sequenceTest i s = !sequenceOk i s := by
  simp [sequenceTest, Option.isNone_eq_false_iff.mpr h]

theorem modeOf_isSome_of_packClassTest {s : State} (h : packClassTest s = true) : (modeOf s.regs.mode).isSome = true :=
  Option.isSome_of_any h

/-- Settles O12: an `ERR_ARG` is that of the table's test, or of PACK's class test behind the `ERR_SEQUENCE` tests. -/
theorem errArgExactly : Obligations.ErrArgExactly := by
  intro i s t h
  refine (exec_errcode_iff (e := .arg) (by decide) h).trans ?_
  simp only [failsWith, dataError_arg, reduceCtorEq, and_false, and_true, false_or]
  constructor
  · rintro (harg | ⟨-, hseq, hi, hclass⟩)
    · exact .inl harg
    · rw [sequenceTest_of_mode i (modeOf_isSome_of_packClassTest hclass), Bool.not_eq_false'] at hseq
      exact .inr ⟨hi, hseq, hclass⟩
  · rintro (harg | ⟨hi, hseq, hclass⟩)
    · exact .inl harg
    · rw [← Bool.not_eq_false', ← sequenceTest_of_mode i (modeOf_isSome_of_packClassTest hclass)] at hseq
      exact (Bool.eq_false_or_eq_true (argTest i s)).imp id fun harg => ⟨harg, hseq, hi, hclass⟩

/-! ### ERR_SEQUENCE (60_exceptions R317) -/

theorem not_dataError_sequence {i : Instr} {s : State} : ¬dataError i s .sequence := by
  cases i <;> simp [dataError, capacityError]

/-- In a ranged state `MODE` names a mode or is 0, which fails the precondition of the commands that use it. -/
theorem sequenceTest_of_ranged {i : Instr} {s : State} (h : s.ranged) : sequenceTest i s = !sequenceOk i s := by
  obtain ⟨-, hmode, -⟩ := h
  obtain h0 | hmode := hmode
  · cases i <;> simp [sequenceTest, usesMode, sequenceOk, h0]
  · exact sequenceTest_of_mode i (by obtain h | h | h := hmode <;> rw [h] <;> rfl)

/-- Settles O13: the `ERR_SEQUENCE` tests come behind those of `ERR_ARG`, and no test on data raises it. -/
theorem errSequenceExactly : Obligations.ErrSequenceExactly := by
  intro i s t hs h
  refine (exec_errcode_iff (e := .sequence) (by decide) h).trans ?_
  simp [failsWith, not_dataError_sequence, sequenceTest_of_ranged hs]

/-! ### ERR_OVERFLOW, ERR_MALFORMED and ERR_DOMAIN (60_exceptions R315, R318, R319) -/

theorem failsWith_overflow {i : Instr} {s : State} : failsWith i s .overflow ↔
    (i = .pad ∧ s.ver ≠ 0 ∧ s.overflows s.regs.bitlen.toNat) ∨
      (i = .pack ∧ argTest i s = false ∧ sequenceOk i s = true ∧ packClassTest s = false ∧
        ∃ m, modeOf s.regs.mode = some m ∧ s.overflows (need s.latch.ctrl.eciEn s.inLen m s.ver)) := by
  cases i
  case pad => simp [failsWith, argTest, sequenceTest, usesMode, sequenceOk, dataError, State.ver_eq_zero]
  case pack =>
    have hseq (m : Mode) (hm : modeOf s.regs.mode = some m) : sequenceTest .pack s = !sequenceOk .pack s :=
      sequenceTest_of_mode .pack (by rw [hm]; rfl)
    simp only [failsWith, dataError]; grind
  all_goals simp [failsWith, dataError, capacityError]

theorem isQuietSide_eq_false {n : Nat} : isQuietSide n = false ↔ ¬∃ v, 1 ≤ v ∧ v ≤ 40 ∧ n = 17 + 4 * v + 8 := by
  rw [← Bool.not_eq_true, isQuietSide_iff]
  refine not_congr ⟨fun ⟨h1, h2, h3⟩ => ⟨(n - 25) / 4, by omega⟩, fun ⟨v, h⟩ => by omega⟩

theorem signature_ne_iff {s : State} : s.readBytes .out 0 3 ≠ [0x51, 0x52, 0x52] ↔
    s.readByte .out 0 ≠ 0x51 ∨ s.readByte .out 1 ≠ 0x52 ∨ s.readByte .out 2 ≠ 0x52 := by
  simp only [State.readBytes_eq, List.range_succ]; grind

theorem failsWith_malformed {i : Instr} {s : State} : failsWith i s .malformed ↔
    i = .deserialize ∧ s.latch.outlen.toNat ≤ 8192 ∧ s.blobMalformed := by
  cases i
  case deserialize => simp [failsWith, argTest, sequenceTest, usesMode, sequenceOk, dataError]
  all_goals simp [failsWith, dataError, capacityError]

theorem failsWith_domain {i : Instr} {s : State} : failsWith i s .domain ↔ i = .gfLog 0 ∨ ∃ a, i = .gfDiv a 0 := by
  cases i
  case gfLog | gfDiv => simp [failsWith, argTest, sequenceTest, usesMode, sequenceOk, dataError]
  all_goals simp [failsWith, dataError, capacityError]

/-- Settles O14: each of the three errors is raised on the data of the commands its rule names. -/
theorem dataErrorsExactly : Obligations.DataErrorsExactly := by
  intro i s t h
  refine ⟨(exec_errcode_iff (e := .overflow) (by decide) h).trans failsWith_overflow,
    (exec_errcode_iff (e := .malformed) (by decide) h).trans ?_,
    (exec_errcode_iff (e := .domain) (by decide) h).trans failsWith_domain⟩
  rw [failsWith_malformed, State.blobMalformed, signature_ne_iff, isQuietSide_eq_false]
  rfl

end Sys2Proof.Machine
end

section
/-! PROOFS. How every command ends (60_exceptions R310 to R312, R320, R322): with its writes and no error, or with an
error and nothing but `STATUS` and the diagnostics changed; and the interrupt output. -/

namespace Sys2Proof.Machine

/-! ### What a command that succeeds keeps -/

/-- Every command but GENERATE writes registers, `QZ` and one memory. -/
theorem command_writesOnly {i : Instr} {s t : State} (hi : i ≠ .generate) (h : command i s = .ok t) :
    ∃ r f qz, WritesOnly r f qz s t := by
  cases i with
  | nop | gfExp | gfLog | gfMul | gfDiv | bchFormat | bchVersion | queryEcc | queryCap | queryAlign =>
    obtain ⟨_, _, _, _, rfl⟩ := command_of_writesResultsOnly rfl h
    exact ⟨.cwm, _, _, .setRegs ..⟩
  | rsGenpoly => obtain ⟨-, -, rfl⟩ := cmdRsGenpoly_eq_ok.mp h; exact ⟨_, _, _, .writeBytes ..⟩
  | rsEncode => obtain ⟨-, -, -, rfl⟩ := cmdRsEncode_eq_ok.mp h; exact ⟨_, _, _, .writeBytes ..⟩
  | modeSelect => obtain ⟨-, rfl⟩ := cmdModeSelect_eq_ok.mp h; exact ⟨.cwm, _, _, .setRegs ..⟩
  | versionSelect => obtain ⟨-, -, -, _, _, -, -, rfl⟩ := cmdVersionSelect_eq_ok.mp h; exact ⟨.cwm, _, _, .setRegs ..⟩
  | pack => obtain ⟨-, -, _, -, -, -, -, rfl⟩ := cmdPack_eq_ok.mp h; exact ⟨_, _, _, .writeBytes ..⟩
  | pad => obtain ⟨-, -, rfl⟩ := cmdPad_eq_ok.mp h; exact ⟨_, _, _, .writeBytes ..⟩
  | interleave => obtain ⟨-, rfl⟩ := cmdInterleave_eq_ok.mp h; exact ⟨_, _, _, .writeBytes ..⟩
  | placeFunction => obtain ⟨-, rfl⟩ := cmdPlaceFunction_eq_ok.mp h; exact ⟨_, _, _, .replaceMatrix ..⟩
  | placeData => obtain ⟨-, -, rfl⟩ := cmdPlaceData_eq_ok.mp h; exact ⟨_, _, _, .writeMatrix ..⟩
  | maskScore => obtain ⟨-, rfl⟩ := cmdMaskScore_eq_ok.mp h; exact ⟨.cwm, _, _, .setRegs ..⟩
  | maskEval => obtain ⟨-, rfl⟩ := cmdMaskEval_eq_ok.mp h; exact ⟨.cwm, _, _, .setRegs ..⟩
  | maskApply => obtain ⟨-, rfl⟩ := cmdMaskApply_eq_ok.mp h; exact ⟨_, _, _, .writeMatrix ..⟩
  | writeInfo => obtain ⟨-, rfl⟩ := cmdWriteInfo_eq_ok.mp h; exact ⟨_, _, _, .writeMatrix ..⟩
  | quietZone => obtain ⟨-, rfl⟩ := cmdQuietZone_eq_ok.mp h; exact ⟨_, _, _, .replaceMatrix ..⟩
  | serialize => obtain ⟨-, rfl⟩ := cmdSerialize_eq_ok.mp h; exact ⟨_, _, _, .writeBytes ..⟩
  | deserialize => obtain ⟨-, -, -, -, -, rfl⟩ := cmdDeserialize_eq_ok.mp h; exact ⟨_, _, _, .replaceMatrix ..⟩
  | generate => exact absurd rfl hi

/-- `OVERRUN`, the latch and the host's side are as before (10_state R30, R50). -/
def SameControl (s t : State) : Prop := t.status.overrun = s.status.overrun ∧ SameHostSide s t

theorem SameControl.writesOnly {s t u : State} {r : Region} {f : Regs → Regs} {qz : Bool} (h : SameControl s t)
    (w : WritesOnly r f qz t u) : SameControl s u := by
  obtain ⟨hoverrun, hhost⟩ := h
  exact ⟨by rw [w.status, hoverrun], hhost.trans w.host⟩

/-- A command that succeeds leaves the latch, the host's side and `OVERRUN`. -/
theorem command_sameControl {i : Instr} {s t : State} (h : command i s = .ok t) : SameControl s t := by
  have hself : SameControl s s := ⟨rfl, rfl, rfl, rfl, rfl⟩
  have hstep (i : Instr) (u v : State) (hi : i ≠ .generate) (hc : command i u = .ok v) (hu : SameControl s u) :
      SameControl s v := by
    obtain ⟨r, f, qz, w⟩ := command_writesOnly hi hc
    exact hu.writesOnly w
  by_cases hi : i = .generate
  · subst hi
    exact cmdGenerate_keeps (fun i u v hg _ => hstep i u v hg)
      (fun u _ _ _ _ hu => hu.writesOnly (.setRegs u .cwm _)) h hself
  · exact hstep i s t hi h hself

/-! ### The statements -/

/-- Settles O9: a command completes with its writes, none of them to `ERRINFO`, or raises its error, which writes
`STATUS` and the diagnostics only. -/
theorem commandsAreAllOrNothing : Obligations.CommandsAreAllOrNothing := by
  intro i s
  cases hc : command i s with
  | ok t =>
    obtain ⟨hoverrun, hhost⟩ := command_sameControl hc
    exact ⟨t.complete, exec_ok hc, rfl, rfl, hoverrun, hhost, Nat.zero_le 7,
      fun _ => ⟨rfl, (command_namedWrites hc).errinfo⟩, nofun⟩
  | error e =>
    obtain ⟨hne, hle⟩ := e.code_range
    exact ⟨s.raise e, exec_error hc, rfl, rfl, rfl, ⟨rfl, rfl, rfl, rfl⟩, hle, nofun,
      fun _ => ⟨hne, rfl, s.readByte_raise e, rfl, ErrInfo.after_of_code_ne s.regs.errinfo⟩⟩

/-- A completed command sets `DONE` and leaves `CTRL`. -/
theorem exec_irq {i : Instr} {s t : State} (h : exec i s = .next t) : t.irq = s.regs.ctrl.irqEn := by
  obtain ⟨u, hc, rfl⟩ | ⟨e, -, rfl⟩ := exec_cases h
  · have hctrl : u.regs.ctrl = s.regs.ctrl := (command_namedWrites hc).operands.1
    simp [State.irq, hctrl]
  · simp [State.irq]

/-- Settles O16: each event that changes the output sets or clears one of its two bits. -/
theorem interruptFollowsDone : Obligations.InterruptFollowsDone := by
  refine ⟨fun s => rfl, fun i s t => exec_irq, fun s w => rfl, fun s d hd => ?_, fun s d hd => ?_, fun s d hd => ?_,
    rfl⟩
  · simp [State.irq, State.hostWriteReg, Status.cleared, hd]
  · rw [State.hostWriteReg, State.writeCtrl, hd]; rfl
  · rw [State.irq, State.hostWriteReg, State.writeCtrl, if_pos hd, State.softReset_status]; rfl

end Sys2Proof.Machine
end

section
/-! PROOFS. A command reads the latched operands only (70_reset_and_hazards R351): it commutes with an overwriting of
the live operand registers, but for the `OUTLEN` that SERIALIZE writes (log 18). -/

namespace Sys2Proof.Machine

/-! ### Overwriting the operand registers -/

/-- Values of the live operand registers (70_reset_and_hazards R351). -/
structure Operands where
  ctrl : Ctrl
  arg0 : BitVec 13
  arg1 : BitVec 13
  inlen : BitVec 14
  outlen : BitVec 14

/-- The state with the live operand registers overwritten. -/
def State.withOperands (s : State) (p : Operands) : State :=
  s.setRegs fun r => { r with ctrl := p.ctrl, arg0 := p.arg0, arg1 := p.arg1, inlen := p.inlen, outlen := p.outlen }

section
variable (s : State) (p : Operands)

theorem State.writeBytes_withOperands (r : Region) (a : Nat) (bs : List Byte) :
    (s.withOperands p).writeBytes r a bs = (s.writeBytes r a bs).withOperands p := by cases r <;> rfl

theorem State.clearMem_withOperands (r : Region) :
    (s.withOperands p).clearMem r = (s.clearMem r).withOperands p := by cases r <;> rfl

theorem State.writeMatrix_withOperands (g : Matrix) :
    (s.withOperands p).writeMatrix g = (s.writeMatrix g).withOperands p := by
  unfold State.writeMatrix
  generalize 0 = n
  induction g generalizing s n with
  | nil => rfl
  | cons row rows ih => rw [State.writeRows, State.writeBytes_withOperands, ih, State.writeRows]

end

/-! ### Commands and overwritten operand registers -/

/-- A command does not read the live operand registers and leaves what they hold. -/
def IgnoresOperands (f : State → Except CmdError State) : Prop :=
  ∀ (s : State) (p : Operands), f (s.withOperands p) = (·.withOperands p) <$> f s

/-- Two such commands in sequence are one. -/
theorem IgnoresOperands.bind {f g : State → Except CmdError State} (hf : IgnoresOperands f) (hg : IgnoresOperands g) :
    IgnoresOperands fun s => f s >>= g := by
  intro s p
  simp only [hf s p, map_bind]
  cases f s with
  | ok t => exact hg t p
  | error e => rfl

/-- The tests and values of a command come from the latch, the memories and the other registers, and its writes to them
commute with the overwriting. -/
theorem command_ignoresOperands_of_ne {i : Instr} (hs : i ≠ .serialize) (hg : i ≠ .generate) :
    IgnoresOperands (command i) := by
  intro s p
  cases i with
  | nop | gfExp | gfMul | bchFormat | bchVersion => rfl
  | gfLog a => simp only [command, cmdGfLog]; cases romLog a <;> rfl
  | gfDiv a b => simp only [command]; cases gfDiv a b <;> rfl
  | queryCap v md l => simp only [command, cmdQueryCap, map_bind]; cases modeOf md <;> rfl
  | rsGenpoly | rsEncode => simp only [command, cmdRsGenpoly, cmdRsEncode, map_bind]; rfl
  | modeSelect | versionSelect => simp only [command, cmdModeSelect, cmdVersionSelect, map_bind]; rfl
  | pack | pad | interleave => simp only [command, cmdPack, cmdPad, cmdInterleave, map_bind]; rfl
  | queryEcc | queryAlign => simp only [command, cmdQueryEcc, cmdQueryAlign, map_bind]; rfl
  | maskScore | maskEval => simp only [command, cmdMaskScore, cmdMaskEval, map_bind]; rfl
  | placeFunction | quietZone | deserialize =>
    simp only [command, cmdPlaceFunction, cmdQuietZone, cmdDeserialize, map_bind, State.clearMem_withOperands,
      State.writeMatrix_withOperands]
    rfl
  | placeData | maskApply | writeInfo =>
    simp only [command, cmdPlaceData, cmdMaskApply, cmdWriteInfo, map_bind, State.writeMatrix_withOperands]
    rfl
  | serialize => exact absurd rfl hs
  | generate => exact absurd rfl hg

theorem generateSymbol_ignoresOperands : IgnoresOperands generateSymbol :=
  have h (i : Instr) := @command_ignoresOperands_of_ne i
  (h .modeSelect nofun nofun).bind <| (h .versionSelect nofun nofun).bind <| (h .pack nofun nofun).bind <|
    (h .pad nofun nofun).bind <| (h .interleave nofun nofun).bind <| (h .placeFunction nofun nofun).bind <|
    (h .placeData nofun nofun).bind <| h .maskEval nofun nofun

theorem generateFinish_ignoresOperands : IgnoresOperands generateFinish := fun s p =>
  have h (i : Instr) := @command_ignoresOperands_of_ne i
  have hres : IgnoresOperands fun t => .ok (t.withRes t.ver s.regs.mask.toNat t.regs.side.toNat t.regs.bitlen.toNat) :=
    fun _ _ => rfl
  ((h (.maskApply s.regs.mask) nofun nofun).bind <| (h (.writeInfo s.regs.mask) nofun nofun).bind <|
    (h .quietZone nofun nofun).bind hres) s p

theorem cmdGenerate_ignoresOperands : IgnoresOperands cmdGenerate := by
  intro s p
  have hrun := generateSymbol_ignoresOperands.bind generateFinish_ignoresOperands s p
  exact (congrArg (generateChecks s >>= ·) (funext fun _ => hrun)).trans (map_bind ..).symm

theorem command_ignoresOperands {i : Instr} (hs : i ≠ .serialize) : IgnoresOperands (command i) := by
  by_cases hg : i = .generate
  · subst hg; exact cmdGenerate_ignoresOperands
  · exact command_ignoresOperands_of_ne hs hg

/-- What the live operand registers hold after a command that ends in `t`: SERIALIZE has written `OUTLEN` (47_output
R287; log 18). -/
def Operands.after (p : Operands) (i : Instr) (t : State) : Operands :=
  if i = .serialize then { p with outlen := t.regs.outlen } else p

theorem command_withOperands (i : Instr) (s : State) (p : Operands) :
    command i (s.withOperands p) = (fun t => t.withOperands (p.after i t)) <$> command i s := by
  by_cases hs : i = .serialize
  · subst hs; simp only [command, cmdSerialize, map_bind]; rfl
  · simp only [Operands.after, if_neg hs]; exact command_ignoresOperands hs s p

/-- Settles O11: the command gives the same error, or the same writes with the operand registers as overwritten. -/
theorem onlyLatchedOperandsAreRead : Obligations.OnlyLatchedOperandsAreRead := by
  intro i s t c a b n o h
  have hrun := command_withOperands i s ⟨c, a, b, n, o⟩
  obtain ⟨u, hc, rfl⟩ | ⟨e, hc, rfl⟩ := exec_cases h <;> rw [hc] at hrun
  · refine ⟨_, exec_ok hrun, ?_⟩
    by_cases hs : i = .serialize
    · subst hs; exact ⟨rfl, fun _ => rfl, fun hn => absurd ⟨rfl, rfl⟩ hn⟩
    · simp only [Operands.after, if_neg hs]
      exact ⟨rfl, fun hn => absurd hn.1 hs, fun _ => rfl⟩
  · exact ⟨_, exec_error hrun, rfl, fun hn => (nomatch hn.2), fun _ => rfl⟩

end Sys2Proof.Machine
end
